-- ==== Sys2Proof/Word.lean ====
section
/-! DEFINITION. The plain types the 4316's model is written over: bytes, page store addresses, pixel samples, one raw
tile, and the records of operands that a command may carry. -/

namespace Sys2Proof

/-- One byte of the page store, of the composer bus or of an order. -/
abbrev Byte := BitVec 8

/-- A byte address of the page store: 36 bits (00_scope.md, Conventions). -/
abbrev Addr := BitVec 36

/-- A stored sample. RGB16 samples are 16 bits; an RGB8 sample stands in the low 8 bits (R1). -/
abbrev Sample := BitVec 16

/-- The three stored samples of a pixel; the pad channel X is not stored (R1). -/
structure Colour where
  r : Sample
  g : Sample
  b : Sample
  deriving DecidableEq, Repr

/-- The colour whose three samples are 0. -/
def Colour.black : Colour := ⟨0, 0, 0⟩

/-- The 1,024 pixels of one tile in pixel-index order (R8, R82). -/
abbrev Tile := Vector Colour 1024

/-- An aperture number, 0 to 7. -/
abbrev ApIx := Fin 8

/-- An assembly slot number, 0 to 255 (R56). -/
abbrev SlotIx := Fin 256

/-- The page store's answer to a request (R162). -/
inductive StoreStatus where
  | okay
  | error
  deriving DecidableEq, Repr

/-- The fields of an OPEN frame, bytes 1 to 14 (R176): the zero fields too, since a non-zero one is refused. -/
structure OpenFields where
  /-- byte 1 bits 2..0 -/
  ap : BitVec 3
  /-- byte 1 bit 3: 0 RGB8, 1 RGB16 -/
  fmt : BitVec 1
  /-- byte 1 bits 5..4: 0 FIXED, 1 CURVE -/
  mode : BitVec 2
  /-- byte 1 bits 7..6, zero -/
  zero1 : BitVec 2
  /-- byte 2 bits 3..0 -/
  floorStep : BitVec 4
  /-- byte 2 bits 7..4, zero -/
  zero2 : BitVec 4
  /-- byte 3 -/
  budget : Byte
  /-- bytes 4 to 8, little-endian -/
  base : BitVec 40
  /-- byte 9: width_tiles − 1 -/
  width : Byte
  /-- byte 10: height_tiles − 1 -/
  height : Byte
  /-- bytes 11 to 13 -/
  fillR : Byte
  fillG : Byte
  fillB : Byte
  /-- byte 14, zero -/
  zero14 : Byte
  deriving DecidableEq, Repr

/-- The fields of a SET POOL frame, bytes 1 to 14 (R176). -/
structure PoolFields where
  /-- bytes 1 to 5 -/
  base : BitVec 40
  /-- bytes 6 to 8 -/
  count : BitVec 24
  /-- bytes 9 to 11 -/
  low : BitVec 24
  /-- byte 12, in units of 100 µs -/
  limit : Byte
  /-- bytes 13 and 14, zero -/
  zero13 : Byte
  zero14 : Byte
  deriving DecidableEq, Repr

/-- The fields of a SET CURVE frame, bytes 1 to 14 (R176). -/
structure CurveFields where
  /-- bytes 1 to 8: the demanded steps of bands 0 to 7 -/
  steps : Vector Byte 8
  /-- byte 9 -/
  up : Byte
  /-- byte 10 -/
  down : Byte
  /-- byte 11 -/
  refit : Byte
  /-- bytes 12 to 14, zero -/
  zero12 : Byte
  zero13 : Byte
  zero14 : Byte
  deriving DecidableEq, Repr

end Sys2Proof
end

