-- ==== Sys2Proof/Syntax.lean ====
section
/-! DEFINITION. The commands the 4316 takes: one constructor for each row of spec/opcode_table.json, in the table's
order, with the operands the row's rule gives it. -/

namespace Sys2Proof

/-- A command. The order commands (`nop` to `undefinedOrder`) are the arrival of that order at the order unit, which
executes it at the same event when it is IDLE (R173, R174); `orderFrame` is the same thing seen at the setup line.
The fields of an order that its frame calls zero are operands too, because a non-zero one is refused (R176). -/
inductive Instr where
  /-- POWER_ON (R4, R38, R55, R80, R112, R131, R150, R163–R165, R175, R188) -/
  | powerOn
  /-- RESET: the RESET line is asserted (R163, R164) -/
  | reset
  /-- RESET_RELEASE (R163, R164) -/
  | resetRelease
  /-- LINE_RESET (R168) -/
  | lineReset
  /-- BIT_ERROR (R167) -/
  | bitError
  /-- ILLEGAL_LENGTH_CLASS (R169): the class the third bit completes -/
  | illegalLengthClass (cls : BitVec 3)
  /-- ORDER_FRAME (R166, R169, R170): the high times, in nanoseconds, of the setup line's next bits, first bit first -/
  | orderFrame (highTimes : List Nat)
  /-- NOP (R173) -/
  | nop
  /-- HALT (R180) -/
  | halt
  /-- CLOSE (R178): byte 1 bits 2..0, byte 1 bits 7..3, byte 2 -/
  | close (ap : BitVec 3) (zero : BitVec 5) (b2 : Byte)
  /-- FLUSH with FREEZE and ALL clear (R179): byte 1 bits 2..0, byte 1 bits 5..3, byte 2 -/
  | flush (ap : BitVec 3) (zero : BitVec 3) (b2 : Byte)
  /-- FLUSH with FREEZE set and ALL clear (R78, R179) -/
  | flushFreeze (ap : BitVec 3) (zero : BitVec 3) (b2 : Byte)
  /-- FLUSH with ALL set (R179), and its FREEZE bit, which must be clear -/
  | flushAll (freeze : Bool) (ap : BitVec 3) (zero : BitVec 3) (b2 : Byte)
  /-- THAW (R17): byte 1 bits 2..0, byte 1 bits 7..3, byte 2 -/
  | thaw (ap : BitVec 3) (zero : BitVec 5) (b2 : Byte)
  /-- CLEAR FAULTS (R183): byte 1, byte 2 -/
  | clearFaults (faults : Byte) (b2 : Byte)
  /-- PROTECT with action ADD (R18): byte 1 bits 2..0, byte 1 bits 6..3, bytes 2 to 6 -/
  | protectAdd (ap : BitVec 3) (zero : BitVec 4) (x0 y0 x1 y1 b6 : Byte)
  /-- PROTECT with action CLEAR ALL (R18) -/
  | protectClearAll (ap : BitVec 3) (zero : BitVec 4) (x0 y0 x1 y1 b6 : Byte)
  /-- SET STATUS (R186): the 40-bit field of bytes 1 to 5, byte 6 -/
  | setStatus (field : BitVec 40) (mask : Byte)
  /-- OPEN (R15, R16) -/
  | openOrder (f : OpenFields)
  /-- SET POOL (R52, R53) -/
  | setPool (f : PoolFields)
  /-- SET CURVE (R109, R110) -/
  | setCurve (f : CurveFields)
  /-- An order of undefined code or of class 7 (R174): its byte 0 -/
  | undefinedOrder (byte0 : Byte)
  /-- COMPOSER_READ (R151, R153): address and length -/
  | composerRead (addr : Addr) (length : Nat)
  /-- COMPOSER_WRITE (R151, R153): address, and each data byte with its enable -/
  | composerWrite (addr : Addr) (bytes : List (Byte × Bool))
  /-- STORE_TURN: the page store takes a request (R160, R161) -/
  | storeTurn
  /-- PASS_THROUGH_ANSWER (R159): the answer and, for a READ answered OKAY, the data -/
  | passThroughAnswer (status : StoreStatus) (data : List Byte)
  /-- CHUNK_READ_ANSWER (R139): the answer and, when OKAY, the 256 bytes -/
  | chunkReadAnswer (status : StoreStatus) (data : List Byte)
  /-- CHUNK_WRITE_ANSWER (R123, R125) -/
  | chunkWriteAnswer (status : StoreStatus)
  /-- STATUS_WRITE_ANSWER (R187) -/
  | statusWriteAnswer (status : StoreStatus)
  /-- IGNORED_ANSWER (R164): an answer of either kind while the ignore count is above 0 -/
  | ignoredAnswer (status : StoreStatus)
  /-- DECODE_END (R140) -/
  | decodeEnd
  /-- REFIT_END (R108) -/
  | refitEnd
  /-- CODING_END (R116) -/
  | codingEnd
  /-- POOL_WAIT_EXPIRY (R121) -/
  | poolWaitExpiry
  /-- RECODE_END (R121) -/
  | recodeEnd
  /-- RETIRE_WALK_VISIT (R35) -/
  | retireWalkVisit
  /-- FIRST_BIT_EDGE (R165, R166) -/
  | firstBitEdge
  deriving DecidableEq, Repr

end Sys2Proof
end

