-- ==== Sys2Proof/Decode.lean ====
section
/-! DEFINITION. The reading of a command from a word. No row of spec/opcode_table.json gives bits (each row's "fields" is
empty and it has no "fixed"), so no word spells a command. What the setup line needs to frame an order, the length
classes and the defined codes, stands here too (R169, R174, R176); Sys2Proof/Machine/Link.lean reads the frames. -/

namespace Sys2Proof

/-- The length class of an order's byte 0, its bits 7..5 (R169). -/
def lengthClass (byte0 : Byte) : BitVec 3 := byte0.extractLsb' 5 3

/-- The order length a class gives; none for the illegal classes 4, 5 and 6 (R169). -/
def classLength (cls : BitVec 3) : Option Nat :=
  if cls = 0 then some 1
  else if cls = 1 then some 4
  else if cls = 2 then some 8
  else if cls = 3 then some 16
  else if cls = 7 then some 24
  else none

/-- The byte 0 values of the defined orders (R176). -/
def definedCodes : List Byte :=
  [0x00, 0x01, 0x21, 0x22, 0x23, 0x24, 0x41, 0x42, 0x61, 0x62, 0x63]

/-- The byte 0 of an order that is framed and then refused UNDEFINED: a legal length class and no defined code (R174). -/
def undefinedCode (byte0 : Byte) : Bool :=
  (classLength (lengthClass byte0)).isSome && !definedCodes.contains byte0

/-- The command a word spells by the table's bits: none, since the table gives no row any bits. -/
def decodeTableWord (_nbits _w : Nat) : Option Instr := none

end Sys2Proof
end

