-- ==== Sys2Proof/Config.lean ====
section
/-! DEFINITION. What the part fixes once and for all: the sizes and limits of its blocks, the measured times of the setup
line, and the one free value the manual leaves open. -/

namespace Sys2Proof.Config

/-- Tile map entries (R25). -/
def mapEntries : Nat := 262144

/-- The end of the page store's address space, 2^36 (R7). -/
def storeEnd : Nat := 2 ^ 36

/-- Bytes of a chunk, and of the aligned blocks a composer request must not cross (R39, R151). -/
def block : Nat := 256

/-- The largest chunk count a SET POOL may give (R39). -/
def maxChunks : Nat := 4194304

/-- Requests the window holds (R152). -/
def windowSize : Nat := 32

/-- Orders the order queue holds (R172). -/
def orderQueueSize : Nat := 4

/-- Entries the decode queue holds (R136). -/
def decodeQueueSize : Nat := 288

/-- Entries the tile cache holds (R144). -/
def cacheSize : Nat := 32

/-- Rectangles a protect list holds (R18). -/
def protectSize : Nat := 8

/-- Bytes of the status block (R185). -/
def statusSize : Nat := 128

/-- A bit whose high time is at least this many nanoseconds is a 1 (R166). -/
def bitOneNs : Nat := 500

/-- The setup bit timeout, in nanoseconds (R167). -/
def bitTimeoutNs : Nat := 3000

/-- A level held for this many nanoseconds is a line reset (R168). -/
def lineResetNs : Nat := 50000

/-- FREE VALUE (assumption log 3). Where a FLUSH forces several slots at one event the manual gives no order in which
they join the seal queue (R76). The seals are made in rising order of this key, drawn for the n-th FLUSH start and
the slot's number. It has no body: nothing can be proved about it, so a statement holds for every order. -/
opaque flushSealKey : Nat → Nat → Nat

end Sys2Proof.Config
end

