-- ==== Sys2Proof/Machine/State.lean ====
section
/-! DEFINITION. The state of the 4316: every register, list, buffer, counter and pin the manual gives the part, block by
block, the queue of commands that wait, and the state right after power-on. INVENTORY.md lists the rule of each. -/

namespace Sys2Proof.Machine

/-! ### The aperture table (R1–R7, R18) -/

/-- Pixel format (R1). -/
inductive Format where
  | rgb8
  | rgb16
  deriving DecidableEq, Repr

/-- Quality mode (R3). -/
inductive Mode where
  | fixed
  | curve
  deriving DecidableEq, Repr

/-- Aperture state (R6). -/
inductive ApState where
  | closed
  | opened
  | freezing
  | frozen
  | retiring
  deriving DecidableEq, Repr

/-- A rectangle of tiles on a protect list, both corners included (R18). -/
structure Rect where
  x0 : Nat
  y0 : Nat
  x1 : Nat
  y1 : Nat
  deriving DecidableEq, Repr

/-- An aperture record (01_apertures, The aperture record). -/
structure Aperture where
  state : ApState
  fmt : Format
  mode : Mode
  floorStep : Nat
  budget : Nat
  base : Nat
  width : Nat
  height : Nat
  fillR : Byte
  fillG : Byte
  fillB : Byte
  extFirst : Nat
  extLen : Nat
  rects : List Rect
  committed : Nat
  deriving DecidableEq, Repr

/-- The record of an aperture not opened since power-on or RESET (R4). -/
def Aperture.reset : Aperture :=
  ⟨.closed, .rgb8, .fixed, 0, 0, 0, 0, 0, 0, 0, 0, 0, 0, [], 0⟩

/-- A tile of an aperture, by its tile index (R8). -/
structure TileRef where
  ap : ApIx
  ix : Nat
  deriving DecidableEq, Repr

/-! ### The tile map (R20–R38) -/

/-- The kind of a map entry with the fields that kind has (R20). -/
inductive Content where
  | unwritten
  | uniform (colour : Colour) (degraded : Bool)
  | coded (step : Nat) (chunks : List Nat) (bodyLen : Nat)
  | plain (chunks : List Nat) (bodyLen : Nat)
  deriving DecidableEq, Repr

/-- A map entry: its content and its generation (R23). -/
structure MapEntry where
  content : Content
  gen : Byte
  deriving DecidableEq, Repr

/-- The entry of a tile never committed: UNWRITTEN with generation 0 (R24, R27). -/
def MapEntry.fresh : MapEntry := ⟨.unwritten, 0⟩

/-- A contiguous run of map entries (R25). -/
structure Extent where
  first : Nat
  len : Nat
  deriving DecidableEq, Repr

/-- The retire walk of an executing CLOSE: the aperture and the next tile index it visits (R34). -/
structure Walk where
  ap : ApIx
  next : Nat
  deriving DecidableEq, Repr

/-- The tile map. `entries` lists, by rising entry number, the entries that differ from `MapEntry.fresh`. -/
structure TileMap where
  entries : List (Nat × MapEntry)
  freeExtents : List Extent
  tilesTotal : BitVec 32
  degradedTotal : BitVec 32
  walk : Option Walk
  deriving DecidableEq, Repr

/-- The tile map after power-on and RESET (R38). -/
def TileMap.reset : TileMap := ⟨[], [⟨0, Config.mapEntries⟩], 0, 0, none⟩

/-! ### The chunk pool manager (R39–R55) -/

/-- The chunk pool manager. The state of a chunk is where its number stands (R41), so it is not stored. -/
structure Pool where
  base : Nat
  count : Nat
  free : List Nat
  withdrawn : List Nat
  low : Nat
  limit : Nat
  waiting : Option Nat
  deriving DecidableEq, Repr

/-- The pool manager after power-on and RESET: no pool is defined (R40, R55). -/
def Pool.reset : Pool := ⟨0, 0, [], [], 0, 10, none⟩

/-! ### The assembly buffer (R56–R81) -/

/-- Slot state (R57). -/
inductive SlotState where
  | free
  | filling
  | gathering
  | sealed
  | encoding
  deriving DecidableEq, Repr

/-- An assembly slot's record (R56). -/
structure Slot where
  state : SlotState
  tile : Option TileRef
  px : Tile
  present : BitVec 1024
  pred : Option SlotIx
  due : Bool
  mark : Bool
  deriving DecidableEq, Repr

/-- A FREE slot with nothing present; its pixel store is black (DESIGN CHOICE, assumption log 13: it is never read). -/
def Slot.reset : Slot := ⟨.free, none, Vector.replicate 1024 Colour.black, 0, none, false, false⟩

/-- A tile part of a window request: the request's number and the part's place in it (R59). -/
structure PartRef where
  req : Nat
  part : Nat
  deriving DecidableEq, Repr

/-- A held write: the tile part that waits and its tile (R63). -/
structure HeldWrite where
  ref : PartRef
  tile : TileRef
  deriving DecidableEq, Repr

/-- The assembly buffer. -/
structure Assembly where
  slots : Vector Slot 256
  openList : List SlotIx
  sealQueue : List SlotIx
  held : List HeldWrite
  deriving DecidableEq, Repr

/-- The assembly buffer after power-on (R80). -/
def Assembly.reset : Assembly := ⟨Vector.replicate 256 Slot.reset, [], [], []⟩

/-! ### Step control (R98–R112) -/

/-- Step control. -/
structure StepControl where
  curve : Vector Nat 8
  up : Nat
  down : Nat
  refitLimit : Nat
  band : Fin 8
  demanded : Nat
  applied : Nat
  upCount : Nat
  downCount : Nat
  refits : BitVec 32
  deriving DecidableEq, Repr

/-- Step control after power-on and RESET (R112). -/
def StepControl.reset : StepControl :=
  ⟨⟨#[0, 0, 1, 2, 3, 5, 8, 12], rfl⟩, 16, 32, 2, 0, 0, 0, 0, 0, 0⟩

/-! ### The encoder (R113–R132) -/

/-- The stage of the tile operation in hand; with no operation the encoder is IDLE (R114). -/
inductive Stage where
  | coding
  | poolWait
  | writing
  deriving DecidableEq, Repr

/-- The result of a tile operation (R113). -/
inductive Result where
  | uniform (colour : Colour) (degraded : Bool)
  | coded (step : Nat) (stream : List Byte) (bodyLen : Nat) (recon : Tile)
  | plain (stream : List Byte) (bodyLen : Nat) (recon : Tile)
  deriving DecidableEq, Repr

/-- The tile operation record (R113). `held` is the tile's chunk list, `none` at a position left open by a withdrawal
(R123); `refits` counts the refits whose coding has ended; `recode` says CODING is the re-code after an expiry (R121);
`unanswered` counts the chunk writes of the round that the page store has not answered. -/
structure TileOp where
  stage : Stage
  slot : SlotIx
  tile : TileRef
  gen : Byte
  isProtected : Bool
  effStep : Nat
  allowance : Nat
  refits : Nat
  recode : Bool
  result : Option Result
  mean : Option Colour
  held : List (Option Nat)
  round : Nat
  unanswered : Nat
  deriving DecidableEq, Repr

/-- The encoder: its record, empty while IDLE, and the pool-wait timer, which holds the length it runs for (R113). -/
structure Encoder where
  op : Option TileOp
  timer : Option Nat
  deriving DecidableEq, Repr

/-- The encoder after power-on and RESET (R131). -/
def Encoder.reset : Encoder := ⟨none, none⟩

/-! ### The read path (R133–R150) -/

/-- Phase of a decode queue entry (R136). -/
inductive Phase where
  | queued
  | decoding
  deriving DecidableEq, Repr

/-- A decode queue entry, or a pending record (R136, R137). -/
structure DecodeEntry where
  tile : TileRef
  readers : List PartRef
  gather : Option SlotIx
  phase : Phase
  discard : Bool
  deriving DecidableEq, Repr

/-- The decode in progress: the tile, its map entry as read at the start, the bytes of the reads answered so far in
stream order, the reads still unanswered, and whether one was answered ERROR (R138, R139). -/
structure Decode where
  tile : TileRef
  entry : MapEntry
  bytes : List Byte
  unanswered : Nat
  failed : Bool
  deriving DecidableEq, Repr

/-- A tile cache entry (R144). -/
structure CacheEntry where
  tile : TileRef
  recon : Tile
  deriving DecidableEq, Repr

/-- The read path. The cache is least recently used first. -/
structure ReadPath where
  queue : List DecodeEntry
  pendingList : List DecodeEntry
  decoder : Option Decode
  cache : List CacheEntry
  deriving DecidableEq, Repr

/-- The read path after power-on and RESET (R150). -/
def ReadPath.reset : ReadPath := ⟨[], [], none, []⟩

/-! ### The composer port (R151–R159) -/

/-- Why a request was refused at its take (R154). -/
inductive RefuseReason where
  | boundary
  | guarded
  | pixel
  | frozen
  | retired
  deriving DecidableEq, Repr

/-- The class of a request, fixed at its take (R152, R153). -/
inductive ReqClass where
  | refused (reason : RefuseReason)
  | passThrough
  | aperture (ap : ApIx)
  deriving DecidableEq, Repr

/-- The kind of a request with a WRITE's bytes and enables or a READ's length (R151). -/
inductive ReqKind where
  | read (length : Nat)
  | write (bytes : List (Byte × Bool))
  deriving DecidableEq, Repr

/-- Progress of a tile part (R152). -/
inductive Progress where
  | waiting
  | proceeding
  | complete
  | failed
  deriving DecidableEq, Repr

/-- One pixel of a tile part. In a WRITE, `value` is the samples to write, none where the enables are off; in a READ,
the samples determined so far, none where they still lack. -/
structure PartPixel where
  index : Nat
  value : Option Colour
  deriving DecidableEq, Repr

/-- A tile part: the pixels of a request that map to one tile, in address order (R59, R133), in the format that their
aperture has at the take (R1, R152: the part is not changed afterwards). -/
structure Part where
  tile : TileRef
  fmt : Format
  pixels : List PartPixel
  progress : Progress
  deriving DecidableEq, Repr

/-- The response a request will receive (R152). -/
inductive ReqOutcome where
  | undetermined
  | okay
  | error
  deriving DecidableEq, Repr

/-- A request as the composer bus presents it (R151). -/
structure BusRequest where
  kind : ReqKind
  addr : Addr
  deriving DecidableEq, Repr

/-- A window request (R152). `id` names it while it is in the window (assumption log 12). -/
structure Request where
  id : Nat
  kind : ReqKind
  addr : Addr
  cls : ReqClass
  parts : List Part
  storeData : List Byte
  outcome : ReqOutcome
  deriving DecidableEq, Repr

/-- A response sent on the composer bus (R155). -/
structure Response where
  id : Nat
  okay : Bool
  data : List Byte
  deriving DecidableEq, Repr

/-- The composer port. -/
structure ComposerPort where
  window : List Request
  busHeld : List BusRequest
  sent : List Response
  nextId : Nat
  lastReason : Option RefuseReason
  lastAddr : Addr
  deriving DecidableEq, Repr

/-- The composer port after power-on (R163). -/
def ComposerPort.reset : ComposerPort := ⟨[], [], [], 0, none, 0⟩

/-! ### The store port (R160–R164) -/

/-- The store port's sources (R160). -/
inductive Source where
  | composer
  | decoder
  | encoder
  | status
  deriving DecidableEq, Repr

/-- A request to the page store (R160). A chunk write names its position in the tile's chunk list and its chunk. -/
inductive StoreReq where
  | passRead (id : Nat) (addr : Addr) (length : Nat)
  | passWrite (id : Nat) (addr : Addr) (bytes : List (Byte × Bool))
  | chunkRead (addr : Nat)
  | chunkWrite (position : Nat) (chunk : Nat) (addr : Nat) (data : List Byte)
  | statusWrite (addr : Nat) (data : List Byte)
  deriving DecidableEq, Repr

/-- The store port. -/
structure StorePort where
  composer : List StoreReq
  decoder : List StoreReq
  encoder : List StoreReq
  status : List StoreReq
  outstanding : List StoreReq
  pointer : Source
  ignore : Nat
  deriving DecidableEq, Repr

/-- The store port after power-on (R164). -/
def StorePort.reset : StorePort := ⟨[], [], [], [], [], .composer, 0⟩

/-! ### The setup line receiver (R165–R171) -/

/-- Link state (R165). -/
inductive LinkState where
  | deaf
  | armed
  | taking
  | passing
  deriving DecidableEq, Repr

/-- The setup line receiver with the partly received order: the bytes taken, the bits taken of the byte in progress,
first bit first, and the length class once it is known (R165). -/
structure Receiver where
  state : LinkState
  bytes : List Byte
  bits : List Bool
  cls : Option (BitVec 3)
  deriving DecidableEq, Repr

/-- The receiver after power-on (R165). -/
def Receiver.reset : Receiver := ⟨.deaf, [], [], none⟩

/-! ### The order unit (R172–R181) -/

/-- An order as it arrives from the receiver: its form and the fields of its frame, without its check byte (R176). -/
inductive Order where
  | nop
  | halt
  | close (ap : BitVec 3) (zero : BitVec 5) (b2 : Byte)
  | flush (all freeze : Bool) (ap : BitVec 3) (zero : BitVec 3) (b2 : Byte)
  | thaw (ap : BitVec 3) (zero : BitVec 5) (b2 : Byte)
  | clearFaults (faults : Byte) (b2 : Byte)
  | protect (clear : Bool) (ap : BitVec 3) (zero : BitVec 4) (x0 y0 x1 y1 b6 : Byte)
  | setStatus (field : BitVec 40) (mask : Byte)
  | openOrder (f : OpenFields)
  | setPool (f : PoolFields)
  | setCurve (f : CurveFields)
  | undefined (byte0 : Byte)
  deriving DecidableEq, Repr

/-- Why an order was refused (R174). -/
inductive OrderReason where
  | undefined
  | badParam
  | state
  | overlap
  | noSpace
  | full
  | noPool
  | poolBusy
  deriving DecidableEq, Repr

/-- The result of the last order record (R175). -/
inductive OrderResult where
  | none
  | done
  | refused
  | halted
  deriving DecidableEq, Repr

/-- The last order record (R175); `aperture` is 0xFF for none. -/
structure OrderRecord where
  byte0 : Byte
  aperture : Byte
  result : OrderResult
  reason : Option OrderReason
  discarded : Nat
  deriving DecidableEq, Repr

/-- The order unit; it is IDLE when no order is executing. -/
structure OrderUnit where
  queue : List Order
  executing : Option Order
  record : OrderRecord
  completed : BitVec 16
  deriving DecidableEq, Repr

/-- The order unit after power-on and RESET (R175). -/
def OrderUnit.reset : OrderUnit := ⟨[], none, ⟨0x00, 0xFF, .none, none, 0⟩, 0⟩

/-! ### The status unit (R182–R188) -/

/-- The status unit. `reissue` says that an accepted SET STATUS with the enable set has been executed since the write in
flight was issued (R187). -/
structure StatusUnit where
  faults : Byte
  mask : Byte
  attn : Bool
  addr : Nat
  enable : Bool
  inFlight : Bool
  stale : Bool
  reissue : Bool
  deriving DecidableEq, Repr

/-- The status unit after power-on (R188). -/
def StatusUnit.reset : StatusUnit := ⟨0, 0, false, 0, false, false, false, false⟩

/-! ### The part -/

/-- The state of the part. `resetLine` is the RESET input; `draws` counts the free values drawn (assumption log 3);
`pending` is the queue of commands that wait. -/
structure State where
  aps : Vector Aperture 8
  map : TileMap
  pool : Pool
  asm : Assembly
  ctl : StepControl
  enc : Encoder
  rd : ReadPath
  port : ComposerPort
  store : StorePort
  link : Receiver
  ord : OrderUnit
  st : StatusUnit
  resetLine : Bool
  draws : Nat
  pending : List Instr
  deriving DecidableEq, Repr

/-- The part right after power-on: every field at the value its chapter gives (R4, R38, R55, R80, R112, R131, R150, R163,
R164, R165, R175, R188), the RESET line released (DESIGN CHOICE, assumption log 15), no command waiting. -/
def State.reset : State where
  aps := Vector.replicate 8 Aperture.reset
  map := TileMap.reset
  pool := Pool.reset
  asm := Assembly.reset
  ctl := StepControl.reset
  enc := Encoder.reset
  rd := ReadPath.reset
  port := ComposerPort.reset
  store := StorePort.reset
  link := Receiver.reset
  ord := OrderUnit.reset
  st := StatusUnit.reset
  resetLine := false
  draws := 0
  pending := []

/-- Why the machine stops with a fault. -/
inductive Fault where
  /-- Raised by the answer commands when the page store answers a request it has not taken: the outstanding list's head
  belongs to another source, or the list is empty, or an ignored answer comes with an ignore count of 0. R162 leaves no
  such answer. Safe: the machine stops where the manual gives nothing (assumption log 7). -/
  | unsolicitedAnswer
  deriving DecidableEq, Repr

/-- Why a command has no meaning. -/
inductive Refusal where
  /-- Raised by the dispatch for a row that has no meaning yet. Safe. -/
  | notModelled (mnemonic : String)
  /-- Raised by a command whose operands are not those its row admits (`Instr.wf` is false). Safe (assumption log 22). -/
  | illFormed
  deriving DecidableEq, Repr

end Sys2Proof.Machine
end

