-- ==== Sys2Proof/Machine/Ops.lean ====
section
/-! DEFINITION. The named operations over the state: one update for each block, the canonical list of the tile map, the free
extents, and access to apertures, slots, window requests and pixels. Nothing here marks the status block stale:
Sys2Proof/Machine/Flags.lean does. -/

namespace Sys2Proof.Machine

/-! ### One update for each block -/

/-- `s` with its `aps` replaced. -/
def State.setAps (s : State) (x : Vector Aperture 8) : State := { s with aps := x }

/-- `s` with its `map` replaced. -/
def State.setMap (s : State) (x : TileMap) : State := { s with map := x }

/-- `s` with its `pool` replaced. -/
def State.setPool (s : State) (x : Pool) : State := { s with pool := x }

/-- `s` with its `asm` replaced. -/
def State.setAsm (s : State) (x : Assembly) : State := { s with asm := x }

/-- `s` with its `ctl` replaced. -/
def State.setCtl (s : State) (x : StepControl) : State := { s with ctl := x }

/-- `s` with its `enc` replaced. -/
def State.setEnc (s : State) (x : Encoder) : State := { s with enc := x }

/-- `s` with its `rd` replaced. -/
def State.setRd (s : State) (x : ReadPath) : State := { s with rd := x }

/-- `s` with its `port` replaced. -/
def State.setPort (s : State) (x : ComposerPort) : State := { s with port := x }

/-- `s` with its `store` replaced. -/
def State.setStore (s : State) (x : StorePort) : State := { s with store := x }

/-- `s` with its `link` replaced. -/
def State.setLink (s : State) (x : Receiver) : State := { s with link := x }

/-- `s` with its `ord` replaced. -/
def State.setOrd (s : State) (x : OrderUnit) : State := { s with ord := x }

/-- `s` with its `st` replaced. -/
def State.setSt (s : State) (x : StatusUnit) : State := { s with st := x }

/-- `s` with its `resetLine` replaced. -/
def State.setResetLine (s : State) (x : Bool) : State := { s with resetLine := x }

/-- `s` with its `draws` replaced. -/
def State.setDraws (s : State) (x : Nat) : State := { s with draws := x }

/-- `s` with its `pending` replaced. -/
def State.setPending (s : State) (x : List Instr) : State := { s with pending := x }

/-! ### Vectors -/

/-- `f` applied to each element with its place, counted from `k`. -/
def mapFrom {α β : Type} (f : Nat → α → β) : Nat → List α → List β
  | _, [] => []
  | k, x :: xs => f k x :: mapFrom f (k + 1) xs

theorem mapFrom_length {α β : Type} (f : Nat → α → β) (k : Nat) (l : List α) :
    (mapFrom f k l).length = l.length := by
  induction l generalizing k with
  | nil => rfl
  | cons x xs ih => simp [mapFrom, ih]

/-- A vector with `f` applied to each element and its place. -/
def vecMap {α β : Type} {n : Nat} (f : Nat → α → β) (v : Vector α n) : Vector β n :=
  ⟨⟨mapFrom f 0 v.toList⟩, by simp [mapFrom_length]⟩

/-- `f` applied to the elements of two lists at the same places, counted from `k`. -/
def zipFrom {α β γ : Type} (f : Nat → α → β → γ) : Nat → List α → List β → List γ
  | k, x :: xs, y :: ys => f k x y :: zipFrom f (k + 1) xs ys
  | _, _, _ => []

theorem zipFrom_length {α β γ : Type} (f : Nat → α → β → γ) (k : Nat) (l : List α) (m : List β) :
    (zipFrom f k l m).length = min l.length m.length := by
  induction l generalizing k m with
  | nil => simp [zipFrom]
  | cons x xs ih =>
    cases m with
    | nil => simp [zipFrom]
    | cons y ys => simp [zipFrom, ih]

/-- Two vectors with `f` applied to the elements at each place. -/
def vecZip {α β γ : Type} {n : Nat} (f : Nat → α → β → γ) (v : Vector α n) (w : Vector β n) : Vector γ n :=
  ⟨⟨zipFrom f 0 v.toList w.toList⟩, by simp [zipFrom_length]⟩

/-- The vector of the first `n` elements of `l`, filled with `d` where `l` is shorter. -/
def vecOfList {α : Type} (n : Nat) (d : α) (l : List α) : Vector α n :=
  ⟨⟨l.takeD n d⟩, by simp⟩

/-- The tile whose pixels are the first 1,024 of `l`, black where `l` is shorter. -/
def tileOfList (l : List Colour) : Tile := vecOfList 1024 Colour.black l

/-- The tile of one colour. -/
def flatTile (c : Colour) : Tile := Vector.replicate 1024 c

/-- The pixel of a tile at an index; black outside 0 to 1,023, where no tile has one. -/
def pixelOf (t : Tile) (i : Nat) : Colour := if h : i < 1024 then t[i] else Colour.black

/-! ### The tile map's entries -/

/-- The entry of a number: the listed one, else UNWRITTEN with generation 0 (R24). -/
def entryAt : List (Nat × MapEntry) → Nat → MapEntry
  | [], _ => MapEntry.fresh
  | (k, e) :: rest, i => if k = i then e else entryAt rest i

/-- The entries with the entry of number `i` replaced, in canonical form. -/
def putEntry : List (Nat × MapEntry) → Nat → MapEntry → List (Nat × MapEntry)
  | [], i, e => if e = MapEntry.fresh then [] else [(i, e)]
  | (k, x) :: rest, i, e =>
    if i < k then (if e = MapEntry.fresh then (k, x) :: rest else (i, e) :: (k, x) :: rest)
    else if i = k then (if e = MapEntry.fresh then rest else (i, e) :: rest)
    else (k, x) :: putEntry rest i e

/-- The entries with those of a run made UNWRITTEN with generation 0 (R27). -/
def clearEntries (l : List (Nat × MapEntry)) (first len : Nat) : List (Nat × MapEntry) :=
  l.filter fun ke => !(decide (first ≤ ke.1) && decide (ke.1 < first + len))

/-- The canonical form from a lower bound on: numbers strictly rising, no entry equal to the unlisted one. -/
def entriesWfFrom : Nat → List (Nat × MapEntry) → Bool
  | _, [] => true
  | lo, (k, e) :: rest => decide (lo ≤ k) && decide (e ≠ MapEntry.fresh) && entriesWfFrom (k + 1) rest

/-- The tile map's list is in canonical form. -/
def TileMap.wf (m : TileMap) : Bool := entriesWfFrom 0 m.entries

/-- The chunk list of an entry, empty but for CODED and PLAIN (R22). -/
def Content.chunks : Content → List Nat
  | .unwritten => []
  | .uniform _ _ => []
  | .coded _ chunks _ => chunks
  | .plain chunks _ => chunks

/-! ### Free extents -/

/-- First fit (R26): the first entry taken and the list that is left; none when no extent is long enough. -/
def takeExtent : List Extent → Nat → Option (Nat × List Extent)
  | [], _ => none
  | e :: rest, n =>
    if n ≤ e.len then
      some (e.first, if e.len = n then rest else ⟨e.first + n, e.len - n⟩ :: rest)
    else (takeExtent rest n).map fun (f, l) => (f, e :: l)

/-- An extent returned at its place by first entry, joined to the neighbours it touches (R36). -/
def returnExtent : List Extent → Extent → List Extent
  | [], x => [x]
  | e :: rest, x =>
    if x.first + x.len < e.first then x :: e :: rest
    else if x.first + x.len = e.first then ⟨x.first, x.len + e.len⟩ :: rest
    else if e.first + e.len = x.first then returnExtent rest ⟨e.first, e.len + x.len⟩
    else e :: returnExtent rest x

/-! ### Apertures and tiles -/

/-- Aperture record `a`. -/
def State.ap (s : State) (a : ApIx) : Aperture := s.aps.get a

/-- The map entry number of a tile (R8). -/
def State.entryIx (s : State) (t : TileRef) : Nat := (s.ap t.ap).extFirst + t.ix

/-- The map entry of a tile. -/
def State.entry (s : State) (t : TileRef) : MapEntry := entryAt s.map.entries (s.entryIx t)

/-- A channel of the fill colour in the aperture's format: v, or v × 257 (R2). -/
def fillSample (fmt : Format) (v : Byte) : Sample :=
  match fmt with
  | .rgb8 => v.setWidth 16
  | .rgb16 => BitVec.ofNat 16 (v.toNat * 257)

/-- The fill colour of an aperture, expanded as R2 gives. -/
def Aperture.fill (a : Aperture) : Colour :=
  ⟨fillSample a.fmt a.fillR, fillSample a.fmt a.fillG, fillSample a.fmt a.fillB⟩

/-! ### Slots -/

/-- Slot `k`. -/
def State.slot (s : State) (k : SlotIx) : Slot := s.asm.slots.get k

/-- The lowest-numbered slot that passes a test. -/
def State.firstSlot (s : State) (p : Slot → Bool) : Option SlotIx :=
  (s.asm.slots.toList.findIdx? p).map (Fin.ofNat 256)

/-- The slot numbers, rising, whose slots pass a test. -/
def State.slotsWith (s : State) (p : Slot → Bool) : List SlotIx :=
  (mapFrom (fun i sl => (i, sl)) 0 s.asm.slots.toList).filterMap fun (i, sl) =>
    if p sl then some (Fin.ofNat 256 i) else none

/-- The slot holds a tile of the aperture. -/
def Slot.ofAp (sl : Slot) (a : ApIx) : Bool :=
  match sl.tile with
  | some t => decide (t.ap = a)
  | none => false

/-- The slot is occupied, by a tile of the aperture (R56). -/
def Slot.occupiedBy (sl : Slot) (a : ApIx) : Bool := decide (sl.state ≠ .free) && sl.ofAp a

/-- The slot is GATHERING, SEALED or ENCODING. -/
def Slot.isSealed (sl : Slot) : Bool :=
  match sl.state with
  | .free => false
  | .filling => false
  | .gathering => true
  | .sealed => true
  | .encoding => true

/-- The tile's FILLING slot (R58). -/
def State.fillingSlot (s : State) (t : TileRef) : Option SlotIx :=
  s.firstSlot fun sl => decide (sl.state = .filling) && decide (sl.tile = some t)

/-- The tile's other occupied slot (R58). -/
def State.otherSlot (s : State) (t : TileRef) : Option SlotIx :=
  s.firstSlot fun sl => sl.isSealed && decide (sl.tile = some t)

/-- A pixel is in a slot's presence set. -/
def Slot.has (sl : Slot) (i : Nat) : Bool := sl.present.getLsbD i

/-- The presence set holds all 1,024 pixels. -/
def Slot.isFull (sl : Slot) : Bool := decide (sl.present = BitVec.allOnes 1024)

/-- What is left of a slot that becomes FREE: its pixel store, nothing else (R56, R73, R77, R79). That its presence set is
emptied at the freeing, and not at the next opening alone, is the model's choice (DESIGN CHOICE, assumption log 32). -/
def Slot.freed (sl : Slot) : Slot :=
  { sl with state := .free, tile := none, present := 0, pred := none, due := false, mark := false }

/-- The value a part's pixels give an index, none where no enabled pixel has it. -/
def pixelValue (ps : List PartPixel) (i : Nat) : Option Colour :=
  (ps.find? fun p => decide (p.index = i) && p.value.isSome).bind PartPixel.value

/-- The presence set of a part's enabled pixels. -/
def presenceOf (ps : List PartPixel) : BitVec 1024 :=
  ps.foldl (fun acc p => if p.value.isSome then acc ||| BitVec.twoPow 1024 p.index else acc) 0

/-- A slot with a part's enabled pixels written and present (R59). -/
def Slot.write (sl : Slot) (ps : List PartPixel) : Slot :=
  { sl with
    px := vecMap (fun i c => (pixelValue ps i).getD c) sl.px
    present := sl.present ||| presenceOf ps }

/-- A slot with its absent pixels taken from `base`, all pixels present (R69, R70). -/
def Slot.gatherFrom (sl : Slot) (base : Tile) : Slot :=
  { sl with
    px := vecZip (fun i c d => if sl.present.getLsbD i then c else d) sl.px base
    present := BitVec.allOnes 1024 }

/-! ### Window requests -/

/-- The request is complete (R155). -/
def Request.isComplete (r : Request) : Bool := decide (r.outcome ≠ .undetermined)

/-- The request is a WRITE. -/
def Request.isWrite (r : Request) : Bool :=
  match r.kind with
  | .read _ => false
  | .write _ => true

/-- The request has a tile part at the tile. -/
def Request.touches (r : Request) (t : TileRef) : Bool := r.parts.any fun p => decide (p.tile = t)

/-- The part is finished (R157). -/
def Part.isFinished (p : Part) : Bool :=
  match p.progress with
  | .waiting => false
  | .proceeding => false
  | .complete => true
  | .failed => true

/-- An aperture request whose parts are all finished takes its outcome: ERROR if one FAILED, else OKAY (R155). -/
def Request.conclude (r : Request) : Request :=
  if r.isComplete || r.parts.isEmpty || !r.parts.all Part.isFinished then r
  else { r with outcome := if r.parts.any (fun p => decide (p.progress = .failed)) then .error else .okay }

/-- The window request a number names. -/
def State.request (s : State) (id : Nat) : Option Request := s.port.window.find? fun r => decide (r.id = id)

/-- The tile part a reference names. -/
def State.part (s : State) (p : PartRef) : Option Part :=
  (s.request p.req).bind fun r => r.parts[p.part]?

/-- The window with one request changed and then concluded. -/
def State.updRequest (s : State) (id : Nat) (f : Request → Request) : State :=
  s.setPort { s.port with
    window := s.port.window.map fun r => if r.id = id then (f r).conclude else r }

/-- The window with one tile part changed. -/
def State.updPart (s : State) (p : PartRef) (f : Part → Part) : State :=
  s.updRequest p.req fun r => { r with parts := r.parts.modify p.part f }

/-! ### Little-endian bytes -/

/-- `n` bytes of a number, the least significant first. -/
def leBytes : Nat → Nat → List Byte
  | 0, _ => []
  | n + 1, v => BitVec.ofNat 8 v :: leBytes n (v / 256)

/-- The number that bytes give, the least significant first. -/
def ofLeBytes : List Byte → Nat
  | [] => 0
  | b :: rest => b.toNat + 256 * ofLeBytes rest

end Sys2Proof.Machine
end

