-- ==== Sys2Proof/Machine/Flags.lean ====
section
/-! DEFINITION. The status unit and everything that is computed from other state: the fault set and ATTN (R182–R184), the
pressure band, the demanded step and POOL_SHORT (R48–R50, R98), the slew of the applied step (R100), the stale mark and the
updates of the reported values that set it (R187), and the status block (R185). -/

namespace Sys2Proof.Machine

/-! ### Faults and ATTN -/

/-- A fault kind (R182). -/
inductive FaultKind where
  | link
  | order
  | overrun
  | poolShort
  | degraded
  | store
  | corrupt
  | request
  deriving DecidableEq, Repr

/-- The kind's bit in the fault set, the attention mask and CLEAR FAULTS (R182). -/
def FaultKind.mask : FaultKind → Byte
  | .link => 0x01
  | .order => 0x02
  | .overrun => 0x04
  | .poolShort => 0x08
  | .degraded => 0x10
  | .store => 0x20
  | .corrupt => 0x40
  | .request => 0x80

/-- ATTN for a fault set and an attention mask (R184). -/
def attnOf (faults mask : Byte) : Bool := decide (faults &&& mask ≠ 0)

/-- The stale mark set when `b` says that a field of the status block changed (R187). -/
def State.markIf (s : State) (b : Bool) : State := s.setSt { s.st with stale := s.st.stale || b }

/-- The stale mark set. -/
def State.markStale (s : State) : State := s.markIf true

/-- The fault set replaced, ATTN driven again, the block stale if the set changed (R182, R184). -/
def State.putFaults (s : State) (f : Byte) : State :=
  s.setSt { s.st with
    faults := f, attn := attnOf f s.st.mask, stale := s.st.stale || decide (f ≠ s.st.faults) }

/-- A fault handed to the status unit (R182). -/
def State.raise (s : State) (k : FaultKind) : State := s.putFaults (s.st.faults ||| k.mask)

/-- A fault raised without making the block stale: the STORE of a failed status write (R187). -/
def State.raiseQuietly (s : State) (k : FaultKind) : State :=
  s.setSt { s.st with
    faults := s.st.faults ||| k.mask, attn := attnOf (s.st.faults ||| k.mask) s.st.mask }

/-- The fault set with POOL_SHORT present or absent as its condition says (R50). -/
def withPoolShort (faults : Byte) (short : Bool) : Byte :=
  if short then faults ||| FaultKind.poolShort.mask else faults &&& ~~~FaultKind.poolShort.mask

/-- The fault set after CLEAR FAULTS with byte 1 `named`: POOL_SHORT stays as it is (R183). -/
def clearSticky (faults named : Byte) : Byte := faults &&& ~~~(named &&& ~~~FaultKind.poolShort.mask)

/-! ### The pool's figures -/

/-- The pressure band of a pool of `count` chunks with `free` free: floor(8 × used / N), at most 7, 0 with no pool (R49). -/
def bandOf (count free : Nat) : Fin 8 := ⟨min (8 * (count - free) / count) 7, by omega⟩

/-- POOL_SHORT's condition (R50). -/
def Pool.isShort (p : Pool) : Bool := decide (p.free.length < p.low)

/-- The band, the demanded step and POOL_SHORT evaluated from the pool and the curve (R48, R98). -/
def State.evalPool (s : State) : State :=
  let band := bandOf s.pool.count s.pool.free.length
  let d := s.ctl.curve.get band
  ((s.setCtl { s.ctl with band := band, demanded := d }).markIf
      (decide (band ≠ s.ctl.band) || decide (d ≠ s.ctl.demanded))).putFaults
    (withPoolShort s.st.faults s.pool.isShort)

/-- The pool manager's state replaced and its figures handed to step control and the status unit (R48, R53). -/
def State.putPool (s : State) (p : Pool) : State :=
  ((s.setPool p).markIf
      (decide (p.count ≠ s.pool.count) || decide (p.free.length ≠ s.pool.free.length) ||
        decide (p.withdrawn.length ≠ s.pool.withdrawn.length) || decide (p.low ≠ s.pool.low))).evalPool

/-! ### Step control -/

/-- The slew at a tile completion: the applied step compared with the demanded step (R100). -/
def StepControl.slew (c : StepControl) : StepControl :=
  if c.demanded > c.applied then
    if c.upCount + 1 < c.up then { c with upCount := c.upCount + 1, downCount := 0 }
    else { c with upCount := 0, downCount := 0, applied := c.applied + 1 }
  else if c.demanded < c.applied then
    if c.downCount + 1 < c.down then { c with upCount := 0, downCount := c.downCount + 1 }
    else { c with upCount := 0, downCount := 0, applied := c.applied - 1 }
  else { c with upCount := 0, downCount := 0 }

/-! ### Updates of reported values -/

/-- The reported fields of two records of one aperture differ (R185, bytes 64 to 127). -/
def Aperture.reportDiffers (a b : Aperture) : Bool :=
  decide (a.state ≠ b.state) || decide (a.fmt ≠ b.fmt) || decide (a.mode ≠ b.mode) ||
    decide (a.rects.length ≠ b.rects.length) || decide (a.committed ≠ b.committed)

/-- Aperture record `a` replaced. -/
def State.putAp (s : State) (a : ApIx) (x : Aperture) : State :=
  (s.setAps (s.aps.set a x)).markIf (x.reportDiffers (s.ap a))

/-- Slot `k` replaced; the FILLING count and the flush-pending flag may change with it (R81). -/
def State.putSlot (s : State) (k : SlotIx) (x : Slot) : State :=
  (s.setAsm { s.asm with slots := s.asm.slots.set k x }).markIf
    (decide (decide (x.state = .filling) ≠ decide ((s.slot k).state = .filling)) ||
      decide (x.mark ≠ (s.slot k).mark))

/-- The open list replaced; it is not reported. -/
def State.putOpenList (s : State) (l : List SlotIx) : State := s.setAsm { s.asm with openList := l }

/-- The seal queue replaced. -/
def State.putSealQueue (s : State) (l : List SlotIx) : State :=
  (s.setAsm { s.asm with sealQueue := l }).markIf (decide (l.length ≠ s.asm.sealQueue.length))

/-- The held-write list replaced. -/
def State.putHeld (s : State) (l : List HeldWrite) : State :=
  (s.setAsm { s.asm with held := l }).markIf (decide (l.length ≠ s.asm.held.length))

/-- The encoder's stage as its record has it; none while IDLE. -/
def Encoder.stage (e : Encoder) : Option Stage := e.op.map TileOp.stage

/-- The encoder replaced. -/
def State.putEnc (s : State) (e : Encoder) : State :=
  (s.setEnc e).markIf (decide (e.stage ≠ s.enc.stage))

/-- The decode queue replaced. -/
def State.putQueue (s : State) (l : List DecodeEntry) : State :=
  (s.setRd { s.rd with queue := l }).markIf (decide (l.length ≠ s.rd.queue.length))

/-- The tile cache replaced. -/
def State.putCache (s : State) (l : List CacheEntry) : State :=
  (s.setRd { s.rd with cache := l }).markIf (decide (l.length ≠ s.rd.cache.length))

/-- The window replaced. -/
def State.putWindow (s : State) (l : List Request) : State :=
  (s.setPort { s.port with window := l }).markIf (decide (l.length ≠ s.port.window.length))

/-- The link state replaced (R165). -/
def State.putLink (s : State) (l : Receiver) : State :=
  (s.setLink l).markIf (decide (l.state ≠ s.link.state))

/-- The refits total raised (R108). -/
def State.addRefits (s : State) (n : Nat) : State :=
  (s.setCtl { s.ctl with refits := s.ctl.refits + BitVec.ofNat 32 n }).markIf (decide (n ≠ 0))

/-! ### The status block -/

/-- The aperture's flush-pending flag: FREEZING from a FREEZE's start to its end, or a marked slot left (R76–R78). -/
def State.flushPending (s : State) (a : ApIx) : Bool :=
  decide ((s.ap a).state = .freezing) || s.asm.slots.toList.any fun sl => sl.mark && sl.ofAp a

/-- The number of FILLING slots, those whose seal is due included (R81). -/
def State.fillingCount (s : State) : Nat :=
  (s.asm.slots.toList.filter fun sl => decide (sl.state = .filling)).length

def LinkState.code : LinkState → Nat
  | .deaf => 0
  | .armed => 1
  | .taking => 2
  | .passing => 3

def ApState.code : ApState → Nat
  | .closed => 0
  | .opened => 1
  | .freezing => 2
  | .frozen => 3
  | .retiring => 4

def Format.code : Format → Nat
  | .rgb8 => 0
  | .rgb16 => 1

def Mode.code : Mode → Nat
  | .fixed => 0
  | .curve => 1

/-- The encoder state byte (R113). -/
def stageCode : Option Stage → Nat
  | none => 0
  | some .coding => 1
  | some .poolWait => 2
  | some .writing => 3

/-- The refusal codes of the last-refused record (R154). -/
def refuseCode : Option RefuseReason → Nat
  | none => 0
  | some .boundary => 1
  | some .guarded => 2
  | some .pixel => 3
  | some .frozen => 4
  | some .retired => 5

/-- The order refusal codes (R174). -/
def orderReasonCode : Option OrderReason → Nat
  | none => 0
  | some .undefined => 1
  | some .badParam => 2
  | some .state => 3
  | some .overlap => 4
  | some .noSpace => 5
  | some .full => 6
  | some .noPool => 7
  | some .poolBusy => 8

/-- The order result codes (R175). -/
def OrderResult.code : OrderResult → Nat
  | .none => 0
  | .done => 1
  | .refused => 2
  | .halted => 3

/-- Byte 0 of an order (R176). -/
def Order.byte0 : Order → Byte
  | .nop => 0x00
  | .halt => 0x01
  | .close _ _ _ => 0x21
  | .flush _ _ _ _ _ => 0x22
  | .thaw _ _ _ => 0x23
  | .clearFaults _ _ => 0x24
  | .protect _ _ _ _ _ _ _ _ => 0x41
  | .setStatus _ _ => 0x42
  | .openOrder _ => 0x61
  | .setPool _ => 0x62
  | .setCurve _ => 0x63
  | .undefined byte0 => byte0

/-- The executing order's byte 0, 0x00 while IDLE (R172). -/
def OrderUnit.executingByte (o : OrderUnit) : Byte :=
  match o.executing with
  | none => 0x00
  | some x => x.byte0

/-- The eight bytes of aperture `a` in the status block (R185). -/
def State.statusOfAp (s : State) (a : ApIx) : List Byte :=
  let x := s.ap a
  [BitVec.ofNat 8 x.state.code, BitVec.ofNat 8 (x.fmt.code + 16 * x.mode.code),
    BitVec.ofNat 8 x.rects.length, BitVec.ofNat 8 (s.flushPending a).toNat] ++ leBytes 4 x.committed

/-- The 128 bytes of the status block (R185). -/
def State.statusBlock (s : State) : List Byte :=
  [0x01, s.st.faults, s.st.mask, BitVec.ofNat 8 s.link.state.code,
    BitVec.ofNat 8 s.ord.executing.isSome.toNat, s.ord.executingByte, BitVec.ofNat 8 s.ord.queue.length,
    s.ord.record.byte0, s.ord.record.aperture, BitVec.ofNat 8 s.ord.record.result.code,
    BitVec.ofNat 8 (orderReasonCode s.ord.record.reason), BitVec.ofNat 8 s.ord.record.discarded] ++
  leBytes 2 s.ord.completed.toNat ++
  [BitVec.ofNat 8 s.ctl.applied, BitVec.ofNat 8 s.ctl.demanded, BitVec.ofNat 8 s.ctl.band.val,
    BitVec.ofNat 8 (stageCode s.enc.stage)] ++
  leBytes 2 s.fillingCount ++ leBytes 2 s.asm.sealQueue.length ++ leBytes 2 s.asm.held.length ++
  leBytes 2 s.rd.queue.length ++
  [BitVec.ofNat 8 s.rd.cache.length, BitVec.ofNat 8 s.port.window.length] ++
  leBytes 4 s.pool.count ++ leBytes 4 s.pool.free.length ++ leBytes 4 s.pool.withdrawn.length ++
  leBytes 4 s.pool.low ++ leBytes 4 s.map.degradedTotal.toNat ++ leBytes 4 s.ctl.refits.toNat ++
  leBytes 4 s.map.tilesTotal.toNat ++
  [BitVec.ofNat 8 (refuseCode s.port.lastReason)] ++ leBytes 5 s.port.lastAddr.toNat ++ [0, 0] ++
  s.statusOfAp 0 ++ s.statusOfAp 1 ++ s.statusOfAp 2 ++ s.statusOfAp 3 ++
  s.statusOfAp 4 ++ s.statusOfAp 5 ++ s.statusOfAp 6 ++ s.statusOfAp 7

/-- At the end of an event: the block enabled and stale and the write state IDLE, a status write of the snapshot is handed
to the store port's status source (R187). -/
def State.issueStatus (s : State) : State :=
  if s.st.enable && s.st.stale && !s.st.inFlight then
    (s.setStore { s.store with status := s.store.status ++ [.statusWrite s.st.addr s.statusBlock] }).setSt
      { s.st with stale := false, inFlight := true, reissue := false }
  else s

end Sys2Proof.Machine
end

