-- ==== Sys2Proof/Machine/Operands.lean ====
section
/-! DEFINITION. The operands of composer requests: the geometry of an aperture (R7), the mapping of an address to a tile and a
pixel (R8), the pixels of a request in the two formats (R1), the checks made at a take (R151, R153), and the regions (R10,
R11). -/

namespace Sys2Proof.Machine

/-! ### Geometry -/

/-- Bytes of a pixel (R1). -/
def Format.pixelSize : Format → Nat
  | .rgb8 => 4
  | .rgb16 => 8

/-- Bits of a stored sample (R1). -/
def Format.sampleBits : Format → Nat
  | .rgb8 => 8
  | .rgb16 => 16

/-- Bytes from one line to the next for a width in tiles (R7). -/
def pitchOf (fmt : Format) (width : Nat) : Nat := width * 32 * fmt.pixelSize

/-- Bytes of an aperture (R7). -/
def byteSize (fmt : Format) (width height : Nat) : Nat := pitchOf fmt width * height * 32

/-- The pitch of an aperture record (R7). -/
def Aperture.pitch (a : Aperture) : Nat := pitchOf a.fmt a.width

/-- The size of an aperture record (R7). -/
def Aperture.size (a : Aperture) : Nat := byteSize a.fmt a.width a.height

/-- The record is not CLOSED, so it owns a range (R4, R10). -/
def Aperture.isLive (a : Aperture) : Bool := decide (a.state ≠ .closed)

/-- The address lies in the range of an aperture that is not CLOSED (R10). -/
def Aperture.covers (a : Aperture) (addr : Nat) : Bool :=
  a.isLive && decide (a.base ≤ addr) && decide (addr < a.base + a.size)

/-- The tile index of an offset (R8). -/
def Aperture.tileIx (a : Aperture) (offset : Nat) : Nat :=
  (offset / a.pitch) / 32 * a.width + (offset % a.pitch) / a.fmt.pixelSize / 32

/-- The pixel index of an offset within its tile (R8). -/
def Aperture.pixelIx (a : Aperture) (offset : Nat) : Nat :=
  (offset / a.pitch) % 32 * 32 + (offset % a.pitch) / a.fmt.pixelSize % 32

/-- Tile column and row of a tile index (R8, R19). -/
def Aperture.column (a : Aperture) (ix : Nat) : Nat := ix % a.width
def Aperture.row (a : Aperture) (ix : Nat) : Nat := ix / a.width

/-- The tile lies inside a rectangle of the protect list (R19). -/
def Aperture.protects (a : Aperture) (ix : Nat) : Bool :=
  a.rects.any fun q =>
    decide (q.x0 ≤ a.column ix) && decide (a.column ix ≤ q.x1) &&
      decide (q.y0 ≤ a.row ix) && decide (a.row ix ≤ q.y1)

/-! ### Regions -/

/-- Two runs of addresses, of lengths above 0, meet. -/
def runsMeet (a la b lb : Nat) : Bool := decide (a < b + lb) && decide (b < a + la)

/-- A run meets the pool region, which is empty while no pool is defined (R10, R40). -/
def State.meetsPool (s : State) (a la : Nat) : Bool :=
  decide (s.pool.count ≠ 0) && runsMeet a la s.pool.base (Config.block * s.pool.count)

/-- A run meets the enabled status block (R11). -/
def State.meetsStatus (s : State) (a la : Nat) : Bool :=
  s.st.enable && runsMeet a la s.st.addr Config.statusSize

/-- A run meets the range of an aperture that is not CLOSED (R11). -/
def State.meetsAperture (s : State) (a la : Nat) : Bool :=
  s.aps.toList.any fun x => x.isLive && runsMeet a la x.base x.size

/-- The address lies in the pool region (R10). -/
def State.inPool (s : State) (addr : Nat) : Bool :=
  decide (s.pool.base ≤ addr) && decide (addr < s.pool.base + Config.block * s.pool.count)

/-- The aperture whose range holds the address; at most one does (R11). -/
def State.apertureAt (s : State) (addr : Nat) : Option ApIx :=
  (s.aps.toList.findIdx? fun x => x.covers addr).map (Fin.ofNat 8)

/-! ### Pixels of a request -/

/-- Bytes of a request. -/
def ReqKind.length : ReqKind → Nat
  | .read n => n
  | .write bytes => bytes.length

/-- The `i`-th run of `n` elements. -/
def runAt {α : Type} (n i : Nat) (l : List α) : List α := (l.drop (i * n)).take n

/-- The samples that a pixel's bytes hold; the X bytes are discarded (R1). -/
def colourOfBytes (fmt : Format) (bs : List Byte) : Colour :=
  match fmt with
  | .rgb8 => ⟨(bs.getD 0 0).setWidth 16, (bs.getD 1 0).setWidth 16, (bs.getD 2 0).setWidth 16⟩
  | .rgb16 =>
    ⟨bs.getD 1 0 ++ bs.getD 0 0, bs.getD 3 0 ++ bs.getD 2 0, bs.getD 5 0 ++ bs.getD 4 0⟩

/-- The bytes that return a pixel: its samples at their byte offsets, every X byte zero (R1). -/
def bytesOfColour (fmt : Format) (c : Colour) : List Byte :=
  match fmt with
  | .rgb8 => [c.r.setWidth 8, c.g.setWidth 8, c.b.setWidth 8, 0]
  | .rgb16 =>
    [c.r.setWidth 8, c.r.extractLsb' 8 8, c.g.setWidth 8, c.g.extractLsb' 8 8,
      c.b.setWidth 8, c.b.extractLsb' 8 8, 0, 0]

/-- Pixel `i` of a WRITE's bytes: its samples where its enables are on, none where they are off (R13). -/
def writePixel (fmt : Format) (bytes : List (Byte × Bool)) (i : Nat) : Option Colour :=
  let px := runAt fmt.pixelSize i bytes
  if px.all Prod.snd then some (colourOfBytes fmt (px.map Prod.fst)) else none

/-- The enables of each pixel are all on or all off (R13). -/
def enablesWhole (fmt : Format) (bytes : List (Byte × Bool)) : Bool :=
  (List.range (bytes.length / fmt.pixelSize)).all fun i =>
    (runAt fmt.pixelSize i bytes).all Prod.snd || (runAt fmt.pixelSize i bytes).all fun b => !b.2

/-- A pixel added to the tile part of its tile, which is made when the tile is first met. -/
def addPixel (fmt : Format) : List Part → TileRef → PartPixel → List Part
  | [], t, p => [⟨t, fmt, [p], .waiting⟩]
  | q :: rest, t, p =>
    if q.tile = t then { q with pixels := q.pixels ++ [p] } :: rest else q :: addPixel fmt rest t p

/-- The tile parts of an aperture request, in address order, each WAITING (R9, R153). -/
def partsOf (a : ApIx) (x : Aperture) (kind : ReqKind) (addr : Nat) : List Part :=
  (List.range (kind.length / x.fmt.pixelSize)).foldl
    (fun ps i =>
      let offset := addr - x.base + i * x.fmt.pixelSize
      let value :=
        match kind with
        | .read _ => none
        | .write bytes => writePixel x.fmt bytes i
      addPixel x.fmt ps ⟨a, x.tileIx offset⟩ ⟨x.pixelIx offset, value⟩)
    []

/-! ### The checks at a take -/

/-- The request crosses a 256-byte boundary (R151). -/
def crossesBlock (addr len : Nat) : Bool :=
  decide (addr / Config.block ≠ (addr + len - 1) / Config.block)

/-- The state check of an aperture request (R12). -/
def stateRefusal (state : ApState) (isWrite : Bool) : Option RefuseReason :=
  match state with
  | .closed => none
  | .opened => none
  | .freezing => if isWrite then some .frozen else none
  | .frozen => if isWrite then some .frozen else none
  | .retiring => some .retired

/-- The pixel check of an aperture request (R13). -/
def passesPixelCheck (x : Aperture) (kind : ReqKind) (addr : Nat) : Bool :=
  decide ((addr - x.base) % x.fmt.pixelSize = 0) && decide (kind.length % x.fmt.pixelSize = 0) &&
    match kind with
    | .read _ => true
    | .write bytes => enablesWhole x.fmt bytes

/-- The request kind is a WRITE. -/
def ReqKind.isWrite : ReqKind → Bool
  | .read _ => false
  | .write _ => true

/-- The class of a request by the six checks, in order (R153). -/
def State.classify (s : State) (kind : ReqKind) (addr : Nat) : ReqClass :=
  if crossesBlock addr kind.length then .refused .boundary
  else if s.inPool addr then .refused .guarded
  else
    match s.apertureAt addr with
    | none => .passThrough
    | some a =>
      match stateRefusal (s.ap a).state kind.isWrite with
      | some reason => .refused reason
      | none => if passesPixelCheck (s.ap a) kind addr then .aperture a else .refused .pixel

/-! ### The data of a response -/

/-- The data of an aperture READ: each pixel's bytes, in address order, in the format of its take (R155). -/
def Request.pixelData (r : Request) : List Byte :=
  r.parts.flatMap fun p => p.pixels.flatMap fun q => bytesOfColour p.fmt (q.value.getD Colour.black)

/-- The data of a request's response, kept from the event that completes it; a refused or failed request has none, and
neither has a WRITE (R155). -/
def Request.responseData (r : Request) : List Byte :=
  if r.outcome = .okay then
    match r.kind, r.cls with
    | .read _, .aperture _ => r.pixelData
    | .read _, .passThrough => r.storeData
    | .read _, .refused _ => []
    | .write _, _ => []
  else []

end Sys2Proof.Machine
end

