-- ==== Sys2Proof/Machine/TileCode.lean ====
section
/-! DEFINITION. The tile code (R82–R97): quantisation, prediction and residuals, groups and the body, the PLAIN body, the
stream header, the check value, the chunks of a stream, decoding with its checks, and uniform and degraded tiles. -/

namespace Sys2Proof.Machine

/-! ### Quantisation (R83, R84) -/

/-- The coarsest step that the refits and the re-code use: 7 in RGB8, 15 in RGB16 (R105, R121). -/
def Format.kmax : Format → Nat
  | .rgb8 => 7
  | .rgb16 => 15

/-- The quantiser exponent of a step: the step, capped at 7 in RGB8 (R83). -/
def exponentOf (fmt : Format) (step : Nat) : Nat := min step fmt.kmax

/-- The quantised value of a raw sample (R83). -/
def quantise (k raw : Nat) : Nat := raw / 2 ^ k

/-- The largest quantised value (R83). -/
def maxQuantised (fmt : Format) (k : Nat) : Nat := 2 ^ (fmt.sampleBits - k) - 1

/-- The reconstruction of a quantised value (R84). -/
def rebuild (k q : Nat) : Nat := if k = 0 then q else q * 2 ^ k + 2 ^ (k - 1)

/-- The reconstruction of a tile coded at exponent k (R82, R84). -/
def reconOf (k : Nat) (t : Tile) : Tile :=
  let f := fun (v : Sample) => BitVec.ofNat 16 (rebuild k (quantise k v.toNat))
  vecMap (fun _ c => ⟨f c.r, f c.g, f c.b⟩) t

/-! ### Prediction, residuals and groups (R85–R88) -/

/-- The zigzag value of a residual (R86). -/
def zigzag (d : Int) : Nat := if 0 ≤ d then (2 * d).toNat else (-2 * d - 1).toNat

/-- The residual of a zigzag value (R86). -/
def unzigzag (z : Nat) : Int := if z % 2 = 0 then (z / 2 : Nat) else -((z + 1) / 2 : Nat)

/-- The bit length of a zigzag value: the least w with z < 2^w, 0 for 0 (R86). -/
def bitLength (z : Nat) : Nat := ((List.range 32).find? fun w => decide (z < 2 ^ w)).getD 32

/-- The zigzag values of a line of quantised values, each predicted from the one before it (R85, R86). -/
def zigzags : Nat → List Nat → List Nat
  | _, [] => []
  | p, q :: rest => zigzag ((q : Int) - p) :: zigzags q rest

/-- `n` bits of a number, most significant first. -/
def bitsOf : Nat → Nat → List Bool
  | 0, _ => []
  | n + 1, v => v.testBit n :: bitsOf n v

/-- A group of zigzag values: its width in 5 bits, then each value in that many bits (R87). -/
def groupBits (zs : List Nat) : List Bool :=
  let w := (zs.map bitLength).foldl max 0
  bitsOf 5 w ++ zs.flatMap (bitsOf w)

/-- A line's zigzag values in groups of four (R87). -/
def groupsOf : List Nat → List (List Nat)
  | a :: b :: c :: d :: rest => [a, b, c, d] :: groupsOf rest
  | _ => []

/-- One channel of one line: its eight groups (R88). -/
def lineBits (p : Nat) (qs : List Nat) : List Bool := (groupsOf (zigzags p qs)).flatMap groupBits

/-- The predictions for column 0 of the next line: the quantised values at column 0 of this one (R85). -/
structure Predictions where
  r : Nat
  g : Nat
  b : Nat
  deriving DecidableEq, Repr

/-- The quantised samples of a line, one list for each channel. -/
structure LineSamples where
  r : List Nat
  g : List Nat
  b : List Nat
  deriving DecidableEq, Repr

/-- The 32 lines of a tile, quantised at exponent k (R83). -/
def quantLines (k : Nat) (t : Tile) : List LineSamples :=
  (List.range 32).map fun y =>
    let px := runAt 32 y t.toList
    ⟨px.map fun c => quantise k c.r.toNat, px.map fun c => quantise k c.g.toNat,
      px.map fun c => quantise k c.b.toNat⟩

/-- The lines of a body in order: within a line R, then G, then B (R88). -/
def linesBits : Predictions → List LineSamples → List Bool
  | _, [] => []
  | p, l :: rest =>
    lineBits p.r l.r ++ lineBits p.g l.g ++ lineBits p.b l.b ++
      linesBits ⟨l.r.headD 0, l.g.headD 0, l.b.headD 0⟩ rest

/-- A byte from its bits, most significant first. -/
def byteOfBits (bs : List Bool) : Byte := bs.foldl (fun acc b => acc <<< 1 ||| (BitVec.ofBool b).setWidth 8) 0

/-- Bits packed into bytes, the first bit most significant, the last byte filled with zero bits (R88). -/
def packBits : List Bool → List Byte
  | a :: b :: c :: d :: e :: f :: g :: h :: rest => byteOfBits [a, b, c, d, e, f, g, h] :: packBits rest
  | [] => []
  | rest => [byteOfBits (rest.takeD 8 false)]

/-- The body of a CODED stream at exponent k (R88). -/
def codedBody (k : Nat) (t : Tile) : List Byte := packBits (linesBits ⟨0, 0, 0⟩ (quantLines k t))

/-! ### The PLAIN body (R89) -/

/-- The bytes of a sample: one in RGB8, two in RGB16, the low byte first (R89). -/
def sampleBytes (fmt : Format) (v : Sample) : List Byte :=
  match fmt with
  | .rgb8 => [v.setWidth 8]
  | .rgb16 => [v.setWidth 8, v.extractLsb' 8 8]

/-- The body of a PLAIN stream (R89). -/
def plainBody (fmt : Format) (t : Tile) : List Byte :=
  t.toList.flatMap fun c => sampleBytes fmt c.r ++ sampleBytes fmt c.g ++ sampleBytes fmt c.b

/-- The length of a PLAIN body (R89). -/
def Format.plainBodyLen : Format → Nat
  | .rgb8 => 3072
  | .rgb16 => 6144

/-- The chunk count of a PLAIN stream (R89, R106). -/
def Format.plainCount : Format → Nat
  | .rgb8 => 13
  | .rgb16 => 25

/-! ### The stream (R90–R92) -/

/-- One bit entering the 16-bit check register (R91). -/
def crc16Bit (reg : BitVec 16) (b : Bool) : BitVec 16 :=
  let combined := b ^^ reg.getLsbD 15
  if combined then (reg <<< 1) ^^^ 0x1021 else reg <<< 1

/-- One byte entering the check register, most significant bit first (R91). -/
def crc16Byte (reg : BitVec 16) (x : Byte) : BitVec 16 := (bitsOf 8 x.toNat).foldl crc16Bit reg

/-- The check value over some bytes (R91). -/
def crc16 (bs : List Byte) : BitVec 16 := bs.foldl crc16Byte 0xFFFF

/-- The header of a stream (R90). -/
def headerOf (kind : Nat) (tile : TileRef) (fmt : Format) (exponent : Nat) (gen : Byte) (bodyLen : Nat) :
    List Byte :=
  [BitVec.ofNat 8 kind, BitVec.ofNat 8 tile.ap.val, BitVec.ofNat 8 fmt.code, BitVec.ofNat 8 exponent] ++
    leBytes 3 tile.ix ++ [gen] ++ leBytes 2 bodyLen ++ [0, 0, 0, 0, 0, 0]

/-- A stream: header, body, check value low byte first (R91). -/
def streamOf (header body : List Byte) : List Byte :=
  header ++ body ++ leBytes 2 (crc16 (header ++ body)).toNat

/-- The chunks that a stream of `len` bytes takes (R92). -/
def chunkCount (len : Nat) : Nat := (len + 255) / 256

/-- The 256 bytes of the stream's j-th chunk, zero after the stream's end (R92). -/
def chunkData (stream : List Byte) (j : Nat) : List Byte := (stream.drop (256 * j)).takeD 256 0

/-- The CODED result of a tile at a step (R82, R90). -/
def codeTile (fmt : Format) (tile : TileRef) (gen : Byte) (step : Nat) (t : Tile) : Result :=
  let k := exponentOf fmt step
  let body := codedBody k t
  .coded step (streamOf (headerOf 1 tile fmt k gen body.length) body) body.length (reconOf k t)

/-- The PLAIN result of a tile (R89, R90). -/
def plainTile (fmt : Format) (tile : TileRef) (gen : Byte) (t : Tile) : Result :=
  let body := plainBody fmt t
  .plain (streamOf (headerOf 2 tile fmt 0 gen body.length) body) body.length t

/-- The stream of a result, empty for UNIFORM. -/
def Result.stream : Result → List Byte
  | .uniform _ _ => []
  | .coded _ stream _ _ => stream
  | .plain stream _ _ => stream

/-- The chunk count of a result (R92). -/
def Result.chunkCount (r : Result) : Nat := Machine.chunkCount r.stream.length

/-! ### Decoding (R90, R91, R93, R140) -/

/-- `n` bits read as a number, most significant first, and the bits that follow; none when they run out. -/
def readBits : Nat → Nat → List Bool → Option (Nat × List Bool)
  | 0, acc, bits => some (acc, bits)
  | _ + 1, _, [] => none
  | n + 1, acc, b :: rest => readBits n (2 * acc + b.toNat) rest

/-- One group: a width of 17 or less and its four values (R93). -/
def readGroup (bits : List Bool) : Option (List Nat × List Bool) :=
  (readBits 5 0 bits).bind fun (w, b0) =>
    if 17 < w then none
    else
      (readBits w 0 b0).bind fun (z0, b1) =>
        (readBits w 0 b1).bind fun (z1, b2) =>
          (readBits w 0 b2).bind fun (z2, b3) =>
            (readBits w 0 b3).map fun (z3, b4) => ([z0, z1, z2, z3], b4)

/-- `n` groups, their values in one list. -/
def readGroups : Nat → List Bool → Option (List Nat × List Bool)
  | 0, bits => some ([], bits)
  | n + 1, bits =>
    (readGroup bits).bind fun (zs, rest) =>
      (readGroups n rest).map fun (more, left) => (zs ++ more, left)

/-- The quantised values of a line from its zigzag values, each in 0..Q (R85, R86, R93). -/
def unzigzags (maxQ : Nat) : Nat → List Nat → Option (List Nat)
  | _, [] => some []
  | p, z :: rest =>
    let q := (p : Int) + unzigzag z
    if 0 ≤ q ∧ q ≤ maxQ then (unzigzags maxQ q.toNat rest).map fun l => q.toNat :: l else none

/-- One channel of one line. -/
def readLine (maxQ p : Nat) (bits : List Bool) : Option (List Nat × List Bool) :=
  (readGroups 8 bits).bind fun (zs, rest) => (unzigzags maxQ p zs).map fun qs => (qs, rest)

/-- `n` lines of three channels each, in the order of R88. -/
def readLines (maxQ : Nat) : Nat → Predictions → List Bool → Option (List LineSamples × List Bool)
  | 0, _, bits => some ([], bits)
  | n + 1, p, bits =>
    (readLine maxQ p.r bits).bind fun (r, b1) =>
      (readLine maxQ p.g b1).bind fun (g, b2) =>
        (readLine maxQ p.b b2).bind fun (b, b3) =>
          (readLines maxQ n ⟨r.headD 0, g.headD 0, b.headD 0⟩ b3).map fun (more, left) =>
            (⟨r, g, b⟩ :: more, left)

/-- The pixels of a line of quantised samples, rebuilt at exponent k (R84). -/
def rebuildLine (k : Nat) (l : LineSamples) : List Colour :=
  let f := fun q => BitVec.ofNat 16 (rebuild k q)
  (l.r.zip (l.g.zip l.b)).map fun (r, g, b) => ⟨f r, f g, f b⟩

/-- The tile that a CODED body holds, none when the body is not well formed (R93). -/
def decodeBody (fmt : Format) (k : Nat) (body : List Byte) : Option Tile :=
  (readLines (maxQuantised fmt k) 32 ⟨0, 0, 0⟩ (body.flatMap fun x => bitsOf 8 x.toNat)).bind
    fun (lines, left) =>
      if left.length < 8 ∧ left.all (fun b => !b) then some (tileOfList (lines.flatMap (rebuildLine k)))
      else none

/-- Two-byte samples, low byte first (R89). -/
def wideSamples : List Byte → List Sample
  | lo :: hi :: rest => (hi ++ lo) :: wideSamples rest
  | _ => []

/-- The samples of a PLAIN body, in order (R89). -/
def samplesOf (fmt : Format) (body : List Byte) : List Sample :=
  match fmt with
  | .rgb8 => body.map fun b => b.setWidth 16
  | .rgb16 => wideSamples body

/-- Samples taken three by three as pixels (R89). -/
def coloursOf : List Sample → List Colour
  | r :: g :: b :: rest => ⟨r, g, b⟩ :: coloursOf rest
  | _ => []

/-- The tile that a PLAIN body holds (R89). -/
def decodePlain (fmt : Format) (body : List Byte) : Tile := tileOfList (coloursOf (samplesOf fmt body))

/-- The header fields that the decoder compares: every byte but 3 and 10 to 15 (R90, R140). -/
def headerMatches (stream : List Byte) (kind : Nat) (tile : TileRef) (fmt : Format) (gen : Byte) (bodyLen : Nat) :
    Bool :=
  let want := headerOf kind tile fmt 0 gen bodyLen
  decide (stream.take 3 = want.take 3) && decide ((stream.drop 4).take 6 = (want.drop 4).take 6)

/-- The check value of a stream holds (R91). -/
def checkHolds (stream : List Byte) (bodyLen : Nat) : Bool :=
  decide ((stream.drop (16 + bodyLen)).take 2 = leBytes 2 (crc16 (stream.take (16 + bodyLen))).toNat)

/-- The three checks and the rebuild of an assembled stream, none for a corrupt one (R140). An entry that is neither
CODED nor PLAIN is never decoded (R138); it has no stream to check. -/
def decodeStream (fmt : Format) (tile : TileRef) (entry : MapEntry) (stream : List Byte) : Option Tile :=
  match entry.content with
  | .coded step _ bodyLen =>
    if headerMatches stream 1 tile fmt entry.gen bodyLen && checkHolds stream bodyLen then
      decodeBody fmt (exponentOf fmt step) ((stream.drop 16).take bodyLen)
    else none
  | .plain _ bodyLen =>
    if headerMatches stream 2 tile fmt entry.gen bodyLen && checkHolds stream bodyLen then
      some (decodePlain fmt ((stream.drop 16).take bodyLen))
    else none
  | .unwritten => none
  | .uniform _ _ => none

/-! ### Uniform and degraded tiles (R95, R96) -/

/-- The one colour of a uniform tile; none when the pixels are not all alike (R95). -/
def uniformColour (t : Tile) : Option Colour :=
  if t.toList.all fun c => decide (c = pixelOf t 0) then some (pixelOf t 0) else none

/-- The per-channel mean of a tile (R96). -/
def meanColour (t : Tile) : Colour :=
  let sum := fun (f : Colour → Sample) => (t.toList.map fun c => (f c).toNat).foldl (· + ·) 0
  ⟨BitVec.ofNat 16 (sum Colour.r / 1024), BitVec.ofNat 16 (sum Colour.g / 1024),
    BitVec.ofNat 16 (sum Colour.b / 1024)⟩

end Sys2Proof.Machine
end

