-- ==== Sys2Proof/Machine/ReadPath.lean ====
section
/-! DEFINITION. The read path (R133–R150): the tile cache, the decode queue with its pending list, the taking of a read tile
part, the start and the end of a decode, and what the start of a CLOSE drops. -/

namespace Sys2Proof.Machine

/-! ### The tile cache (R144–R146) -/

/-- The cached reconstruction of a tile. -/
def State.cached (s : State) (t : TileRef) : Option Tile :=
  (s.rd.cache.find? fun e => decide (e.tile = t)).map CacheEntry.recon

/-- The cache without a tile. -/
def dropTile (l : List CacheEntry) (t : TileRef) : List CacheEntry := l.filter fun e => decide (e.tile ≠ t)

/-- A hit: the tile's entry moves to the most recent end (R134). -/
def State.touchCache (s : State) (t : TileRef) : State :=
  match s.cached t with
  | none => s
  | some recon => s.putCache (dropTile s.rd.cache t ++ [⟨t, recon⟩])

/-- A tile's entry removed (R31). -/
def State.uncache (s : State) (t : TileRef) : State := s.putCache (dropTile s.rd.cache t)

/-- The cache with room for one entry more: the least recently used one leaves a full cache (R146). -/
def evictLru (l : List CacheEntry) : List CacheEntry := if Config.cacheSize ≤ l.length then l.tail else l

/-- A reconstruction enters the cache as its most recent entry (R146). -/
def State.insertCache (s : State) (t : TileRef) (recon : Tile) : State :=
  s.putCache (evictLru (dropTile s.rd.cache t) ++ [⟨t, recon⟩])

/-- The content is CODED or PLAIN, so its pixels come from a stream (R20). -/
def Content.hasStream : Content → Bool
  | .unwritten => false
  | .uniform _ _ => false
  | .coded _ _ _ => true
  | .plain _ _ => true

/-- The map value of a tile's pixels where no decode is needed: the fill colour, the entry's colour, or the cached
reconstruction (R20, R69, R133). -/
def State.mapTile (s : State) (t : TileRef) : Option Tile :=
  match (s.entry t).content with
  | .unwritten => some (flatTile (s.ap t.ap).fill)
  | .uniform colour _ => some (flatTile colour)
  | .coded _ _ _ => s.cached t
  | .plain _ _ => s.cached t

/-- The state after the map value of a tile was taken: a cache hit moves the entry (R134). -/
def State.useMapTile (s : State) (t : TileRef) : State :=
  if (s.entry t).content.hasStream then s.touchCache t else s

/-! ### The decode queue (R136, R137) -/

/-- The first element that passes a test, changed. -/
def modifyFirst {α : Type} (p : α → Bool) (f : α → α) : List α → List α
  | [] => []
  | x :: rest => if p x then f x :: rest else x :: modifyFirst p f rest

/-- The entry is one that a waiter of the tile may join (R136). -/
def DecodeEntry.joinable (e : DecodeEntry) (t : TileRef) : Bool := decide (e.tile = t) && !e.discard

/-- A waiter joins the entry or the pending record of its tile, or makes a new one (R136, R137). -/
def State.joinDecode (s : State) (t : TileRef) (add : DecodeEntry → DecodeEntry) : State :=
  if s.rd.queue.any fun e => e.joinable t then
    s.putQueue (modifyFirst (fun e => e.joinable t) add s.rd.queue)
  else if s.rd.pendingList.any fun e => e.joinable t then
    s.setRd { s.rd with pendingList := modifyFirst (fun e => e.joinable t) add s.rd.pendingList }
  else if s.rd.queue.length < Config.decodeQueueSize then
    s.putQueue (s.rd.queue ++ [add ⟨t, [], none, .queued, false⟩])
  else s.setRd { s.rd with pendingList := s.rd.pendingList ++ [add ⟨t, [], none, .queued, false⟩] }

/-- The head of the pending list moves to the tail of the queue (R137). -/
def State.movePending (s : State) : Option State :=
  match s.rd.pendingList with
  | [] => none
  | e :: rest =>
    if s.rd.queue.length < Config.decodeQueueSize then
      some ((s.setRd { s.rd with pendingList := rest }).putQueue (s.rd.queue ++ [e]))
    else none

/-! ### Taking a read tile part (R133–R135) -/

/-- A slot's value of a pixel, where it is present. -/
def Slot.value (sl : Slot) (i : Nat) : Option Colour := if sl.has i then some (pixelOf sl.px i) else none

/-- The slots' value of a tile's pixel: the FILLING slot's, else the other occupied slot's (R74). -/
def slotsValue (filling other : Option Slot) (i : Nat) : Option Colour :=
  match filling.bind fun sl => sl.value i with
  | some c => some c
  | none => other.bind fun sl => sl.value i

/-- A part's pixel with its value taken from the slots, where one holds it. -/
def PartPixel.fromSlots (p : PartPixel) (filling other : Option Slot) : PartPixel :=
  { p with value := slotsValue filling other p.index }

/-- A part's pixel with a lacking value taken from a tile. -/
def PartPixel.fillFrom (p : PartPixel) (t : Tile) : PartPixel :=
  { p with value := some (p.value.getD (pixelOf t p.index)) }

/-- A read tile part is taken at its tile (R133, R134, R135). -/
def State.takeRead (s : State) (ref : PartRef) : State :=
  match s.part ref with
  | none => s
  | some part =>
    let t := part.tile
    let px := part.pixels.map fun p =>
      p.fromSlots ((s.fillingSlot t).map s.slot) ((s.otherSlot t).map s.slot)
    if px.all fun p => p.value.isSome then
      s.updPart ref fun q => { q with pixels := px, progress := .complete }
    else
      match s.mapTile t with
      | some tile =>
        (s.useMapTile t).updPart ref fun q =>
          { q with pixels := px.map fun p => p.fillFrom tile, progress := .complete }
      | none =>
        (s.joinDecode t fun e => { e with readers := e.readers ++ [ref] }).updPart ref fun q =>
          { q with pixels := px, progress := .proceeding }

/-! ### Decoding (R138–R143, R149) -/

/-- The IDLE decoder starts the queue's head: it reads the map entry and hands the store port its chunk reads (R138). -/
def State.startDecode (s : State) : Option State :=
  match s.rd.decoder, s.rd.queue with
  | none, e :: rest =>
    let entry := s.entry e.tile
    let chunks := entry.content.chunks
    some ((s.setRd { s.rd with
        queue := { e with phase := .decoding } :: rest
        decoder := some ⟨e.tile, entry, [], chunks.length, false⟩ }).setStore
      { s.store with
        decoder := s.store.decoder ++ chunks.map fun c => .chunkRead (s.pool.base + Config.block * c) })
  | _, _ => none

/-- A read waiter is served from the rebuilt tile (R142). -/
def State.serveReader (t : Tile) (s : State) (ref : PartRef) : State :=
  s.updPart ref fun q => { q with pixels := q.pixels.map fun p => p.fillFrom t, progress := .complete }

/-- A read waiter is failed (R143). -/
def State.failReader (s : State) (ref : PartRef) : State :=
  s.updPart ref fun q => { q with progress := .failed }

/-- The gathering waiter's absent pixels are filled and its slot becomes SEALED (R70). -/
def State.serveGather (s : State) (gather : Option SlotIx) (t : Tile) : State :=
  match gather with
  | none => s
  | some k => s.putSlot k { (s.slot k).gatherFrom t with state := .sealed }

/-- The decode's entry leaves the queue and the decoder becomes IDLE (R142). -/
def State.leaveDecoder (s : State) : State :=
  let q := s.rd.queue.tail
  (s.setRd { s.rd with decoder := none }).putQueue q

/-- The end of the decode in success (R142). -/
def State.decodeSucceeds (s : State) (e : DecodeEntry) (t : Tile) : State :=
  ((e.readers.foldl (State.serveReader t) (s.insertCache e.tile t)).serveGather e.gather t).leaveDecoder

/-- The end of the decode in failure (R143); CORRUPT is raised by the caller where it is due. -/
def State.decodeFails (s : State) (e : DecodeEntry) : State :=
  ((e.readers.foldl State.failReader s).serveGather e.gather (flatTile (s.ap e.tile.ap).fill)).leaveDecoder

/-! ### The start of a CLOSE (R148, R149) -/

/-- The decode in progress has received every answer, so its checks and rebuild are running (R139). -/
def Decode.isChecking (d : Decode) : Bool := decide (d.unanswered = 0)

/-- What a CLOSE start leaves of an entry of another aperture, or of the DECODING entry, which is marked. -/
def DecodeEntry.closed (a : ApIx) (e : DecodeEntry) : Option DecodeEntry :=
  if e.tile.ap ≠ a then some e
  else
    match e.phase with
    | .queued => none
    | .decoding => some { e with readers := [], gather := none, discard := true }

/-- The read path at the start of a CLOSE: queued entries, pending records and cache entries of the aperture leave, its
DECODING entry is marked for discard, and a decode of it whose checks are running ends (R148, R149). -/
def State.closeReadPath (s : State) (a : ApIx) : State :=
  let s1 := (s.setRd { s.rd with pendingList := s.rd.pendingList.filter fun e => decide (e.tile.ap ≠ a) }).putQueue
    (s.rd.queue.filterMap (DecodeEntry.closed a))
  let s2 := s1.putCache (s1.rd.cache.filter fun e => decide (e.tile.ap ≠ a))
  match s2.rd.decoder with
  | none => s2
  | some d => if d.tile.ap = a ∧ d.isChecking then s2.leaveDecoder else s2

end Sys2Proof.Machine
end

