-- ==== Sys2Proof/Machine/Assembly.lean ====
section
/-! DEFINITION. The assembly buffer (R56–R81): landings, openings, held writes and eviction, seal calls and seals, gathering,
the freeing of a slot, the forcing of a FLUSH, and what the start of a CLOSE frees. -/

namespace Sys2Proof.Machine

/-! ### Sealing and gathering (R65–R71) -/

/-- A sealed slot with absent pixels starts to gather: from the map or the cache at once, else by a merge decode (R69). -/
def State.startGather (s : State) (k : SlotIx) (t : TileRef) : State :=
  match s.mapTile t with
  | some tile => (s.useMapTile t).putSlot k { (s.slot k).gatherFrom tile with state := .sealed }
  | none => s.joinDecode t fun e => { e with gather := some k }

/-- A seal is made: the slot joins the seal queue, SEALED when its presence set is full, else GATHERING (R66). -/
def State.sealNow (s : State) (k : SlotIx) : State :=
  let sl := s.slot k
  let s1 := ((s.putOpenList (s.asm.openList.erase k)).putSlot k
    { sl with due := false, state := if sl.isFull then .sealed else .gathering })
  let s2 := s1.putSealQueue (s1.asm.sealQueue ++ [k])
  match sl.isFull, sl.tile with
  | false, some t => s2.startGather k t
  | _, _ => s2

/-- A seal is called for: made at once with no predecessor, held over with one (R65, R67). -/
def State.sealCall (s : State) (k : SlotIx) : State :=
  let sl := s.slot k
  if sl.state ≠ .filling then s
  else
    match sl.pred with
    | none => s.sealNow k
    | some _ =>
      if sl.due then s
      else (s.putOpenList (s.asm.openList.erase k)).putSlot k { sl with due := true }

/-! ### Landings, openings and held writes (R59–R64) -/

/-- A slot is opened for a tile: FILLING, nothing present, the tile's occupied slot its predecessor (R60). -/
def State.openSlot (s : State) (k : SlotIx) (t : TileRef) : State :=
  (s.putSlot k { s.slot k with
      state := .filling, tile := some t, present := 0, pred := s.otherSlot t, due := false, mark := false }).putOpenList
    (s.asm.openList ++ [k])

/-- The tail of the open list for a slot that stands in it (R62). -/
def moveToTail (l : List SlotIx) (k : SlotIx) : List SlotIx := if l.contains k then l.erase k ++ [k] else l

/-- A write tile part lands in its tile's FILLING slot (R59). -/
def State.land (s : State) (k : SlotIx) (ref : PartRef) (part : Part) : State :=
  let sl := (s.slot k).write part.pixels
  let s1 := ((s.putSlot k sl).putOpenList (moveToTail s.asm.openList k)).updPart ref fun q =>
    { q with progress := .complete }
  if sl.isFull || decide ((s.ap part.tile.ap).state = .freezing) then s1.sealCall k else s1

/-- The lowest-numbered FREE slot (R60). -/
def State.freeSlot? (s : State) : Option SlotIx := s.firstSlot fun sl => decide (sl.state = .free)

/-- A tile part becomes a held write and evicts the head of the open list (R63). -/
def State.hold (s : State) (ref : PartRef) (part : Part) : State :=
  let s1 := (s.putHeld (s.asm.held ++ [⟨ref, part.tile⟩])).updPart ref fun q => { q with progress := .proceeding }
  match s1.asm.openList with
  | [] => s1
  | k :: _ => s1.sealCall k

/-- A write tile part reaches the assembly buffer (R59, R60, R61, R63). -/
def State.takeWrite (s : State) (ref : PartRef) : State :=
  match s.part ref with
  | none => s
  | some part =>
    if part.pixels.all fun p => !p.value.isSome then s.updPart ref fun q => { q with progress := .complete }
    else
      match s.fillingSlot part.tile with
      | some k => s.land k ref part
      | none =>
        match s.freeSlot? with
        | some k => (s.openSlot k part.tile).land k ref part
        | none => s.hold ref part

/-- The lowest-numbered FREE slot is granted to the held write at the head of the list, which lands (R64). -/
def State.grantHeld (s : State) : Option State :=
  match s.asm.held, s.freeSlot? with
  | h :: rest, some k =>
    let s1 := (s.putHeld rest).openSlot k h.tile
    some ((s1.part h.ref).elim s1 fun part => s1.land k h.ref part)
  | _, _ => none

/-! ### Freeing (R67, R73) -/

/-- The successor of a freed slot loses its link, and a seal that is due is made (R67). -/
def State.unlinkSuccessor (s : State) (k : SlotIx) : State :=
  match s.firstSlot fun sl => decide (sl.pred = some k) with
  | none => s
  | some j =>
    let s1 := s.putSlot j { s.slot j with pred := none }
    if (s.slot j).due then s1.sealNow j else s1

/-- The ENCODING slot becomes FREE at a commit or an abandonment (R73). -/
def State.freeEncoding (s : State) (k : SlotIx) : State :=
  (s.putSlot k (s.slot k).freed).unlinkSuccessor k

/-! ### FLUSH and CLOSE on the slots (R76, R78, R79) -/

/-- A slot number inserted into a list in rising order of key, then of number. -/
def insertByKey (key : SlotIx → Nat) (k : SlotIx) : List SlotIx → List SlotIx
  | [] => [k]
  | x :: rest =>
    if key k < key x ∨ (key k = key x ∧ k ≤ x) then k :: x :: rest else x :: insertByKey key k rest

/-- Slot numbers in rising order of key, then of number. -/
def sortByKey (key : SlotIx → Nat) : List SlotIx → List SlotIx
  | [] => []
  | k :: rest => insertByKey key k (sortByKey key rest)

/-- A slot takes the flush mark (R76). -/
def State.markSlot (s : State) (k : SlotIx) : State := s.putSlot k { s.slot k with mark := true }

/-- A FLUSH start: the FILLING slots of the apertures that `on` picks take the flush mark, and then each is called to be
sealed, in the order that the free value `Config.flushSealKey` gives (R76, R78; assumption log 3). -/
def State.forceSlots (s : State) (on : ApIx → Bool) : State :=
  let ks := s.slotsWith fun sl =>
    decide (sl.state = .filling) && (sl.tile.elim false fun t => on t.ap)
  let order := sortByKey (fun k => Config.flushSealKey s.draws k.val) ks
  let marked := ks.foldl State.markSlot (s.setDraws (s.draws + 1))
  order.foldl State.sealCall marked

/-- Every flush mark cleared (R77). -/
def State.clearMarks (s : State) : State :=
  (s.setAsm { s.asm with slots := vecMap (fun _ sl => { sl with mark := false }) s.asm.slots }).markIf
    (s.asm.slots.toList.any Slot.mark)

/-- Some slot carries a flush mark (R77). -/
def State.anyMark (s : State) : Bool := s.asm.slots.toList.any Slot.mark

/-- A slot that the start of a CLOSE frees: FILLING, GATHERING or SEALED and of the aperture (R79). -/
def Slot.closable (sl : Slot) (a : ApIx) : Bool :=
  sl.occupiedBy a && decide (sl.state ≠ .encoding)

/-- The assembly buffer at the start of a CLOSE (R79). -/
def State.closeSlots (s : State) (a : ApIx) : State :=
  let stays := fun k => !(s.slot k).closable a
  let asm : Assembly :=
    { slots := vecMap (fun _ sl => if sl.closable a then sl.freed else sl) s.asm.slots
      openList := s.asm.openList.filter stays
      sealQueue := s.asm.sealQueue.filter stays
      held := s.asm.held.filter fun h => decide (h.tile.ap ≠ a) }
  (s.setAsm asm).markStale

/-- The condition of a FREEZE (R78): no occupied slot, no held write, and no write tile part of the aperture in the window
that has not landed. -/
def State.freezeMet (s : State) (a : ApIx) : Bool :=
  !(s.asm.slots.toList.any fun sl => sl.occupiedBy a) &&
  !(s.asm.held.any fun h => decide (h.tile.ap = a)) &&
  !(s.port.window.any fun r =>
      r.isWrite && !r.isComplete && r.parts.any fun p => decide (p.tile.ap = a) && !p.isFinished)

end Sys2Proof.Machine
end

