-- ==== Sys2Proof/Machine/Encoder.lean ====
section
/-! DEFINITION. The encoder (R113–R132) with the fit rule (R105, R106): the take, the end of coding, allocation and the pool
wait, the rounds of chunk writes, degradation, the commit check, the commit and the abandonment. -/

namespace Sys2Proof.Machine

/-! ### Releases and allocation (R43, R46) -/

/-- Chunks appended to the tail of the free list; giving none changes nothing (R46). The retry of a waiting request that
follows a release is `State.grantWaiting`. -/
def State.release (s : State) (chunks : List Nat) : State :=
  if chunks.isEmpty then s else s.putPool { s.pool with free := s.pool.free ++ chunks }

/-- `n` chunks taken from the head of the free list (R43). -/
def State.takeChunks (s : State) (n : Nat) : State :=
  s.putPool { s.pool with free := s.pool.free.drop n, waiting := none }

/-- The free list holds at least `n` chunks (R43). -/
def State.canGrant (s : State) (n : Nat) : Bool := decide (n ≤ s.pool.free.length)

/-- The encoder's record replaced, with its timer stopped. -/
def State.putOp (s : State) (op : TileOp) : State := s.putEnc ⟨some op, none⟩

/-- The tile's aperture is RETIRING (R118). -/
def State.isRetiring (s : State) (op : TileOp) : Bool := decide ((s.ap op.tile.ap).state = .retiring)

/-- The chunks on the held list, in list order (R113). -/
def TileOp.heldChunks (op : TileOp) : List Nat := op.held.filterMap id

/-! ### The take (R72, R103, R115) -/

/-- The effective step of a tile (R103). -/
def effectiveStep (x : Aperture) (isProtected : Bool) (applied : Nat) : Nat :=
  if isProtected then 0
  else
    match x.mode with
    | .fixed => x.floorStep
    | .curve => max x.floorStep applied

/-- The record that a take fills (R115). The rules give its round no value before round 1 starts; it stands at 0 until then,
which is the model's choice and is never read (DESIGN CHOICE, assumption log 31). -/
def State.takenOp (s : State) (k : SlotIx) (t : TileRef) : TileOp :=
  let x := s.ap t.ap
  let prot := x.protects t.ix
  { stage := .coding, slot := k, tile := t, gen := (s.entry t).gen + 1, isProtected := prot
    effStep := effectiveStep x prot s.ctl.applied
    allowance := if prot then 0 else s.ctl.refitLimit
    refits := 0, recode := false, result := none, mean := none, held := [], round := 0, unanswered := 0 }

/-- The IDLE encoder takes the SEALED head of the seal queue (R72, R115). -/
def State.takeSealed (s : State) : Option State :=
  match s.enc.op, s.asm.sealQueue with
  | none, k :: rest =>
    match (s.slot k).state, (s.slot k).tile with
    | .sealed, some t =>
      some (((s.putSealQueue rest).putSlot k { s.slot k with state := .encoding }).putOp (s.takenOp k t))
    | _, _ => none
  | _, _ => none

/-! ### The fit rule (R105, R106) -/

/-- The step of a tile's i-th refit; the 0-th is its first code (R105). -/
def stepOfRefit (fmt : Format) (s0 i : Nat) : Nat := if i = 0 then s0 else min (s0 + 2 * i) fmt.kmax

/-- After `i` refits the code misses the budget and its step is below kmax, so one more refit is called for while the
allowance lasts (R105). -/
def missesFit (fmt : Format) (budget s0 : Nat) (count : Nat → Nat) (i : Nat) : Bool :=
  decide (budget < count (stepOfRefit fmt s0 i)) && decide (stepOfRefit fmt s0 i < fmt.kmax)

/-- The refits made when the sequence ends, from `i` with `left` refits of the allowance left (R105). -/
def lastRefit (fmt : Format) (budget s0 : Nat) (count : Nat → Nat) : Nat → Nat → Nat
  | 0, i => i
  | left + 1, i => if missesFit fmt budget s0 count i then lastRefit fmt budget s0 count left (i + 1) else i

/-- The raw pixels of the tile in hand. -/
def State.rawTile (s : State) (op : TileOp) : Tile := (s.slot op.slot).px

/-- The chunk count of the tile in hand coded at a step (R82, R92). -/
def State.countAt (s : State) (op : TileOp) (step : Nat) : Nat :=
  (codeTile (s.ap op.tile.ap).fmt op.tile op.gen step (s.rawTile op)).chunkCount

/-- The result of a final code: PLAIN when its chunk count exceeds the PLAIN count (R106). -/
def State.finalResult (s : State) (op : TileOp) (step : Nat) : Result :=
  let fmt := (s.ap op.tile.ap).fmt
  let coded := codeTile fmt op.tile op.gen step (s.rawTile op)
  if fmt.plainCount < coded.chunkCount then plainTile fmt op.tile op.gen (s.rawTile op) else coded

/-! ### The commit and the abandonment (R28–R32, R73, R126, R127) -/

/-- The content a result gives the map (R126). -/
def Result.content (r : Result) (chunks : List Nat) : Content :=
  match r with
  | .uniform colour degraded => .uniform colour degraded
  | .coded step _ bodyLen _ => .coded step chunks bodyLen
  | .plain _ bodyLen _ => .plain chunks bodyLen

/-- The result is a degraded tile. -/
def Result.isDegraded : Result → Bool
  | .uniform _ degraded => degraded
  | .coded _ _ _ _ => false
  | .plain _ _ _ => false

/-- The tile map at a commit: the entry replaced with the next generation, the totals raised (R28, R32). -/
def TileMap.commit (m : TileMap) (i : Nat) (content : Content) (degraded : Bool) : TileMap :=
  { m with
    entries := putEntry m.entries i ⟨content, (entryAt m.entries i).gen + 1⟩
    tilesTotal := m.tilesTotal + 1
    degradedTotal := if degraded then m.degradedTotal + 1 else m.degradedTotal }

/-- The cache at a commit (R31). -/
def State.commitCache (s : State) (t : TileRef) (r : Result) : State :=
  match r with
  | .uniform _ _ => s.uncache t
  | .coded _ _ _ recon => (s.uncache t).insertCache t recon
  | .plain _ _ recon => (s.uncache t).insertCache t recon

/-- The committed-tile count at a commit whose old content is given (R5, R30). -/
def State.countCommitted (s : State) (a : ApIx) (old : Content) : State :=
  if old = .unwritten then s.putAp a { s.ap a with committed := (s.ap a).committed + 1 } else s

/-- The completion counted by step control (R99, R100). -/
def State.slewStep (s : State) : State :=
  (s.setCtl s.ctl.slew).markIf (decide (s.ctl.slew.applied ≠ s.ctl.applied))

/-- The commit of the tile in hand (R28–R31, R73, R126): the entry replaced, the old chunks released, the cache updated, the
count raised, the record emptied, the slot freed with its successor's link and due seal, the completion slewed from the
band that the release leaves, and DEGRADED raised for a degraded tile. -/
def State.commit (s : State) (op : TileOp) (r : Result) : State :=
  let old := (s.entry op.tile).content
  let s1 := (s.setMap (s.map.commit (s.entryIx op.tile) (r.content op.heldChunks) r.isDegraded)).markStale
  let s2 := ((s1.release old.chunks).commitCache op.tile r).countCommitted op.tile.ap old
  let s3 := ((s2.putEnc Encoder.reset).freeEncoding op.slot).slewStep
  if r.isDegraded then s3.raise .degraded else s3

/-- The abandonment of the tile in hand (R127). -/
def State.abandon (s : State) (op : TileOp) : State :=
  ((s.release op.heldChunks).putEnc Encoder.reset).freeEncoding op.slot

/-- The commit check (R126). -/
def State.commitCheck (s : State) (op : TileOp) (r : Result) : State :=
  if s.isRetiring op then s.abandon op else s.commit op r

/-- A degradation: the held chunks released, the result the mean colour, then the commit check (R124). -/
def State.degrade (s : State) (op : TileOp) : State :=
  (s.release op.heldChunks).commitCheck { op with held := [] }
    (.uniform (op.mean.getD (meanColour (s.rawTile op))) true)

/-! ### Chunk writes (R122, R123, R125) -/

/-- The writes of a round: a chunk for each position, carrying the stream's bytes of that position (R122). -/
def State.chunkWrites (s : State) (stream : List Byte) (targets : List (Nat × Nat)) : List StoreReq :=
  targets.map fun (j, c) => .chunkWrite j c (s.pool.base + Config.block * c) (chunkData stream j)

/-- A round of writes starts (R122, R123). -/
def State.startRound (s : State) (op : TileOp) (round : Nat) (held : List (Option Nat))
    (targets : List (Nat × Nat)) : State :=
  let stream := (op.result.map Result.stream).getD []
  (s.putOp { op with
      stage := .writing, recode := false, round := round, held := held, unanswered := targets.length }).setStore
    { s.store with encoder := s.store.encoder ++ s.chunkWrites stream targets }

/-- The first round over chunks just granted (R119, R120, R121). -/
def State.startWriting (s : State) (op : TileOp) (chunks : List Nat) : State :=
  s.startRound op 1 (chunks.map some) (mapFrom (fun j c => (j, c)) 0 chunks)

/-- The positions of a chunk list that are open, rising. -/
def openPositions (held : List (Option Nat)) : List Nat :=
  (mapFrom (fun j h => (j, h)) 0 held).filterMap fun (j, h) => if h.isNone then some j else none

/-- The open positions filled in list order (R45). -/
def fillOpen : List (Option Nat) → List Nat → List (Option Nat)
  | [], _ => []
  | some c :: rest, cs => some c :: fillOpen rest cs
  | none :: rest, [] => none :: fillOpen rest []
  | none :: rest, c :: cs => some c :: fillOpen rest cs

/-- The end of a round of writes (R123, R125). -/
def State.endRound (s : State) (op : TileOp) : State :=
  let gaps := openPositions op.held
  match gaps, op.result with
  | [], some r => s.commitCheck op r
  | _, _ =>
    if op.round = 1 then
      if s.isRetiring op then s.abandon op
      else if s.canGrant gaps.length then
        let chunks := s.pool.free.take gaps.length
        (s.takeChunks gaps.length).startRound op 2 (fillOpen op.held chunks) (gaps.zip chunks)
      else s.degrade op
    else s.degrade op

/-- The store port hands the encoder the answer to a chunk write (R47, R123, R125). -/
def State.chunkWritten (s : State) (position chunk : Nat) (status : StoreStatus) : State :=
  match s.enc.op with
  | none => s
  | some op =>
    let op1 : TileOp :=
      { op with
        unanswered := op.unanswered - 1
        held := match status with
          | .okay => op.held
          | .error => op.held.set position none }
    let s1 :=
      match status with
      | .okay => s.putEnc { s.enc with op := some op1 }
      | .error =>
        ((s.putEnc { s.enc with op := some op1 }).putPool
          { s.pool with withdrawn := s.pool.withdrawn ++ [chunk] }).raise .store
    if op1.unanswered = 0 then s1.endRound op1 else s1

/-! ### Coding, the pool wait and the re-code (R116–R121) -/

/-- The first request for a result's chunks: an allocation point, then a grant or the start of the pool wait (R118,
R119). -/
def State.firstRequest (s : State) (op : TileOp) (n : Nat) : State :=
  if s.isRetiring op then s.abandon op
  else if s.canGrant n then (s.takeChunks n).startWriting op (s.pool.free.take n)
  else
    (s.putPool { s.pool with waiting := some n }).putEnc ⟨some { op with stage := .poolWait }, some s.pool.limit⟩

/-- The tile in hand is in its first coding, not in a re-code. -/
def TileOp.isCoding (op : TileOp) : Bool := decide (op.stage = .coding) && !op.recode

/-- The tile in hand is in the re-code after an expiry. -/
def TileOp.isRecoding (op : TileOp) : Bool := decide (op.stage = .coding) && op.recode

/-- The end of a refit's coding, when the fit rule has called for one (R105, R108). -/
def State.endRefit (s : State) (op : TileOp) : State :=
  let x := s.ap op.tile.ap
  if (uniformColour (s.rawTile op)).isNone && decide (op.refits < op.allowance) &&
      missesFit x.fmt x.budget op.effStep (s.countAt op) op.refits then
    (s.addRefits 1).putOp { op with refits := op.refits + 1 }
  else s

/-- The end of coding (R116). The refits that the fit rule still calls for end at this event too: the end of each refit is
"no later than the end of coding". -/
def State.endCoding (s : State) (op : TileOp) : State :=
  match uniformColour (s.rawTile op) with
  | some c => s.commitCheck op (.uniform c false)
  | none =>
    let x := s.ap op.tile.ap
    let refits := lastRefit x.fmt x.budget op.effStep (s.countAt op) (op.allowance - op.refits) op.refits
    let r := s.finalResult op (stepOfRefit x.fmt op.effStep refits)
    let op1 := { op with refits := refits, result := some r, mean := some (meanColour (s.rawTile op)) }
    ((s.addRefits (refits - op.refits)).putOp op1).firstRequest op1 r.chunkCount

/-- The waiting request retried after a release: granted when the free list now holds enough, which stops the timer and is
an allocation point (R44, R118, R120). -/
def State.grantWaiting (s : State) : Option State :=
  match s.pool.waiting, s.enc.op with
  | some n, some op =>
    if s.canGrant n then
      let chunks := s.pool.free.take n
      let op1 := { op with held := chunks.map some }
      let s1 := (s.takeChunks n).putOp op1
      some (if s1.isRetiring op1 then s1.abandon op1 else s1.startWriting op1 chunks)
    else none
  | _, _ => none

/-- The pool-wait timer runs out (R121). -/
def State.expireWait (s : State) (op : TileOp) : State :=
  let s1 := s.putPool { s.pool with waiting := none }
  if op.isProtected then s1.degrade op
  else s1.putOp { op with stage := .coding, recode := true }

/-- The end of the re-code at kmax (R121). -/
def State.endRecode (s : State) (op : TileOp) : State :=
  let fmt := (s.ap op.tile.ap).fmt
  let r := codeTile fmt op.tile op.gen fmt.kmax (s.rawTile op)
  let op1 := { op with result := some r }
  if s.isRetiring op then s.abandon op1
  else if s.canGrant r.chunkCount then
    (s.takeChunks r.chunkCount).startWriting op1 (s.pool.free.take r.chunkCount)
  else s.degrade op1

/-! ### The retire walk (R34–R36) -/

/-- A visit of the retire walk: the entry's chunks released, the entry made UNWRITTEN with generation 0 (R35). -/
def State.visitEntry (s : State) (w : Walk) : State :=
  let i := (s.ap w.ap).extFirst + w.next
  let chunks := (entryAt s.map.entries i).content.chunks
  (s.setMap { s.map with
      entries := putEntry s.map.entries i MapEntry.fresh
      walk := some ⟨w.ap, w.next + 1⟩ }).release chunks

/-- The encoder holds a tile of the aperture (R36). -/
def State.encoderHolds (s : State) (a : ApIx) : Bool := s.enc.op.any fun op => decide (op.tile.ap = a)

/-- The walk of an aperture whose last entry has been visited while the encoder holds no tile of it (R36). -/
def State.walkDone (s : State) : Option ApIx :=
  s.map.walk.bind fun w =>
    if (s.ap w.ap).extLen ≤ w.next ∧ s.encoderHolds w.ap = false then some w.ap else none

/-- The end of the retire walk at the tile map and the aperture record (R36). -/
def State.endWalk (s : State) (a : ApIx) : State :=
  let x := s.ap a
  (s.setMap { s.map with
      freeExtents := returnExtent s.map.freeExtents ⟨x.extFirst, x.extLen⟩
      walk := none }).putAp a
    { x with state := .closed, extFirst := 0, extLen := 0, rects := [], committed := 0 }

end Sys2Proof.Machine
end

