-- ==== Sys2Proof/Machine/Ports.lean ====
section
/-! DEFINITION. The composer port (R151–R159): the take of a request, tile order, responses, and what the start of a CLOSE
answers; and the store port (R160–R164): the turn, and the answers handed to their sources. -/

namespace Sys2Proof.Machine

/-! ### The take (R152–R154, R159) -/

/-- The request as the window holds it, its class and tile parts fixed at the take (R152, R153). -/
def State.takenRequest (s : State) (q : BusRequest) : Request :=
  let cls := s.classify q.kind q.addr.toNat
  { id := s.port.nextId, kind := q.kind, addr := q.addr, cls := cls
    parts := match cls with
      | .aperture a => partsOf a (s.ap a) q.kind q.addr.toNat
      | .passThrough => []
      | .refused _ => []
    storeData := []
    outcome := match cls with
      | .aperture _ => .undetermined
      | .passThrough => .undetermined
      | .refused _ => .error }

/-- A pass-through request as the store port's composer source gets it (R159). -/
def Request.forward (r : Request) : StoreReq :=
  match r.kind with
  | .read n => .passRead r.id r.addr n
  | .write bytes => .passWrite r.id r.addr bytes

/-- What a request's class does at its take: a refusal raises REQUEST and replaces the last-refused record (R154); a
pass-through request goes to the store port (R159). -/
def State.actOnClass (s : State) (r : Request) : State :=
  match r.cls with
  | .refused reason =>
    ((s.setPort { s.port with lastReason := some reason, lastAddr := r.addr }).markStale).raise .request
  | .passThrough => s.setStore { s.store with composer := s.store.composer ++ [r.forward] }
  | .aperture _ => s

/-- The hold that stops the composer bus: the window is full or RESET is asserted (R152, R163; the table of signals). -/
def State.holdsBus (s : State) : Bool := s.resetLine || decide (Config.windowSize ≤ s.port.window.length)

/-- The composer port takes the request that the bus presents, unless it holds the bus (R152, R163). -/
def State.takeBus (s : State) : Option State :=
  match s.port.busHeld with
  | [] => none
  | q :: rest =>
    if s.holdsBus then none
    else
      let r := s.takenRequest q
      let s1 := s.setPort { s.port with busHeld := rest, nextId := s.port.nextId + 1 }
      some ((s1.putWindow (s1.port.window ++ [r])).actOnClass r)

/-- A request presented on the composer bus. -/
def State.present (s : State) (q : BusRequest) : State :=
  s.setPort { s.port with busHeld := s.port.busHeld ++ [q] }

/-! ### Tile order (R156, R157) -/

/-- A tile part may proceed: a WRITE's when every earlier request at its tile is complete, a READ's when every earlier WRITE
at its tile is (R156). -/
def mayProceed (earlier : List Request) (r : Request) (p : Part) : Bool :=
  earlier.all fun q => !q.touches p.tile || q.isComplete || (!r.isWrite && !q.isWrite)

/-- The first WAITING tile part, in window order and then in address order, that may proceed (R157). -/
def nextPart (earlier : List Request) : List Request → Option (PartRef × Bool)
  | [] => none
  | r :: rest =>
    match r.parts.findIdx? fun p =>
        !r.isComplete && decide (p.progress = .waiting) && mayProceed earlier r p with
    | some i => some (⟨r.id, i⟩, r.isWrite)
    | none => nextPart (earlier ++ [r]) rest

/-- One tile part proceeds and is handed to its block (R156). -/
def State.proceedNext (s : State) : Option State :=
  (nextPart [] s.port.window).map fun (ref, isWrite) =>
    let s1 := s.updPart ref fun p => { p with progress := .proceeding }
    if isWrite then s1.takeWrite ref else s1.takeRead ref

/-! ### Responses (R155) -/

/-- The response of a complete request (R155). -/
def Request.response (r : Request) : Response := ⟨r.id, decide (r.outcome = .okay), r.responseData⟩

/-- The request at the head of the window is complete: its response leaves (R155). -/
def State.respond (s : State) : Option State :=
  match s.port.window with
  | [] => none
  | r :: rest =>
    if r.isComplete then
      some ((s.setPort { s.port with sent := s.port.sent ++ [r.response] }).putWindow rest)
    else none

/-- A request at the start of a CLOSE of aperture `a`: one of it that is not complete is answered ERROR (RETIRED), its
unfinished parts dropped (R158). -/
def Request.retire (a : ApIx) (r : Request) : Request :=
  if r.cls = .aperture a ∧ r.outcome = .undetermined then
    { r with outcome := .error, parts := r.parts.filter Part.isFinished }
  else r

/-- The composer port at the start of a CLOSE (R158). -/
def State.closePort (s : State) (a : ApIx) : State :=
  s.setPort { s.port with window := s.port.window.map (Request.retire a) }

/-! ### The store port (R160–R162) -/

/-- The source of a request (R160). -/
def StoreReq.source : StoreReq → Source
  | .passRead _ _ _ => .composer
  | .passWrite _ _ _ => .composer
  | .chunkRead _ => .decoder
  | .chunkWrite _ _ _ _ => .encoder
  | .statusWrite _ _ => .status

/-- The next source in the cyclic order (R161). -/
def Source.next : Source → Source
  | .composer => .decoder
  | .decoder => .encoder
  | .encoder => .status
  | .status => .composer

/-- A source's list (R160). -/
def StorePort.listOf (p : StorePort) : Source → List StoreReq
  | .composer => p.composer
  | .decoder => p.decoder
  | .encoder => p.encoder
  | .status => p.status

/-- A source's list with its head taken. -/
def StorePort.dropHead (p : StorePort) : Source → StorePort
  | .composer => { p with composer := p.composer.tail }
  | .decoder => { p with decoder := p.decoder.tail }
  | .encoder => { p with encoder := p.encoder.tail }
  | .status => { p with status := p.status.tail }

/-- The source that the arbiter grants: from the pointer on, the first whose list is not empty (R161). -/
def StorePort.chosen (p : StorePort) : Option Source :=
  [p.pointer, p.pointer.next, p.pointer.next.next, p.pointer.next.next.next].find? fun x =>
    !(p.listOf x).isEmpty

/-- A turn of the page store (R161). -/
def StorePort.turn (p : StorePort) : StorePort :=
  match p.chosen with
  | none => p
  | some x =>
    match (p.listOf x).head? with
    | none => p
    | some r => { p.dropHead x with outstanding := p.outstanding ++ [r], pointer := x.next }

/-- The answered request leaves the outstanding list (R162). -/
def State.popOutstanding (s : State) : State :=
  s.setStore { s.store with outstanding := s.store.outstanding.tail }

/-- The ignore count lowered by a discarded answer (R164). -/
def State.ignoreAnswer (s : State) : State := s.setStore { s.store with ignore := s.store.ignore - 1 }

/-- A pass-through request is complete with the store's status and data (R159). -/
def State.passAnswered (s : State) (id : Nat) (status : StoreStatus) (data : List Byte) : State :=
  s.updRequest id fun r =>
    match status with
    | .okay => { r with outcome := .okay, storeData := data }
    | .error => { r with outcome := .error }

/-- A decode with the answer to one of its chunk reads (R139). -/
def Decode.receive (d : Decode) (status : StoreStatus) (data : List Byte) : Decode :=
  match status with
  | .okay => { d with bytes := d.bytes ++ data, unanswered := d.unanswered - 1 }
  | .error => { d with unanswered := d.unanswered - 1, failed := true }

/-- The decode in progress replaced, with STORE raised where the answer is to raise it (R139, R149). -/
def State.putDecode (s : State) (d : Decode) (raises : Bool) : State :=
  let s1 := s.setRd { s.rd with decoder := some d }
  if raises then s1.raise .store else s1

/-- The answer to a chunk read reaches the decoder (R139, R149). -/
def State.chunkAnswered (s : State) (status : StoreStatus) (data : List Byte) : State :=
  match s.rd.decoder, s.rd.queue with
  | some d, e :: _ =>
    let d1 := d.receive status data
    let s1 := s.putDecode d1 (decide (status = .error) && !e.discard)
    if d1.unanswered = 0 then
      if e.discard then s1.leaveDecoder
      else if d1.failed then s1.decodeFails e
      else s1
    else s1
  | _, _ => s

/-- The end of the checks and rebuild of an assembled stream (R140, R142, R143); nothing when none are running. -/
def State.endDecode (s : State) : State :=
  match s.rd.decoder, s.rd.queue with
  | some d, e :: _ =>
    if d.isChecking then
      match decodeStream (s.ap d.tile.ap).fmt d.tile d.entry d.bytes with
      | some t => s.decodeSucceeds e t
      | none => (s.raise .corrupt).decodeFails e
    else s
  | _, _ => s

/-- The answer to a status write (R187): after an ERROR the block is left not stale, unless a SET STATUS with the enable set
has been executed since the write was issued. -/
def State.statusAnswered (s : State) (status : StoreStatus) : State :=
  match status with
  | .okay => s.setSt { s.st with inFlight := false }
  | .error =>
    let s1 := s.raiseQuietly .store
    s1.setSt { s1.st with inFlight := false, stale := s1.st.stale && s1.st.reissue }

end Sys2Proof.Machine
end

