-- ==== Sys2Proof/Machine/Orders.lean ====
section
/-! DEFINITION. The order unit (R172–R181): the arrival of an order, its validation and execution, the two long orders and
their ends, HALT, and the reading of an order's frame (R176). -/

namespace Sys2Proof.Machine

/-! ### The last order record (R174, R175) -/

/-- The aperture that three bits name. -/
def apOf (ap : BitVec 3) : ApIx := ⟨ap.toNat, ap.isLt⟩

/-- The aperture byte of an order's record: bits 2..0 of byte 1 for CLOSE, FLUSH without ALL, THAW, PROTECT and OPEN, else
0xFF (R175). -/
def Order.recordAp : Order → Byte
  | .nop => 0xFF
  | .halt => 0xFF
  | .close ap _ _ => ap.setWidth 8
  | .flush all _ ap _ _ => if all then 0xFF else ap.setWidth 8
  | .thaw ap _ _ => ap.setWidth 8
  | .clearFaults _ _ => 0xFF
  | .protect _ ap _ _ _ _ _ _ => ap.setWidth 8
  | .setStatus _ _ => 0xFF
  | .openOrder f => f.ap.setWidth 8
  | .setPool _ => 0xFF
  | .setCurve _ => 0xFF
  | .undefined _ => 0xFF

/-- The end of an order's execution: the record replaced, the count raised, the unit IDLE (R174, R175). -/
def State.concludeOrder (s : State) (o : Order) (result : OrderResult) (reason : Option OrderReason) : State :=
  (s.setOrd { s.ord with
    executing := none, record := ⟨o.byte0, o.recordAp, result, reason, 0⟩
    completed := s.ord.completed + 1 }).markStale

/-- The order completes DONE. -/
def State.orderDone (s : State) (o : Order) : State := s.concludeOrder o .done none

/-- The order is refused (R174). -/
def State.orderRefused (s : State) (o : Order) (reason : OrderReason) : State :=
  (s.concludeOrder o .refused (some reason)).raise .order

/-- The order starts and goes on (R174). -/
def State.orderStarts (s : State) (o : Order) : State :=
  (s.setOrd { s.ord with executing := some o }).markStale

/-! ### CLEAR FAULTS, SET STATUS and THAW (R17, R177, R183, R186) -/

def State.runClearFaults (s : State) (o : Order) (faults b2 : Byte) : State :=
  if b2 ≠ 0 then s.orderRefused o .badParam
  else (s.putFaults (clearSticky s.st.faults faults)).orderDone o

/-- The address of a SET STATUS field, its bits 35..0 (R186). -/
def statusAddr (field : BitVec 40) : Nat := (field.setWidth 36).toNat

/-- The status unit after an accepted SET STATUS (R186). With the enable clear the stale mark is removed. -/
def StatusUnit.configure (st : StatusUnit) (addr : Nat) (enable : Bool) (mask : Byte) : StatusUnit :=
  { st with
    addr := addr, enable := enable, mask := mask, attn := attnOf st.faults mask, stale := enable
    reissue := st.reissue || enable }

def State.runSetStatus (s : State) (o : Order) (field : BitVec 40) (mask : Byte) : State :=
  let addr := statusAddr field
  let enable := field.getLsbD 39
  if field.extractLsb' 36 3 ≠ 0 ∨ field.extractLsb' 0 7 ≠ 0 then s.orderRefused o .badParam
  else if enable && (s.meetsPool addr Config.statusSize || s.meetsAperture addr Config.statusSize) then
    s.orderRefused o .overlap
  else
    let s1 := s.orderDone o
    s1.setSt (s1.st.configure addr enable mask)

def State.runThaw (s : State) (o : Order) (ap : BitVec 3) (zero : BitVec 5) (b2 : Byte) : State :=
  let a := apOf ap
  if zero ≠ 0 ∨ b2 ≠ 0 then s.orderRefused o .badParam
  else if (s.ap a).state = .frozen then (s.putAp a { s.ap a with state := .opened }).orderDone o
  else s.orderRefused o .state

/-! ### PROTECT (R18) -/

/-- PROTECT is accepted in this aperture state (R18 step 2). -/
def ApState.protectable : ApState → Bool
  | .closed => false
  | .opened => true
  | .freezing => true
  | .frozen => true
  | .retiring => false

/-- The rectangle of an ADD lies in the aperture (R18 step 3). -/
def Aperture.holdsRect (x : Aperture) (q : Rect) : Bool :=
  decide (q.x0 ≤ q.x1) && decide (q.x1 < x.width) && decide (q.y0 ≤ q.y1) && decide (q.y1 < x.height)

def State.runProtect (s : State) (o : Order) (clear : Bool) (ap : BitVec 3) (zero : BitVec 4)
    (x0 y0 x1 y1 b6 : Byte) : State :=
  let a := apOf ap
  let x := s.ap a
  let q : Rect := ⟨x0.toNat, y0.toNat, x1.toNat, y1.toNat⟩
  if zero ≠ 0 ∨ b6 ≠ 0 ∨ (clear = true ∧ (x0 ≠ 0 ∨ y0 ≠ 0 ∨ x1 ≠ 0 ∨ y1 ≠ 0)) then s.orderRefused o .badParam
  else if x.state.protectable = false then s.orderRefused o .state
  else if clear then (s.putAp a { x with rects := [] }).orderDone o
  else if x.holdsRect q = false then s.orderRefused o .badParam
  else if Config.protectSize ≤ x.rects.length then s.orderRefused o .full
  else (s.putAp a { x with rects := x.rects ++ [q] }).orderDone o

/-! ### OPEN (R15, R16) -/

/-- The format a format bit names (R1). -/
def formatOf (fmt : BitVec 1) : Format := if fmt = 0 then .rgb8 else .rgb16

/-- The record that an accepted OPEN loads (R16). -/
def openedRecord (f : OpenFields) (first : Nat) : Aperture :=
  let w := f.width.toNat + 1
  let h := f.height.toNat + 1
  { state := .opened, fmt := formatOf f.fmt, mode := if f.mode = 0 then .fixed else .curve
    floorStep := f.floorStep.toNat, budget := f.budget.toNat, base := f.base.toNat
    width := w, height := h, fillR := f.fillR, fillG := f.fillG, fillB := f.fillB
    extFirst := first, extLen := w * h, rects := [], committed := 0 }

/-- The size of the aperture an OPEN describes (R7). -/
def openSize (f : OpenFields) : Nat :=
  byteSize (formatOf f.fmt) (f.width.toNat + 1) (f.height.toNat + 1)

/-- Step 1 of OPEN's checks fails (R15). -/
def openBadParam (f : OpenFields) : Bool :=
  decide (f.zero1 ≠ 0) || decide (f.zero2 ≠ 0) || decide (1 < f.mode.toNat) ||
    decide (f.budget.toNat < 2) || decide (25 < f.budget.toNat) ||
    decide (f.base.toNat % Config.block ≠ 0) || decide (Config.storeEnd < f.base.toNat + openSize f) ||
    decide (f.zero14 ≠ 0)

def State.runOpen (s : State) (o : Order) (f : OpenFields) : State :=
  let a := apOf f.ap
  let base := f.base.toNat
  if openBadParam f then s.orderRefused o .badParam
  else if (s.ap a).isLive then s.orderRefused o .state
  else if s.pool.count = 0 then s.orderRefused o .noPool
  else if s.meetsAperture base (openSize f) || s.meetsPool base (openSize f) || s.meetsStatus base (openSize f) then
    s.orderRefused o .overlap
  else
    match takeExtent s.map.freeExtents ((f.width.toNat + 1) * (f.height.toNat + 1)) with
    | none => s.orderRefused o .noSpace
    | some (first, left) =>
      let x := openedRecord f first
      (((s.setMap { s.map with
          entries := clearEntries s.map.entries first x.extLen, freeExtents := left }).putAp a x).markStale).orderDone o

/-! ### SET POOL and SET CURVE (R52, R53, R109, R110) -/

/-- Step 1 of SET POOL's checks fails (R52). -/
def poolBadParam (f : PoolFields) : Bool :=
  decide (f.count.toNat = 0) || decide (Config.maxChunks < f.count.toNat) ||
    decide (f.count.toNat < f.low.toNat) || decide (f.limit = 0) ||
    decide (f.base.toNat % Config.block ≠ 0) ||
    decide (Config.storeEnd < f.base.toNat + Config.block * f.count.toNat) ||
    decide (f.zero13 ≠ 0) || decide (f.zero14 ≠ 0)

/-- The pool that an accepted SET POOL defines (R53). -/
def poolOf (f : PoolFields) (old : Pool) : Pool :=
  { base := f.base.toNat, count := f.count.toNat, free := List.range f.count.toNat, withdrawn := []
    low := f.low.toNat, limit := f.limit.toNat, waiting := old.waiting }

def State.runSetPool (s : State) (o : Order) (f : PoolFields) : State :=
  if poolBadParam f then s.orderRefused o .badParam
  else if s.aps.toList.any Aperture.isLive then s.orderRefused o .poolBusy
  else if s.meetsStatus f.base.toNat (Config.block * f.count.toNat) then s.orderRefused o .overlap
  else (s.putPool (poolOf f s.pool)).orderDone o

/-- SET CURVE's check fails (R109). -/
def curveBadParam (f : CurveFields) : Bool :=
  f.steps.toList.any (fun b => decide (15 < b.toNat)) || decide (f.up = 0) || decide (f.down = 0) ||
    decide (3 < f.refit.toNat) || decide (f.zero12 ≠ 0) || decide (f.zero13 ≠ 0) || decide (f.zero14 ≠ 0)

/-- Step control with an accepted SET CURVE's settings, its counters 0, the applied step kept (R110). -/
def loadCurve (f : CurveFields) (c : StepControl) : StepControl :=
  { c with
    curve := vecMap (fun _ b => b.toNat) f.steps
    up := f.up.toNat, down := f.down.toNat, refitLimit := f.refit.toNat, upCount := 0, downCount := 0 }

def State.runSetCurve (s : State) (o : Order) (f : CurveFields) : State :=
  if curveBadParam f then s.orderRefused o .badParam
  else ((s.setCtl (loadCurve f s.ctl)).evalPool).orderDone o

/-! ### CLOSE and FLUSH (R178, R179) -/

/-- The start of a CLOSE: the aperture RETIRING, and every block's part of it (R34, R79, R148, R158, R178). -/
def State.startClose (s : State) (a : ApIx) : State :=
  let s1 := (((s.putAp a { s.ap a with state := .retiring }).closeSlots a).closePort a).closeReadPath a
  s1.setMap { s1.map with walk := some ⟨a, 0⟩ }

def State.runClose (s : State) (o : Order) (ap : BitVec 3) (zero : BitVec 5) (b2 : Byte) : State :=
  let a := apOf ap
  if zero ≠ 0 ∨ b2 ≠ 0 then s.orderRefused o .badParam
  else
    match (s.ap a).state with
    | .closed => s.orderRefused o .state
    | .retiring => s.orderRefused o .state
    | .opened => (s.startClose a).orderStarts o
    | .freezing => (s.startClose a).orderStarts o
    | .frozen => (s.startClose a).orderStarts o

/-- The start of a FLUSH of one aperture (R76, R78, R179). -/
def State.flushOne (s : State) (o : Order) (a : ApIx) (freeze : Bool) : State :=
  match (s.ap a).state with
  | .closed => s.orderRefused o .state
  | .frozen => s.orderDone o
  | .opened =>
    let s1 := if freeze then s.putAp a { s.ap a with state := .freezing } else s
    (s1.forceSlots fun b => decide (b = a)).orderStarts o
  | .freezing => s.orderRefused o .state
  | .retiring => s.orderRefused o .state

def State.runFlush (s : State) (o : Order) (all freeze : Bool) (ap : BitVec 3) (zero : BitVec 3) (b2 : Byte) :
    State :=
  if zero ≠ 0 ∨ b2 ≠ 0 ∨ (freeze = true ∧ all = true) ∨ (all = true ∧ ap ≠ 0) then s.orderRefused o .badParam
  else if all then (s.forceSlots fun b => decide ((s.ap b).state = .opened)).orderStarts o
  else s.flushOne o (apOf ap) freeze

/-! ### Execution (R174) -/

/-- The execution of an order taken by the order unit (R174). HALT and NOP are never taken (R173). -/
def State.execute (s : State) (o : Order) : State :=
  match o with
  | .nop => s
  | .halt => s
  | .close ap zero b2 => s.runClose o ap zero b2
  | .flush all freeze ap zero b2 => s.runFlush o all freeze ap zero b2
  | .thaw ap zero b2 => s.runThaw o ap zero b2
  | .clearFaults faults b2 => s.runClearFaults o faults b2
  | .protect clear ap zero x0 y0 x1 y1 b6 => s.runProtect o clear ap zero x0 y0 x1 y1 b6
  | .setStatus field mask => s.runSetStatus o field mask
  | .openOrder f => s.runOpen o f
  | .setPool f => s.runSetPool o f
  | .setCurve f => s.runSetCurve o f
  | .undefined _ => s.orderRefused o .undefined

/-- The IDLE order unit takes the head of its queue for execution (R174). -/
def State.takeOrder (s : State) : Option State :=
  match s.ord.executing, s.ord.queue with
  | none, o :: rest => some (((s.setOrd { s.ord with queue := rest }).markStale).execute o)
  | _, _ => none

/-- A FREEZE whose condition is met ends with its aperture FROZEN (R78). -/
def State.endFreeze (s : State) (o : Order) (a : ApIx) : State :=
  (s.putAp a { s.ap a with state := .frozen }).orderDone o

/-- The end of an executing CLOSE or FLUSH, once its condition is met (R36, R77, R78). -/
def State.endLongOrder (s : State) : Option State :=
  match s.ord.executing with
  | none => none
  | some o =>
    match o with
    | .close _ _ _ => s.walkDone.map fun a => (s.endWalk a).orderDone o
    | .flush all freeze ap _ _ =>
      if freeze && !all then (if s.freezeMet (apOf ap) then some (s.endFreeze o (apOf ap)) else none)
      else if s.anyMark then none
      else some (s.orderDone o)
    | .nop => none
    | .halt => none
    | .thaw _ _ _ => none
    | .clearFaults _ _ => none
    | .protect _ _ _ _ _ _ _ _ => none
    | .setStatus _ _ => none
    | .openOrder _ => none
    | .setPool _ => none
    | .setCurve _ => none
    | .undefined _ => none

/-! ### HALT (R180) -/

/-- A FREEZING aperture returns to OPEN when HALT ends its FLUSH (R78). -/
def State.unfreeze (s : State) (a : ApIx) : State :=
  if (s.ap a).state = .freezing then s.putAp a { s.ap a with state := .opened } else s

/-- What HALT does to the executing order, by its kind: the state, and the aperture and result of the record (R180). -/
def State.haltExecuting (s : State) : State × Byte × OrderResult :=
  match s.ord.executing with
  | none => (s, 0xFF, .done)
  | some o =>
    match o with
    | .flush all freeze ap _ _ =>
      let s1 := s.clearMarks
      let s2 := if freeze && !all then s1.unfreeze (apOf ap) else s1
      (s2.setOrd { s2.ord with executing := none, completed := s2.ord.completed + 1 }, o.recordAp, .halted)
    | .close _ _ _ => (s, o.recordAp, .none)
    | .nop => (s, 0xFF, .done)
    | .halt => (s, 0xFF, .done)
    | .thaw _ _ _ => (s, 0xFF, .done)
    | .clearFaults _ _ => (s, 0xFF, .done)
    | .protect _ _ _ _ _ _ _ _ => (s, 0xFF, .done)
    | .setStatus _ _ => (s, 0xFF, .done)
    | .openOrder _ => (s, 0xFF, .done)
    | .setPool _ => (s, 0xFF, .done)
    | .setCurve _ => (s, 0xFF, .done)
    | .undefined _ => (s, 0xFF, .done)

/-- HALT at its arrival (R180). -/
def State.haltNow (s : State) : State :=
  let n := s.ord.queue.length
  let (s1, ap, result) := s.haltExecuting
  (s1.setOrd { s1.ord with queue := [], record := ⟨0x01, ap, result, none, n⟩ }).markStale

/-! ### Arrival (R173) -/

/-- An order that is neither HALT nor NOP arrives: discarded with OVERRUN at a full queue, executed at once by an IDLE
unit, else queued (R173). -/
def State.enqueue (s : State) (o : Order) : State :=
  if Config.orderQueueSize ≤ s.ord.queue.length then s.raise .overrun
  else if s.ord.executing.isNone && s.ord.queue.isEmpty then s.execute o
  else (s.setOrd { s.ord with queue := s.ord.queue ++ [o] }).markStale

/-- An order arrives from the receiver (R173). -/
def State.arrive (s : State) (o : Order) : State :=
  if s.resetLine then s
  else
    match o with
    | .nop => s
    | .halt => s.haltNow
    | .close _ _ _ => s.enqueue o
    | .flush _ _ _ _ _ => s.enqueue o
    | .thaw _ _ _ => s.enqueue o
    | .clearFaults _ _ => s.enqueue o
    | .protect _ _ _ _ _ _ _ _ => s.enqueue o
    | .setStatus _ _ => s.enqueue o
    | .openOrder _ => s.enqueue o
    | .setPool _ => s.enqueue o
    | .setCurve _ => s.enqueue o
    | .undefined _ => s.enqueue o

/-! ### Reading a frame (R176) -/

/-- The little-endian field of `n` bytes from byte `i` of a frame. -/
def fieldAt (w n i : Nat) (frame : List Byte) : BitVec w := BitVec.ofNat w (ofLeBytes ((frame.drop i).take n))

/-- The order that a received frame spells (R176); a byte 0 of no defined code is an undefined order (R174). -/
def orderOfFrame (frame : List Byte) : Order :=
  let b := fun i => frame.getD i 0
  let ap := (b 1).extractLsb' 0 3
  let byte0 := b 0
  if byte0 = 0x00 then .nop
  else if byte0 = 0x01 then .halt
  else if byte0 = 0x21 then .close ap ((b 1).extractLsb' 3 5) (b 2)
  else if byte0 = 0x22 then
    .flush ((b 1).getLsbD 7) ((b 1).getLsbD 6) ap ((b 1).extractLsb' 3 3) (b 2)
  else if byte0 = 0x23 then .thaw ap ((b 1).extractLsb' 3 5) (b 2)
  else if byte0 = 0x24 then .clearFaults (b 1) (b 2)
  else if byte0 = 0x41 then
    .protect ((b 1).getLsbD 7) ap ((b 1).extractLsb' 3 4) (b 2) (b 3) (b 4) (b 5) (b 6)
  else if byte0 = 0x42 then .setStatus (fieldAt 40 5 1 frame) (b 6)
  else if byte0 = 0x61 then
    .openOrder ⟨ap, (b 1).extractLsb' 3 1, (b 1).extractLsb' 4 2, (b 1).extractLsb' 6 2,
      (b 2).extractLsb' 0 4, (b 2).extractLsb' 4 4, b 3, fieldAt 40 5 4 frame, b 9, b 10, b 11, b 12, b 13, b 14⟩
  else if byte0 = 0x62 then
    .setPool ⟨fieldAt 40 5 1 frame, fieldAt 24 3 6 frame, fieldAt 24 3 9 frame, b 12, b 13, b 14⟩
  else if byte0 = 0x63 then
    .setCurve ⟨vecOfList 8 0 ((frame.drop 1).take 8), b 9, b 10, b 11, b 12, b 13, b 14⟩
  else .undefined byte0

end Sys2Proof.Machine
end

