-- ==== Sys2Proof/Machine/Settle.lean ====
section
/-! DEFINITION. The end of an event. What a command sets going inside its event (grants, takes, decode starts, responses, the
ends of long orders and the next orders) comes about at that same event (95_what_each_step_holds.md). It is the repeated
application of `rules`, the first that applies each time, until none does; then the status unit issues its write (R187). The
order of the rules, where the manual gives none, is the model's (assumption log 9). -/

namespace Sys2Proof.Machine

/-- The effects that come about by themselves inside an event, first in precedence first: the retry of the waiting request
(R44), a pending record moving in (R137), the start of a decode (R138), the grant of a free slot (R64), tile order (R157), a
response (R155), the take of the next presented request (R152), the end of a long order (R36, R77, R78), the take of an order
(R174), the encoder's take (R72). -/
def rules : List (State → Option State) :=
  [State.grantWaiting, State.movePending, State.startDecode, State.grantHeld, State.proceedNext, State.respond,
    State.takeBus, State.endLongOrder, State.takeOrder, State.takeSealed]

/-- One such effect: that of the first rule that applies. -/
def State.micro (s : State) : Option State := rules.findSome? fun r => r s

/-- No such effect is due. -/
def State.isQuiet (s : State) : Bool := s.micro.isNone

/-- The tile parts of a request that wait. -/
def Request.waitingParts (r : Request) : Nat := r.parts.countP fun p => decide (p.progress = .waiting)

/-- A bound on the number of effects that are due in a state: each one lowers it (assumption log 10). -/
def State.work (s : State) : Nat :=
  320 * s.ord.queue.length + s.ord.executing.isSome.toNat + 330 * s.port.busHeld.length +
    (s.port.window.map fun r => 4 * r.waitingParts + 1).sum + 2 * s.asm.held.length +
    s.rd.pendingList.length + 4 * s.pool.waiting.isSome.toNat + s.enc.op.isNone.toNat + s.rd.decoder.isNone.toNat

/-- At most `n` of the effects, one after another. -/
def settle : Nat → State → State
  | 0, s => s
  | n + 1, s =>
    match s.micro with
    | none => s
    | some s' => settle n s'

/-- The end of an event: every effect that is due, then the status write if one is due (R187). -/
def State.finish (s : State) : State := (settle s.work s).issueStatus

end Sys2Proof.Machine
end

