-- ==== Sys2Proof/Machine/Link.lean ====
section
/-! DEFINITION. The setup line receiver (R165–R171): the first bit's edge, the taking of bits and the framing of an order, the
check byte, bit errors, illegal length classes and line resets, and what the part drives on SDO. -/

namespace Sys2Proof.Machine

/-- SDO repeats SDI; in the other link states it is held low (R165). -/
def State.sdoRepeats (s : State) : Bool := decide (s.link.state = .passing)

/-- The receiver in a state with no partly received order (R165). -/
def Receiver.fresh (state : LinkState) : Receiver := ⟨state, [], [], none⟩

/-- One bit entering the 8-bit check register (R170). -/
def crc8Bit (reg : Byte) (b : Bool) : Byte :=
  let combined := b ^^ reg.getLsbD 7
  if combined then (reg <<< 1) ^^^ 0x07 else reg <<< 1

/-- One byte entering the check register, most significant bit first (R170). -/
def crc8Byte (reg x : Byte) : Byte := (bitsOf 8 x.toNat).foldl crc8Bit reg

/-- The check byte over the bytes of an order before its last (R170). -/
def crc8 (bs : List Byte) : Byte := bs.foldl crc8Byte 0

/-- A whole order passes its check; one of class 0 has no check byte (R170). -/
def frameHolds (frame : List Byte) : Bool :=
  decide (lengthClass (frame.headD 0) = 0) || decide (crc8 frame.dropLast = frame.getLastD 0)

/-- The bytes of an order's frame before its check byte (R176). The content of an undefined order is not examined; it is all
zero here. -/
def Order.content : Order → List Byte
  | .nop => [0x00]
  | .halt => [0x01]
  | .close ap zero b2 => [0x21, zero ++ ap, b2]
  | .flush all freeze ap zero b2 => [0x22, BitVec.ofBool all ++ BitVec.ofBool freeze ++ zero ++ ap, b2]
  | .thaw ap zero b2 => [0x23, zero ++ ap, b2]
  | .clearFaults faults b2 => [0x24, faults, b2]
  | .protect clear ap zero x0 y0 x1 y1 b6 => [0x41, BitVec.ofBool clear ++ zero ++ ap, x0, y0, x1, y1, b6]
  | .setStatus field mask => 0x42 :: leBytes 5 field.toNat ++ [mask]
  | .openOrder f =>
    [0x61, f.zero1 ++ f.mode ++ f.fmt ++ f.ap, f.zero2 ++ f.floorStep, f.budget] ++ leBytes 5 f.base.toNat ++
      [f.width, f.height, f.fillR, f.fillG, f.fillB, f.zero14]
  | .setPool f =>
    0x62 :: leBytes 5 f.base.toNat ++ leBytes 3 f.count.toNat ++ leBytes 3 f.low.toNat ++ [f.limit, f.zero13, f.zero14]
  | .setCurve f => 0x63 :: f.steps.toList ++ [f.up, f.down, f.refit, f.zero12, f.zero13, f.zero14]
  | .undefined byte0 => byte0 :: List.replicate ((classLength (lengthClass byte0)).getD 2 - 2) 0

/-- An order's frame with its check byte, where its class has one (R169, R170, R176). -/
def Order.frame (o : Order) : List Byte :=
  if lengthClass o.byte0 = 0 then o.content else o.content ++ [crc8 o.content]

/-- The nominal high times, in nanoseconds, of the bits of some bytes (R166). -/
def pulsesOf (bs : List Byte) : List Nat := bs.flatMap fun x => (bitsOf 8 x.toNat).map fun b => if b then 750 else 250

/-- The rising edge of an order's first bit, in ARMED (R165, R166). -/
def State.firstEdge (s : State) : State :=
  match s.link.state with
  | .armed => s.putLink (Receiver.fresh .taking)
  | .deaf => s
  | .taking => s
  | .passing => s

/-- The receiver gives up the order: DEAF, with LINK raised (R167, R169). -/
def State.goDeaf (s : State) : State := (s.putLink (Receiver.fresh .deaf)).raise .link

/-- A line reset (R168). -/
def State.resetLink (s : State) : State := s.putLink (Receiver.fresh .armed)

/-- A timeout runs out while TAKING (R167). -/
def State.bitTimeout (s : State) : State :=
  match s.link.state with
  | .taking => s.goDeaf
  | .deaf => s
  | .armed => s
  | .passing => s

/-- The third bit completes an illegal class (R169): it can only while TAKING with the class not yet known, and elsewhere nothing
changes (assumption log 6). That the command's class is taken as it comes, whether or not two bits have been taken and agree with
it, is the model's choice (DESIGN CHOICE, assumption log 33). -/
def State.illegalClass (s : State) : State :=
  match s.link.state, s.link.cls with
  | .taking, none => s.goDeaf
  | _, _ => s

/-- The last bit of an order: PASSING, and the order is checked and handed to the order unit or discarded (R170). -/
def State.endFrame (s : State) (frame : List Byte) : State :=
  let s1 := s.putLink (Receiver.fresh .passing)
  if frameHolds frame then s1.arrive (orderOfFrame frame) else s1.raise .link

/-- The length class that the first three bits give. -/
def classOfBits (bits : List Bool) : BitVec 3 := lengthClass (byteOfBits (bits.takeD 8 false))

/-- A bit is taken while TAKING (R166, R169, R170). -/
def State.takeBit (s : State) (b : Bool) : State :=
  let bits := s.link.bits ++ [b]
  let cls := if s.link.bytes.isEmpty && decide (bits.length = 3) then some (classOfBits bits) else s.link.cls
  if cls.any fun c => (classLength c).isNone then s.goDeaf
  else if bits.length < 8 then s.putLink ⟨.taking, s.link.bytes, bits, cls⟩
  else
    let bytes := s.link.bytes ++ [byteOfBits bits]
    if cls.bind classLength = some bytes.length then s.endFrame bytes
    else s.putLink ⟨.taking, bytes, [], cls⟩

/-- The next bit is the order's last; none is while the class is not known (R167, R169). -/
def Receiver.atLastBit (r : Receiver) : Bool :=
  decide (r.cls.bind classLength = some (r.bytes.length + 1)) && decide (r.bits.length = 7)

/-- The timeout of R167 runs out in a bit of this high time. The last bit's falling edge may come at 3 µs; before it the next
rising edge, which comes after the falling edge, may not come later than that. -/
def Receiver.isLate (r : Receiver) (highNs : Nat) : Bool :=
  if r.atLastBit then decide (Config.bitTimeoutNs < highNs) else decide (Config.bitTimeoutNs ≤ highNs)

/-- The end of the event of a bit that was taken: with the order's last bit comes all that its arrival sets going, and any
other bit reaches the receiver and the status unit alone. -/
def State.endBit (s : State) : State :=
  match s.link.state with
  | .passing => s.finish
  | .deaf => s.issueStatus
  | .armed => s.issueStatus
  | .taking => s.issueStatus

/-- A bit of this high time, after its rising edge: taken at its falling edge, or given up at the timeout; DEAF and PASSING
take none (R166, R167, R171). -/
def State.takeHigh (s : State) (highNs : Nat) : State :=
  match s.link.state with
  | .taking =>
    if s.link.isLate highNs then s.goDeaf.issueStatus
    else (s.takeBit (decide (Config.bitOneNs ≤ highNs))).endBit
  | .deaf => s
  | .armed => s
  | .passing => s

/-- A pulse of the setup line with its high time in nanoseconds: its rising edge (R165), its bit (R166, R167), and, when SDI
stays high for 50 µs, the line reset at that moment (R168). Each is an event, and ends as one. -/
def State.takePulse (s : State) (highNs : Nat) : State :=
  let s1 := s.firstEdge.issueStatus.takeHigh highNs
  if Config.lineResetNs ≤ highNs then s1.resetLink.issueStatus else s1

/-- Pulses one after another. -/
def State.takePulses (s : State) : List Nat → State
  | [] => s
  | h :: rest => (s.takePulse h).takePulses rest

end Sys2Proof.Machine
end

