-- ==== Sys2Proof/Machine/Power.lean ====
section
/-! DEFINITION. POWER_ON, RESET and RESET_RELEASE (R4, R38, R55, R80, R112, R131, R150, R163, R164, R165, R175, R188). -/

namespace Sys2Proof.Machine

/-- The assembly buffer after power-on and RESET: every slot FREE, its pixel store left as it was (R80). -/
def Assembly.cleared (a : Assembly) : Assembly :=
  { slots := vecMap (fun _ sl => sl.freed) a.slots, openList := [], sealQueue := [], held := [] }

/-- The composer port after power-on and RESET: the window and the bus empty, the record of no refusal (R163). The responses
already sent stay sent (assumption log 12). -/
def ComposerPort.cleared (p : ComposerPort) : ComposerPort :=
  { p with window := [], busHeld := [], lastReason := none, lastAddr := 0 }

/-- The store port after the RESET line: what was outstanding is to be ignored when it is answered (R164). -/
def StorePort.resetLine (p : StorePort) : StorePort :=
  { StorePort.reset with ignore := p.ignore + p.outstanding.length }

/-- The blocks that power-on and RESET leave alike (R4, R38, R55, R80, R112, R131, R150, R163, R175). -/
def State.clearBlocks (s : State) : State :=
  { s with
    aps := Vector.replicate 8 Aperture.reset, map := TileMap.reset, pool := Pool.reset, asm := s.asm.cleared
    ctl := StepControl.reset, enc := Encoder.reset, rd := ReadPath.reset, port := s.port.cleared
    ord := OrderUnit.reset }

/-- The status unit after the RESET line: no fault, write state IDLE, stale; address, enable and mask kept (R188). -/
def StatusUnit.resetLine (u : StatusUnit) : StatusUnit :=
  { u with faults := 0, attn := attnOf 0 u.mask, inFlight := false, stale := true, reissue := false }

/-- The part at power-on. -/
def State.powerOn (s : State) : State :=
  { s.clearBlocks with
    store := StorePort.reset, link := Receiver.reset, st := StatusUnit.reset, resetLine := false }

/-- The part at the assertion of the RESET line, before the status write (R188); the receiver is left as it was (R165). -/
def State.resetAsserted (s : State) : State :=
  { s.clearBlocks with store := s.store.resetLine, st := s.st.resetLine, resetLine := true }

/-- POWER_ON. -/
def execPowerOn (s : State) : Host.Outcome State Fault Refusal := .next s.powerOn

/-- RESET: the assertion of the RESET line, and the status write it makes due (R188). -/
def execReset (s : State) : Host.Outcome State Fault Refusal := .next s.resetAsserted.issueStatus

/-- RESET_RELEASE: requests and turns are taken again (R163, R164); nothing while the line is not asserted. -/
def execResetRelease (s : State) : Host.Outcome State Fault Refusal :=
  if s.resetLine then .next (s.setResetLine false).finish else .next s

end Sys2Proof.Machine
end

