-- ==== Sys2Proof/Machine/SetupLine.lean ====
section
/-! DEFINITION. The commands of the setup line: FIRST_BIT_EDGE, ORDER_FRAME, BIT_ERROR, ILLEGAL_LENGTH_CLASS, LINE_RESET
(R165–R171). -/

namespace Sys2Proof.Machine

/-- FIRST_BIT_EDGE (R165, R166). -/
def execFirstBitEdge (s : State) : Host.Outcome State Fault Refusal := .next s.firstEdge.issueStatus

/-- ORDER_FRAME (R166, R169, R170): the next bits of the line, by their high times. -/
def execOrderFrame (highTimes : List Nat) (s : State) : Host.Outcome State Fault Refusal := .next (s.takePulses highTimes)

/-- BIT_ERROR (R167). -/
def execBitError (s : State) : Host.Outcome State Fault Refusal := .next s.bitTimeout.issueStatus

/-- ILLEGAL_LENGTH_CLASS (R169); a legal class is no operand of this command (assumption log 22). -/
def execIllegalLengthClass (cls : BitVec 3) (s : State) : Host.Outcome State Fault Refusal :=
  if (classLength cls).isNone then .next s.illegalClass.issueStatus else .refused .illFormed

/-- LINE_RESET (R168). -/
def execLineReset (s : State) : Host.Outcome State Fault Refusal := .next s.resetLink.issueStatus

end Sys2Proof.Machine
end

