-- ==== Sys2Proof/Machine/OrderCommands.lean ====
section
/-! DEFINITION. The orders as commands: each is the arrival of that order at the order unit (R173), with everything that comes
about at the event (assumption log 4). -/

namespace Sys2Proof.Machine

/-- An order arrives, and the event ends. -/
def State.order (s : State) (o : Order) : Host.Outcome State Fault Refusal := .next (s.arrive o).finish

/-- NOP is discarded (R173). -/
def execNop (s : State) : Host.Outcome State Fault Refusal := .next (s.arrive .nop)

/-- HALT (R180). -/
def execHalt (s : State) : Host.Outcome State Fault Refusal := s.order .halt

/-- CLOSE (R178). -/
def execClose (ap : BitVec 3) (zero : BitVec 5) (b2 : Byte) (s : State) : Host.Outcome State Fault Refusal :=
  s.order (.close ap zero b2)

/-- FLUSH of an aperture without FREEZE (R179). -/
def execFlush (ap : BitVec 3) (zero : BitVec 3) (b2 : Byte) (s : State) : Host.Outcome State Fault Refusal :=
  s.order (.flush false false ap zero b2)

/-- FLUSH with FREEZE (R78, R179). -/
def execFlushFreeze (ap : BitVec 3) (zero : BitVec 3) (b2 : Byte) (s : State) : Host.Outcome State Fault Refusal :=
  s.order (.flush false true ap zero b2)

/-- FLUSH ALL (R179), with the FREEZE bit of its frame. -/
def execFlushAll (freeze : Bool) (ap : BitVec 3) (zero : BitVec 3) (b2 : Byte) (s : State) :
    Host.Outcome State Fault Refusal :=
  s.order (.flush true freeze ap zero b2)

/-- THAW (R17). -/
def execThaw (ap : BitVec 3) (zero : BitVec 5) (b2 : Byte) (s : State) : Host.Outcome State Fault Refusal :=
  s.order (.thaw ap zero b2)

/-- CLEAR FAULTS (R177, R183). -/
def execClearFaults (faults b2 : Byte) (s : State) : Host.Outcome State Fault Refusal :=
  s.order (.clearFaults faults b2)

/-- PROTECT, ADD (R18). -/
def execProtectAdd (ap : BitVec 3) (zero : BitVec 4) (x0 y0 x1 y1 b6 : Byte) (s : State) :
    Host.Outcome State Fault Refusal :=
  s.order (.protect false ap zero x0 y0 x1 y1 b6)

/-- PROTECT, CLEAR ALL (R18). -/
def execProtectClearAll (ap : BitVec 3) (zero : BitVec 4) (x0 y0 x1 y1 b6 : Byte) (s : State) :
    Host.Outcome State Fault Refusal :=
  s.order (.protect true ap zero x0 y0 x1 y1 b6)

/-- SET STATUS (R177, R186). -/
def execSetStatus (field : BitVec 40) (mask : Byte) (s : State) : Host.Outcome State Fault Refusal :=
  s.order (.setStatus field mask)

/-- OPEN (R15, R16). -/
def execOpenOrder (f : OpenFields) (s : State) : Host.Outcome State Fault Refusal := s.order (.openOrder f)

/-- SET POOL (R52, R53). -/
def execSetPool (f : PoolFields) (s : State) : Host.Outcome State Fault Refusal := s.order (.setPool f)

/-- SET CURVE (R109, R110). -/
def execSetCurve (f : CurveFields) (s : State) : Host.Outcome State Fault Refusal := s.order (.setCurve f)

/-- An order of undefined code or of class 7 (R174); a defined byte 0 is no operand of this command (assumption log 22). -/
def execUndefinedOrder (byte0 : Byte) (s : State) : Host.Outcome State Fault Refusal :=
  if undefinedCode byte0 then s.order (.undefined byte0) else .refused .illFormed

end Sys2Proof.Machine
end

