-- ==== Sys2Proof/Machine/PortCommands.lean ====
section
/-! DEFINITION. The commands of the composer port, COMPOSER_READ and COMPOSER_WRITE (R151–R159), and of the store port,
STORE_TURN and the answers (R160–R164). -/

namespace Sys2Proof.Machine

/-- The length of a composer request is one it can have (R151). -/
def lengthOk (n : Nat) : Bool := decide (1 ≤ n) && decide (n ≤ Config.block)

/-- COMPOSER_READ: the bus presents a READ (R151, R152, R153). -/
def execComposerRead (addr : Addr) (length : Nat) (s : State) : Host.Outcome State Fault Refusal :=
  if lengthOk length then .next (s.present ⟨.read length, addr⟩).finish else .refused .illFormed

/-- COMPOSER_WRITE: the bus presents a WRITE (R151, R152, R153). -/
def execComposerWrite (addr : Addr) (bytes : List (Byte × Bool)) (s : State) : Host.Outcome State Fault Refusal :=
  if lengthOk bytes.length then .next (s.present ⟨.write bytes, addr⟩).finish else .refused .illFormed

/-- STORE_TURN: the arbiter grants a source, unless RESET is asserted (R161, R164). -/
def execStoreTurn (s : State) : Host.Outcome State Fault Refusal :=
  if s.resetLine then .next s else .next (s.setStore s.store.turn)

/-- PASS_THROUGH_ANSWER (R159, R162). -/
def execPassThroughAnswer (status : StoreStatus) (data : List Byte) (s : State) : Host.Outcome State Fault Refusal :=
  if Config.block < data.length then .refused .illFormed
  else if 0 < s.store.ignore then .next s.ignoreAnswer
  else
    match s.store.outstanding with
    | .passRead id _ _ :: _ => .next (s.popOutstanding.passAnswered id status data).finish
    | .passWrite id _ _ :: _ => .next (s.popOutstanding.passAnswered id status data).finish
    | _ => .fault .unsolicitedAnswer

/-- CHUNK_READ_ANSWER (R139, R149, R162). -/
def execChunkReadAnswer (status : StoreStatus) (data : List Byte) (s : State) : Host.Outcome State Fault Refusal :=
  if status = .okay ∧ data.length ≠ Config.block then .refused .illFormed
  else if 0 < s.store.ignore then .next s.ignoreAnswer
  else
    match s.store.outstanding with
    | .chunkRead _ :: _ => .next (s.popOutstanding.chunkAnswered status data).finish
    | _ => .fault .unsolicitedAnswer

/-- CHUNK_WRITE_ANSWER (R123, R125, R162). -/
def execChunkWriteAnswer (status : StoreStatus) (s : State) : Host.Outcome State Fault Refusal :=
  if 0 < s.store.ignore then .next s.ignoreAnswer
  else
    match s.store.outstanding with
    | .chunkWrite position chunk _ _ :: _ => .next (s.popOutstanding.chunkWritten position chunk status).finish
    | _ => .fault .unsolicitedAnswer

/-- STATUS_WRITE_ANSWER (R162, R187). -/
def execStatusWriteAnswer (status : StoreStatus) (s : State) : Host.Outcome State Fault Refusal :=
  if 0 < s.store.ignore then .next s.ignoreAnswer
  else
    match s.store.outstanding with
    | .statusWrite _ _ :: _ => .next (s.popOutstanding.statusAnswered status).finish
    | _ => .fault .unsolicitedAnswer

/-- IGNORED_ANSWER: an answer of either kind to a request that was outstanding at a reset (R164). -/
def execIgnoredAnswer (_status : StoreStatus) (s : State) : Host.Outcome State Fault Refusal :=
  if 0 < s.store.ignore then .next s.ignoreAnswer else .fault .unsolicitedAnswer

end Sys2Proof.Machine
end

