-- ==== Sys2Proof/Machine/WorkCommands.lean ====
section
/-! DEFINITION. The ends of the part's own timed work: DECODE_END (R140), REFIT_END (R108), CODING_END (R116),
POOL_WAIT_EXPIRY and RECODE_END (R121), RETIRE_WALK_VISIT (R35). Such an event whose work is not in progress changes nothing
(assumption log 6). -/

namespace Sys2Proof.Machine

/-- DECODE_END: the checks and rebuild of an assembled stream end (R140, R142, R143). -/
def execDecodeEnd (s : State) : Host.Outcome State Fault Refusal :=
  match s.rd.decoder with
  | some d => if d.isChecking then .next s.endDecode.finish else .next s
  | none => .next s

/-- REFIT_END: a refit's coding ends (R105, R108). -/
def execRefitEnd (s : State) : Host.Outcome State Fault Refusal :=
  match s.enc.op with
  | some op => if op.isCoding then .next (s.endRefit op).finish else .next s
  | none => .next s

/-- CODING_END: the end of coding (R116, R118, R119, R126). -/
def execCodingEnd (s : State) : Host.Outcome State Fault Refusal :=
  match s.enc.op with
  | some op => if op.isCoding then .next (s.endCoding op).finish else .next s
  | none => .next s

/-- POOL_WAIT_EXPIRY: the pool-wait timer runs out (R121). -/
def execPoolWaitExpiry (s : State) : Host.Outcome State Fault Refusal :=
  match s.enc.op with
  | some op => if op.stage = .poolWait then .next (s.expireWait op).finish else .next s
  | none => .next s

/-- RECODE_END: the re-code after an expiry ends (R121). -/
def execRecodeEnd (s : State) : Host.Outcome State Fault Refusal :=
  match s.enc.op with
  | some op => if op.isRecoding then .next (s.endRecode op).finish else .next s
  | none => .next s

/-- RETIRE_WALK_VISIT: the walk visits its next entry (R35, R36). -/
def execRetireWalkVisit (s : State) : Host.Outcome State Fault Refusal :=
  match s.map.walk with
  | some w => if w.next < (s.ap w.ap).extLen then .next (s.visitEntry w).finish else .next s
  | none => .next s

end Sys2Proof.Machine
end

