-- ==== Sys2Proof/Machine/Dispatch.lean ====
section
/-! DEFINITION. The meaning of each command, one arm for each constructor of `Instr`. -/

namespace Sys2Proof.Machine

def exec (i : Instr) (s : State) : Host.Outcome State Fault Refusal :=
  match i with
  | .powerOn => Sys2Proof.Machine.execPowerOn s
  | .reset => Sys2Proof.Machine.execReset s
  | .resetRelease => Sys2Proof.Machine.execResetRelease s
  | .lineReset => Sys2Proof.Machine.execLineReset s
  | .bitError => Sys2Proof.Machine.execBitError s
  | .illegalLengthClass cls => Sys2Proof.Machine.execIllegalLengthClass cls s
  | .orderFrame highTimes => Sys2Proof.Machine.execOrderFrame highTimes s
  | .nop => Sys2Proof.Machine.execNop s
  | .halt => Sys2Proof.Machine.execHalt s
  | .close ap zero b2 => Sys2Proof.Machine.execClose ap zero b2 s
  | .flush ap zero b2 => Sys2Proof.Machine.execFlush ap zero b2 s
  | .flushFreeze ap zero b2 => Sys2Proof.Machine.execFlushFreeze ap zero b2 s
  | .flushAll freeze ap zero b2 => Sys2Proof.Machine.execFlushAll freeze ap zero b2 s
  | .thaw ap zero b2 => Sys2Proof.Machine.execThaw ap zero b2 s
  | .clearFaults faults b2 => Sys2Proof.Machine.execClearFaults faults b2 s
  | .protectAdd ap zero x0 y0 x1 y1 b6 => Sys2Proof.Machine.execProtectAdd ap zero x0 y0 x1 y1 b6 s
  | .protectClearAll ap zero x0 y0 x1 y1 b6 => Sys2Proof.Machine.execProtectClearAll ap zero x0 y0 x1 y1 b6 s
  | .setStatus field mask => Sys2Proof.Machine.execSetStatus field mask s
  | .openOrder f => Sys2Proof.Machine.execOpenOrder f s
  | .setPool f => Sys2Proof.Machine.execSetPool f s
  | .setCurve f => Sys2Proof.Machine.execSetCurve f s
  | .undefinedOrder byte0 => Sys2Proof.Machine.execUndefinedOrder byte0 s
  | .composerRead addr length => Sys2Proof.Machine.execComposerRead addr length s
  | .composerWrite addr bytes => Sys2Proof.Machine.execComposerWrite addr bytes s
  | .storeTurn => Sys2Proof.Machine.execStoreTurn s
  | .passThroughAnswer status data => Sys2Proof.Machine.execPassThroughAnswer status data s
  | .chunkReadAnswer status data => Sys2Proof.Machine.execChunkReadAnswer status data s
  | .chunkWriteAnswer status => Sys2Proof.Machine.execChunkWriteAnswer status s
  | .statusWriteAnswer status => Sys2Proof.Machine.execStatusWriteAnswer status s
  | .ignoredAnswer status => Sys2Proof.Machine.execIgnoredAnswer status s
  | .decodeEnd => Sys2Proof.Machine.execDecodeEnd s
  | .refitEnd => Sys2Proof.Machine.execRefitEnd s
  | .codingEnd => Sys2Proof.Machine.execCodingEnd s
  | .poolWaitExpiry => Sys2Proof.Machine.execPoolWaitExpiry s
  | .recodeEnd => Sys2Proof.Machine.execRecodeEnd s
  | .retireWalkVisit => Sys2Proof.Machine.execRetireWalkVisit s
  | .firstBitEdge => Sys2Proof.Machine.execFirstBitEdge s

end Sys2Proof.Machine
end

