-- ==== Sys2Proof/Machine/Step.lean ====
section
/-! DEFINITION. One step: the command at the front of the queue is taken and given its meaning; with no command waiting the
part idles (assumption log 2). -/

namespace Sys2Proof.Machine

/-- One step of the part. -/
def step (s : State) : Host.Outcome State Fault Refusal :=
  match s.pending with
  | [] => .next s
  | c :: rest => exec c (s.setPending rest)

/-- The state with the command that a word spells at the front of its queue; unchanged, since no word spells one
(assumption log 1). -/
def State.withFetchWord (s : State) (nbits w : Nat) : State :=
  match decodeTableWord nbits w with
  | none => s
  | some c => s.setPending (c :: s.pending)

end Sys2Proof.Machine
end

