-- ==== Sys2Proof/Safety.lean ====
section
/-! DEFINITION. What the statements are written over: the blocks of the state and the frame of a change, the state in which no
effect is due, the order that an order command brings, and the invariants of the part. -/

namespace Sys2Proof.Machine

/-! ### Frames -/

/-- The blocks of the state. -/
inductive Block where
  | aps
  | map
  | pool
  | asm
  | ctl
  | enc
  | rd
  | port
  | store
  | link
  | ord
  | st
  | resetLine
  | draws
  | pending
  deriving DecidableEq, Repr

/-- The block is the same in two states. -/
def SameBlock : Block → State → State → Prop
  | .aps, s, t => t.aps = s.aps
  | .map, s, t => t.map = s.map
  | .pool, s, t => t.pool = s.pool
  | .asm, s, t => t.asm = s.asm
  | .ctl, s, t => t.ctl = s.ctl
  | .enc, s, t => t.enc = s.enc
  | .rd, s, t => t.rd = s.rd
  | .port, s, t => t.port = s.port
  | .store, s, t => t.store = s.store
  | .link, s, t => t.link = s.link
  | .ord, s, t => t.ord = s.ord
  | .st, s, t => t.st = s.st
  | .resetLine, s, t => t.resetLine = s.resetLine
  | .draws, s, t => t.draws = s.draws
  | .pending, s, t => t.pending = s.pending

/-- The second state differs from the first in blocks of the list only. -/
def OnlyTouches (B : List Block) (s t : State) : Prop := ∀ b, b ∉ B → SameBlock b s t

/-! ### Events at rest -/

/-- No effect is due: none of the rules of the end of an event applies. -/
def State.Quiet (s : State) : Prop := s.micro = none

/-- The order unit takes an arriving order at once (R173): RESET released, IDLE, nothing queued. -/
def State.ReadyForOrder (s : State) : Prop := s.resetLine = false ∧ s.ord.executing = none ∧ s.ord.queue = []

/-- A request that is presented now stands alone: no effect is due, RESET is released, the window and the bus are empty. -/
def State.Alone (s : State) : Prop :=
  s.Quiet ∧ s.resetLine = false ∧ s.port.window = [] ∧ s.port.busHeld = []

/-- The command that presents a request. -/
def requestCommand (kind : ReqKind) (addr : Addr) : Instr :=
  match kind with
  | .read length => .composerRead addr length
  | .write bytes => .composerWrite addr bytes

/-- The order that a command brings to the order unit; none for the other commands. -/
def broughtOrder : Instr → Option Order
  | .nop => some .nop
  | .halt => some .halt
  | .close ap zero b2 => some (.close ap zero b2)
  | .flush ap zero b2 => some (.flush false false ap zero b2)
  | .flushFreeze ap zero b2 => some (.flush false true ap zero b2)
  | .flushAll freeze ap zero b2 => some (.flush true freeze ap zero b2)
  | .thaw ap zero b2 => some (.thaw ap zero b2)
  | .clearFaults faults b2 => some (.clearFaults faults b2)
  | .protectAdd ap zero x0 y0 x1 y1 b6 => some (.protect false ap zero x0 y0 x1 y1 b6)
  | .protectClearAll ap zero x0 y0 x1 y1 b6 => some (.protect true ap zero x0 y0 x1 y1 b6)
  | .setStatus field mask => some (.setStatus field mask)
  | .openOrder f => some (.openOrder f)
  | .setPool f => some (.setPool f)
  | .setCurve f => some (.setCurve f)
  | .undefinedOrder byte0 => some (.undefined byte0)
  | .powerOn => none
  | .reset => none
  | .resetRelease => none
  | .lineReset => none
  | .bitError => none
  | .illegalLengthClass _ => none
  | .orderFrame _ => none
  | .composerRead _ _ => none
  | .composerWrite _ _ => none
  | .storeTurn => none
  | .passThroughAnswer _ _ => none
  | .chunkReadAnswer _ _ => none
  | .chunkWriteAnswer _ => none
  | .statusWriteAnswer _ => none
  | .ignoredAnswer _ => none
  | .decodeEnd => none
  | .refitEnd => none
  | .codingEnd => none
  | .poolWaitExpiry => none
  | .recodeEnd => none
  | .retireWalkVisit => none
  | .firstBitEdge => none

/-- An answer of the page store that no request of the part calls for: no ignored answer is owed, and the request at the head
of the outstanding list, if there is one, is of another source (R160, R162, R164). -/
def Unsolicited (c : Instr) (s : State) : Prop :=
  s.store.ignore = 0 ∧
    match c with
    | .passThroughAnswer _ _ => s.store.outstanding.head?.map StoreReq.source ≠ some .composer
    | .chunkReadAnswer _ _ => s.store.outstanding.head?.map StoreReq.source ≠ some .decoder
    | .chunkWriteAnswer _ => s.store.outstanding.head?.map StoreReq.source ≠ some .encoder
    | .statusWriteAnswer _ => s.store.outstanding.head?.map StoreReq.source ≠ some .status
    | .ignoredAnswer _ => True
    | _ => False

/-- A status write is due (R187). -/
def State.WriteDue (s : State) : Prop := s.st.enable = true ∧ s.st.stale = true ∧ s.st.inFlight = false

/-- The little-endian number in the `n` bytes of the status block from an offset on (R185). -/
def State.statusField (s : State) (offset n : Nat) : Nat := ofLeBytes ((s.statusBlock.drop offset).take n)

/-- The order's execution ended, from `s` to `u`, with this result and reason (R174, R175). -/
def Concluded (o : Order) (s u : State) (result : OrderResult) (reason : Option OrderReason) : Prop :=
  u.ord.executing = none ∧ u.ord.queue = s.ord.queue ∧
    u.ord.record = ⟨o.byte0, o.recordAp, result, reason, 0⟩ ∧ u.ord.completed = s.ord.completed + 1

/-! ### Invariants -/

/-- The band, the demanded step, POOL_SHORT and ATTN are what the pool, the curve and the mask make them (R49, R50, R98,
R184). With no pool the count is 0, and so is the quotient. -/
def State.FiguresAgree (s : State) : Prop :=
  s.ctl.band.val = min (8 * (s.pool.count - s.pool.free.length) / s.pool.count) 7 ∧ s.ctl.demanded = s.ctl.curve.get s.ctl.band ∧
    (s.st.faults.getLsbD 3 = true ↔ s.pool.free.length < s.pool.low) ∧
    (s.st.attn = true ↔ s.st.faults &&& s.st.mask ≠ 0)

/-- The tile map's list is in its canonical form (R24). -/
def State.MapOk (s : State) : Prop := s.map.wf = true

/-- The lists of bounded length keep their bounds (R136, R144, R152, R172). -/
def State.ListsBounded (s : State) : Prop :=
  s.port.window.length ≤ 32 ∧ s.ord.queue.length ≤ 4 ∧ s.rd.cache.length ≤ 32 ∧ s.rd.queue.length ≤ 288

/-- The curve, the demanded and the applied step are steps, and each counter is below its interval (R98, R100). -/
def State.StepsOk (s : State) : Prop :=
  (∀ b : Fin 8, s.ctl.curve.get b ≤ 15) ∧ s.ctl.demanded ≤ 15 ∧ s.ctl.applied ≤ 15 ∧
    s.ctl.upCount < s.ctl.up ∧ s.ctl.downCount < s.ctl.down

/-- A FREE slot is blank: no tile, nothing present, no predecessor, no seal due and no flush mark (R56, R73). That nothing is
present in it is the model's choice (assumption log 32). -/
def State.FreeSlotsBlank (s : State) : Prop :=
  ∀ k, (s.slot k).state = .free → (s.slot k).tile = none ∧ (s.slot k).present = 0 ∧ (s.slot k).pred = none ∧
    (s.slot k).due = false ∧ (s.slot k).mark = false

/-- Only a receiver that is TAKING holds a partly received order, of at most 23 bytes and 7 bits; from the third bit on its
length class is known, and fewer bytes have been taken than it gives (R165, R169). -/
def State.ReceiverOk (s : State) : Prop :=
  (s.link.state ≠ .taking → s.link.bytes = [] ∧ s.link.bits = [] ∧ s.link.cls = none) ∧
    s.link.bits.length ≤ 7 ∧ s.link.bytes.length ≤ 23 ∧
    ((s.link.bytes ≠ [] ∨ 3 ≤ s.link.bits.length) →
      ∃ n, s.link.cls.bind classLength = some n ∧ s.link.bytes.length < n)

/-- The request is a chunk write. -/
def StoreReq.isChunkWrite : StoreReq → Bool
  | .passRead _ _ _ => false
  | .passWrite _ _ _ => false
  | .chunkRead _ => false
  | .chunkWrite _ _ _ _ => true
  | .statusWrite _ _ => false

/-- The chunk writes handed to the store port and not yet answered (R122). -/
def State.writesOut (s : State) : Nat :=
  ((s.store.composer ++ s.store.decoder ++ s.store.encoder ++ s.store.status) ++ s.store.outstanding).countP
    StoreReq.isChunkWrite

/-- The chunk writes that the encoder's record says are not answered: none but in WRITING (R122). -/
def Encoder.unanswered (e : Encoder) : Nat :=
  match e.op with
  | none => 0
  | some op => if op.stage = .writing then op.unanswered else 0

/-- The pool-wait timer runs exactly in POOL_WAIT, a request waits exactly then, and the chunk writes under way are those of
the encoder's round (R44, R113, R122). -/
def State.WaitOk (s : State) : Prop :=
  (s.enc.timer.isSome = true ↔ s.enc.stage = some .poolWait) ∧
    (s.pool.waiting.isSome = true ↔ s.enc.stage = some .poolWait) ∧ s.writesOut = s.enc.unanswered

/-! ### The window -/

/-- The part is finished: COMPLETE or FAILED (R157). -/
def Part.Finished (p : Part) : Prop := p.progress = .complete ∨ p.progress = .failed

/-- A tile part goes forward now: it waits in a request that is not complete, and every earlier request with a part at its
tile is complete, but that an earlier READ does not hold a READ back (R156). -/
def MayGo (earlier : List Request) (r : Request) (p : Part) : Prop :=
  r.outcome = .undetermined ∧ p.progress = .waiting ∧
    ∀ q ∈ earlier, (∃ x ∈ q.parts, x.tile = p.tile) →
      q.outcome ≠ .undetermined ∨ (r.isWrite = false ∧ q.isWrite = false)

/-- What a request becomes when some of its parts are changed: answered ERROR or OKAY if that finishes the last of them
(R155). -/
def Request.withParts (r : Request) (parts : List Part) : Request :=
  { r with
    parts := parts
    outcome :=
      if r.outcome = .undetermined ∧ parts ≠ [] ∧ ∀ p ∈ parts, p.progress = .complete ∨ p.progress = .failed then
        (if ∃ p ∈ parts, p.progress = .failed then .error else .okay)
      else r.outcome }

/-- The window once the parts that some references name have been changed. -/
def windowWith (l : List Request) (refs : List PartRef) (f : Part → Part) : List Request :=
  l.map fun r =>
    if ∃ ref ∈ refs, ref.req = r.id then
      r.withParts (r.parts.mapIdx fun i p => if (⟨r.id, i⟩ : PartRef) ∈ refs then f p else p)
    else r

/-! ### What the blocks hold: the manual's own invariants -/

/-- A map entry's number lies in the extent (R25). -/
def Extent.Holds (x : Extent) (i : Nat) : Prop := x.first ≤ i ∧ i < x.first + x.len

/-- The extent of an aperture (R4). -/
def State.extent (s : State) (a : ApIx) : Extent := ⟨(s.ap a).extFirst, (s.ap a).extLen⟩

/-- Every map entry lies in one free extent or in the extent of one aperture that is not CLOSED, never in two; the free
extents stand in rising order with a gap between any two, and none is empty (R25, R36). A walk is of a RETIRING aperture, and
an executing FREEZE of a FREEZING one (R34, R78). -/
def State.ExtentsOk (s : State) : Prop :=
  s.map.freeExtents.Pairwise (fun x y => x.first + x.len < y.first) ∧
  (∀ x ∈ s.map.freeExtents, 0 < x.len ∧ x.first + x.len ≤ 262144) ∧
  (∀ a, if (s.ap a).state = .closed then (s.ap a).extLen = 0
    else 0 < (s.ap a).extLen ∧ (s.ap a).extFirst + (s.ap a).extLen ≤ 262144) ∧
  (∀ i < 262144, (∃ x ∈ s.map.freeExtents, x.Holds i) ∨ ∃ a, (s.extent a).Holds i) ∧
  (∀ a i, (s.extent a).Holds i →
    (∀ x ∈ s.map.freeExtents, ¬x.Holds i) ∧ ∀ b, b ≠ a → ¬(s.extent b).Holds i) ∧
  (∀ w, s.map.walk = some w → (s.ap w.ap).state = .retiring) ∧
  ∀ ap zero b2, s.ord.executing = some (.flush false true ap zero b2) → (s.ap (apOf ap)).state = .freezing

/-- The address lies in the range of the aperture, which is not CLOSED (R7, R10). -/
def State.InAperture (s : State) (a : ApIx) (x : Nat) : Prop :=
  (s.ap a).state ≠ .closed ∧ (s.ap a).base ≤ x ∧
    x < (s.ap a).base + (s.ap a).width * 32 * (if (s.ap a).fmt = .rgb8 then 4 else 8) * (s.ap a).height * 32

/-- The address lies in the pool region (R10, R39). -/
def State.InPool (s : State) (x : Nat) : Prop := s.pool.base ≤ x ∧ x < s.pool.base + 256 * s.pool.count

/-- The address lies in the enabled status block (R11). -/
def State.InStatus (s : State) (x : Nat) : Prop := s.st.enable = true ∧ s.st.addr ≤ x ∧ x < s.st.addr + 128

/-- The ranges of the apertures that are not CLOSED, the pool region and the enabled status block are pairwise disjoint (R11).
An executing FREEZE is of a FREEZING aperture (R78), so its end opens no CLOSED one. -/
def State.RegionsOk (s : State) : Prop :=
  (∀ x a b, s.InAperture a x → s.InAperture b x → a = b) ∧ (∀ x a, s.InAperture a x → ¬s.InPool x) ∧
  (∀ x a, s.InAperture a x → ¬s.InStatus x) ∧ (∀ x, s.InPool x → ¬s.InStatus x) ∧
  ∀ ap zero b2, s.ord.executing = some (.flush false true ap zero b2) → (s.ap (apOf ap)).state = .freezing

/-- Responses leave in the order the requests were taken: the numbers of the requests answered and then of those in the
window rise (R155, assumption log 12). -/
def State.ResponsesInOrder (s : State) : Prop :=
  let ids := s.port.sent.map Response.id ++ s.port.window.map Request.id
  ids.Pairwise (· < ·) ∧ ∀ i ∈ ids, i < s.port.nextId

/-- An entry that waits for the decoder, and no CLOSE has dropped it. -/
def DecodeEntry.Waits (e : DecodeEntry) : Prop := e.phase = .queued ∧ e.discard = false

/-- The decoder works on the head of the decode queue, and on nothing else; an entry marked for discard has no waiter; a tile
has at most one entry or pending record that is not marked (R136, R137, R138, R148). -/
def State.DecoderOk (s : State) : Prop :=
  (∀ e ∈ s.rd.pendingList, e.Waits) ∧
  (match s.rd.decoder with
    | none => ∀ e ∈ s.rd.queue, e.Waits
    | some d => ∃ e q, s.rd.queue = e :: q ∧ e.phase = .decoding ∧ e.tile = d.tile ∧
        (e.discard = true → e.readers = [] ∧ e.gather = none) ∧ ∀ x ∈ q, x.Waits) ∧
  (((s.rd.queue ++ s.rd.pendingList).filter fun e => !e.discard).map DecodeEntry.tile).Nodup

/-- The pass-through request that a request of the store port stands for. -/
def StoreReq.passId : StoreReq → Option Nat
  | .passRead id _ _ => some id
  | .passWrite id _ _ => some id
  | .chunkRead _ => none
  | .chunkWrite _ _ _ _ => none
  | .statusWrite _ _ => none

/-- The window, the held writes and the names in them: the tile parts of a request are of its aperture and of different
tiles; a write part that PROCEEDS stands behind no request at its tile that is not complete (R156); the held writes are parts
that PROCEED, of different tiles that have no FILLING slot (R60, R63); and what waits for a decode or for the page store names
a request of its kind. -/
def State.PortOk (s : State) : Prop :=
  s.ResponsesInOrder ∧
  (∀ r ∈ s.port.window,
    (∀ a, r.cls = .aperture a → (∀ p ∈ r.parts, p.tile.ap = a) ∧ (r.parts.map Part.tile).Nodup) ∧
      ((∀ a, r.cls ≠ .aperture a) → r.parts = [])) ∧
  (∀ before r after, s.port.window = before ++ r :: after → r.isWrite = true → r.outcome = .undetermined →
    ∀ p ∈ r.parts, p.progress = .proceeding →
      ∀ q ∈ before, (∃ x ∈ q.parts, x.tile = p.tile) → q.outcome ≠ .undetermined) ∧
  (s.asm.held.map HeldWrite.tile).Nodup ∧
  (∀ h ∈ s.asm.held,
    (∃ r ∈ s.port.window, r.id = h.ref.req ∧ r.isWrite = true ∧ r.outcome = .undetermined ∧
      ∃ p, r.parts[h.ref.part]? = some p ∧ p.progress = .proceeding ∧ p.tile = h.tile) ∧
    ∀ k, (s.slot k).state = .filling → (s.slot k).tile ≠ some h.tile) ∧
  (∀ e ∈ s.rd.queue ++ s.rd.pendingList, ∀ ref ∈ e.readers,
    ref.req < s.port.nextId ∧ ∀ r ∈ s.port.window, r.id = ref.req → r.isWrite = false) ∧
  ∀ q ∈ s.store.composer ++ s.store.outstanding, ∀ id, q.passId = some id →
    id < s.port.nextId ∧ ∀ r ∈ s.port.window, r.id = id → r.cls = .passThrough

/-- The slot is GATHERING, SEALED or ENCODING: the other occupied slot of its tile (R58). -/
def Slot.IsOther (sl : Slot) : Prop := sl.state = .gathering ∨ sl.state = .sealed ∨ sl.state = .encoding

/-- The slots, the open list and the seal queue. The open list holds the FILLING slots whose seal is not due and the seal
queue the GATHERING and SEALED ones, each once (R62, R68); a FREE slot is blank (assumption log 32) and an occupied one has a tile
(R56, R73); a tile has at most one FILLING slot and at most one other, and the other is the FILLING slot's predecessor (R58); only a slot
with a predecessor has a seal due, and only a FILLING one has a predecessor (R65, R66, R67); a SEALED or ENCODING slot is full
(R71); the ENCODING slot is the one of the tile in hand (R72, R73); and a slot gathers from the decode of its tile exactly
while it is GATHERING (R69, R70). -/
def State.SlotsOk (s : State) : Prop :=
  s.asm.openList.Nodup ∧ (∀ k, k ∈ s.asm.openList ↔ (s.slot k).state = .filling ∧ (s.slot k).due = false) ∧
  s.asm.sealQueue.Nodup ∧
  (∀ k, k ∈ s.asm.sealQueue ↔ (s.slot k).state = .gathering ∨ (s.slot k).state = .sealed) ∧
  s.FreeSlotsBlank ∧ (∀ k, (s.slot k).state ≠ .free → (s.slot k).tile ≠ none) ∧
  (∀ k, (s.slot k).state ≠ .filling → (s.slot k).pred = none) ∧
  (∀ k, (s.slot k).due = true → (s.slot k).pred ≠ none) ∧
  (∀ k j, (s.slot k).state = .filling → (s.slot j).state = .filling → (s.slot k).tile = (s.slot j).tile → k = j) ∧
  (∀ k j, (s.slot k).IsOther → (s.slot j).IsOther → (s.slot k).tile = (s.slot j).tile → k = j) ∧
  (∀ k j, (s.slot k).state = .filling →
    ((s.slot k).pred = some j ↔ (s.slot j).IsOther ∧ (s.slot j).tile = (s.slot k).tile)) ∧
  (∀ k, (s.slot k).state = .sealed ∨ (s.slot k).state = .encoding → ∀ i < 1024, (s.slot k).present.getLsbD i = true) ∧
  (∀ k, (s.slot k).state = .encoding ↔ ∃ op, s.enc.op = some op ∧ op.slot = k) ∧
  (∀ op, s.enc.op = some op → (s.slot op.slot).tile = some op.tile) ∧
  (∀ e ∈ s.rd.queue ++ s.rd.pendingList, ∀ k, e.gather = some k →
    (s.slot k).state = .gathering ∧ (s.slot k).tile = some e.tile) ∧
  ∀ k, (s.slot k).state = .gathering → ∃ e ∈ s.rd.queue ++ s.rd.pendingList, e.gather = some k

/-- The window, the read path and the assembly buffer hold what the manual says they hold. The three go together: a slot is
opened for a held write, and filled by a decode. -/
def State.BuffersOk (s : State) : Prop := s.PortOk ∧ s.DecoderOk ∧ s.SlotsOk

/-- A tile of an aperture that is not CLOSED (R8). -/
def State.Owned (s : State) (t : TileRef) : Prop := (s.ap t.ap).state ≠ .closed ∧ t.ix < (s.ap t.ap).extLen

/-- Every tile in use is one of an aperture that is not CLOSED, and not of a RETIRING one but for the tile in the encoder (R79,
R118, R158). An entry that is not UNWRITTEN with generation 0 lies in such an aperture's extent (R24), and not among those that
the walk has visited (R35). -/
def State.TilesOk (s : State) : Prop :=
  (∀ a, (s.ap a).state ≠ .closed → (s.ap a).base % 256 = 0 ∧ (s.ap a).extLen = (s.ap a).width * (s.ap a).height ∧
    1 ≤ (s.ap a).width ∧ 1 ≤ (s.ap a).height) ∧
  (∀ k t, (s.slot k).tile = some t → s.Owned t ∧ ((s.slot k).state ≠ .encoding → (s.ap t.ap).state ≠ .retiring)) ∧
  (∀ r ∈ s.port.window, r.outcome = .undetermined → ∀ p ∈ r.parts, s.Owned p.tile ∧ (s.ap p.tile.ap).state ≠ .retiring) ∧
  (∀ i, entryAt s.map.entries i ≠ ⟨.unwritten, 0⟩ → ∃ a, (s.extent a).Holds i) ∧
  ∀ w, s.map.walk = some w → ∀ i < w.next, i < (s.ap w.ap).extLen →
    entryAt s.map.entries ((s.ap w.ap).extFirst + i) = ⟨.unwritten, 0⟩

/-- The chunks on the encoder's held list (R113). -/
def State.heldChunks (s : State) : List Nat :=
  match s.enc.op with
  | none => []
  | some op => op.held.filterMap id

/-- The position and the chunk of a chunk write. -/
def StoreReq.written : StoreReq → Option (Nat × Nat)
  | .passRead _ _ _ => none
  | .passWrite _ _ _ => none
  | .chunkRead _ => none
  | .chunkWrite position chunk _ _ => some (position, chunk)
  | .statusWrite _ _ => none

/-- The positions and chunks of the chunk writes not yet answered (R122). -/
def State.beingWritten (s : State) : List (Nat × Nat) :=
  ((s.store.composer ++ s.store.decoder ++ s.store.encoder ++ s.store.status) ++ s.store.outstanding).filterMap
    StoreReq.written

/-- Each chunk of the pool stands in one place, and once: in the free list, among the encoder's held chunks, in the withdrawn
set, or in one entry's chunk list (R41, R42). The encoder holds none before WRITING, has a result with a stream from the pool
wait on, and writes each chunk to the position at which it holds it (R113, R119, R122, R123). -/
def State.ChunksOk (s : State) : Prop :=
  (s.pool.free ++ s.heldChunks ++ s.pool.withdrawn ++ s.map.entries.flatMap fun e => e.2.content.chunks).Perm
    (List.range s.pool.count) ∧
  (∀ op, s.enc.op = some op → (op.stage ≠ .writing → op.held = []) ∧
    (op.stage ≠ .coding → ∃ r, op.result = some r ∧ ∀ c d, r ≠ .uniform c d)) ∧
  (s.beingWritten.map Prod.fst).Nodup ∧
  ∀ i c, (i, c) ∈ s.beingWritten → ∃ op, s.enc.op = some op ∧ op.stage = .writing ∧ op.held[i]? = some (some c)

/-- Everything that the manual says of where tiles, extents, slots and chunks stand. -/
def State.Sound (s : State) : Prop :=
  s.MapOk ∧ s.WaitOk ∧ s.ExtentsOk ∧ s.BuffersOk ∧ s.TilesOk ∧ s.ChunksOk

/-! ### Streams -/

/-- `n` bits of a number, the most significant first. -/
def msbBits (n v : Nat) : List Bool := (List.range n).map fun j => v.testBit (n - 1 - j)

/-- The bits of some bytes in order, each byte's most significant bit first. -/
def bitsOfBytes (bs : List Byte) : List Bool := bs.flatMap fun x => msbBits 8 x.toNat

/-- One bit of a CRC of polynomial `poly` enters the register (R91, R170). -/
def crcStep {n : Nat} (poly reg : BitVec n) (b : Bool) : BitVec n :=
  if b ^^ reg.getLsbD (n - 1) then (reg <<< 1) ^^^ poly else reg <<< 1

/-- The first ten bytes of a stream's header (R90). -/
def streamHead (kind : Nat) (tile : TileRef) (fmt : Format) (byte3 gen : Byte) (len : Nat) : List Byte :=
  [BitVec.ofNat 8 kind, BitVec.ofNat 8 tile.ap.val, if fmt = .rgb8 then 0 else 1, byte3,
    BitVec.ofNat 8 tile.ix, BitVec.ofNat 8 (tile.ix / 256), BitVec.ofNat 8 (tile.ix / 65536), gen,
    BitVec.ofNat 8 len, BitVec.ofNat 8 (len / 256)]

/-- The two bytes of a check value, the low one first (R91). -/
def checkBytes (c : BitVec 16) : List Byte := [BitVec.ofNat 8 c.toNat, BitVec.ofNat 8 (c.toNat / 256)]

/-- A stream passes the header check and the check value of an entry of body length `len`; byte 3 is not compared (R90, R91). -/
def StreamPasses (kind : Nat) (tile : TileRef) (fmt : Format) (gen : Byte) (len : Nat) (stream : List Byte) : Prop :=
  (∃ byte3, stream.take 10 = streamHead kind tile fmt byte3 gen len) ∧
    (stream.drop (16 + len)).take 2 = checkBytes (crc16 (stream.take (16 + len)))

/-- The prediction of sample `n` of a tile, n = 96 × line + 32 × channel + column (R85, R88): its left neighbour, at column 0
the sample of the line above, and 0 at the first line. -/
def predicted (q : Nat → Nat) (n : Nat) : Nat :=
  if 0 < n % 32 then q (n - 1) else if 96 ≤ n then q (n - 96) else 0

/-- The zigzag value of sample `n`'s residual (R86). -/
def residualCode (q : Nat → Nat) (n : Nat) : Nat :=
  let d : Int := (q n : Int) - predicted q n
  (if 0 ≤ d then 2 * d else -2 * d - 1).toNat

/-- The bits of the 768 groups: of group m its width in 5 bits, then the values of samples 4m to 4m + 3 (R87, R88). -/
def bodyBits (w q : Nat → Nat) : List Bool :=
  (List.range 768).flatMap fun m =>
    msbBits 5 (w m) ++ (List.range 4).flatMap fun j => msbBits (w m) (residualCode q (4 * m + j))

/-- A CODED body is well formed and holds the quantised samples `q` in groups of widths `w` (R93): widths of 17 or less, samples
in 0..Q, and after the last group fewer than 8 bits, all zero. -/
def BodyHolds (fmt : Format) (k : Nat) (body : List Byte) (w q : Nat → Nat) : Prop :=
  (∀ m < 768, w m ≤ 17 ∧ ∀ j < 4, residualCode q (4 * m + j) < 2 ^ w m) ∧
  (∀ n < 3072, q n ≤ 2 ^ ((if fmt = .rgb8 then 8 else 16) - k) - 1) ∧
  ∃ z < 8, bitsOfBytes body = bodyBits w q ++ List.replicate z false

/-- The reconstruction of a quantised sample (R84). -/
def rebuilt (k q : Nat) : Nat := if k = 0 then q else q * 2 ^ k + 2 ^ (k - 1)

/-! ### Visible content -/

/-- The visible content of a pixel of a tile, by the three sources in order; none where it lies in a stream that is not in the
tile cache (R74). -/
def State.visible (s : State) (t : TileRef) (i : Nat) : Option Colour :=
  match slotsValue ((s.fillingSlot t).map s.slot) ((s.otherSlot t).map s.slot) i with
  | some c => some c
  | none => (s.mapTile t).map fun x => pixelOf x i

end Sys2Proof.Machine
end

