-- ==== Sys2Proof/WellFormed.lean ====
section
/-! DEFINITION. Which commands a sender can give: the operand checks that the types of `Instr` do not make. -/

namespace Sys2Proof

/-- Operand checks. A composer request has 1 to 256 bytes (R151), a chunk read answered OKAY carries 256 bytes (R139),
a store answer carries at most 256, the illegal classes are 4, 5 and 6, and an undefined order has an undefined code. -/
def Instr.wf : Instr → Bool
  | .illegalLengthClass cls => (classLength cls).isNone
  | .undefinedOrder byte0 => undefinedCode byte0
  | .composerRead _ length => decide (1 ≤ length) && decide (length ≤ Config.block)
  | .composerWrite _ bytes => decide (1 ≤ bytes.length) && decide (bytes.length ≤ Config.block)
  | .passThroughAnswer _ data => decide (data.length ≤ Config.block)
  | .chunkReadAnswer status data => decide (status = .error) || decide (data.length = Config.block)
  | .powerOn => true
  | .reset => true
  | .resetRelease => true
  | .lineReset => true
  | .bitError => true
  | .orderFrame _ => true
  | .nop => true
  | .halt => true
  | .close _ _ _ => true
  | .flush _ _ _ => true
  | .flushFreeze _ _ _ => true
  | .flushAll _ _ _ _ => true
  | .thaw _ _ _ => true
  | .clearFaults _ _ => true
  | .protectAdd _ _ _ _ _ _ _ => true
  | .protectClearAll _ _ _ _ _ _ _ => true
  | .setStatus _ _ => true
  | .openOrder _ => true
  | .setPool _ => true
  | .setCurve _ => true
  | .storeTurn => true
  | .chunkWriteAnswer _ => true
  | .statusWriteAnswer _ => true
  | .ignoredAnswer _ => true
  | .decodeEnd => true
  | .refitEnd => true
  | .codingEnd => true
  | .poolWaitExpiry => true
  | .recodeEnd => true
  | .retireWalkVisit => true
  | .firstBitEdge => true

end Sys2Proof
end

