-- ==== Sys2Proof/Certificates/Slice0/Obligations.lean ====
section
/-! DEFINITION. The statements for the provers. Where a command's effects go on inside its event, a statement gives the state
`u` that the command's own effect leaves and says that the command answers `u.finish`, the end of that event;
`SettleReachesQuiet` and `FinishIsTheStatusWriteWhenQuiet` say what that end is. -/

section

open Sys2Proof Sys2Proof.Machine

/-! ### The machine -/

/-- A step is the meaning of the command at the front of the queue, on the state with the queue's rest. -/
def Obligations.StepRunsTheFrontCommand : Prop :=
  ∀ (c : Instr) (rest : List Instr) (s : State), s.pending = c :: rest → step s = exec c (s.setPending rest)

/-- A command leaves the queue of waiting commands as it is. A well-formed one answers a next state, unless it is an answer of
the page store that no outstanding request calls for, which faults (assumption log 7). One whose operands its row does not
admit is refused (assumption log 22). -/
def Obligations.WellFormedCommandsComplete : Prop :=
  ∀ (c : Instr) (s : State),
    (c.wf = true → ¬Unsolicited c s → ∃ t : State, exec c s = .next t ∧ t.pending = s.pending) ∧
    (c.wf = true → Unsolicited c s → exec c s = .fault .unsolicitedAnswer) ∧
    (c.wf = false → exec c s = .refused .illFormed)

/-- The effects that follow inside an event, taken by the model's rules (assumption logs 9 and 10), come to an end: at the end
of an event none is due, whatever the state was. That none is due says that no waiting request for chunks can be granted, no
pending record moves in, no decode starts, no held write is granted a slot, no tile part goes forward, no response leaves, no
presented request is taken, no long order ends, no order is taken, and the encoder takes no slot. -/
def Obligations.SettleReachesQuiet : Prop :=
  (∀ s : State, s.finish.Quiet) ∧
  ∀ s : State, s.Quiet ↔
    s.grantWaiting = none ∧ s.movePending = none ∧ s.startDecode = none ∧ s.grantHeld = none ∧ s.proceedNext = none ∧
      s.respond = none ∧ s.takeBus = none ∧ s.endLongOrder = none ∧ s.takeOrder = none ∧ s.takeSealed = none

/-- With no effect due, the end of an event is the status write alone (R187): issued when the block is enabled and stale and
none is in flight, with a snapshot of the 128 bytes, after which the block is not stale. The snapshot holds every field of the
status block at its offset, size and code (R185). -/
def Obligations.FinishIsTheStatusWriteWhenQuiet : Prop :=
  (∀ s : State, s.Quiet → s.finish = s.issueStatus ∧
    (s.st.enable = true ∧ s.st.stale = true ∧ s.st.inFlight = false →
      s.issueStatus.store = { s.store with status := s.store.status ++ [.statusWrite s.st.addr s.statusBlock] } ∧
      s.issueStatus.st = { s.st with stale := false, inFlight := true, reissue := false } ∧
      s.statusBlock.length = 128) ∧
    (¬(s.st.enable = true ∧ s.st.stale = true ∧ s.st.inFlight = false) → s.issueStatus = s) ∧
    OnlyTouches [.store, .st] s s.issueStatus) ∧
  ∀ s : State,
    let f := s.statusField
    f 0 1 = 1 ∧ f 1 1 = s.st.faults.toNat ∧ f 2 1 = s.st.mask.toNat ∧
    f 3 1 = (match s.link.state with | .deaf => 0 | .armed => 1 | .taking => 2 | .passing => 3) ∧
    f 4 1 = (if s.ord.executing = none then 0 else 1) ∧
    f 5 1 = (match s.ord.executing with | none => 0 | some o => (o.frame.headD 0).toNat) ∧
    f 6 1 = s.ord.queue.length % 256 ∧ f 7 1 = s.ord.record.byte0.toNat ∧ f 8 1 = s.ord.record.aperture.toNat ∧
    f 9 1 = (match s.ord.record.result with | .none => 0 | .done => 1 | .refused => 2 | .halted => 3) ∧
    f 10 1 = (match s.ord.record.reason with
      | none => 0 | some .undefined => 1 | some .badParam => 2 | some .state => 3 | some .overlap => 4
      | some .noSpace => 5 | some .full => 6 | some .noPool => 7 | some .poolBusy => 8) ∧
    f 11 1 = s.ord.record.discarded % 256 ∧ f 12 2 = s.ord.completed.toNat ∧ f 14 1 = s.ctl.applied % 256 ∧
    f 15 1 = s.ctl.demanded % 256 ∧ f 16 1 = s.ctl.band.val ∧
    f 17 1 = (match s.enc.op.map TileOp.stage with
      | none => 0 | some .coding => 1 | some .poolWait => 2 | some .writing => 3) ∧
    f 18 2 = (List.finRange 256).countP (fun k => decide ((s.slot k).state = .filling)) ∧
    f 20 2 = s.asm.sealQueue.length % 65536 ∧ f 22 2 = s.asm.held.length % 65536 ∧
    f 24 2 = s.rd.queue.length % 65536 ∧ f 26 1 = s.rd.cache.length % 256 ∧ f 27 1 = s.port.window.length % 256 ∧
    f 28 4 = s.pool.count % 2 ^ 32 ∧ f 32 4 = s.pool.free.length % 2 ^ 32 ∧
    f 36 4 = s.pool.withdrawn.length % 2 ^ 32 ∧ f 40 4 = s.pool.low % 2 ^ 32 ∧ f 44 4 = s.map.degradedTotal.toNat ∧
    f 48 4 = s.ctl.refits.toNat ∧ f 52 4 = s.map.tilesTotal.toNat ∧
    f 56 1 = (match s.port.lastReason with
      | none => 0 | some .boundary => 1 | some .guarded => 2 | some .pixel => 3 | some .frozen => 4
      | some .retired => 5) ∧
    f 57 5 = s.port.lastAddr.toNat ∧ f 62 2 = 0 ∧
    ∀ a : ApIx,
      f (64 + 8 * a.val) 1 = (match (s.ap a).state with
        | .closed => 0 | .opened => 1 | .freezing => 2 | .frozen => 3 | .retiring => 4) ∧
      f (65 + 8 * a.val) 1 =
        (if (s.ap a).fmt = .rgb8 then 0 else 1) + (if (s.ap a).mode = .fixed then 0 else 16) ∧
      f (66 + 8 * a.val) 1 = (s.ap a).rects.length % 256 ∧
      ((s.ap a).state = .freezing ∨ (∃ k t, (s.slot k).mark = true ∧ (s.slot k).tile = some t ∧ t.ap = a) →
        f (67 + 8 * a.val) 1 = 1) ∧
      ((s.ap a).state ≠ .freezing → (∀ k t, (s.slot k).mark = true → (s.slot k).tile = some t → t.ap ≠ a) →
        f (67 + 8 * a.val) 1 = 0) ∧
      f (68 + 8 * a.val) 4 = (s.ap a).committed % 2 ^ 32

/-! ### Power and RESET -/

/-- POWER_ON: every block at its value after power-on. The pixel stores are as they were (the model's choice, assumption
log 13). -/
def Obligations.PowerOnGivesEveryBlockItsValue : Prop :=
  ∀ s : State, ∃ t : State, exec .powerOn s = .next t ∧
    (∀ a, t.ap a = ⟨.closed, .rgb8, .fixed, 0, 0, 0, 0, 0, 0, 0, 0, 0, 0, [], 0⟩) ∧
    t.map = ⟨[], [⟨0, 262144⟩], 0, 0, none⟩ ∧ t.pool = ⟨0, 0, [], [], 0, 10, none⟩ ∧
    (∀ k, t.slot k = ⟨.free, none, (s.slot k).px, 0, none, false, false⟩) ∧
    t.asm.openList = [] ∧ t.asm.sealQueue = [] ∧ t.asm.held = [] ∧
    t.ctl.curve.toList = [0, 0, 1, 2, 3, 5, 8, 12] ∧ t.ctl.up = 16 ∧ t.ctl.down = 32 ∧ t.ctl.refitLimit = 2 ∧
    t.ctl.band = 0 ∧ t.ctl.demanded = 0 ∧ t.ctl.applied = 0 ∧ t.ctl.upCount = 0 ∧ t.ctl.downCount = 0 ∧
    t.ctl.refits = 0 ∧ t.enc = ⟨none, none⟩ ∧ t.rd = ⟨[], [], none, []⟩ ∧ t.port.window = [] ∧
    t.port.lastReason = none ∧ t.port.lastAddr = 0 ∧ t.store = ⟨[], [], [], [], [], .composer, 0⟩ ∧
    t.link = ⟨.deaf, [], [], none⟩ ∧ t.ord = ⟨[], none, ⟨0x00, 0xFF, .none, none, 0⟩, 0⟩ ∧
    t.st = ⟨0, 0, false, 0, false, false, false, false⟩

/-- RESET: the same values, but that the receiver, the status address, the enable and the attention mask are as they were,
the answers outstanding are to be ignored, and an enabled status block is written at that event. The pixel stores are as they
were (the model's choice, assumption log 13). -/
def Obligations.ResetLineKeepsReceiverAndStatusSettings : Prop :=
  ∀ s : State, ∃ t : State, exec .reset s = .next t ∧
    (∀ a, t.ap a = ⟨.closed, .rgb8, .fixed, 0, 0, 0, 0, 0, 0, 0, 0, 0, 0, [], 0⟩) ∧
    t.map = ⟨[], [⟨0, 262144⟩], 0, 0, none⟩ ∧ t.pool = ⟨0, 0, [], [], 0, 10, none⟩ ∧
    (∀ k, t.slot k = ⟨.free, none, (s.slot k).px, 0, none, false, false⟩) ∧
    t.asm.openList = [] ∧ t.asm.sealQueue = [] ∧ t.asm.held = [] ∧
    t.ctl = StepControl.reset ∧ t.enc = ⟨none, none⟩ ∧ t.rd = ⟨[], [], none, []⟩ ∧
    t.port.window = [] ∧ t.port.lastReason = none ∧ t.port.lastAddr = 0 ∧
    t.ord = ⟨[], none, ⟨0x00, 0xFF, .none, none, 0⟩, 0⟩ ∧ t.link = s.link ∧ t.resetLine = true ∧
    t.store.composer = [] ∧ t.store.decoder = [] ∧ t.store.encoder = [] ∧ t.store.outstanding = [] ∧
    t.store.pointer = .composer ∧ t.store.ignore = s.store.ignore + s.store.outstanding.length ∧
    t.st.faults = 0 ∧ t.st.attn = false ∧ t.st.mask = s.st.mask ∧ t.st.addr = s.st.addr ∧
    t.st.enable = s.st.enable ∧
    (s.st.enable = true → t.store.status = [.statusWrite s.st.addr t.statusBlock] ∧ t.st.inFlight = true ∧
      t.st.stale = false) ∧
    (s.st.enable = false → t.store.status = [] ∧ t.st.inFlight = false ∧ t.st.stale = true)

/-- RESET_RELEASE: requests, turns and orders are taken again. With nothing presented meanwhile, the release of the line is
the one change; a request presented meanwhile, which the bus holds (assumption log 11), is taken at the release into the empty
window. -/
def Obligations.ResetReleaseLetsRequestsIn : Prop :=
  ∀ s : State, s.resetLine = true →
    exec .resetRelease s = .next (s.setResetLine false).finish ∧
    (s.Quiet → s.port.busHeld = [] → exec .resetRelease s = .next (s.setResetLine false).issueStatus) ∧
    (∀ q rest, s.port.busHeld = q :: rest → s.port.window = [] →
      ∃ u : State, (s.setResetLine false).takeBus = some u ∧ u.port.busHeld = rest ∧
        ∃ r, u.port.window = [r] ∧ r.kind = q.kind ∧ r.addr = q.addr)

/-- While RESET is asserted an arriving order is discarded, whatever it is, and no source is granted. A request presented then,
or while the window holds 32 requests, is not taken: the bus holds it (assumption log 11). -/
def Obligations.AssertedResetTakesNothing : Prop :=
  ∀ s : State,
    (s.resetLine = true →
      exec .nop s = .next s ∧ exec .storeTurn s = .next s ∧
      ∀ c o, broughtOrder c = some o → c.wf = true → c ≠ .nop → exec c s = .next s.finish) ∧
    (s.resetLine = true ∨ 32 ≤ s.port.window.length →
      s.takeBus = none ∧
      ∀ (kind : ReqKind) (addr : Addr), s.Quiet → 1 ≤ kind.length → kind.length ≤ 256 →
        ∃ u : State, exec (requestCommand kind addr) s = .next u.issueStatus ∧
          u.port = { s.port with busHeld := s.port.busHeld ++ [⟨kind, addr⟩] } ∧ OnlyTouches [.port] s u)

/-! ### The setup line -/

/-- The events of the line. FIRST_BIT_EDGE makes an ARMED receiver TAKING with nothing taken. In the other link states it
changes nothing but that a status write that is due is issued, which is the model's choice (assumption log 6). BIT_ERROR while
TAKING, and ILLEGAL_LENGTH_CLASS at the third bit, discard the partly received order, make the receiver DEAF and raise LINK. The
class that ILLEGAL_LENGTH_CLASS names stands for the order's first three bits, whether or not two bits have been taken and agree
with it, which is the model's choice (assumption log 33). LINE_RESET makes it ARMED from any state, any partly received order
discarded, with no fault raised. SDO repeats SDI in PASSING alone. -/
def Obligations.LineEventsMoveTheReceiver : Prop :=
  ∀ s : State,
    (s.link.state = .armed → ∃ u : State, exec .firstBitEdge s = .next u.issueStatus ∧
      u.link = ⟨.taking, [], [], none⟩ ∧ u.st = { s.st with stale := true } ∧ OnlyTouches [.link, .st] s u) ∧
    (s.link.state ≠ .armed → exec .firstBitEdge s = .next s.issueStatus) ∧
    (s.link.state = .taking → ∃ u : State, exec .bitError s = .next u.issueStatus ∧
      (∀ cls, classLength cls = none → s.link.cls = none →
        exec (.illegalLengthClass cls) s = .next u.issueStatus) ∧
      u.link = ⟨.deaf, [], [], none⟩ ∧ u.st.faults = s.st.faults ||| 0x01 ∧
      u.st.attn = decide ((s.st.faults ||| 0x01) &&& s.st.mask ≠ 0) ∧ u.st.stale = true ∧
      u.st.mask = s.st.mask ∧ u.st.addr = s.st.addr ∧ u.st.enable = s.st.enable ∧
      OnlyTouches [.link, .st] s u) ∧
    ∃ u : State, exec .lineReset s = .next u.issueStatus ∧ u.link = ⟨.armed, [], [], none⟩ ∧
      u.st = { s.st with stale := s.st.stale || decide (s.link.state ≠ .armed) } ∧
      OnlyTouches [.link, .st] s u ∧ u.sdoRepeats = false ∧ (s.sdoRepeats = true ↔ s.link.state = .passing)

/-- ORDER_FRAME, by its pulses' high times (assumption log 5), which act one after another. The bits of a whole frame of a legal
class, from ARMED, leave the receiver PASSING; the frame goes to the order unit when its check passes, and else it is discarded
with LINK raised. A single pulse, with no status write due: DEAF and PASSING take nothing; ARMED becomes TAKING at the rising
edge; while TAKING, a bit in time is taken, and a late one is a bit error; a third bit that gives an illegal class gives the
order up; the last bit brings the frame to its check; and 50 µs high is a line reset, after a TAKING receiver's bit error. A
change of the link state makes the status block stale, and LINK is raised with ATTN as the mask says. -/
def Obligations.WholeFrameIsCheckedAndHandedOver : Prop :=
  (∀ (s : State) (hs : List Nat) (frame : List Byte), s.link.state = .armed → (∀ h ∈ hs.dropLast, h < 3000) →
    (∀ h ∈ hs, h ≤ 3000) →
    packBits (hs.map fun h => decide (500 ≤ h)) = frame → hs.length = 8 * frame.length →
    classLength (lengthClass (frame.headD 0)) = some frame.length →
    (frameHolds frame = true → exec (.orderFrame hs) s =
      .next ((s.firstEdge.issueStatus.putLink ⟨.passing, [], [], none⟩).arrive (orderOfFrame frame)).finish) ∧
    (frameHolds frame = false → exec (.orderFrame hs) s =
      .next ((s.firstEdge.issueStatus.putLink ⟨.passing, [], [], none⟩).raise .link).finish)) ∧
  (∀ s : State, exec (.orderFrame []) s = .next s) ∧
  (∀ (s : State) (l : Receiver),
    (s.putLink l).link = l ∧ OnlyTouches [.link, .st] s (s.putLink l) ∧
    (s.putLink l).st = { s.st with stale := s.st.stale || decide (l.state ≠ s.link.state) } ∧
    OnlyTouches [.st] s (s.raise .link) ∧
    (s.raise .link).st = { s.st with
      faults := s.st.faults ||| 0x01, attn := decide ((s.st.faults ||| 0x01) &&& s.st.mask ≠ 0)
      stale := s.st.stale || decide (s.st.faults ||| 0x01 ≠ s.st.faults) }) ∧
  (∀ (s : State) (h : Nat) (rest : List Nat), ∃ u : State,
    exec (.orderFrame [h]) s = .next u ∧ exec (.orderFrame (h :: rest)) s = exec (.orderFrame rest) u) ∧
  (∀ (s : State) (h : Nat), s.link.state = .armed → ∃ u : State,
    exec .firstBitEdge s = .next u ∧ exec (.orderFrame [h]) s = exec (.orderFrame [h]) u) ∧
  ∀ (s : State) (h : Nat), ¬s.WriteDue →
    let bits := s.link.bits ++ [decide (500 ≤ h)]
    let last := s.link.bits.length = 7 ∧ s.link.cls.bind classLength = some (s.link.bytes.length + 1)
    let inTime := (last → h ≤ 3000) ∧ (¬last → h < 3000)
    let known := ∀ c, s.link.cls = some c → classLength c ≠ none
    let becomes := fun (l : Receiver) =>
      ∃ u : State, exec (.orderFrame [h]) s = .next u ∧ u.link = l ∧ OnlyTouches [.link] s u
    (s.link.state = .deaf ∨ s.link.state = .passing →
      exec (.orderFrame [h]) s = if h < 50000 then .next s else exec .lineReset s) ∧
    (s.link.state = .taking → ¬inTime → ∃ u : State, exec .bitError s = .next u ∧
      exec (.orderFrame [h]) s = if h < 50000 then .next u else exec .lineReset u) ∧
    (s.link.state = .taking → inTime →
      (∀ b0 b1, s.link.bytes = [] → s.link.bits = [b0, b1] → s.link.cls = none →
        let cls : BitVec 3 := BitVec.ofBool b0 ++ BitVec.ofBool b1 ++ BitVec.ofBool (decide (500 ≤ h))
        (classLength cls = none → exec (.orderFrame [h]) s = exec (.illegalLengthClass cls) s) ∧
        (classLength cls ≠ none → becomes ⟨.taking, [], bits, some cls⟩)) ∧
      (known → s.link.bytes ≠ [] ∨ s.link.bits.length ≠ 2 → s.link.bits.length < 7 →
        becomes ⟨.taking, s.link.bytes, bits, s.link.cls⟩) ∧
      (known → s.link.bits.length = 7 → ¬last →
        becomes ⟨.taking, s.link.bytes ++ packBits bits, [], s.link.cls⟩) ∧
      (last →
        let frame := s.link.bytes ++ packBits bits
        let v := s.putLink ⟨.passing, [], [], none⟩
        exec (.orderFrame [h]) s =
          .next (if frameHolds frame then v.arrive (orderOfFrame frame) else v.raise .link).finish))

/-- An order's frame, as R176 lays it out with the check byte of R170, has the length of its class, passes its check and reads
back as that order, with every field at every value. The class, its length and the check byte are those of R169 and R170: the
check byte is the CRC of the bytes before it, and an order of class 0 has none. Bits are packed the first one most
significant. -/
def Obligations.OrdersReadBackFromTheirFrames : Prop :=
  (∀ o : Order, (∀ b, o = .undefined b → undefinedCode b = true) →
    orderOfFrame o.frame = o ∧ frameHolds o.frame = true ∧
      classLength (lengthClass (o.frame.headD 0)) = some o.frame.length) ∧
  (∀ o : Order,
    let field5 := fun (f : BitVec 40) =>
      [f.extractLsb' 0 8, f.extractLsb' 8 8, f.extractLsb' 16 8, f.extractLsb' 24 8, f.extractLsb' 32 8]
    let field3 := fun (f : BitVec 24) => [f.extractLsb' 0 8, f.extractLsb' 8 8, f.extractLsb' 16 8]
    let content : List Byte := match o with
      | .nop => [0x00]
      | .halt => [0x01]
      | .close ap zero b2 => [0x21, zero ++ ap, b2]
      | .flush all freeze ap zero b2 => [0x22, BitVec.ofBool all ++ BitVec.ofBool freeze ++ zero ++ ap, b2]
      | .thaw ap zero b2 => [0x23, zero ++ ap, b2]
      | .clearFaults faults b2 => [0x24, faults, b2]
      | .protect clear ap zero x0 y0 x1 y1 b6 => [0x41, BitVec.ofBool clear ++ zero ++ ap, x0, y0, x1, y1, b6]
      | .setStatus field mask => [0x42] ++ field5 field ++ [mask]
      | .openOrder f => [0x61, f.zero1 ++ f.mode ++ f.fmt ++ f.ap, f.zero2 ++ f.floorStep, f.budget] ++ field5 f.base ++
          [f.width, f.height, f.fillR, f.fillG, f.fillB, f.zero14]
      | .setPool f => [0x62] ++ field5 f.base ++ field3 f.count ++ field3 f.low ++ [f.limit, f.zero13, f.zero14]
      | .setCurve f => [0x63] ++ f.steps.toList ++ [f.up, f.down, f.refit, f.zero12, f.zero13, f.zero14]
      | .undefined b => b :: o.frame.tail.take (o.frame.length - 2)
    o.frame = if lengthClass (content.headD 0) = 0 then content else content ++ [crc8 content]) ∧
  (∀ b : Byte, (lengthClass b).toNat = b.toNat / 32) ∧
  (List.range 8).map (fun c => classLength (BitVec.ofNat 3 c)) =
    [some 1, some 4, some 8, some 16, none, none, none, some 24] ∧
  ∀ bs : List Byte,
    crc8 bs = (bitsOfBytes bs).foldl (crcStep 0x07) 0 ∧ packBits (bitsOfBytes bs) = bs ∧
      (frameHolds bs = true ↔ lengthClass (bs.headD 0) = 0 ∨ crc8 bs.dropLast = bs.getLastD 0)

/-! ### The order unit -/

/-- The arrival of an order, which is what an order command is (assumption log 4): NOP is discarded, HALT is acted on at once, a
full queue discards with OVERRUN, a busy unit queues, and an idle one executes. An IDLE unit with orders queued takes the head
of the queue, leaves the rest in order, and executes what it took; a busy one takes none. How an order is executed does not
depend on the orders behind it. -/
def Obligations.ArrivingOrdersAreQueuedOrTaken : Prop :=
  (∀ s : State, s.resetLine = false →
    exec .nop s = .next s ∧ exec .halt s = .next s.haltNow.finish ∧
    ∀ c o, broughtOrder c = some o → c.wf = true → c ≠ .nop → c ≠ .halt →
      (4 ≤ s.ord.queue.length →
        ∃ u : State, exec c s = .next u.finish ∧ u.st.faults = s.st.faults ||| 0x04 ∧
          u.st.attn = decide ((s.st.faults ||| 0x04) &&& s.st.mask ≠ 0) ∧
          u.st.stale = (s.st.stale || decide (s.st.faults ||| 0x04 ≠ s.st.faults)) ∧ u.st.mask = s.st.mask ∧
          u.st.addr = s.st.addr ∧ u.st.enable = s.st.enable ∧ u.st.inFlight = s.st.inFlight ∧
          OnlyTouches [.st] s u) ∧
      (s.ord.queue.length < 4 → (s.ord.executing ≠ none ∨ s.ord.queue ≠ []) →
        ∃ u : State, exec c s = .next u.finish ∧ u.ord = { s.ord with queue := s.ord.queue ++ [o] } ∧
          u.st = { s.st with stale := true } ∧ OnlyTouches [.ord, .st] s u) ∧
      (s.ord.executing = none → s.ord.queue = [] → exec c s = .next (s.execute o).finish)) ∧
  (∀ s : State,
    (s.ord.executing ≠ none ∨ s.ord.queue = [] → s.takeOrder = none) ∧
    ∀ o rest, s.ord.executing = none → s.ord.queue = o :: rest →
      ∃ v : State, v.ord = { s.ord with queue := rest } ∧ v.st = { s.st with stale := true } ∧
        OnlyTouches [.ord, .st] s v ∧ s.takeOrder = some (v.execute o)) ∧
  ∀ (s : State) (o : Order) (q : List Order),
    (s.setOrd { s.ord with queue := q }).execute o = (s.execute o).setOrd { (s.execute o).ord with queue := q }

/-- A refused order changes the last order record, the count of completed orders, the ORDER fault with ATTN, and the stale mark,
and nothing else; an order of undefined code is refused UNDEFINED. The record's first two fields are the order's first byte and,
for CLOSE, FLUSH without ALL, THAW, PROTECT and OPEN, the aperture that the order names, 0xFF for every other order. A code is
undefined when its class is legal and no order of R176 has it. -/
def Obligations.RefusedOrderChangesNothingElse : Prop :=
  (∀ o : Order,
    o.byte0 = (match o with
      | .nop => 0x00 | .halt => 0x01 | .close _ _ _ => 0x21 | .flush _ _ _ _ _ => 0x22 | .thaw _ _ _ => 0x23
      | .clearFaults _ _ => 0x24 | .protect _ _ _ _ _ _ _ _ => 0x41 | .setStatus _ _ => 0x42 | .openOrder _ => 0x61
      | .setPool _ => 0x62 | .setCurve _ => 0x63 | .undefined b => b) ∧
    o.recordAp = (match o with
      | .close ap _ _ => ap.setWidth 8
      | .flush all _ ap _ _ => if all then 0xFF else ap.setWidth 8
      | .thaw ap _ _ => ap.setWidth 8
      | .protect _ ap _ _ _ _ _ _ => ap.setWidth 8
      | .openOrder f => f.ap.setWidth 8
      | _ => 0xFF)) ∧
  (∀ ap, (apOf ap).val = ap.toNat) ∧
  (∀ b : Byte, undefinedCode b = true ↔ (b.toNat / 32 ≤ 3 ∨ b.toNat / 32 = 7) ∧
    b ∉ [0x00, 0x01, 0x21, 0x22, 0x23, 0x24, 0x41, 0x42, 0x61, 0x62, 0x63]) ∧
  ∀ (s : State) (o : Order) (reason : OrderReason),
    Concluded o s (s.orderRefused o reason) .refused (some reason) ∧
    (s.orderRefused o reason).st = { s.st with
      faults := s.st.faults ||| 0x02, attn := decide ((s.st.faults ||| 0x02) &&& s.st.mask ≠ 0), stale := true } ∧
    OnlyTouches [.ord, .st] s (s.orderRefused o reason) ∧
    ∀ b, undefinedCode b = true → s.ReadyForOrder →
      exec (.undefinedOrder b) s = .next (s.orderRefused (.undefined b) .undefined).finish

/-- HALT: the queue is emptied; an executing FLUSH ends HALTED with its marks cleared and a FREEZING aperture back in OPEN; an
executing CLOSE goes on; the record is HALT's. -/
def Obligations.HaltEmptiesTheQueueAndEndsFlush : Prop :=
  ∀ s : State, s.resetLine = false → ∃ u : State, exec .halt s = .next u.finish ∧ u.ord.queue = [] ∧
    u.st.faults = s.st.faults ∧ u.st.stale = true ∧ OnlyTouches [.aps, .asm, .ord, .st] s u ∧
    (s.ord.executing = none →
      u.ord.record = ⟨0x01, 0xFF, .done, none, s.ord.queue.length⟩ ∧ u.ord.executing = none ∧
        u.ord.completed = s.ord.completed ∧ u.aps = s.aps ∧ u.asm = s.asm) ∧
    (∀ all freeze ap zero b2, s.ord.executing = some (.flush all freeze ap zero b2) →
      u.ord.record = ⟨0x01, if all then 0xFF else ap.setWidth 8, .halted, none, s.ord.queue.length⟩ ∧
        u.ord.executing = none ∧ u.ord.completed = s.ord.completed + 1 ∧
        (∀ k, u.slot k = { s.slot k with mark := false }) ∧ u.asm.openList = s.asm.openList ∧
        u.asm.sealQueue = s.asm.sealQueue ∧ u.asm.held = s.asm.held ∧
        (freeze = true → all = false → (s.ap (apOf ap)).state = .freezing →
          u.ap (apOf ap) = { s.ap (apOf ap) with state := .opened } ∧ ∀ b, b ≠ apOf ap → u.ap b = s.ap b) ∧
        (freeze = false ∨ all = true → u.aps = s.aps) ∧
        ∀ a, (u.ap a).state ≠ .freezing → u.flushPending a = false) ∧
    (∀ ap zero b2, s.ord.executing = some (.close ap zero b2) →
      u.ord.record = ⟨0x01, ap.setWidth 8, .none, none, s.ord.queue.length⟩ ∧
        u.ord.executing = s.ord.executing ∧ u.ord.completed = s.ord.completed ∧ u.aps = s.aps ∧ u.asm = s.asm)

/-- CLOSE is refused BAD_PARAM for a bit that must be zero, else STATE for a CLOSED aperture; FLUSH in its three forms likewise,
and for FREEZE with ALL, or ALL with an aperture; FLUSH of a FROZEN aperture completes DONE at once. -/
def Obligations.CloseAndFlushRefusals : Prop :=
  ∀ s : State, s.ReadyForOrder →
    (∀ ap zero b2, zero ≠ 0 ∨ b2 ≠ 0 →
      exec (.close ap zero b2) s = .next (s.orderRefused (.close ap zero b2) .badParam).finish) ∧
    (∀ ap, (s.ap (apOf ap)).state = .closed →
      exec (.close ap 0 0) s = .next (s.orderRefused (.close ap 0 0) .state).finish) ∧
    (∀ ap zero b2, zero ≠ 0 ∨ b2 ≠ 0 →
      exec (.flush ap zero b2) s = .next (s.orderRefused (.flush false false ap zero b2) .badParam).finish ∧
      exec (.flushFreeze ap zero b2) s = .next (s.orderRefused (.flush false true ap zero b2) .badParam).finish) ∧
    (∀ freeze ap zero b2, freeze = true ∨ ap ≠ 0 ∨ zero ≠ 0 ∨ b2 ≠ 0 →
      exec (.flushAll freeze ap zero b2) s =
        .next (s.orderRefused (.flush true freeze ap zero b2) .badParam).finish) ∧
    (∀ ap, (s.ap (apOf ap)).state = .closed →
      exec (.flush ap 0 0) s = .next (s.orderRefused (.flush false false ap 0 0) .state).finish ∧
      exec (.flushFreeze ap 0 0) s = .next (s.orderRefused (.flush false true ap 0 0) .state).finish) ∧
    (∀ ap freeze, (s.ap (apOf ap)).state = .frozen →
      ∃ u : State, Concluded (.flush false freeze ap 0 0) s u .done none ∧ OnlyTouches [.ord, .st] s u ∧
        u.st.faults = s.st.faults ∧
        (if freeze then exec (.flushFreeze ap 0 0) s else exec (.flush ap 0 0) s) = .next u.finish)

/-- CLOSE starts: the aperture is RETIRING; its FILLING, GATHERING and SEALED slots are freed, with nothing present (assumption
log 32), and leave the lists; its held writes, cache entries, queued decodes and pending records leave; its DECODING entry loses
its waiters and is marked for discard, or, when the answers are all in and the checks are running, the decode ends; its
incomplete requests are answered ERROR, with no record of a refusal; the walk stands at tile 0; what belongs to other apertures
stays. -/
def Obligations.CloseStartsRetiring : Prop :=
  ∀ (s : State) (ap : BitVec 3), s.ReadyForOrder →
    ((s.ap (apOf ap)).state = .opened ∨ (s.ap (apOf ap)).state = .freezing ∨ (s.ap (apOf ap)).state = .frozen) →
    let a := apOf ap
    let leaves : SlotIx → Prop := fun k =>
      ((s.slot k).state = .filling ∨ (s.slot k).state = .gathering ∨ (s.slot k).state = .sealed) ∧
        ∃ t, (s.slot k).tile = some t ∧ t.ap = a
    let others := fun (l : List DecodeEntry) => l.filter fun e => decide (e.tile.ap ≠ a)
    ∃ u : State, exec (.close ap 0 0) s = .next u.finish ∧
      u.ord = { s.ord with executing := some (.close ap 0 0) } ∧
      u.ap a = { s.ap a with state := .retiring } ∧ (∀ b, b ≠ a → u.ap b = s.ap b) ∧
      u.map = { s.map with walk := some ⟨a, 0⟩ } ∧
      (∀ k, leaves k → u.slot k = ⟨.free, none, (s.slot k).px, 0, none, false, false⟩) ∧
      (∀ k, ¬leaves k → u.slot k = s.slot k) ∧
      (∀ k, (s.slot k).closable a = true ↔ leaves k) ∧
      u.asm.openList = s.asm.openList.filter (fun k => !(s.slot k).closable a) ∧
      u.asm.sealQueue = s.asm.sealQueue.filter (fun k => !(s.slot k).closable a) ∧
      u.asm.held = s.asm.held.filter (fun h => decide (h.tile.ap ≠ a)) ∧
      u.rd.cache = s.rd.cache.filter (fun e => decide (e.tile.ap ≠ a)) ∧
      u.rd.pendingList = others s.rd.pendingList ∧
      (s.rd.decoder = none → (∀ e ∈ s.rd.queue, e.phase = .queued) →
        u.rd.decoder = none ∧ u.rd.queue = others s.rd.queue) ∧
      (∀ d e q, s.rd.decoder = some d → s.rd.queue = e :: q → e.phase = .decoding → e.tile = d.tile →
        (∀ x ∈ q, x.phase = .queued) →
        (d.tile.ap ≠ a → u.rd.decoder = some d ∧ u.rd.queue = e :: others q) ∧
        (d.tile.ap = a → 0 < d.unanswered →
          u.rd.decoder = some d ∧
            u.rd.queue = { e with readers := [], gather := none, discard := true } :: others q) ∧
        (d.tile.ap = a → d.unanswered = 0 → u.rd.decoder = none ∧ u.rd.queue = others q)) ∧
      u.port = { s.port with
        window := s.port.window.map fun r =>
          if r.cls = .aperture a ∧ r.outcome = .undetermined then
            { r with
              outcome := .error
              parts := r.parts.filter fun p => decide (p.progress = .complete ∨ p.progress = .failed) }
          else r } ∧
      u.st = { s.st with stale := true } ∧ OnlyTouches [.aps, .map, .asm, .rd, .port, .ord, .st] s u

/-- The start of a FLUSH over some apertures marks their FILLING slots, seals those with no predecessor, in some order (a free
value, assumption log 3), makes the seal of the others due, and leaves every other slot as it was. -/
def Obligations.ForcingMarksAndSealsFillingSlots : Prop :=
  ∀ (s : State) (on : ApIx → Bool),
    let forced : SlotIx → Prop := fun k =>
      (s.slot k).state = .filling ∧ ∃ t, (s.slot k).tile = some t ∧ on t.ap = true
    let u := s.forceSlots on
    (∀ k, ¬forced k → u.slot k = s.slot k) ∧
    (∀ k, forced k → (u.slot k).mark = true ∧ (u.slot k).tile = (s.slot k).tile) ∧
    (∀ k, forced k → (s.slot k).pred = none →
      ((u.slot k).state = .gathering ∨ (u.slot k).state = .sealed) ∧ (u.slot k).due = false) ∧
    (s.asm.openList.Nodup → ∀ k, forced k → (s.slot k).due = false → k ∉ u.asm.openList) ∧
    (∀ k, forced k → (s.slot k).pred ≠ none → (u.slot k).state = .filling ∧ (u.slot k).due = true) ∧
    (∃ l : List SlotIx, u.asm.sealQueue = s.asm.sealQueue ++ l ∧ l.Nodup ∧
      ∀ k, k ∈ l ↔ forced k ∧ (s.slot k).pred = none) ∧
    u.asm.held = s.asm.held ∧ OnlyTouches [.asm, .rd, .st, .draws] s u

/-- FLUSH of an OPEN aperture, FLUSH with FREEZE of one, and FLUSH ALL start: the aperture of a FREEZE is FREEZING, the slots
are forced, and the order unit is executing. -/
def Obligations.FlushFormsForceTheirApertures : Prop :=
  ∀ s : State, s.ReadyForOrder →
    (∀ ap, (s.ap (apOf ap)).state = .opened →
      (∃ u : State, exec (.flush ap 0 0) s = .next u.finish ∧ u.asm = (s.forceSlots fun b => decide (b = apOf ap)).asm ∧
        u.ord = { s.ord with executing := some (.flush false false ap 0 0) } ∧ u.st.faults = s.st.faults ∧
        OnlyTouches [.asm, .rd, .ord, .st, .draws] s u) ∧
      (∃ u v : State, exec (.flushFreeze ap 0 0) s = .next u.finish ∧
        v.ap (apOf ap) = { s.ap (apOf ap) with state := .freezing } ∧ (∀ b, b ≠ apOf ap → v.ap b = s.ap b) ∧
        OnlyTouches [.aps, .st] s v ∧ u.asm = (v.forceSlots fun b => decide (b = apOf ap)).asm ∧
        u.ord = { s.ord with executing := some (.flush false true ap 0 0) } ∧ u.st.faults = s.st.faults ∧
        OnlyTouches [.asm, .rd, .ord, .st, .draws] v u)) ∧
    (∃ u : State, exec (.flushAll false 0 0 0) s = .next u.finish ∧
      u.asm = (s.forceSlots fun b => decide ((s.ap b).state = .opened)).asm ∧
      u.ord = { s.ord with executing := some (.flush true false 0 0 0) } ∧ u.st.faults = s.st.faults ∧
      OnlyTouches [.asm, .rd, .ord, .st, .draws] s u)

/-- The end of an executing FLUSH or CLOSE at its condition: DONE with no marked slot left; DONE with the aperture FROZEN when
a FREEZE's condition holds; DONE with the extent returned and the aperture CLOSED when the walk has ended. A FREEZE's condition
is that the aperture has no occupied slot, no held write, and no write tile part in the window that has not landed (R78). A
returned extent is joined to the free extents that touch it (R36). -/
def Obligations.LongOrdersEndAtTheirCondition : Prop :=
  (∀ s : State,
    (∀ ap freeze all, s.ord.executing = some (.flush all freeze ap 0 0) → (freeze && !all) = false →
      (s.anyMark = true → s.endLongOrder = none) ∧
      (s.anyMark = false → ∃ u : State, s.endLongOrder = some u ∧ Concluded (.flush all freeze ap 0 0) s u .done none ∧
        OnlyTouches [.ord, .st] s u)) ∧
    (∀ ap, s.ord.executing = some (.flush false true ap 0 0) →
      (s.freezeMet (apOf ap) = false → s.endLongOrder = none) ∧
      (s.freezeMet (apOf ap) = true → ∃ u : State, s.endLongOrder = some u ∧
        Concluded (.flush false true ap 0 0) s u .done none ∧
        u.ap (apOf ap) = { s.ap (apOf ap) with state := .frozen } ∧ (∀ b, b ≠ apOf ap → u.ap b = s.ap b) ∧
        OnlyTouches [.aps, .ord, .st] s u)) ∧
    (∀ ap w, s.ord.executing = some (.close ap 0 0) → s.map.walk = some w →
      (w.next < (s.ap w.ap).extLen ∨ s.encoderHolds w.ap = true → s.endLongOrder = none) ∧
      ((s.ap w.ap).extLen ≤ w.next → s.encoderHolds w.ap = false → ∃ u : State, s.endLongOrder = some u ∧
        Concluded (.close ap 0 0) s u .done none ∧
        u.ap w.ap = { s.ap w.ap with
          state := .closed, extFirst := 0, extLen := 0, rects := [], committed := 0 } ∧
        (∀ b, b ≠ w.ap → u.ap b = s.ap b) ∧
        u.map = { s.map with
          freeExtents := returnExtent s.map.freeExtents ⟨(s.ap w.ap).extFirst, (s.ap w.ap).extLen⟩
          walk := none } ∧
        OnlyTouches [.aps, .map, .ord, .st] s u))) ∧
  (∀ s : State,
    (s.anyMark = true ↔ ∃ k, (s.slot k).mark = true) ∧
    ∀ a, (s.encoderHolds a = true ↔ ∃ op, s.enc.op = some op ∧ op.tile.ap = a) ∧
      (s.freezeMet a = true ↔
        (∀ k t, (s.slot k).state ≠ .free → (s.slot k).tile = some t → t.ap ≠ a) ∧
        (∀ h ∈ s.asm.held, h.tile.ap ≠ a) ∧
        ∀ r ∈ s.port.window, r.isWrite = true → r.outcome = .undetermined →
          ∀ p ∈ r.parts, p.tile.ap = a → p.progress = .complete ∨ p.progress = .failed)) ∧
  ∀ (l : List Extent) (x : Extent), l.Pairwise (fun y z => y.first + y.len < z.first) → 0 < x.len →
    (∀ y ∈ l, 0 < y.len ∧ (y.first + y.len ≤ x.first ∨ x.first + x.len ≤ y.first)) →
    let before := l.find? fun y => decide (y.first + y.len = x.first)
    let after := l.find? fun y => decide (x.first + x.len = y.first)
    returnExtent l x =
      (l.filter fun y => decide (y.first + y.len < x.first)) ++
        ⟨(before.map Extent.first).getD x.first,
          (before.map Extent.len).getD 0 + x.len + (after.map Extent.len).getD 0⟩ ::
        l.filter fun y => decide (x.first + x.len < y.first)

/-- THAW: refused BAD_PARAM for a bit that must be zero, else STATE in any state but FROZEN; a FROZEN aperture becomes OPEN. -/
def Obligations.ThawOpensOnlyAFrozenAperture : Prop :=
  ∀ s : State, s.ReadyForOrder →
    (∀ ap zero b2, zero ≠ 0 ∨ b2 ≠ 0 →
      exec (.thaw ap zero b2) s = .next (s.orderRefused (.thaw ap zero b2) .badParam).finish) ∧
    (∀ ap, (s.ap (apOf ap)).state ≠ .frozen →
      exec (.thaw ap 0 0) s = .next (s.orderRefused (.thaw ap 0 0) .state).finish) ∧
    (∀ ap, (s.ap (apOf ap)).state = .frozen →
      ∃ u : State, exec (.thaw ap 0 0) s = .next u.finish ∧ Concluded (.thaw ap 0 0) s u .done none ∧
        u.ap (apOf ap) = { s.ap (apOf ap) with state := .opened } ∧ (∀ b, b ≠ apOf ap → u.ap b = s.ap b) ∧
        u.st = { s.st with stale := true } ∧ OnlyTouches [.aps, .ord, .st] s u)

/-- CLEAR FAULTS: the named sticky faults are removed, POOL_SHORT and the others stay as they are, ATTN is driven again, the
order completes DONE; a byte 2 that is not zero is refused BAD_PARAM. -/
def Obligations.ClearFaultsRemovesNamedStickyFaults : Prop :=
  ∀ s : State, s.ReadyForOrder →
    (∀ faults b2, b2 ≠ 0 →
      exec (.clearFaults faults b2) s = .next (s.orderRefused (.clearFaults faults b2) .badParam).finish) ∧
    (∀ faults, ∃ u : State, exec (.clearFaults faults 0) s = .next u.finish ∧
      Concluded (.clearFaults faults 0) s u .done none ∧
      (∀ i : Fin 8, i.val ≠ 3 →
        u.st.faults.getLsbD i = (s.st.faults.getLsbD i && !faults.getLsbD i)) ∧
      u.st.faults.getLsbD 3 = s.st.faults.getLsbD 3 ∧ u.st.attn = decide (u.st.faults &&& s.st.mask ≠ 0) ∧
      u.st.stale = true ∧ u.st.mask = s.st.mask ∧ u.st.addr = s.st.addr ∧ u.st.enable = s.st.enable ∧
      u.st.inFlight = s.st.inFlight ∧ OnlyTouches [.ord, .st] s u)

/-- PROTECT: the four checks in order, the first that fails giving the refusal; an accepted ADD appends its rectangle, an
accepted CLEAR ALL empties the list. -/
def Obligations.ProtectChangesOnlyTheList : Prop :=
  ∀ (s : State) (ap : BitVec 3) (zero : BitVec 4) (x0 y0 x1 y1 b6 : Byte), s.ReadyForOrder →
    let x := s.ap (apOf ap)
    let add := Order.protect false ap zero x0 y0 x1 y1 b6
    let clear := Order.protect true ap zero x0 y0 x1 y1 b6
    let fits := x0.toNat ≤ x1.toNat ∧ x1.toNat < x.width ∧ y0.toNat ≤ y1.toNat ∧ y1.toNat < x.height
    let takes := x.state = .opened ∨ x.state = .freezing ∨ x.state = .frozen
    let becomes := fun (o : Order) (l : List Rect) (c : Instr) =>
      ∃ u : State, exec c s = .next u.finish ∧ Concluded o s u .done none ∧ u.ap (apOf ap) = { x with rects := l } ∧
        (∀ b, b ≠ apOf ap → u.ap b = s.ap b) ∧ u.st = { s.st with stale := true } ∧
        OnlyTouches [.aps, .ord, .st] s u
    let addCmd := Instr.protectAdd ap zero x0 y0 x1 y1 b6
    let clearCmd := Instr.protectClearAll ap zero x0 y0 x1 y1 b6
    (zero ≠ 0 ∨ b6 ≠ 0 → exec addCmd s = .next (s.orderRefused add .badParam).finish) ∧
    (zero = 0 → b6 = 0 → ¬takes → exec addCmd s = .next (s.orderRefused add .state).finish) ∧
    (zero = 0 → b6 = 0 → takes → ¬fits → exec addCmd s = .next (s.orderRefused add .badParam).finish) ∧
    (zero = 0 → b6 = 0 → takes → fits → 8 ≤ x.rects.length →
      exec addCmd s = .next (s.orderRefused add .full).finish) ∧
    (zero = 0 → b6 = 0 → takes → fits → x.rects.length < 8 →
      becomes add (x.rects ++ [⟨x0.toNat, y0.toNat, x1.toNat, y1.toNat⟩]) addCmd) ∧
    (zero ≠ 0 ∨ b6 ≠ 0 ∨ x0 ≠ 0 ∨ y0 ≠ 0 ∨ x1 ≠ 0 ∨ y1 ≠ 0 →
      exec clearCmd s = .next (s.orderRefused clear .badParam).finish) ∧
    (zero = 0 → b6 = 0 → x0 = 0 → y0 = 0 → x1 = 0 → y1 = 0 → ¬takes →
      exec clearCmd s = .next (s.orderRefused clear .state).finish) ∧
    (zero = 0 → b6 = 0 → x0 = 0 → y0 = 0 → x1 = 0 → y1 = 0 → takes → becomes clear [] clearCmd)

/-- SET STATUS: BAD_PARAM for the zero bits and for an address that is no multiple of 128; OVERLAP when an enabled block meets
the pool region or the range of an aperture that is not CLOSED; accepted, the address, the enable and the mask are set, ATTN is
driven again, and the block is stale exactly when it is enabled. An accepted one with the enable set is remembered as executed
since the write in flight was issued. -/
def Obligations.SetStatusSetsAddressEnableAndMask : Prop :=
  ∀ (s : State) (addr : BitVec 36) (zero : BitVec 3) (enable : Bool) (mask : Byte), s.ReadyForOrder →
    let field : BitVec 40 := BitVec.ofBool enable ++ zero ++ addr
    let o := Order.setStatus field mask
    let meets := enable = true ∧
      ((s.pool.count ≠ 0 ∧ addr.toNat < s.pool.base + 256 * s.pool.count ∧ s.pool.base < addr.toNat + 128) ∨
        ∃ b, (s.ap b).state ≠ .closed ∧ (s.ap b).base < addr.toNat + 128 ∧
          addr.toNat < (s.ap b).base +
            (s.ap b).width * 32 * (if (s.ap b).fmt = .rgb8 then 4 else 8) * (s.ap b).height * 32)
    (zero ≠ 0 ∨ addr.toNat % 128 ≠ 0 →
      exec (.setStatus field mask) s = .next (s.orderRefused o .badParam).finish) ∧
    (zero = 0 → addr.toNat % 128 = 0 → meets →
      exec (.setStatus field mask) s = .next (s.orderRefused o .overlap).finish) ∧
    (zero = 0 → addr.toNat % 128 = 0 → ¬meets →
      ∃ u : State, exec (.setStatus field mask) s = .next u.finish ∧ Concluded o s u .done none ∧
        u.st.addr = addr.toNat ∧ u.st.enable = enable ∧ u.st.mask = mask ∧ u.st.faults = s.st.faults ∧
        u.st.attn = decide (s.st.faults &&& mask ≠ 0) ∧ u.st.stale = enable ∧ u.st.inFlight = s.st.inFlight ∧
        u.st.reissue = (s.st.reissue || enable) ∧ OnlyTouches [.ord, .st] s u)

/-- OPEN is refused by the first of its five checks that fails; a refusal is recorded, raises ORDER, and leaves the apertures,
the map and the extents as they were. -/
def Obligations.OpenRefusedByTheFirstFailingCheck : Prop :=
  ∀ (s : State) (f : OpenFields), s.ReadyForOrder →
    let o := Order.openOrder f
    let w := f.width.toNat + 1
    let h := f.height.toNat + 1
    let size := w * 32 * (if f.fmt = 0 then 4 else 8) * h * 32
    let bad := f.zero1 ≠ 0 ∨ f.zero2 ≠ 0 ∨ 2 ≤ f.mode.toNat ∨ f.budget.toNat < 2 ∨ 25 < f.budget.toNat ∨
      f.base.toNat % 256 ≠ 0 ∨ 2 ^ 36 < f.base.toNat + size ∨ f.zero14 ≠ 0
    let base := f.base.toNat
    let meets :=
      (∃ b, (s.ap b).state ≠ .closed ∧ (s.ap b).base < base + size ∧
        base < (s.ap b).base + (s.ap b).width * 32 * (if (s.ap b).fmt = .rgb8 then 4 else 8) * (s.ap b).height * 32) ∨
      (s.pool.count ≠ 0 ∧ base < s.pool.base + 256 * s.pool.count ∧ s.pool.base < base + size) ∨
      (s.st.enable = true ∧ base < s.st.addr + 128 ∧ s.st.addr < base + size)
    (bad → exec (.openOrder f) s = .next (s.orderRefused o .badParam).finish) ∧
    (¬bad → (s.ap (apOf f.ap)).state ≠ .closed →
      exec (.openOrder f) s = .next (s.orderRefused o .state).finish) ∧
    (¬bad → (s.ap (apOf f.ap)).state = .closed → s.pool.count = 0 →
      exec (.openOrder f) s = .next (s.orderRefused o .noPool).finish) ∧
    (¬bad → (s.ap (apOf f.ap)).state = .closed → s.pool.count ≠ 0 → meets →
      exec (.openOrder f) s = .next (s.orderRefused o .overlap).finish) ∧
    (¬bad → (s.ap (apOf f.ap)).state = .closed → s.pool.count ≠ 0 → ¬meets →
      (∀ e ∈ s.map.freeExtents, e.len < w * h) →
      exec (.openOrder f) s = .next (s.orderRefused o .noSpace).finish) ∧
    ∀ k, Concluded o s (s.orderRefused o k) .refused (some k) ∧
      (s.orderRefused o k).st.faults = s.st.faults ||| 0x02 ∧ OnlyTouches [.ord, .st] s (s.orderRefused o k)

/-- An accepted OPEN loads the record with the order's values and the extent that first fit takes, makes the extent's entries
UNWRITTEN with generation 0 and leaves every other entry; the order completes DONE. -/
def Obligations.OpenLoadsTheRecordByFirstFit : Prop :=
  ∀ (s : State) (f : OpenFields) (before after : List Extent) (e : Extent), s.ReadyForOrder →
    let w := f.width.toNat + 1
    let h := f.height.toNat + 1
    let size := w * 32 * (if f.fmt = 0 then 4 else 8) * h * 32
    f.zero1 = 0 → f.zero2 = 0 → f.mode.toNat ≤ 1 → 2 ≤ f.budget.toNat → f.budget.toNat ≤ 25 →
    f.base.toNat % 256 = 0 → f.base.toNat + size ≤ 2 ^ 36 → f.zero14 = 0 →
    (s.ap (apOf f.ap)).state = .closed → s.pool.count ≠ 0 →
    (∀ b, (s.ap b).state ≠ .closed →
      (s.ap b).base + (s.ap b).width * 32 * (if (s.ap b).fmt = .rgb8 then 4 else 8) * (s.ap b).height * 32 ≤ f.base.toNat ∨
        f.base.toNat + size ≤ (s.ap b).base) →
    (s.pool.base + 256 * s.pool.count ≤ f.base.toNat ∨ f.base.toNat + size ≤ s.pool.base) →
    (s.st.enable = true → s.st.addr + 128 ≤ f.base.toNat ∨ f.base.toNat + size ≤ s.st.addr) →
    s.map.freeExtents = before ++ e :: after → (∀ x ∈ before, x.len < w * h) → w * h ≤ e.len →
    ∃ u : State, exec (.openOrder f) s = .next u.finish ∧ Concluded (.openOrder f) s u .done none ∧
      u.ap (apOf f.ap) = ⟨.opened, if f.fmt = 0 then .rgb8 else .rgb16, if f.mode = 0 then .fixed else .curve,
        f.floorStep.toNat, f.budget.toNat, f.base.toNat, w, h, f.fillR, f.fillG, f.fillB, e.first, w * h, [], 0⟩ ∧
      (∀ b, b ≠ apOf f.ap → u.ap b = s.ap b) ∧
      u.map.freeExtents =
        before ++ (if e.len = w * h then after else ⟨e.first + w * h, e.len - w * h⟩ :: after) ∧
      (∀ i, e.first ≤ i → i < e.first + w * h → entryAt u.map.entries i = ⟨.unwritten, 0⟩) ∧
      (∀ i, i < e.first ∨ e.first + w * h ≤ i → entryAt u.map.entries i = entryAt s.map.entries i) ∧
      u.map.tilesTotal = s.map.tilesTotal ∧ u.map.degradedTotal = s.map.degradedTotal ∧ u.map.walk = s.map.walk ∧
      u.st = { s.st with stale := true } ∧ OnlyTouches [.aps, .map, .ord, .st] s u

/-- SET POOL: refused by the first of its checks that fails, which is recorded, raises ORDER and leaves the pool; accepted, it
defines the pool with every chunk free, band 0, POOL_SHORT absent and the demanded step of band 0, and leaves the rest of step
control. -/
def Obligations.SetPoolDefinesAFreePool : Prop :=
  ∀ (s : State) (f : PoolFields), s.ReadyForOrder →
    let o := Order.setPool f
    let bad := f.count.toNat = 0 ∨ 4194304 < f.count.toNat ∨ f.count.toNat < f.low.toNat ∨ f.limit = 0 ∨
      f.base.toNat % 256 ≠ 0 ∨ 2 ^ 36 < f.base.toNat + 256 * f.count.toNat ∨ f.zero13 ≠ 0 ∨ f.zero14 ≠ 0
    let busy := ∃ a, (s.ap a).state ≠ .closed
    let meets := s.st.enable = true ∧ f.base.toNat < s.st.addr + 128 ∧
      s.st.addr < f.base.toNat + 256 * f.count.toNat
    (bad → exec (.setPool f) s = .next (s.orderRefused o .badParam).finish) ∧
    (¬bad → busy → exec (.setPool f) s = .next (s.orderRefused o .poolBusy).finish) ∧
    (¬bad → ¬busy → meets → exec (.setPool f) s = .next (s.orderRefused o .overlap).finish) ∧
    (¬bad → ¬busy → ¬meets →
      ∃ u : State, exec (.setPool f) s = .next u.finish ∧ Concluded o s u .done none ∧
        u.pool = ⟨f.base.toNat, f.count.toNat, List.range f.count.toNat, [], f.low.toNat, f.limit.toNat,
          s.pool.waiting⟩ ∧
        u.ctl = { s.ctl with band := 0, demanded := s.ctl.curve.get 0 } ∧
        u.st.faults = s.st.faults &&& ~~~0x08 ∧ u.st.attn = decide (u.st.faults &&& s.st.mask ≠ 0) ∧
        u.st.stale = true ∧ u.st.mask = s.st.mask ∧ OnlyTouches [.pool, .ctl, .ord, .st] s u) ∧
    ∀ k, Concluded o s (s.orderRefused o k) .refused (some k) ∧
      (s.orderRefused o k).st.faults = s.st.faults ||| 0x02 ∧ OnlyTouches [.ord, .st] s (s.orderRefused o k)

/-- SET CURVE: BAD_PARAM for a step above 15, an interval of 0, a refit limit above 3 or a byte that must be zero, which is
recorded, raises ORDER and leaves step control; accepted in every other case, whatever the rest of the state: the
settings take the order's values, both counters become 0, the applied step stays, and the demanded step is evaluated again. -/
def Obligations.SetCurveLoadsTheSettings : Prop :=
  ∀ (s : State) (f : CurveFields), s.ReadyForOrder →
    let o := Order.setCurve f
    let bad := (∃ i : Fin 8, 15 < (f.steps.get i).toNat) ∨ f.up = 0 ∨ f.down = 0 ∨ 3 < f.refit.toNat ∨
      f.zero12 ≠ 0 ∨ f.zero13 ≠ 0 ∨ f.zero14 ≠ 0
    (bad → exec (.setCurve f) s = .next (s.orderRefused o .badParam).finish) ∧
    (¬bad →
      ∃ u : State, exec (.setCurve f) s = .next u.finish ∧ Concluded o s u .done none ∧
        (∀ i, u.ctl.curve.get i = (f.steps.get i).toNat) ∧ u.ctl.up = f.up.toNat ∧ u.ctl.down = f.down.toNat ∧
        u.ctl.refitLimit = f.refit.toNat ∧ u.ctl.upCount = 0 ∧ u.ctl.downCount = 0 ∧
        u.ctl.applied = s.ctl.applied ∧ u.ctl.refits = s.ctl.refits ∧
        u.ctl.demanded = (f.steps.get u.ctl.band).toNat ∧ OnlyTouches [.ctl, .ord, .st] s u ∧
        (s.FiguresAgree → u.ctl.band = s.ctl.band ∧ u.st = { s.st with stale := true })) ∧
    ∀ k, Concluded o s (s.orderRefused o k) .refused (some k) ∧
      (s.orderRefused o k).st.faults = s.st.faults ||| 0x02 ∧ OnlyTouches [.ord, .st] s (s.orderRefused o k)

/-! ### The composer port -/

/-- The class of a request by the six checks, in order. The tile parts of an aperture request: pixel i, at offset o = address −
base + i·P, lies on line y = o div pitch at x = (o mod pitch) div P, in tile (y div 32)·width + x div 32 at index (y mod 32)·32
+ x mod 32; a WRITE gives it the samples that its bytes hold little-endian, X left out, where its enables are on, and nothing
where they are off. Each tile that is met makes one part, in the order of its first pixel, with its pixels in address order. The
take of an aperture request puts it into the window with these parts. -/
def Obligations.RequestClassFollowsTheChecks : Prop :=
  (∀ (s : State) (kind : ReqKind) (addr : Nat),
    let n := match kind with
      | .read n => n
      | .write bytes => bytes.length
    let oneBlock := addr / 256 = (addr + n - 1) / 256
    let pooled := s.pool.base ≤ addr ∧ addr < s.pool.base + 256 * s.pool.count
    let inside := fun a : ApIx => (s.ap a).state ≠ .closed ∧ (s.ap a).base ≤ addr ∧
      addr < (s.ap a).base + (s.ap a).width * 32 * (if (s.ap a).fmt = .rgb8 then 4 else 8) * (s.ap a).height * 32
    (¬oneBlock → s.classify kind addr = .refused .boundary) ∧
    (oneBlock → pooled → s.classify kind addr = .refused .guarded) ∧
    (oneBlock → ¬pooled → (∀ a, ¬inside a) → s.classify kind addr = .passThrough) ∧
    ∀ a, oneBlock → ¬pooled → inside a → (∀ b, b ≠ a → ¬inside b) →
      let px := if (s.ap a).fmt = .rgb8 then 4 else 8
      let whole := (addr - (s.ap a).base) % px = 0 ∧ n % px = 0 ∧
        ∀ bytes, kind = .write bytes → ∀ i < n / px,
          (∀ j < px, (bytes[i * px + j]?).map Prod.snd = some true) ∨
            (∀ j < px, (bytes[i * px + j]?).map Prod.snd = some false)
      let taken := (s.ap a).state = .opened ∨
        (((s.ap a).state = .freezing ∨ (s.ap a).state = .frozen) ∧ ∃ l, kind = .read l)
      ((s.ap a).state = .retiring → s.classify kind addr = .refused .retired) ∧
      (((s.ap a).state = .freezing ∨ (s.ap a).state = .frozen) → (∃ bytes, kind = .write bytes) →
        s.classify kind addr = .refused .frozen) ∧
      (taken → ¬whole → s.classify kind addr = .refused .pixel) ∧
      (taken → whole → s.classify kind addr = .aperture a)) ∧
  (∀ (a : ApIx) (x : Aperture) (kind : ReqKind) (addr : Nat),
    let px := if x.fmt = .rgb8 then 4 else 8
    let count := (match kind with
      | .read n => n
      | .write bytes => bytes.length) / px
    let pitch := x.width * 32 * px
    let offset := fun i => addr - x.base + i * px
    let line := fun i => offset i / pitch
    let column := fun i => offset i % pitch / px
    let tile : Nat → TileRef := fun i => ⟨a, line i / 32 * x.width + column i / 32⟩
    let pixel : Nat → PartPixel := fun i => ⟨line i % 32 * 32 + column i % 32, match kind with
      | .read _ => none
      | .write bytes =>
        let byte := fun j => ((bytes.getD (i * px + j) (0, false)).1).toNat
        let sample := fun c => BitVec.ofNat 16
          (if x.fmt = .rgb8 then byte c else byte (2 * c) + 256 * byte (2 * c + 1))
        if ∀ j < px, (bytes.getD (i * px + j) (0, false)).2 = true then some ⟨sample 0, sample 1, sample 2⟩ else none⟩
    partsOf a x kind addr = (((List.range count).map tile).eraseDups).map fun t =>
      ⟨t, x.fmt, ((List.range count).filter fun i => decide (tile i = t)).map pixel, .waiting⟩) ∧
  ∀ (s : State) (q : BusRequest) (rest : List BusRequest) (a : ApIx), s.port.busHeld = q :: rest → s.resetLine = false →
    s.port.window.length < 32 → s.classify q.kind q.addr.toNat = .aperture a →
    ∃ u : State, s.takeBus = some u ∧ OnlyTouches [.port, .st] s u ∧ u.st = { s.st with stale := true } ∧
      u.port = { s.port with
        busHeld := rest, nextId := s.port.nextId + 1
        window := s.port.window ++ [⟨s.port.nextId, q.kind, q.addr, .aperture a,
          partsOf a (s.ap a) q.kind q.addr.toNat, [], .undetermined⟩] }

/-- A request refused at its take is complete with the outcome ERROR and no data; REQUEST is raised and the last-refused record
replaced. Standing alone it is answered at once, and behind other requests it waits in the window. A response leaves when the
head of the window is complete, and only then: its outcome, and for a READ answered OKAY its data, which are the store's, or
the pixels' bytes in the format that the aperture had at the take. The list of responses sent and the request's number are the
model's (assumption log 12). -/
def Obligations.RefusedRequestIsAnsweredError : Prop :=
  (∀ (s : State) (kind : ReqKind) (addr : Addr) (reason : RefuseReason), s.Alone → 1 ≤ kind.length →
    kind.length ≤ 256 → s.classify kind addr.toNat = .refused reason →
    ∃ u : State, exec (requestCommand kind addr) s = .next u.issueStatus ∧
      u.port = { s.port with
        sent := s.port.sent ++ [⟨s.port.nextId, false, []⟩], nextId := s.port.nextId + 1
        lastReason := some reason, lastAddr := addr } ∧
      u.st.faults = s.st.faults ||| 0x80 ∧ u.st.stale = true ∧ OnlyTouches [.port, .st] s u) ∧
  (∀ (s : State) (kind : ReqKind) (addr : Addr) (reason : RefuseReason), s.Quiet → s.resetLine = false →
    s.port.busHeld = [] → s.port.window ≠ [] → s.port.window.length < 32 → 1 ≤ kind.length →
    kind.length ≤ 256 → s.classify kind addr.toNat = .refused reason →
    ∃ u : State, exec (requestCommand kind addr) s = .next u.issueStatus ∧
      u.port = { s.port with
        window := s.port.window ++ [⟨s.port.nextId, kind, addr, .refused reason, [], [], .error⟩]
        nextId := s.port.nextId + 1, lastReason := some reason, lastAddr := addr } ∧
      u.st.faults = s.st.faults ||| 0x80 ∧ u.st.stale = true ∧ OnlyTouches [.port, .st] s u) ∧
  (∀ s : State, (s.port.window = [] → s.respond = none) ∧
    ∀ r rest, s.port.window = r :: rest →
      (s.Quiet → r.outcome = .undetermined) ∧
      (r.outcome = .undetermined → s.respond = none) ∧
      (r.outcome ≠ .undetermined → ∃ (u : State) (data : List Byte), s.respond = some u ∧
        u.port = { s.port with
          window := rest, sent := s.port.sent ++ [⟨r.id, decide (r.outcome = .okay), data⟩] } ∧
        u.st = { s.st with stale := true } ∧ OnlyTouches [.port, .st] s u ∧
        (r.outcome = .error ∨ r.isWrite = true → data = []) ∧
        (∀ n, r.outcome = .okay → r.kind = .read n →
          (r.cls = .passThrough → data = r.storeData) ∧
          ∀ a, r.cls = .aperture a → data = r.parts.flatMap fun p =>
            p.pixels.flatMap fun q => bytesOfColour p.fmt (q.value.getD ⟨0, 0, 0⟩)))) ∧
  ∀ c : Colour,
    (bytesOfColour .rgb8 c).map BitVec.toNat = [c.r.toNat % 256, c.g.toNat % 256, c.b.toNat % 256, 0] ∧
    (bytesOfColour .rgb16 c).map BitVec.toNat = [c.r.toNat % 256, c.r.toNat / 256, c.g.toNat % 256,
      c.g.toNat / 256, c.b.toNat % 256, c.b.toNat / 256, 0, 0] ∧
    ∀ r : Request, r.isWrite = true ↔ ∃ bytes, r.kind = .write bytes

/-- A pass-through request goes unchanged to the store port's composer source and waits in the window. -/
def Obligations.PassThroughRequestIsForwarded : Prop :=
  ∀ (s : State) (kind : ReqKind) (addr : Addr), s.Quiet → s.resetLine = false → s.port.busHeld = [] →
    s.port.window.length < 32 → 1 ≤ kind.length → kind.length ≤ 256 →
    s.classify kind addr.toNat = .passThrough →
    ∃ u : State, exec (requestCommand kind addr) s = .next u.issueStatus ∧
      u.port = { s.port with
        window := s.port.window ++ [⟨s.port.nextId, kind, addr, .passThrough, [], [], .undetermined⟩]
        nextId := s.port.nextId + 1 } ∧
      u.store = { s.store with composer := s.store.composer ++
        [match kind with
          | .read n => .passRead s.port.nextId addr n
          | .write bytes => .passWrite s.port.nextId addr bytes] } ∧
      u.st = { s.st with stale := true } ∧ OnlyTouches [.port, .store, .st] s u

/-- A write of one tile with an enabled pixel lands in the tile's FILLING slot, else in the lowest-numbered FREE slot opened
for it: its enabled pixels take their values and are present, every other pixel is as it was (absent in a slot just opened),
the other slots are as they were, the slot stands at the tail of the open list unless its seal is due, and the write is
answered OKAY. There the landing does not fill the slot. Of a tile part among others: one with no enabled pixel completes and
changes no slot and no list, also when its tile has a FILLING slot, which is the model's reading (assumption log 30); one that
lands completes, and its slot is called to be sealed when it is full or its aperture FREEZING. The
pixel store of a slot just opened starts as it was left (assumption log 13); a FREE slot has nothing present (assumption log
32). -/
def Obligations.ApertureWriteLandsInTheSlot : Prop :=
  (∀ (s : State) (bytes : List (Byte × Bool)) (addr : Addr) (a : ApIx) (p : Part) (k : SlotIx) (base : Slot),
    s.Alone → s.FreeSlotsBlank → 1 ≤ bytes.length → bytes.length ≤ 256 → s.classify (.write bytes) addr.toNat = .aperture a →
    partsOf a (s.ap a) (.write bytes) addr.toNat = [p] → (∃ q ∈ p.pixels, q.value.isSome = true) →
    (p.pixels.map PartPixel.index).Nodup →
    ((s.fillingSlot p.tile = some k ∧ base = s.slot k) ∨
      (s.fillingSlot p.tile = none ∧ s.freeSlot? = some k ∧
        base = ⟨.filling, some p.tile, (s.slot k).px, 0, s.otherSlot p.tile, false, false⟩)) →
    (base.write p.pixels).isFull = false →
    ∃ u : State, exec (.composerWrite addr bytes) s = .next u.issueStatus ∧
      u.port = { s.port with sent := s.port.sent ++ [⟨s.port.nextId, true, []⟩], nextId := s.port.nextId + 1 } ∧
      (u.slot k).state = .filling ∧ (u.slot k).tile = some p.tile ∧ (u.slot k).pred = base.pred ∧
      (u.slot k).due = base.due ∧ (u.slot k).mark = base.mark ∧
      (∀ q ∈ p.pixels, ∀ c, q.value = some c → q.index < 1024 →
        pixelOf (u.slot k).px q.index = c ∧ (u.slot k).present.getLsbD q.index = true) ∧
      (∀ i < 1024, (∀ q ∈ p.pixels, q.index = i → q.value = none) →
        pixelOf (u.slot k).px i = pixelOf base.px i ∧
          (u.slot k).present.getLsbD i = base.present.getLsbD i) ∧
      (∀ j, j ≠ k → u.slot j = s.slot j) ∧ u.asm.sealQueue = s.asm.sealQueue ∧ u.asm.held = s.asm.held ∧
      (s.fillingSlot p.tile = some k →
        u.asm.openList = if k ∈ s.asm.openList then s.asm.openList.erase k ++ [k] else s.asm.openList) ∧
      (s.fillingSlot p.tile = none → k ∉ s.asm.openList → u.asm.openList = s.asm.openList ++ [k]) ∧
      u.st.faults = s.st.faults ∧ OnlyTouches [.asm, .port, .st] s u) ∧
  (∀ (s : State) (ref : PartRef) (p : Part), s.part ref = some p →
    let landed := { s.port with
      window := windowWith s.port.window [ref] fun q => { q with progress := .complete } }
    ((∀ q ∈ p.pixels, q.value = none) →
      (s.takeWrite ref).port = landed ∧ OnlyTouches [.port] s (s.takeWrite ref)) ∧
    ∀ (k : SlotIx) (base : Slot) (l : List SlotIx), (∃ q ∈ p.pixels, q.value.isSome = true) →
      ((s.fillingSlot p.tile = some k ∧ base = s.slot k ∧ l = s.asm.openList) ∨
        (s.fillingSlot p.tile = none ∧ s.freeSlot? = some k ∧ l = s.asm.openList ++ [k] ∧
          base = ⟨.filling, some p.tile, (s.slot k).px, 0, s.otherSlot p.tile, false, false⟩)) →
      ∃ v : State, v.port = landed ∧ v.asm = { s.asm with
          slots := s.asm.slots.set k (base.write p.pixels)
          openList := if k ∈ l then l.erase k ++ [k] else l } ∧
        v.st.faults = s.st.faults ∧ OnlyTouches [.asm, .port, .st] s v ∧
        s.takeWrite ref =
          if (base.write p.pixels).isFull = true ∨ (s.ap p.tile.ap).state = .freezing then v.sealCall k else v) ∧
  (∀ (s : State) (ref : PartRef),
    s.part ref = (s.port.window.find? fun r => decide (r.id = ref.req)).bind fun r => r.parts[ref.part]?) ∧
  ∀ (base : Slot) (ps : List PartPixel), (ps.map PartPixel.index).Nodup →
    let sl := base.write ps
    sl = { base with px := sl.px, present := sl.present } ∧
    (sl.isFull = true ↔ ∀ i < 1024, sl.present.getLsbD i = true) ∧
    (∀ q ∈ ps, ∀ c, q.value = some c → q.index < 1024 →
      pixelOf sl.px q.index = c ∧ sl.present.getLsbD q.index = true) ∧
    ∀ i < 1024, (∀ q ∈ ps, q.index = i → q.value = none) →
      pixelOf sl.px i = pixelOf base.px i ∧ sl.present.getLsbD i = base.present.getLsbD i

/-- A read of one tile is answered OKAY with the visible content of each of its pixels, where no pixel needs a decode. Of a read
tile part among others: it takes the visible content and completes, or, with a pixel that lies in a stream not in the cache,
takes what the slots hold and waits at the decode queue; a cache hit, and nothing else, moves the tile's entry to the most
recent end. Tile order: the first WAITING part that may go, in window order and then in address order, goes forward to its
block, and at the end of an event none is left that may. The decode queue that it waits at: a waiter joins the one entry or
pending record of its tile that no CLOSE has marked; else it makes an entry at the tail of the queue, or, with 288 entries
there, at the tail of the pending list, whose head moves to the tail of the queue when that has room. The visible content of a
pixel is the FILLING slot's where that has it, else the other occupied slot's where that has it, else the map's, and the slots'
value is the first two of these. A tile's entry is the listed one of its number, else UNWRITTEN with generation 0. -/
def Obligations.ApertureReadReturnsVisibleContent : Prop :=
  (∀ (s : State) (n : Nat) (addr : Addr) (a : ApIx) (p : Part),
    s.Alone → 1 ≤ n → n ≤ 256 → s.classify (.read n) addr.toNat = .aperture a →
    partsOf a (s.ap a) (.read n) addr.toNat = [p] →
    (∀ q ∈ p.pixels, (s.visible p.tile q.index).isSome = true) →
    ∃ u : State, exec (.composerRead addr n) s = .next u.issueStatus ∧
      u.port = { s.port with
        sent := s.port.sent ++ [⟨s.port.nextId, true, p.pixels.flatMap fun q =>
          bytesOfColour (s.ap a).fmt ((s.visible p.tile q.index).getD ⟨0, 0, 0⟩)⟩]
        nextId := s.port.nextId + 1 } ∧
      u.rd.queue = s.rd.queue ∧ u.rd.decoder = s.rd.decoder ∧ u.st.faults = s.st.faults ∧
      OnlyTouches [.port, .rd, .st] s u) ∧
  (∀ (s : State) (t : TileRef),
    let x := s.ap t.ap
    let wide := fun (v : Byte) => BitVec.ofNat 16 (if x.fmt = .rgb8 then v.toNat else v.toNat * 257)
    x.fill = ⟨wide x.fillR, wide x.fillG, wide x.fillB⟩ ∧
    let listed := s.map.entries.find? fun e => decide (e.1 = x.extFirst + t.ix)
    entryAt s.map.entries (x.extFirst + t.ix) = (listed.map Prod.snd).getD ⟨.unwritten, 0⟩ ∧
    s.entry t = entryAt s.map.entries (x.extFirst + t.ix) ∧
    match (entryAt s.map.entries (x.extFirst + t.ix)).content with
    | .unwritten => ∃ base, s.mapTile t = some base ∧
        ∀ i < 1024, pixelOf base i = ⟨wide x.fillR, wide x.fillG, wide x.fillB⟩
    | .uniform colour _ => ∃ base, s.mapTile t = some base ∧ ∀ i < 1024, pixelOf base i = colour
    | .coded _ _ _ => s.mapTile t = (s.rd.cache.find? fun e => decide (e.tile = t)).map CacheEntry.recon
    | .plain _ _ => s.mapTile t = (s.rd.cache.find? fun e => decide (e.tile = t)).map CacheEntry.recon) ∧
  (∀ (s : State) (ref : PartRef) (p : Part), s.part ref = some p →
    let t := p.tile
    let inSlots := slotsValue ((s.fillingSlot t).map s.slot) ((s.otherSlot t).map s.slot)
    let u := s.takeRead ref
    ((∀ x ∈ p.pixels, (s.visible t x.index).isSome = true) →
      u.port = { s.port with window := windowWith s.port.window [ref] fun q =>
        { q with
          pixels := p.pixels.map fun x => { x with value := s.visible t x.index }, progress := .complete } } ∧
      ((∀ x ∈ p.pixels, (inSlots x.index).isSome = true) → OnlyTouches [.port] s u) ∧
      ((∃ x ∈ p.pixels, inSlots x.index = none) → OnlyTouches [.port, .rd, .st] s u ∧
        u.rd.queue = s.rd.queue ∧ u.rd.pendingList = s.rd.pendingList ∧ u.rd.decoder = s.rd.decoder ∧
        (s.entry t).content.hasStream = (match (s.entry t).content with
          | .unwritten => false | .uniform _ _ => false | .coded _ _ _ => true | .plain _ _ => true) ∧
        ∀ base, s.mapTile t = some base → u.rd.cache =
          if (s.entry t).content.hasStream then
            (s.rd.cache.filter fun e => decide (e.tile ≠ t)) ++ [⟨t, base⟩]
          else s.rd.cache)) ∧
    ((∃ x ∈ p.pixels, s.visible t x.index = none) →
      u.port = { s.port with window := windowWith s.port.window [ref] fun q =>
        { q with
          pixels := p.pixels.map fun x => { x with value := inSlots x.index }, progress := .proceeding } } ∧
      (∃ e ∈ u.rd.queue ++ u.rd.pendingList, e.tile = t ∧ e.discard = false ∧ ref ∈ e.readers) ∧
      u.rd = (s.joinDecode t fun e => { e with readers := e.readers ++ [ref] }).rd ∧
      u.rd.cache = s.rd.cache ∧ u.rd.decoder = s.rd.decoder ∧ OnlyTouches [.port, .rd, .st] s u)) ∧
  (∀ s : State,
    (s.proceedNext = none ↔
      ∀ before r after, s.port.window = before ++ r :: after → ∀ p ∈ r.parts, ¬MayGo before r p) ∧
    (s.Quiet → s.proceedNext = none) ∧
    ∀ before r after lo p hi, s.port.window = before ++ r :: after → r.parts = lo ++ p :: hi → MayGo before r p →
      (∀ x ∈ lo, ¬MayGo before r x) →
      (∀ b q c, before = b ++ q :: c → ∀ x ∈ q.parts, ¬MayGo b q x) →
      let ref : PartRef := ⟨r.id, lo.length⟩
      ∃ v : State, v.port = { s.port with
          window := windowWith s.port.window [ref] fun x => { x with progress := .proceeding } } ∧
        OnlyTouches [.port] s v ∧
        s.proceedNext = some (if r.isWrite = true then v.takeWrite ref else v.takeRead ref)) ∧
  (∀ (s : State) (t : TileRef) (add : DecodeEntry → DecodeEntry),
    let joins := fun (e : DecodeEntry) => e.tile = t ∧ e.discard = false
    let new := add ⟨t, [], none, .queued, false⟩
    let v := s.joinDecode t add
    OnlyTouches [.rd, .st] s v ∧
    (∀ before e after, s.rd.queue = before ++ e :: after → joins e → (∀ x ∈ before, ¬joins x) →
      v.rd = { s.rd with queue := before ++ add e :: after }) ∧
    (∀ before e after, s.rd.pendingList = before ++ e :: after → joins e →
      (∀ x ∈ s.rd.queue ++ before, ¬joins x) → v.rd = { s.rd with pendingList := before ++ add e :: after }) ∧
    ((∀ x ∈ s.rd.queue ++ s.rd.pendingList, ¬joins x) →
      v.rd = if s.rd.queue.length < 288 then { s.rd with queue := s.rd.queue ++ [new] }
        else { s.rd with pendingList := s.rd.pendingList ++ [new] })) ∧
  (∀ s : State,
    (s.rd.pendingList = [] ∨ 288 ≤ s.rd.queue.length → s.movePending = none) ∧
    ∀ e rest, s.rd.pendingList = e :: rest → s.rd.queue.length < 288 →
      ∃ u : State, s.movePending = some u ∧
        u.rd = { s.rd with pendingList := rest, queue := s.rd.queue ++ [e] } ∧
        u.st = { s.st with stale := true } ∧ OnlyTouches [.rd, .st] s u) ∧
  (∀ (s : State) (t : TileRef) (i : Nat),
    let inSlots := slotsValue ((s.fillingSlot t).map s.slot) ((s.otherSlot t).map s.slot) i
    let has := fun (k : SlotIx) => (s.slot k).present.getLsbD i = true
    (∀ k, s.fillingSlot t = some k → has k →
      inSlots = some (pixelOf (s.slot k).px i) ∧ s.visible t i = some (pixelOf (s.slot k).px i)) ∧
    ((∀ k, s.fillingSlot t = some k → ¬has k) →
      (∀ k, s.otherSlot t = some k → has k →
        inSlots = some (pixelOf (s.slot k).px i) ∧ s.visible t i = some (pixelOf (s.slot k).px i)) ∧
      ((∀ k, s.otherSlot t = some k → ¬has k) →
        inSlots = none ∧ s.visible t i = (s.mapTile t).map fun base => pixelOf base i))) ∧
  ∀ (t : Tile) (i : Fin 1024), pixelOf t i.val = t.get i

/-! ### The assembly buffer -/

/-- A seal call: nothing for a slot that is not FILLING or whose seal is already due; the seal at once without a predecessor;
the seal due with one. -/
def Obligations.SealCallSealsOrMakesDue : Prop :=
  ∀ (s : State) (k : SlotIx),
    ((s.slot k).state ≠ .filling → s.sealCall k = s) ∧
    ((s.slot k).state = .filling → (s.slot k).pred = none → s.sealCall k = s.sealNow k) ∧
    ((s.slot k).state = .filling → (s.slot k).pred ≠ none → (s.slot k).due = true → s.sealCall k = s) ∧
    ((s.slot k).state = .filling → (s.slot k).pred ≠ none → (s.slot k).due = false →
      (s.sealCall k).slot k = { s.slot k with due := true } ∧ (∀ j, j ≠ k → (s.sealCall k).slot j = s.slot j) ∧
        (s.sealCall k).asm.openList = s.asm.openList.erase k ∧ OnlyTouches [.asm, .st] s (s.sealCall k))

/-- A seal: the slot leaves the open list and joins the seal queue's tail, its due flag cleared; full it is SEALED, else it
gathers: from the fill colour, the entry's colour or the cache at once, leaving its present pixels, or it waits on the decode
queue, which it joins as a reader does. A gather from the cache moves the tile's entry to the most recent end. -/
def Obligations.SealQueuesTheSlotAndGathers : Prop :=
  ∀ (s : State) (k : SlotIx) (t : TileRef), (s.slot k).tile = some t →
    (s.sealNow k).asm.openList = s.asm.openList.erase k ∧ (s.sealNow k).asm.sealQueue = s.asm.sealQueue ++ [k] ∧
    (∀ j, j ≠ k → (s.sealNow k).slot j = s.slot j) ∧ (s.sealNow k).asm.held = s.asm.held ∧
    ((s.slot k).isFull = true → (s.sealNow k).slot k = { s.slot k with due := false, state := .sealed } ∧
      (s.sealNow k).rd = s.rd) ∧
    (∀ base, (s.slot k).isFull = false → s.mapTile t = some base →
      ((s.sealNow k).slot k).state = .sealed ∧ ((s.sealNow k).slot k).due = false ∧
        ((s.sealNow k).slot k).isFull = true ∧
        (∀ i < 1024, pixelOf ((s.sealNow k).slot k).px i =
          if (s.slot k).present.getLsbD i = true then pixelOf (s.slot k).px i else pixelOf base i) ∧
        ((∃ step chunks n, (s.entry t).content = .coded step chunks n) ∨
            (∃ chunks n, (s.entry t).content = .plain chunks n) →
          (s.sealNow k).rd =
            { s.rd with cache := (s.rd.cache.filter fun e => decide (e.tile ≠ t)) ++ [⟨t, base⟩] }) ∧
        ((s.entry t).content = .unwritten ∨ (∃ c d, (s.entry t).content = .uniform c d) →
          (s.sealNow k).rd = s.rd)) ∧
    ((s.slot k).isFull = false → s.mapTile t = none →
      (s.sealNow k).slot k = { s.slot k with due := false, state := .gathering } ∧
        (s.sealNow k).rd.cache = s.rd.cache ∧
        (s.sealNow k).rd = (s.joinDecode t fun e => { e with gather := some k }).rd ∧
        ∃ e, (e ∈ (s.sealNow k).rd.queue ∨ e ∈ (s.sealNow k).rd.pendingList) ∧ e.tile = t ∧ e.gather = some k) ∧
    OnlyTouches [.asm, .rd, .st] s (s.sealNow k)

/-- A write tile part that needs a slot while none is FREE is held, and the head of the open list is called to be sealed. A FREE
slot, the lowest-numbered first, is granted to the head of the held-write list: the held write leaves the list, the slot is
opened for its tile with the predecessor of that moment, nothing present (R60), and the write lands in it; the slot is called to
be sealed when it is full or its aperture FREEZING. The slot keeps its pixel store (assumption log 13). A tile's FILLING slot,
its other slot and the lowest FREE slot are what their names say. -/
def Obligations.HeldWriteEvictsTheOpenListHead : Prop :=
  (∀ (s : State) (ref : PartRef) (p : Part), s.part ref = some p → (∃ q ∈ p.pixels, q.value.isSome = true) →
    s.fillingSlot p.tile = none → s.freeSlot? = none →
    ∃ u : State, OnlyTouches [.asm, .port, .st] s u ∧ u.asm = { s.asm with held := s.asm.held ++ [⟨ref, p.tile⟩] } ∧
      (s.asm.openList = [] → s.takeWrite ref = u) ∧
      (∀ k rest, s.asm.openList = k :: rest → s.takeWrite ref = u.sealCall k)) ∧
  (∀ s : State, (s.asm.held = [] ∨ (∀ k, (s.slot k).state ≠ .free) → s.grantHeld = none) ∧
    ∀ (h : HeldWrite) (rest : List HeldWrite) (k : SlotIx) (p : Part), s.asm.held = h :: rest →
      (s.slot k).state = .free → (∀ j < k, (s.slot j).state ≠ .free) → s.part h.ref = some p →
      let base : Slot := ⟨.filling, some h.tile, (s.slot k).px, 0, s.otherSlot h.tile, false, false⟩
      ∃ v : State, v.asm = { s.asm with
          held := rest, slots := s.asm.slots.set k (base.write p.pixels)
          openList := (s.asm.openList ++ [k]).erase k ++ [k] } ∧
        v.port = { s.port with
          window := windowWith s.port.window [h.ref] fun q => { q with progress := .complete } } ∧
        v.st.faults = s.st.faults ∧ OnlyTouches [.asm, .port, .st] s v ∧
        s.grantHeld = some (if (base.write p.pixels).isFull = true ∨ (s.ap p.tile.ap).state = .freezing then v.sealCall k
          else v)) ∧
  ∀ (s : State) (t : TileRef),
    let isFilling := fun k => (s.slot k).state = .filling ∧ (s.slot k).tile = some t
    let isOther := fun k => (s.slot k).IsOther ∧ (s.slot k).tile = some t
    (∀ k, s.fillingSlot t = some k ↔ isFilling k ∧ ∀ j < k, ¬isFilling j) ∧
    (s.fillingSlot t = none ↔ ∀ k, ¬isFilling k) ∧
    (∀ k, s.otherSlot t = some k ↔ isOther k ∧ ∀ j < k, ¬isOther j) ∧
    (s.otherSlot t = none ↔ ∀ k, ¬isOther k) ∧
    (∀ k, s.freeSlot? = some k ↔ (s.slot k).state = .free ∧ ∀ j < k, (s.slot j).state ≠ .free) ∧
    (s.freeSlot? = none ↔ ∀ k, (s.slot k).state ≠ .free)

/-! ### The store port -/

/-- A turn grants, from the pointer on, the first source whose list is not empty: its head goes to the tail of the outstanding
list and the pointer moves past it; with every list empty nothing changes. -/
def Obligations.StoreTurnGrantsRoundRobin : Prop :=
  ∀ s : State, s.resetLine = false →
    let order := [s.store.pointer, s.store.pointer.next, s.store.pointer.next.next, s.store.pointer.next.next.next]
    [Source.composer, .decoder, .encoder, .status].map Source.next = [.decoder, .encoder, .status, .composer] ∧
    [Source.composer, .decoder, .encoder, .status].map s.store.listOf =
      [s.store.composer, s.store.decoder, s.store.encoder, s.store.status] ∧
    ((∀ x, s.store.listOf x = []) → exec .storeTurn s = .next s) ∧
    ∀ before x after r rest, order = before ++ x :: after → (∀ y ∈ before, s.store.listOf y = []) →
      s.store.listOf x = r :: rest →
      ∃ t : State, exec .storeTurn s = .next t ∧ t.store.listOf x = rest ∧
        (∀ y, y ≠ x → t.store.listOf y = s.store.listOf y) ∧
        t.store.outstanding = s.store.outstanding ++ [r] ∧ t.store.pointer = x.next ∧
        t.store.ignore = s.store.ignore ∧ OnlyTouches [.store] s t

/-- While the ignore count is above 0 every answer of the page store is discarded and lowers it, and reaches no source. -/
def Obligations.AnswersAreIgnoredAfterReset : Prop :=
  ∀ (s : State) (c : Instr), 0 < s.store.ignore → c.wf = true →
    ((∃ status data, c = .passThroughAnswer status data ∨ c = .chunkReadAnswer status data) ∨
      ∃ status, c = .chunkWriteAnswer status ∨ c = .statusWriteAnswer status ∨ c = .ignoredAnswer status) →
    ∃ t : State, exec c s = .next t ∧ t.store = { s.store with ignore := s.store.ignore - 1 } ∧ OnlyTouches [.store] s t

/-- The answer to a pass-through request completes it with the store's status and data; no fault is raised. -/
def Obligations.PassThroughAnswerCompletesTheRequest : Prop :=
  ∀ (s : State) (status : StoreStatus) (data : List Byte) (q : StoreReq) (id : Nat) (rest : List StoreReq),
    s.store.ignore = 0 → data.length ≤ 256 → s.store.outstanding = q :: rest →
    ((∃ addr n, q = .passRead id addr n) ∨ ∃ addr bytes, q = .passWrite id addr bytes) →
    ∃ u : State, exec (.passThroughAnswer status data) s = .next u.finish ∧
      u.store = { s.store with outstanding := rest } ∧
      u.port = { s.port with window := s.port.window.map fun r =>
        if r.id = id then
          (match status with
            | .okay => { r with outcome := .okay, storeData := data }
            | .error => { r with outcome := .error })
        else r } ∧
      OnlyTouches [.port, .store] s u

/-- The answer to a chunk read: OKAY gives the decoder the chunk's bytes; ERROR raises STORE and marks the decode failed, unless
its entry is discarded; the last answer ends a discarded or failed decode, and starts the checks of another. A decode starts
with the head of the decode queue, when the decoder is IDLE: it takes the tile's map entry as it stands, and hands the store
port one read for each chunk of its list, in order, all of them unanswered; an entry with no stream gives none (assumption log
23). -/
def Obligations.ChunkReadAnswerFeedsTheDecode : Prop :=
  (∀ (s : State) (status : StoreStatus) (data : List Byte) (addr : Nat) (rest : List StoreReq) (d : Decode)
    (e : DecodeEntry) (q : List DecodeEntry),
    s.store.ignore = 0 → (status = .okay → data.length = 256) → s.store.outstanding = .chunkRead addr :: rest →
    s.rd.decoder = some d → s.rd.queue = e :: q → 1 ≤ d.unanswered →
    ∃ u : State, exec (.chunkReadAnswer status data) s = .next u.finish ∧ u.store = { s.store with outstanding := rest } ∧
      u.st.faults = (if status = .error ∧ e.discard = false then s.st.faults ||| 0x20 else s.st.faults) ∧
      u.rd.cache = s.rd.cache ∧ OnlyTouches [.rd, .st, .port, .asm, .store] s u ∧
      (1 < d.unanswered ∨ (e.discard = false ∧ d.failed = false ∧ status = .okay) →
        u.rd.decoder = some { d with
          bytes := if status = .okay then d.bytes ++ data else d.bytes
          unanswered := d.unanswered - 1, failed := d.failed || decide (status = .error) } ∧
        u.rd.queue = s.rd.queue ∧ u.port = s.port ∧ u.asm = s.asm) ∧
      (d.unanswered = 1 → e.discard = true →
        u.rd.decoder = none ∧ u.rd.queue = q ∧ u.port = s.port ∧ u.asm = s.asm) ∧
      (d.unanswered = 1 → e.discard = false → (d.failed = true ∨ status = .error) →
        u.rd.decoder = none ∧ u.rd.queue = q ∧
        (∀ k, e.gather = some k → u.slot k =
            { s.slot k with px := (u.slot k).px, present := BitVec.allOnes 1024, state := .sealed } ∧
          ∀ i < 1024, pixelOf (u.slot k).px i =
            if (s.slot k).present.getLsbD i = true then pixelOf (s.slot k).px i else (s.ap e.tile.ap).fill) ∧
        ∀ ref ∈ e.readers, ∀ p, u.part ref = some p → p.progress = .failed)) ∧
  ∀ s : State,
    (s.rd.decoder ≠ none ∨ s.rd.queue = [] → s.startDecode = none) ∧
    ∀ e rest, s.rd.decoder = none → s.rd.queue = e :: rest →
      let entry := entryAt s.map.entries ((s.ap e.tile.ap).extFirst + e.tile.ix)
      let chunks := match entry.content with
        | .unwritten => []
        | .uniform _ _ => []
        | .coded _ l _ => l
        | .plain l _ => l
      ∃ u : State, s.startDecode = some u ∧
        u.rd = { s.rd with
          queue := { e with phase := .decoding } :: rest
          decoder := some ⟨e.tile, entry, [], chunks.length, false⟩ } ∧
        u.store = { s.store with
          decoder := s.store.decoder ++ chunks.map fun c => .chunkRead (s.pool.base + 256 * c) } ∧
        OnlyTouches [.rd, .store] s u

/-- DECODE_END: a well-formed stream enters the cache as its most recent entry, gives the readers' lacking pixels the rebuilt
values, completes the readers and fills the gathering slot; a corrupt one raises CORRUPT, fails the readers, gives the
gathering slot the fill colour and leaves the cache. A request whose parts are then all finished has its outcome. Either way
the entry leaves the queue, the decoder is IDLE, and the tile map and the other slots are as they were. -/
def Obligations.DecodeEndServesOrFailsTheWaiters : Prop :=
  ∀ (s : State) (d : Decode) (e : DecodeEntry) (q : List DecodeEntry), s.rd.decoder = some d → s.rd.queue = e :: q →
    d.unanswered = 0 →
    let waiting := ∀ r ∈ s.port.window, ∀ ref ∈ e.readers, ref.req = r.id →
      ∀ p, r.parts[ref.part]? = some p → p.progress = .proceeding
    let gathers := fun (u : State) (f : Nat → Colour) => ∀ k, e.gather = some k →
      (u.slot k).state = .sealed ∧ (u.slot k).isFull = true ∧ (u.slot k).tile = (s.slot k).tile ∧
      (u.slot k).pred = (s.slot k).pred ∧ (u.slot k).due = (s.slot k).due ∧ (u.slot k).mark = (s.slot k).mark ∧
      ∀ i < 1024, pixelOf (u.slot k).px i =
        if (s.slot k).present.getLsbD i = true then pixelOf (s.slot k).px i else f i
    let served := fun (t : Tile) (p : Part) => { p with
      pixels := p.pixels.map fun x => { x with value := some (x.value.getD (pixelOf t x.index)) }
      progress := .complete }
    let refused := fun (p : Part) => { p with progress := .failed }
    ∃ u : State, exec .decodeEnd s = .next u.finish ∧ u.rd.decoder = none ∧ u.rd.queue = q ∧
      u.rd.pendingList = s.rd.pendingList ∧ OnlyTouches [.rd, .st, .port, .asm] s u ∧
      u.asm.openList = s.asm.openList ∧ u.asm.sealQueue = s.asm.sealQueue ∧ u.asm.held = s.asm.held ∧
      (∀ j, e.gather ≠ some j → u.slot j = s.slot j) ∧
      (∀ t, decodeStream (s.ap d.tile.ap).fmt d.tile d.entry d.bytes = some t →
        let l := s.rd.cache.filter fun x => decide (x.tile ≠ e.tile)
        u.st.faults = s.st.faults ∧ u.rd.cache = (if 32 ≤ l.length then l.tail else l) ++ [⟨e.tile, t⟩] ∧
        gathers u (pixelOf t) ∧
        (∀ ref ∈ e.readers, ∀ p, s.part ref = some p → u.part ref = some (served t p)) ∧
        (waiting → u.port = { s.port with window := windowWith s.port.window e.readers (served t) })) ∧
      (decodeStream (s.ap d.tile.ap).fmt d.tile d.entry d.bytes = none →
        u.st.faults = s.st.faults ||| 0x40 ∧ u.rd.cache = s.rd.cache ∧
        gathers u (fun _ => (s.ap e.tile.ap).fill) ∧
        (∀ ref ∈ e.readers, ∀ p, s.part ref = some p → u.part ref = some (refused p)) ∧
        (waiting → u.port = { s.port with window := windowWith s.port.window e.readers refused }))

/-- The answer to a chunk write that is not the last of its round: OKAY leaves its chunk held; ERROR withdraws it, opens its
position and raises STORE, and the free count does not move. -/
def Obligations.ChunkWriteAnswerKeepsOrWithdraws : Prop :=
  ∀ (s : State) (status : StoreStatus) (i c addr : Nat) (data : List Byte) (rest : List StoreReq) (op : TileOp),
    s.store.ignore = 0 → s.store.outstanding = .chunkWrite i c addr data :: rest → s.enc.op = some op →
    1 < op.unanswered → s.FiguresAgree →
    ∃ u : State, exec (.chunkWriteAnswer status) s = .next u.finish ∧ u.store = { s.store with outstanding := rest } ∧
      (status = .okay → u.enc = { s.enc with op := some { op with unanswered := op.unanswered - 1 } } ∧
        OnlyTouches [.enc, .store, .st] s u ∧ u.st.faults = s.st.faults) ∧
      (status = .error →
        u.enc = { s.enc with op := some { op with unanswered := op.unanswered - 1, held := op.held.set i none } } ∧
        u.pool = { s.pool with withdrawn := s.pool.withdrawn ++ [c] } ∧ u.ctl = s.ctl ∧
        u.st.faults = s.st.faults ||| 0x20 ∧ u.st.stale = true ∧
        OnlyTouches [.enc, .pool, .ctl, .store, .st] s u)

/-- The end of a round. CHUNK_WRITE_ANSWER ends the round when it is the last answer of it: a whole chunk list is committed;
round 1 with failures asks for replacements, which take the open positions in list order and are written in round 2, or the
tile is degraded; a tile of a RETIRING aperture is abandoned. A degradation releases the held chunks to the free tail in list
order and commits the mean colour, degraded; a tile of a RETIRING aperture is abandoned instead. Nothing is present in the freed
slot (assumption log 32). The open positions are the places of the held list that hold no chunk, rising. -/
def Obligations.RoundEndCommitsReplacesOrDegrades : Prop :=
  (∀ (s : State) (op : TileOp) (r : Result), op.result = some r →
    let gaps := openPositions op.held
    let chunks := s.pool.free.take gaps.length
    let retiring := (s.ap op.tile.ap).state = .retiring
    (gaps = [] → s.endRound op = if (s.ap op.tile.ap).state = .retiring then s.abandon op else s.commit op r) ∧
    (gaps ≠ [] → op.round = 1 → retiring → s.endRound op = s.abandon op) ∧
    (gaps ≠ [] → op.round = 1 → ¬retiring → s.pool.free.length < gaps.length → s.endRound op = s.degrade op) ∧
    (gaps ≠ [] → op.round ≠ 1 → s.endRound op = s.degrade op) ∧
    (gaps ≠ [] → op.round = 1 → ¬retiring → gaps.length ≤ s.pool.free.length →
      let u := s.endRound op
      u.pool = { s.pool with free := s.pool.free.drop gaps.length, waiting := none } ∧
      (∃ op2 : TileOp, u.enc = ⟨some op2, none⟩ ∧ op2.stage = .writing ∧ op2.round = 2 ∧ op2.unanswered = gaps.length ∧
        op2.tile = op.tile ∧ op2.slot = op.slot ∧ op2.result = some r ∧ op2.held.length = op.held.length ∧
        (∀ (i c : Nat), op.held[i]? = some (some c) → op2.held[i]? = some (some c)) ∧
        ∀ (n i c : Nat), gaps[n]? = some i → chunks[n]? = some c → op2.held[i]? = some (some c)) ∧
      u.store.encoder = s.store.encoder ++ (gaps.zip chunks).map (fun jc =>
        .chunkWrite jc.1 jc.2 (s.pool.base + 256 * jc.2) (chunkData r.stream jc.1)) ∧
      OnlyTouches [.pool, .ctl, .enc, .store, .st] s u)) ∧
  (∀ (s : State) (status : StoreStatus) (i c addr : Nat) (data : List Byte) (rest : List StoreReq) (op : TileOp),
    s.store.ignore = 0 → s.store.outstanding = .chunkWrite i c addr data :: rest → s.enc.op = some op →
    op.unanswered = 1 →
    let op1 := { op with unanswered := 0, held := if status = .okay then op.held else op.held.set i none }
    ∃ v : State, exec (.chunkWriteAnswer status) s = .next (v.endRound op1).finish ∧
      v.enc = { s.enc with op := some op1 } ∧ v.store = { s.store with outstanding := rest } ∧
      (status = .okay → OnlyTouches [.enc, .store] s v) ∧
      (status = .error → v.pool = { s.pool with withdrawn := s.pool.withdrawn ++ [c] } ∧
        v.st.faults.getLsbD 5 = true ∧ OnlyTouches [.enc, .pool, .ctl, .store, .st] s v)) ∧
  (∀ (s : State) (op : TileOp),
    let held := op.held.filterMap id
    let i := (s.ap op.tile.ap).extFirst + op.tile.ix
    let old := entryAt s.map.entries i
    let v := s.degrade op
    v.enc = ⟨none, none⟩ ∧ v.slot op.slot = ⟨.free, none, (s.slot op.slot).px, 0, none, false, false⟩ ∧
    OnlyTouches [.aps, .map, .pool, .asm, .ctl, .enc, .rd, .st] s v ∧
    ((s.ap op.tile.ap).state = .retiring →
      v.map = s.map ∧ v.aps = s.aps ∧ v.pool = { s.pool with free := s.pool.free ++ held }) ∧
    ((s.ap op.tile.ap).state ≠ .retiring →
      v.pool = { s.pool with free := s.pool.free ++ held ++ old.content.chunks } ∧
      entryAt v.map.entries i =
        ⟨.uniform (op.mean.getD (meanColour (s.slot op.slot).px)) true, old.gen + 1⟩ ∧
      (∀ j, j ≠ i → entryAt v.map.entries j = entryAt s.map.entries j) ∧
      v.map.tilesTotal = s.map.tilesTotal + 1 ∧ v.map.degradedTotal = s.map.degradedTotal + 1 ∧
      v.st.faults.getLsbD 4 = true)) ∧
  (∀ held : List (Option Nat), (openPositions held).Pairwise (· < ·) ∧
    ∀ i, i ∈ openPositions held ↔ held[i]? = some none) ∧
  ∀ t : Tile,
    let mean := fun (f : Colour → Sample) => ((List.range 1024).map fun i => (f (pixelOf t i)).toNat).sum / 1024
    (meanColour t).r.toNat = mean Colour.r ∧ (meanColour t).g.toNat = mean Colour.g ∧
      (meanColour t).b.toNat = mean Colour.b

/-- STATUS_WRITE_ANSWER: the write state is IDLE again; an ERROR raises STORE and leaves the block not stale, unless a SET
STATUS with the enable set came since the write was issued, which leaves the stale mark as it is. -/
def Obligations.StatusWriteAnswerEndsTheFlight : Prop :=
  ∀ (s : State) (addr : Nat) (data : List Byte) (rest : List StoreReq), s.store.ignore = 0 →
    s.store.outstanding = .statusWrite addr data :: rest →
    (∃ u : State, exec (.statusWriteAnswer .okay) s = .next u.finish ∧ u.st = { s.st with inFlight := false } ∧
      u.store = { s.store with outstanding := rest } ∧ OnlyTouches [.st, .store] s u) ∧
    (∃ u : State, exec (.statusWriteAnswer .error) s = .next u.finish ∧
      u.st = { s.st with
        inFlight := false, faults := s.st.faults ||| 0x20
        attn := decide ((s.st.faults ||| 0x20) &&& s.st.mask ≠ 0), stale := s.st.stale && s.st.reissue } ∧
      u.store = { s.store with outstanding := rest } ∧ OnlyTouches [.st, .store] s u)

/-! ### The encoder and the tile map -/

/-- A commit: the entry is replaced with the next generation and every other entry stays; the old chunks go to the free tail;
the totals rise; the record is emptied and the slot freed; a FILLING successor loses its link and, where its seal is due, is
sealed and gathers from the entry just written; the applied step slews against the band the release leaves; a degraded tile
raises DEGRADED; and the cache loses the tile's old entry and gains a CODED or PLAIN reconstruction as its most recent one.
Nothing is present in the freed slot (assumption log 32). -/
def Obligations.CommitReplacesTheEntry : Prop :=
  ∀ (s : State) (op : TileOp) (r : Result),
    let u := s.commit op r
    let i := (s.ap op.tile.ap).extFirst + op.tile.ix
    let old := entryAt s.map.entries i
    entryAt u.map.entries i = ⟨r.content op.heldChunks, old.gen + 1⟩ ∧
    (∀ c d, r = .uniform c d → entryAt u.map.entries i = ⟨.uniform c d, old.gen + 1⟩) ∧
    (∀ k b n x, r = .coded k b n x → entryAt u.map.entries i = ⟨.coded k (op.held.filterMap id) n, old.gen + 1⟩) ∧
    (∀ b n x, r = .plain b n x → entryAt u.map.entries i = ⟨.plain (op.held.filterMap id) n, old.gen + 1⟩) ∧
    (∀ j, j ≠ i → entryAt u.map.entries j = entryAt s.map.entries j) ∧
    u.map.tilesTotal = s.map.tilesTotal + 1 ∧
    u.map.degradedTotal = (if r.isDegraded then s.map.degradedTotal + 1 else s.map.degradedTotal) ∧
    (r.isDegraded = true ↔ ∃ c, r = .uniform c true) ∧
    u.map.freeExtents = s.map.freeExtents ∧ u.map.walk = s.map.walk ∧
    u.pool = { s.pool with free := s.pool.free ++ old.content.chunks } ∧
    old.content.chunks = (match old.content with
      | .unwritten => []
      | .uniform _ _ => []
      | .coded _ chunks _ => chunks
      | .plain chunks _ => chunks) ∧
    u.enc = ⟨none, none⟩ ∧ u.slot op.slot = ⟨.free, none, (s.slot op.slot).px, 0, none, false, false⟩ ∧
    u.asm.held = s.asm.held ∧
    ((∀ j, j ≠ op.slot → (s.slot j).pred ≠ some op.slot) →
      (∀ j, j ≠ op.slot → u.slot j = s.slot j) ∧ u.asm.openList = s.asm.openList ∧
        u.asm.sealQueue = s.asm.sealQueue) ∧
    (∀ k, k ≠ op.slot → (s.slot k).pred = some op.slot →
      (∀ j, j ≠ op.slot → (s.slot j).pred = some op.slot → j = k) →
      (∀ j, j ≠ op.slot → j ≠ k → u.slot j = s.slot j) ∧
      ((s.slot k).due = false → u.slot k = { s.slot k with pred := none } ∧ u.asm.openList = s.asm.openList ∧
        u.asm.sealQueue = s.asm.sealQueue) ∧
      ((s.slot k).due = true → (s.slot k).tile = some op.tile →
        u.asm.openList = s.asm.openList.erase k ∧ u.asm.sealQueue = s.asm.sealQueue ++ [k] ∧
        (u.slot k).state = .sealed ∧ (u.slot k).tile = some op.tile ∧ (u.slot k).pred = none ∧
        (u.slot k).due = false ∧ (u.slot k).mark = (s.slot k).mark ∧ (u.slot k).isFull = true ∧
        (∀ n < 1024, (s.slot k).present.getLsbD n = true → pixelOf (u.slot k).px n = pixelOf (s.slot k).px n) ∧
        ∀ n < 1024, (s.slot k).present.getLsbD n = false →
          (∀ c d, r = .uniform c d → pixelOf (u.slot k).px n = c) ∧
          (∀ step b m x, r = .coded step b m x → pixelOf (u.slot k).px n = pixelOf x n) ∧
          ∀ b m x, r = .plain b m x → pixelOf (u.slot k).px n = pixelOf x n)) ∧
    (s.FiguresAgree → u.ctl.applied = (s.release old.content.chunks).ctl.slew.applied ∧
      u.ctl.upCount = (s.release old.content.chunks).ctl.slew.upCount ∧
      u.ctl.downCount = (s.release old.content.chunks).ctl.slew.downCount) ∧
    (r.isDegraded = true → u.st.faults.getLsbD 4 = true) ∧ u.st.stale = true ∧
    ((∀ k, k ≠ op.slot → (s.slot k).pred = some op.slot → (s.slot k).due = true → (s.slot k).tile = some op.tile) →
      let l := s.rd.cache.filter fun e => decide (e.tile ≠ op.tile)
      let room := if 32 ≤ l.length then l.tail else l
      (∀ c d, r = .uniform c d → u.rd.cache = l) ∧
      (∀ k b n x, r = .coded k b n x → u.rd.cache = room ++ [⟨op.tile, x⟩]) ∧
      (∀ b n x, r = .plain b n x → u.rd.cache = room ++ [⟨op.tile, x⟩]) ∧
      u.rd.queue = s.rd.queue ∧ u.rd.pendingList = s.rd.pendingList) ∧
    u.rd.decoder = s.rd.decoder ∧
    OnlyTouches [.aps, .map, .pool, .asm, .ctl, .enc, .rd, .st] s u

/-- A commit adds 1 to the aperture's committed-tile count if the old entry was UNWRITTEN and leaves it as it was otherwise; a
change of the count makes the block stale. -/
def Obligations.CommitCountsUnwrittenTiles : Prop :=
  ∀ (s : State) (op : TileOp) (r : Result),
    let u := s.commit op r
    let old := (entryAt s.map.entries ((s.ap op.tile.ap).extFirst + op.tile.ix)).content
    (old = .unwritten →
      u.ap op.tile.ap = { s.ap op.tile.ap with committed := (s.ap op.tile.ap).committed + 1 } ∧ u.st.stale = true) ∧
    (old ≠ .unwritten → u.ap op.tile.ap = s.ap op.tile.ap) ∧ ∀ b, b ≠ op.tile.ap → u.ap b = s.ap b

/-- CODING_END, in the first coding of a tile. A uniform tile is committed UNIFORM, not degraded, with its one colour and no
chunks. Of a tile that is not uniform, the result is the fit rule's final code, or PLAIN where that code takes more chunks than
PLAIN does; the request for the chunks is granted from the head of the free list and round 1 starts, or it waits and the timer
starts. A tile of a RETIRING aperture is abandoned in both cases, with nothing present in the freed slot (assumption log 32).
The refits that have not ended before end at this event (assumption log 20). -/
def Obligations.CodingEndCommitsAllocatesOrWaits : Prop :=
  ∀ (s : State) (op : TileOp), s.enc.op = some op → op.stage = .coding → op.recode = false → op.held = [] →
   let px := (s.slot op.slot).px
   (∀ c : Colour, (∀ i < 1024, pixelOf px i = c) →
    ((s.ap op.tile.ap).state ≠ .retiring →
      exec .codingEnd s = .next (s.commit op (.uniform c false)).finish) ∧
    ((s.ap op.tile.ap).state = .retiring → exec .codingEnd s = .next (s.abandon op).finish)) ∧
   ((∀ c : Colour, ∃ i < 1024, pixelOf px i ≠ c) →
    let x := s.ap op.tile.ap
    let refits := lastRefit x.fmt x.budget op.effStep (fun k => (codeTile x.fmt op.tile op.gen k px).chunkCount)
      (op.allowance - op.refits) op.refits
    let coded := codeTile x.fmt op.tile op.gen (stepOfRefit x.fmt op.effStep refits) px
    let r := if (if x.fmt = .rgb8 then 13 else 25) < coded.chunkCount then plainTile x.fmt op.tile op.gen px else coded
    let n := r.chunkCount
    ∃ u : State, exec .codingEnd s = .next u.finish ∧ u.ctl.refits = s.ctl.refits + BitVec.ofNat 32 (refits - op.refits) ∧
      ((s.ap op.tile.ap).state = .retiring →
        u.map = s.map ∧ u.pool = s.pool ∧ u.enc = ⟨none, none⟩ ∧
        u.slot op.slot = ⟨.free, none, px, 0, none, false, false⟩ ∧ OnlyTouches [.asm, .ctl, .enc, .rd, .st] s u) ∧
      ((s.ap op.tile.ap).state ≠ .retiring →
        OnlyTouches [.pool, .ctl, .enc, .store, .st] s u ∧
        (n ≤ s.pool.free.length →
          u.pool = { s.pool with free := s.pool.free.drop n, waiting := none } ∧
          (∃ op2 : TileOp, u.enc = ⟨some op2, none⟩ ∧ op2.stage = .writing ∧ op2.round = 1 ∧ op2.unanswered = n ∧
            op2.held = (s.pool.free.take n).map some ∧ op2.result = some r ∧ op2.tile = op.tile ∧
            op2.slot = op.slot ∧ op2.mean = some (meanColour px)) ∧
          u.store = { s.store with
            encoder := s.store.encoder ++ (s.pool.free.take n).mapIdx (fun j c =>
              .chunkWrite j c (s.pool.base + 256 * c) (chunkData r.stream j)) }) ∧
        (s.pool.free.length < n →
          u.pool = { s.pool with waiting := some n } ∧ u.store = s.store ∧
          ∃ op2 : TileOp, u.enc = ⟨some op2, some s.pool.limit⟩ ∧ op2.stage = .poolWait ∧ op2.held = op.held ∧
            op2.result = some r ∧ op2.tile = op.tile)))

/-- The fit rule: within the allowance, every code before the last misses the budget below kmax, and the last fits, or is at
kmax or above, or uses the allowance up; the same from any refit on with what is left of the allowance. The i-th refit is at the
smaller of s0 + 2i and kmax. -/
def Obligations.FitRuleStopsAtTheFirstFit : Prop :=
  ∀ (fmt : Format) (budget s0 : Nat) (count : Nat → Nat) (allowance : Nat),
    let n := lastRefit fmt budget s0 count allowance 0
    let kmax := if fmt = .rgb8 then 7 else 15
    n ≤ allowance ∧ stepOfRefit fmt s0 0 = s0 ∧ (∀ i, 0 < i → stepOfRefit fmt s0 i = min (s0 + 2 * i) kmax) ∧
    (∀ i < n, budget < count (stepOfRefit fmt s0 i) ∧ stepOfRefit fmt s0 i < kmax) ∧
    (n = allowance ∨ count (stepOfRefit fmt s0 n) ≤ budget ∨ kmax ≤ stepOfRefit fmt s0 n) ∧
    ∀ done, let m := lastRefit fmt budget s0 count allowance done
      done ≤ m ∧ m ≤ done + allowance ∧
      (∀ i < m, done ≤ i → budget < count (stepOfRefit fmt s0 i) ∧ stepOfRefit fmt s0 i < kmax) ∧
      (m = done + allowance ∨ count (stepOfRefit fmt s0 m) ≤ budget ∨ kmax ≤ stepOfRefit fmt s0 m)

/-- REFIT_END: a refit that the fit rule calls for is counted in the record and in the refits total; nothing else changes. With
no refit due the event changes nothing, which is the model's choice (assumption log 6). -/
def Obligations.RefitEndCountsTheRefit : Prop :=
  ∀ (s : State) (op : TileOp), s.enc.op = some op → op.stage = .coding → op.recode = false →
    let x := s.ap op.tile.ap
    let px := (s.slot op.slot).px
    let due := (∀ c : Colour, ∃ i < 1024, pixelOf px i ≠ c) ∧ op.refits < op.allowance ∧
      x.budget < (codeTile x.fmt op.tile op.gen (stepOfRefit x.fmt op.effStep op.refits) px).chunkCount ∧
      stepOfRefit x.fmt op.effStep op.refits < (if x.fmt = .rgb8 then 7 else 15)
    (due → ∃ u : State, exec .refitEnd s = .next u.finish ∧ u.enc = ⟨some { op with refits := op.refits + 1 }, none⟩ ∧
      u.ctl = { s.ctl with refits := s.ctl.refits + 1 } ∧ u.st = { s.st with stale := true } ∧
      OnlyTouches [.enc, .ctl, .st] s u) ∧
    (¬due → exec .refitEnd s = .next s.finish)

/-- POOL_WAIT_EXPIRY: the waiting request is dropped; an unprotected tile goes back to CODING for the re-code; a protected one
is degraded to its mean colour, and abandoned when its aperture is RETIRING. -/
def Obligations.PoolWaitExpiryRecodesOrDegrades : Prop :=
  ∀ (s : State) (op : TileOp), s.enc.op = some op → op.stage = .poolWait →
    (op.isProtected = false → s.FiguresAgree →
      ∃ u : State, exec .poolWaitExpiry s = .next u.finish ∧ u.pool = { s.pool with waiting := none } ∧
        u.enc = ⟨some { op with stage := .coding, recode := true }, none⟩ ∧ u.st = { s.st with stale := true } ∧
        OnlyTouches [.pool, .ctl, .enc, .st] s u ∧ u.ctl = s.ctl) ∧
    (op.isProtected = true → op.held = [] → (s.ap op.tile.ap).state ≠ .retiring →
      ∃ u : State, exec .poolWaitExpiry s = .next u.finish ∧
        entryAt u.map.entries ((s.ap op.tile.ap).extFirst + op.tile.ix) =
          ⟨.uniform (op.mean.getD (meanColour (s.slot op.slot).px)) true,
            (entryAt s.map.entries ((s.ap op.tile.ap).extFirst + op.tile.ix)).gen + 1⟩ ∧
        u.map.degradedTotal = s.map.degradedTotal + 1 ∧ u.enc = ⟨none, none⟩ ∧ u.pool.waiting = none ∧
        u.st.faults.getLsbD 4 = true ∧ OnlyTouches [.aps, .map, .pool, .asm, .ctl, .enc, .rd, .st] s u) ∧
    (op.isProtected = true → op.held = [] → (s.ap op.tile.ap).state = .retiring →
      ∃ u : State, exec .poolWaitExpiry s = .next u.finish ∧ u.map = s.map ∧ u.enc = ⟨none, none⟩ ∧
        u.pool = { s.pool with waiting := none })

/-- RECODE_END: with `r` the code at kmax, the fresh request is granted at once and round 1 starts, with a write for each chunk
handed to the store port in list order, or the tile is degraded; a tile of a RETIRING aperture is abandoned. -/
def Obligations.RecodeEndWritesOrDegrades : Prop :=
  ∀ (s : State) (op : TileOp), s.enc.op = some op → op.stage = .coding → op.recode = true → op.held = [] →
    let x := s.ap op.tile.ap
    let r := codeTile x.fmt op.tile op.gen (if x.fmt = .rgb8 then 7 else 15) (s.slot op.slot).px
    let n := r.chunkCount
    (x.state = .retiring → ∃ u : State, exec .recodeEnd s = .next u.finish ∧ u.map = s.map ∧ u.enc = ⟨none, none⟩ ∧
      u.pool = s.pool) ∧
    (x.state ≠ .retiring → n ≤ s.pool.free.length →
      ∃ u : State, exec .recodeEnd s = .next u.finish ∧
        u.pool = { s.pool with free := s.pool.free.drop n, waiting := none } ∧
        (∃ op2 : TileOp, u.enc = ⟨some op2, none⟩ ∧ op2.stage = .writing ∧ op2.round = 1 ∧ op2.unanswered = n ∧
          op2.held = (s.pool.free.take n).map some ∧ op2.result = some r ∧ op2.tile = op.tile) ∧
        u.store = { s.store with
          encoder := s.store.encoder ++ (s.pool.free.take n).mapIdx (fun j c =>
            .chunkWrite j c (s.pool.base + 256 * c) (chunkData r.stream j)) } ∧
        u.ctl.refits = s.ctl.refits ∧ OnlyTouches [.pool, .ctl, .enc, .store, .st] s u) ∧
    (x.state ≠ .retiring → s.pool.free.length < n →
      ∃ u : State, exec .recodeEnd s = .next u.finish ∧
        entryAt u.map.entries ((s.ap op.tile.ap).extFirst + op.tile.ix) =
          ⟨.uniform (op.mean.getD (meanColour (s.slot op.slot).px)) true,
            (entryAt s.map.entries ((s.ap op.tile.ap).extFirst + op.tile.ix)).gen + 1⟩ ∧
        u.map.degradedTotal = s.map.degradedTotal + 1 ∧ u.enc = ⟨none, none⟩ ∧ u.st.faults.getLsbD 4 = true)

/-- RETIRE_WALK_VISIT: the entry's chunks go to the free tail in list order, the entry becomes UNWRITTEN with generation 0,
every other entry stays, and the walk moves on; the committed-tile counts stay. -/
def Obligations.RetireWalkVisitEmptiesTheEntry : Prop :=
  ∀ (s : State) (w : Walk), s.map.walk = some w → w.next < (s.ap w.ap).extLen → s.MapOk →
    let i := (s.ap w.ap).extFirst + w.next
    ∃ u : State, exec .retireWalkVisit s = .next u.finish ∧ entryAt u.map.entries i = ⟨.unwritten, 0⟩ ∧
      (∀ j, j ≠ i → entryAt u.map.entries j = entryAt s.map.entries j) ∧
      u.map.walk = some ⟨w.ap, w.next + 1⟩ ∧ u.map.freeExtents = s.map.freeExtents ∧
      u.map.tilesTotal = s.map.tilesTotal ∧ u.map.degradedTotal = s.map.degradedTotal ∧
      u.pool = { s.pool with free := s.pool.free ++ (entryAt s.map.entries i).content.chunks } ∧
      OnlyTouches [.map, .pool, .ctl, .st] s u

/-! ### Step control -/

/-- The slew at a completion, case by case. -/
def Obligations.SlewMovesTheAppliedStepByOne : Prop :=
  ∀ c : StepControl,
    (c.applied < c.demanded → c.upCount + 1 < c.up →
      c.slew = { c with upCount := c.upCount + 1, downCount := 0 }) ∧
    (c.applied < c.demanded → c.up ≤ c.upCount + 1 →
      c.slew = { c with upCount := 0, downCount := 0, applied := c.applied + 1 }) ∧
    (c.demanded < c.applied → c.downCount + 1 < c.down →
      c.slew = { c with upCount := 0, downCount := c.downCount + 1 }) ∧
    (c.demanded < c.applied → c.down ≤ c.downCount + 1 →
      c.slew = { c with upCount := 0, downCount := 0, applied := c.applied - 1 }) ∧
    (c.demanded = c.applied → c.slew = { c with upCount := 0, downCount := 0 })

/-- The take of a tile: the slot leaves the seal queue and is ENCODING; the record takes the tile, the next generation, the
protection judged now, the effective step and the refit allowance. The encoder takes nothing while it has a tile in hand, while
the seal queue is empty, and while the queue's head is not SEALED. -/
def Obligations.TakeFixesStepAndAllowance : Prop :=
  (∀ s : State,
    (s.enc.op ≠ none → s.takeSealed = none) ∧ (s.asm.sealQueue = [] → s.takeSealed = none) ∧
    ∀ k rest, s.asm.sealQueue = k :: rest → (s.slot k).state ≠ .sealed → s.takeSealed = none) ∧
  ∀ (s : State) (k : SlotIx) (rest : List SlotIx) (t : TileRef), s.enc.op = none → s.asm.sealQueue = k :: rest →
    (s.slot k).state = .sealed → (s.slot k).tile = some t →
    let x := s.ap t.ap
    let inRect := ∃ q ∈ x.rects, q.x0 ≤ t.ix % x.width ∧ t.ix % x.width ≤ q.x1 ∧ q.y0 ≤ t.ix / x.width ∧
      t.ix / x.width ≤ q.y1
    ∃ (u : State) (op : TileOp), s.takeSealed = some u ∧ u.enc = ⟨some op, none⟩ ∧ u.asm.sealQueue = rest ∧
      u.slot k = { s.slot k with state := .encoding } ∧ (∀ j, j ≠ k → u.slot j = s.slot j) ∧
      op.stage = .coding ∧ op.slot = k ∧ op.tile = t ∧ op.gen = (entryAt s.map.entries (x.extFirst + t.ix)).gen + 1 ∧
      op.held = [] ∧ op.result = none ∧ (op.isProtected = true ↔ inRect) ∧
      (inRect → op.effStep = 0 ∧ op.allowance = 0) ∧
      (¬inRect → op.allowance = s.ctl.refitLimit ∧
        op.effStep = if x.mode = .fixed then x.floorStep else max x.floorStep s.ctl.applied) ∧
      OnlyTouches [.asm, .enc, .st] s u

/-- A grant of the waiting request after a release: the chunks come from the head of the free list, the timer stops and round 1
starts, with a write for each chunk handed to the store port in list order; a tile of a RETIRING aperture is abandoned and
returns them; too few chunks leave the request waiting. An abandonment, at whichever check point, releases the held chunks to
the free tail in list order, empties the record, frees the slot, in which nothing is present (assumption log 32), and reaches no
map entry, total, count or counter, and no other slot but a successor, which loses its link and, where its seal is due, is
sealed; DEGRADED is not raised. A release appends its chunks to the free list, and the band, the demanded step and POOL_SHORT
follow. -/
def Obligations.ReleaseGrantsTheWaitingRequest : Prop :=
  (∀ (s : State) (n : Nat) (op : TileOp), s.pool.waiting = some n → s.enc.op = some op →
    (s.pool.free.length < n → s.grantWaiting = none) ∧
    (n ≤ s.pool.free.length → (s.ap op.tile.ap).state ≠ .retiring →
      ∃ u : State, s.grantWaiting = some u ∧ u.pool = { s.pool with free := s.pool.free.drop n, waiting := none } ∧
        (∃ op2 : TileOp, u.enc = ⟨some op2, none⟩ ∧ op2.stage = .writing ∧ op2.round = 1 ∧ op2.unanswered = n ∧
          op2.held = (s.pool.free.take n).map some ∧ op2.tile = op.tile ∧ op2.slot = op.slot ∧
          op2.result = op.result) ∧
        (∀ r, op.result = some r →
          u.store = { s.store with
            encoder := s.store.encoder ++ (s.pool.free.take n).mapIdx (fun j c =>
              .chunkWrite j c (s.pool.base + 256 * c) (chunkData r.stream j)) }) ∧
        OnlyTouches [.pool, .ctl, .enc, .store, .st] s u) ∧
    (n ≤ s.pool.free.length → (s.ap op.tile.ap).state = .retiring →
      ∃ u : State, s.grantWaiting = some u ∧
        u.pool = { s.pool with free := s.pool.free.drop n ++ s.pool.free.take n, waiting := none } ∧
        u.enc = ⟨none, none⟩ ∧ u.map = s.map)) ∧
  (∀ (s : State) (op : TileOp),
    let u := s.abandon op
    u.pool = { s.pool with free := s.pool.free ++ op.held.filterMap id } ∧ op.heldChunks = op.held.filterMap id ∧
    u.enc = ⟨none, none⟩ ∧ u.slot op.slot = ⟨.free, none, (s.slot op.slot).px, 0, none, false, false⟩ ∧
    u.asm.held = s.asm.held ∧ (∀ j, j ≠ op.slot → (s.slot j).pred ≠ some op.slot → u.slot j = s.slot j) ∧
    ((∀ j, j ≠ op.slot → (s.slot j).pred ≠ some op.slot) →
      u.asm.openList = s.asm.openList ∧ u.asm.sealQueue = s.asm.sealQueue ∧ u.rd = s.rd) ∧
    (∀ k, k ≠ op.slot → (s.slot k).pred = some op.slot →
      (∀ j, j ≠ op.slot → (s.slot j).pred = some op.slot → j = k) →
      (u.slot k).pred = none ∧
      ((s.slot k).due = false → u.slot k = { s.slot k with pred := none } ∧ u.asm.openList = s.asm.openList ∧
        u.asm.sealQueue = s.asm.sealQueue ∧ u.rd = s.rd) ∧
      ((s.slot k).due = true → (u.slot k).due = false ∧ u.asm.openList = s.asm.openList.erase k ∧
        u.asm.sealQueue = s.asm.sealQueue ++ [k])) ∧
    u.ctl.applied = s.ctl.applied ∧ u.ctl.upCount = s.ctl.upCount ∧ u.ctl.downCount = s.ctl.downCount ∧
    u.ctl.refits = s.ctl.refits ∧ u.st.faults.getLsbD 4 = s.st.faults.getLsbD 4 ∧
    OnlyTouches [.pool, .asm, .ctl, .enc, .rd, .st] s u) ∧
  ∀ (s : State) (chunks : List Nat),
    let u := s.release chunks
    u.pool = { s.pool with free := s.pool.free ++ chunks } ∧
    u.ctl = { s.ctl with band := u.ctl.band, demanded := u.ctl.demanded } ∧ (s.FiguresAgree → u.FiguresAgree) ∧
    (∀ i : Fin 8, i.val ≠ 3 → u.st.faults.getLsbD i = s.st.faults.getLsbD i) ∧ OnlyTouches [.pool, .ctl, .st] s u

/-! ### The tile code -/

/-- Decoding the stream that the encoder made, with any bytes after it, gives the encoder's reconstruction: CODED at every step,
and PLAIN. The reconstruction of a CODED tile at exponent k, the step but at most 7 in RGB8 and 15 in RGB16, has in each sample
the quotient q of the raw sample by 2^k, as q itself at k = 0 and as q·2^k + 2^(k-1) above; at step 0 it is the tile. A stream
is its header, its body and its check value, a CODED body the 768 groups of the quantised samples in the least widths. Its
chunks are as many as it needs, and their data in order are its bytes and then zeros. A CODED stream decodes exactly when the
header and the check value hold and the body is well formed: with a differing header field, a failing check value, a width above
17, a sample outside 0..Q, bits that run out or bits left over, it gives nothing. A PLAIN stream decodes to its samples exactly
when the header and the check value hold, and an entry with no stream never decodes (assumption log 23). -/
def Obligations.DecodeOfEncodeIsTheReconstruction : Prop :=
  (∀ (fmt : Format) (tile : TileRef) (gen : Byte) (t : Tile) (pad : List Byte) (chunks : List Nat),
    let bits := if fmt = .rgb8 then 8 else 16
    (∀ i < 1024, (pixelOf t i).r.toNat < 2 ^ bits ∧ (pixelOf t i).g.toNat < 2 ^ bits ∧
      (pixelOf t i).b.toNat < 2 ^ bits) →
    (∀ step stream len recon, codeTile fmt tile gen step t = .coded step stream len recon →
      decodeStream fmt tile ⟨.coded step chunks len, gen⟩ (stream ++ pad) = some recon ∧
      (step = 0 → recon = t) ∧
      let k := min step (if fmt = .rgb8 then 7 else 15)
      let rebuilt := fun (raw : Nat) => if k = 0 then raw else raw / 2 ^ k * 2 ^ k + 2 ^ (k - 1)
      ∀ i < 1024, (pixelOf recon i).r.toNat = rebuilt (pixelOf t i).r.toNat ∧
        (pixelOf recon i).g.toNat = rebuilt (pixelOf t i).g.toNat ∧
        (pixelOf recon i).b.toNat = rebuilt (pixelOf t i).b.toNat) ∧
    (∀ stream len recon, plainTile fmt tile gen t = .plain stream len recon →
      recon = t ∧ decodeStream fmt tile ⟨.plain chunks len, gen⟩ (stream ++ pad) = some recon) ∧
    (∀ step stream len recon, codeTile fmt tile gen step t = .coded step stream len recon →
      let k := min step (if fmt = .rgb8 then 7 else 15)
      let raw := fun n =>
        let c := pixelOf t (n / 96 * 32 + n % 32)
        (if n / 32 % 3 = 0 then c.r else if n / 32 % 3 = 1 then c.g else c.b).toNat
      let q := fun n => raw n / 2 ^ k
      ∃ (body : List Byte) (w : Nat → Nat), body.length = len ∧ BodyHolds fmt k body w q ∧
        (∀ m < 768, w m = 0 ∨ ∃ j < 4, 2 ^ (w m - 1) ≤ residualCode q (4 * m + j)) ∧
        let checked := streamHead 1 tile fmt (BitVec.ofNat 8 k) gen len ++ List.replicate 6 0 ++ body
        stream = checked ++ checkBytes (crc16 checked)) ∧
    ∀ stream len recon, plainTile fmt tile gen t = .plain stream len recon →
      ∃ body : List Byte, body.length = len ∧ len = (if fmt = .rgb8 then 3072 else 6144) ∧
        let checked := streamHead 2 tile fmt 0 gen len ++ List.replicate 6 0 ++ body
        stream = checked ++ checkBytes (crc16 checked)) ∧
  (∀ stream : List Byte,
    let n := chunkCount stream.length
    stream.length ≤ 256 * n ∧ 256 * n < stream.length + 256 ∧ (∀ j, (chunkData stream j).length = 256) ∧
    (List.range n).flatMap (chunkData stream) = stream ++ List.replicate (256 * n - stream.length) 0 ∧
    crc16 stream = (bitsOfBytes stream).foldl (crcStep 0x1021) 0xFFFF ∧
    ∀ step len recon,
      (Result.coded step stream len recon).stream = stream ∧ (Result.plain stream len recon).stream = stream ∧
      (Result.coded step stream len recon).chunkCount = n ∧ (Result.plain stream len recon).chunkCount = n) ∧
  ∀ (fmt : Format) (tile : TileRef) (gen : Byte) (chunks : List Nat) (len : Nat) (stream : List Byte),
    (∀ step,
      let k := min step (if fmt = .rgb8 then 7 else 15)
      let entry : MapEntry := ⟨.coded step chunks len, gen⟩
      let body := (stream.drop 16).take len
      (decodeStream fmt tile entry stream = none ↔
        ¬(StreamPasses 1 tile fmt gen len stream ∧ ∃ w q, BodyHolds fmt k body w q)) ∧
      ∀ t w q, decodeStream fmt tile entry stream = some t → BodyHolds fmt k body w q →
        ∀ i < 1024, let sample := fun c => BitVec.ofNat 16 (rebuilt k (q (i / 32 * 96 + c * 32 + i % 32)))
          pixelOf t i = ⟨sample 0, sample 1, sample 2⟩) ∧
    (decodeStream fmt tile ⟨.plain chunks len, gen⟩ stream = none ↔ ¬StreamPasses 2 tile fmt gen len stream) ∧
    (∀ t, decodeStream fmt tile ⟨.plain chunks len, gen⟩ stream = some t →
      len = (if fmt = .rgb8 then 3072 else 6144) → ∀ i < 1024,
        let byte := fun n => (stream.getD (16 + n) 0).toNat
        let sample := fun c => BitVec.ofNat 16
          (if fmt = .rgb8 then byte (3 * i + c) else byte (6 * i + 2 * c) + 256 * byte (6 * i + 2 * c + 1))
        pixelOf t i = ⟨sample 0, sample 1, sample 2⟩) ∧
    decodeStream fmt tile ⟨.unwritten, gen⟩ stream = none ∧
    ∀ c d, decodeStream fmt tile ⟨.uniform c d, gen⟩ stream = none

/-! ### Invariants -/

/-- Every step keeps the pool's figures, POOL_SHORT and ATTN in agreement with the pool, the curve and the mask. -/
def Obligations.StepKeepsFiguresInAgreement : Prop :=
  ∀ s t : State, s.FiguresAgree → step s = .next t → t.FiguresAgree

/-- Every step keeps the tile map's canonical form, and keeps every map entry in one extent: a free one, or that of one aperture
that is not CLOSED. It keeps the ranges of the apertures that are not CLOSED, the pool region and the enabled status block
pairwise disjoint, and the aperture of an executing FREEZE in FREEZING. -/
def Obligations.StepKeepsTheMapCanonical : Prop :=
  (∀ s t : State, s.MapOk → step s = .next t → t.MapOk) ∧
  (∀ s t : State, s.ExtentsOk → step s = .next t → t.ExtentsOk) ∧
  ∀ s t : State, s.RegionsOk → step s = .next t → t.RegionsOk

/-- Every step keeps the bounds: of the window, the order queue, the tile cache and the decode queue; of the steps and the
counters of step control; of what the receiver may hold in each link state; and it keeps the FREE slots blank (that nothing is
present in one is the model's choice, assumption log 32). It keeps the
responses in the order of the takes, by the model's own numbers (assumption log 12), the decoder on the head of its queue, and
the slots, the open list, the seal queue, the held writes and the decode queue in agreement. -/
def Obligations.StepKeepsTheBounds : Prop :=
  ∀ s t : State, step s = .next t →
    (s.ListsBounded → t.ListsBounded) ∧ (s.StepsOk → t.StepsOk) ∧ (s.ReceiverOk → t.ReceiverOk) ∧
      (s.FreeSlotsBlank → t.FreeSlotsBlank) ∧ (s.ResponsesInOrder → t.ResponsesInOrder) ∧
      (s.DecoderOk → t.DecoderOk) ∧ (s.BuffersOk → t.BuffersOk)

/-- Every step keeps the timer and the waiting request to POOL_WAIT, and the chunk writes under way to the encoder's round. With
the map, the extents, the slots and the tiles in use sound, it keeps each chunk of the pool in one place. -/
def Obligations.StepKeepsTheWaitInPoolWait : Prop :=
  (∀ s t : State, s.WaitOk → step s = .next t → t.WaitOk) ∧
    ∀ s t : State, s.Sound → step s = .next t → t.Sound

/-- The invariants hold after power-on. -/
def Obligations.InvariantsHoldAtReset : Prop :=
  State.reset.FiguresAgree ∧ State.reset.MapOk ∧ State.reset.ListsBounded ∧ State.reset.StepsOk ∧
    State.reset.ReceiverOk ∧ State.reset.FreeSlotsBlank ∧ State.reset.WaitOk ∧ State.reset.ExtentsOk ∧
    State.reset.ResponsesInOrder ∧ State.reset.DecoderOk ∧ State.reset.BuffersOk ∧ State.reset.Sound ∧
    State.reset.RegionsOk

end
end

