-- ==== Sys2Proof/Laws/State.lean ====
section
/-! SUPPORT. One lemma for each field of the state after each update of a block, and after each update of reported values, true
by rfl: no later proof unfolds a record update. -/

set_option Elab.async false

namespace Sys2Proof.Machine

/-! ### One block replaced -/

@[simp] theorem setAps_aps (s : State) (x : Vector Aperture 8) : (s.setAps x).aps = x := rfl
@[simp] theorem setAps_map (s : State) (x : Vector Aperture 8) : (s.setAps x).map = s.map := rfl
@[simp] theorem setAps_pool (s : State) (x : Vector Aperture 8) : (s.setAps x).pool = s.pool := rfl
@[simp] theorem setAps_asm (s : State) (x : Vector Aperture 8) : (s.setAps x).asm = s.asm := rfl
@[simp] theorem setAps_ctl (s : State) (x : Vector Aperture 8) : (s.setAps x).ctl = s.ctl := rfl
@[simp] theorem setAps_enc (s : State) (x : Vector Aperture 8) : (s.setAps x).enc = s.enc := rfl
@[simp] theorem setAps_rd (s : State) (x : Vector Aperture 8) : (s.setAps x).rd = s.rd := rfl
@[simp] theorem setAps_port (s : State) (x : Vector Aperture 8) : (s.setAps x).port = s.port := rfl
@[simp] theorem setAps_store (s : State) (x : Vector Aperture 8) : (s.setAps x).store = s.store := rfl
@[simp] theorem setAps_link (s : State) (x : Vector Aperture 8) : (s.setAps x).link = s.link := rfl
@[simp] theorem setAps_ord (s : State) (x : Vector Aperture 8) : (s.setAps x).ord = s.ord := rfl
@[simp] theorem setAps_st (s : State) (x : Vector Aperture 8) : (s.setAps x).st = s.st := rfl
@[simp] theorem setAps_resetLine (s : State) (x : Vector Aperture 8) : (s.setAps x).resetLine = s.resetLine := rfl
@[simp] theorem setAps_draws (s : State) (x : Vector Aperture 8) : (s.setAps x).draws = s.draws := rfl
@[simp] theorem setAps_pending (s : State) (x : Vector Aperture 8) : (s.setAps x).pending = s.pending := rfl

@[simp] theorem setMap_aps (s : State) (x : TileMap) : (s.setMap x).aps = s.aps := rfl
@[simp] theorem setMap_map (s : State) (x : TileMap) : (s.setMap x).map = x := rfl
@[simp] theorem setMap_pool (s : State) (x : TileMap) : (s.setMap x).pool = s.pool := rfl
@[simp] theorem setMap_asm (s : State) (x : TileMap) : (s.setMap x).asm = s.asm := rfl
@[simp] theorem setMap_ctl (s : State) (x : TileMap) : (s.setMap x).ctl = s.ctl := rfl
@[simp] theorem setMap_enc (s : State) (x : TileMap) : (s.setMap x).enc = s.enc := rfl
@[simp] theorem setMap_rd (s : State) (x : TileMap) : (s.setMap x).rd = s.rd := rfl
@[simp] theorem setMap_port (s : State) (x : TileMap) : (s.setMap x).port = s.port := rfl
@[simp] theorem setMap_store (s : State) (x : TileMap) : (s.setMap x).store = s.store := rfl
@[simp] theorem setMap_link (s : State) (x : TileMap) : (s.setMap x).link = s.link := rfl
@[simp] theorem setMap_ord (s : State) (x : TileMap) : (s.setMap x).ord = s.ord := rfl
@[simp] theorem setMap_st (s : State) (x : TileMap) : (s.setMap x).st = s.st := rfl
@[simp] theorem setMap_resetLine (s : State) (x : TileMap) : (s.setMap x).resetLine = s.resetLine := rfl
@[simp] theorem setMap_draws (s : State) (x : TileMap) : (s.setMap x).draws = s.draws := rfl
@[simp] theorem setMap_pending (s : State) (x : TileMap) : (s.setMap x).pending = s.pending := rfl

@[simp] theorem setPool_aps (s : State) (x : Pool) : (s.setPool x).aps = s.aps := rfl
@[simp] theorem setPool_map (s : State) (x : Pool) : (s.setPool x).map = s.map := rfl
@[simp] theorem setPool_pool (s : State) (x : Pool) : (s.setPool x).pool = x := rfl
@[simp] theorem setPool_asm (s : State) (x : Pool) : (s.setPool x).asm = s.asm := rfl
@[simp] theorem setPool_ctl (s : State) (x : Pool) : (s.setPool x).ctl = s.ctl := rfl
@[simp] theorem setPool_enc (s : State) (x : Pool) : (s.setPool x).enc = s.enc := rfl
@[simp] theorem setPool_rd (s : State) (x : Pool) : (s.setPool x).rd = s.rd := rfl
@[simp] theorem setPool_port (s : State) (x : Pool) : (s.setPool x).port = s.port := rfl
@[simp] theorem setPool_store (s : State) (x : Pool) : (s.setPool x).store = s.store := rfl
@[simp] theorem setPool_link (s : State) (x : Pool) : (s.setPool x).link = s.link := rfl
@[simp] theorem setPool_ord (s : State) (x : Pool) : (s.setPool x).ord = s.ord := rfl
@[simp] theorem setPool_st (s : State) (x : Pool) : (s.setPool x).st = s.st := rfl
@[simp] theorem setPool_resetLine (s : State) (x : Pool) : (s.setPool x).resetLine = s.resetLine := rfl
@[simp] theorem setPool_draws (s : State) (x : Pool) : (s.setPool x).draws = s.draws := rfl
@[simp] theorem setPool_pending (s : State) (x : Pool) : (s.setPool x).pending = s.pending := rfl

@[simp] theorem setAsm_aps (s : State) (x : Assembly) : (s.setAsm x).aps = s.aps := rfl
@[simp] theorem setAsm_map (s : State) (x : Assembly) : (s.setAsm x).map = s.map := rfl
@[simp] theorem setAsm_pool (s : State) (x : Assembly) : (s.setAsm x).pool = s.pool := rfl
@[simp] theorem setAsm_asm (s : State) (x : Assembly) : (s.setAsm x).asm = x := rfl
@[simp] theorem setAsm_ctl (s : State) (x : Assembly) : (s.setAsm x).ctl = s.ctl := rfl
@[simp] theorem setAsm_enc (s : State) (x : Assembly) : (s.setAsm x).enc = s.enc := rfl
@[simp] theorem setAsm_rd (s : State) (x : Assembly) : (s.setAsm x).rd = s.rd := rfl
@[simp] theorem setAsm_port (s : State) (x : Assembly) : (s.setAsm x).port = s.port := rfl
@[simp] theorem setAsm_store (s : State) (x : Assembly) : (s.setAsm x).store = s.store := rfl
@[simp] theorem setAsm_link (s : State) (x : Assembly) : (s.setAsm x).link = s.link := rfl
@[simp] theorem setAsm_ord (s : State) (x : Assembly) : (s.setAsm x).ord = s.ord := rfl
@[simp] theorem setAsm_st (s : State) (x : Assembly) : (s.setAsm x).st = s.st := rfl
@[simp] theorem setAsm_resetLine (s : State) (x : Assembly) : (s.setAsm x).resetLine = s.resetLine := rfl
@[simp] theorem setAsm_draws (s : State) (x : Assembly) : (s.setAsm x).draws = s.draws := rfl
@[simp] theorem setAsm_pending (s : State) (x : Assembly) : (s.setAsm x).pending = s.pending := rfl

@[simp] theorem setCtl_aps (s : State) (x : StepControl) : (s.setCtl x).aps = s.aps := rfl
@[simp] theorem setCtl_map (s : State) (x : StepControl) : (s.setCtl x).map = s.map := rfl
@[simp] theorem setCtl_pool (s : State) (x : StepControl) : (s.setCtl x).pool = s.pool := rfl
@[simp] theorem setCtl_asm (s : State) (x : StepControl) : (s.setCtl x).asm = s.asm := rfl
@[simp] theorem setCtl_ctl (s : State) (x : StepControl) : (s.setCtl x).ctl = x := rfl
@[simp] theorem setCtl_enc (s : State) (x : StepControl) : (s.setCtl x).enc = s.enc := rfl
@[simp] theorem setCtl_rd (s : State) (x : StepControl) : (s.setCtl x).rd = s.rd := rfl
@[simp] theorem setCtl_port (s : State) (x : StepControl) : (s.setCtl x).port = s.port := rfl
@[simp] theorem setCtl_store (s : State) (x : StepControl) : (s.setCtl x).store = s.store := rfl
@[simp] theorem setCtl_link (s : State) (x : StepControl) : (s.setCtl x).link = s.link := rfl
@[simp] theorem setCtl_ord (s : State) (x : StepControl) : (s.setCtl x).ord = s.ord := rfl
@[simp] theorem setCtl_st (s : State) (x : StepControl) : (s.setCtl x).st = s.st := rfl
@[simp] theorem setCtl_resetLine (s : State) (x : StepControl) : (s.setCtl x).resetLine = s.resetLine := rfl
@[simp] theorem setCtl_draws (s : State) (x : StepControl) : (s.setCtl x).draws = s.draws := rfl
@[simp] theorem setCtl_pending (s : State) (x : StepControl) : (s.setCtl x).pending = s.pending := rfl

@[simp] theorem setEnc_aps (s : State) (x : Encoder) : (s.setEnc x).aps = s.aps := rfl
@[simp] theorem setEnc_map (s : State) (x : Encoder) : (s.setEnc x).map = s.map := rfl
@[simp] theorem setEnc_pool (s : State) (x : Encoder) : (s.setEnc x).pool = s.pool := rfl
@[simp] theorem setEnc_asm (s : State) (x : Encoder) : (s.setEnc x).asm = s.asm := rfl
@[simp] theorem setEnc_ctl (s : State) (x : Encoder) : (s.setEnc x).ctl = s.ctl := rfl
@[simp] theorem setEnc_enc (s : State) (x : Encoder) : (s.setEnc x).enc = x := rfl
@[simp] theorem setEnc_rd (s : State) (x : Encoder) : (s.setEnc x).rd = s.rd := rfl
@[simp] theorem setEnc_port (s : State) (x : Encoder) : (s.setEnc x).port = s.port := rfl
@[simp] theorem setEnc_store (s : State) (x : Encoder) : (s.setEnc x).store = s.store := rfl
@[simp] theorem setEnc_link (s : State) (x : Encoder) : (s.setEnc x).link = s.link := rfl
@[simp] theorem setEnc_ord (s : State) (x : Encoder) : (s.setEnc x).ord = s.ord := rfl
@[simp] theorem setEnc_st (s : State) (x : Encoder) : (s.setEnc x).st = s.st := rfl
@[simp] theorem setEnc_resetLine (s : State) (x : Encoder) : (s.setEnc x).resetLine = s.resetLine := rfl
@[simp] theorem setEnc_draws (s : State) (x : Encoder) : (s.setEnc x).draws = s.draws := rfl
@[simp] theorem setEnc_pending (s : State) (x : Encoder) : (s.setEnc x).pending = s.pending := rfl

@[simp] theorem setRd_aps (s : State) (x : ReadPath) : (s.setRd x).aps = s.aps := rfl
@[simp] theorem setRd_map (s : State) (x : ReadPath) : (s.setRd x).map = s.map := rfl
@[simp] theorem setRd_pool (s : State) (x : ReadPath) : (s.setRd x).pool = s.pool := rfl
@[simp] theorem setRd_asm (s : State) (x : ReadPath) : (s.setRd x).asm = s.asm := rfl
@[simp] theorem setRd_ctl (s : State) (x : ReadPath) : (s.setRd x).ctl = s.ctl := rfl
@[simp] theorem setRd_enc (s : State) (x : ReadPath) : (s.setRd x).enc = s.enc := rfl
@[simp] theorem setRd_rd (s : State) (x : ReadPath) : (s.setRd x).rd = x := rfl
@[simp] theorem setRd_port (s : State) (x : ReadPath) : (s.setRd x).port = s.port := rfl
@[simp] theorem setRd_store (s : State) (x : ReadPath) : (s.setRd x).store = s.store := rfl
@[simp] theorem setRd_link (s : State) (x : ReadPath) : (s.setRd x).link = s.link := rfl
@[simp] theorem setRd_ord (s : State) (x : ReadPath) : (s.setRd x).ord = s.ord := rfl
@[simp] theorem setRd_st (s : State) (x : ReadPath) : (s.setRd x).st = s.st := rfl
@[simp] theorem setRd_resetLine (s : State) (x : ReadPath) : (s.setRd x).resetLine = s.resetLine := rfl
@[simp] theorem setRd_draws (s : State) (x : ReadPath) : (s.setRd x).draws = s.draws := rfl
@[simp] theorem setRd_pending (s : State) (x : ReadPath) : (s.setRd x).pending = s.pending := rfl

@[simp] theorem setPort_aps (s : State) (x : ComposerPort) : (s.setPort x).aps = s.aps := rfl
@[simp] theorem setPort_map (s : State) (x : ComposerPort) : (s.setPort x).map = s.map := rfl
@[simp] theorem setPort_pool (s : State) (x : ComposerPort) : (s.setPort x).pool = s.pool := rfl
@[simp] theorem setPort_asm (s : State) (x : ComposerPort) : (s.setPort x).asm = s.asm := rfl
@[simp] theorem setPort_ctl (s : State) (x : ComposerPort) : (s.setPort x).ctl = s.ctl := rfl
@[simp] theorem setPort_enc (s : State) (x : ComposerPort) : (s.setPort x).enc = s.enc := rfl
@[simp] theorem setPort_rd (s : State) (x : ComposerPort) : (s.setPort x).rd = s.rd := rfl
@[simp] theorem setPort_port (s : State) (x : ComposerPort) : (s.setPort x).port = x := rfl
@[simp] theorem setPort_store (s : State) (x : ComposerPort) : (s.setPort x).store = s.store := rfl
@[simp] theorem setPort_link (s : State) (x : ComposerPort) : (s.setPort x).link = s.link := rfl
@[simp] theorem setPort_ord (s : State) (x : ComposerPort) : (s.setPort x).ord = s.ord := rfl
@[simp] theorem setPort_st (s : State) (x : ComposerPort) : (s.setPort x).st = s.st := rfl
@[simp] theorem setPort_resetLine (s : State) (x : ComposerPort) : (s.setPort x).resetLine = s.resetLine := rfl
@[simp] theorem setPort_draws (s : State) (x : ComposerPort) : (s.setPort x).draws = s.draws := rfl
@[simp] theorem setPort_pending (s : State) (x : ComposerPort) : (s.setPort x).pending = s.pending := rfl

@[simp] theorem setStore_aps (s : State) (x : StorePort) : (s.setStore x).aps = s.aps := rfl
@[simp] theorem setStore_map (s : State) (x : StorePort) : (s.setStore x).map = s.map := rfl
@[simp] theorem setStore_pool (s : State) (x : StorePort) : (s.setStore x).pool = s.pool := rfl
@[simp] theorem setStore_asm (s : State) (x : StorePort) : (s.setStore x).asm = s.asm := rfl
@[simp] theorem setStore_ctl (s : State) (x : StorePort) : (s.setStore x).ctl = s.ctl := rfl
@[simp] theorem setStore_enc (s : State) (x : StorePort) : (s.setStore x).enc = s.enc := rfl
@[simp] theorem setStore_rd (s : State) (x : StorePort) : (s.setStore x).rd = s.rd := rfl
@[simp] theorem setStore_port (s : State) (x : StorePort) : (s.setStore x).port = s.port := rfl
@[simp] theorem setStore_store (s : State) (x : StorePort) : (s.setStore x).store = x := rfl
@[simp] theorem setStore_link (s : State) (x : StorePort) : (s.setStore x).link = s.link := rfl
@[simp] theorem setStore_ord (s : State) (x : StorePort) : (s.setStore x).ord = s.ord := rfl
@[simp] theorem setStore_st (s : State) (x : StorePort) : (s.setStore x).st = s.st := rfl
@[simp] theorem setStore_resetLine (s : State) (x : StorePort) : (s.setStore x).resetLine = s.resetLine := rfl
@[simp] theorem setStore_draws (s : State) (x : StorePort) : (s.setStore x).draws = s.draws := rfl
@[simp] theorem setStore_pending (s : State) (x : StorePort) : (s.setStore x).pending = s.pending := rfl

@[simp] theorem setLink_aps (s : State) (x : Receiver) : (s.setLink x).aps = s.aps := rfl
@[simp] theorem setLink_map (s : State) (x : Receiver) : (s.setLink x).map = s.map := rfl
@[simp] theorem setLink_pool (s : State) (x : Receiver) : (s.setLink x).pool = s.pool := rfl
@[simp] theorem setLink_asm (s : State) (x : Receiver) : (s.setLink x).asm = s.asm := rfl
@[simp] theorem setLink_ctl (s : State) (x : Receiver) : (s.setLink x).ctl = s.ctl := rfl
@[simp] theorem setLink_enc (s : State) (x : Receiver) : (s.setLink x).enc = s.enc := rfl
@[simp] theorem setLink_rd (s : State) (x : Receiver) : (s.setLink x).rd = s.rd := rfl
@[simp] theorem setLink_port (s : State) (x : Receiver) : (s.setLink x).port = s.port := rfl
@[simp] theorem setLink_store (s : State) (x : Receiver) : (s.setLink x).store = s.store := rfl
@[simp] theorem setLink_link (s : State) (x : Receiver) : (s.setLink x).link = x := rfl
@[simp] theorem setLink_ord (s : State) (x : Receiver) : (s.setLink x).ord = s.ord := rfl
@[simp] theorem setLink_st (s : State) (x : Receiver) : (s.setLink x).st = s.st := rfl
@[simp] theorem setLink_resetLine (s : State) (x : Receiver) : (s.setLink x).resetLine = s.resetLine := rfl
@[simp] theorem setLink_draws (s : State) (x : Receiver) : (s.setLink x).draws = s.draws := rfl
@[simp] theorem setLink_pending (s : State) (x : Receiver) : (s.setLink x).pending = s.pending := rfl

@[simp] theorem setOrd_aps (s : State) (x : OrderUnit) : (s.setOrd x).aps = s.aps := rfl
@[simp] theorem setOrd_map (s : State) (x : OrderUnit) : (s.setOrd x).map = s.map := rfl
@[simp] theorem setOrd_pool (s : State) (x : OrderUnit) : (s.setOrd x).pool = s.pool := rfl
@[simp] theorem setOrd_asm (s : State) (x : OrderUnit) : (s.setOrd x).asm = s.asm := rfl
@[simp] theorem setOrd_ctl (s : State) (x : OrderUnit) : (s.setOrd x).ctl = s.ctl := rfl
@[simp] theorem setOrd_enc (s : State) (x : OrderUnit) : (s.setOrd x).enc = s.enc := rfl
@[simp] theorem setOrd_rd (s : State) (x : OrderUnit) : (s.setOrd x).rd = s.rd := rfl
@[simp] theorem setOrd_port (s : State) (x : OrderUnit) : (s.setOrd x).port = s.port := rfl
@[simp] theorem setOrd_store (s : State) (x : OrderUnit) : (s.setOrd x).store = s.store := rfl
@[simp] theorem setOrd_link (s : State) (x : OrderUnit) : (s.setOrd x).link = s.link := rfl
@[simp] theorem setOrd_ord (s : State) (x : OrderUnit) : (s.setOrd x).ord = x := rfl
@[simp] theorem setOrd_st (s : State) (x : OrderUnit) : (s.setOrd x).st = s.st := rfl
@[simp] theorem setOrd_resetLine (s : State) (x : OrderUnit) : (s.setOrd x).resetLine = s.resetLine := rfl
@[simp] theorem setOrd_draws (s : State) (x : OrderUnit) : (s.setOrd x).draws = s.draws := rfl
@[simp] theorem setOrd_pending (s : State) (x : OrderUnit) : (s.setOrd x).pending = s.pending := rfl

@[simp] theorem setSt_aps (s : State) (x : StatusUnit) : (s.setSt x).aps = s.aps := rfl
@[simp] theorem setSt_map (s : State) (x : StatusUnit) : (s.setSt x).map = s.map := rfl
@[simp] theorem setSt_pool (s : State) (x : StatusUnit) : (s.setSt x).pool = s.pool := rfl
@[simp] theorem setSt_asm (s : State) (x : StatusUnit) : (s.setSt x).asm = s.asm := rfl
@[simp] theorem setSt_ctl (s : State) (x : StatusUnit) : (s.setSt x).ctl = s.ctl := rfl
@[simp] theorem setSt_enc (s : State) (x : StatusUnit) : (s.setSt x).enc = s.enc := rfl
@[simp] theorem setSt_rd (s : State) (x : StatusUnit) : (s.setSt x).rd = s.rd := rfl
@[simp] theorem setSt_port (s : State) (x : StatusUnit) : (s.setSt x).port = s.port := rfl
@[simp] theorem setSt_store (s : State) (x : StatusUnit) : (s.setSt x).store = s.store := rfl
@[simp] theorem setSt_link (s : State) (x : StatusUnit) : (s.setSt x).link = s.link := rfl
@[simp] theorem setSt_ord (s : State) (x : StatusUnit) : (s.setSt x).ord = s.ord := rfl
@[simp] theorem setSt_st (s : State) (x : StatusUnit) : (s.setSt x).st = x := rfl
@[simp] theorem setSt_resetLine (s : State) (x : StatusUnit) : (s.setSt x).resetLine = s.resetLine := rfl
@[simp] theorem setSt_draws (s : State) (x : StatusUnit) : (s.setSt x).draws = s.draws := rfl
@[simp] theorem setSt_pending (s : State) (x : StatusUnit) : (s.setSt x).pending = s.pending := rfl

@[simp] theorem setResetLine_aps (s : State) (x : Bool) : (s.setResetLine x).aps = s.aps := rfl
@[simp] theorem setResetLine_map (s : State) (x : Bool) : (s.setResetLine x).map = s.map := rfl
@[simp] theorem setResetLine_pool (s : State) (x : Bool) : (s.setResetLine x).pool = s.pool := rfl
@[simp] theorem setResetLine_asm (s : State) (x : Bool) : (s.setResetLine x).asm = s.asm := rfl
@[simp] theorem setResetLine_ctl (s : State) (x : Bool) : (s.setResetLine x).ctl = s.ctl := rfl
@[simp] theorem setResetLine_enc (s : State) (x : Bool) : (s.setResetLine x).enc = s.enc := rfl
@[simp] theorem setResetLine_rd (s : State) (x : Bool) : (s.setResetLine x).rd = s.rd := rfl
@[simp] theorem setResetLine_port (s : State) (x : Bool) : (s.setResetLine x).port = s.port := rfl
@[simp] theorem setResetLine_store (s : State) (x : Bool) : (s.setResetLine x).store = s.store := rfl
@[simp] theorem setResetLine_link (s : State) (x : Bool) : (s.setResetLine x).link = s.link := rfl
@[simp] theorem setResetLine_ord (s : State) (x : Bool) : (s.setResetLine x).ord = s.ord := rfl
@[simp] theorem setResetLine_st (s : State) (x : Bool) : (s.setResetLine x).st = s.st := rfl
@[simp] theorem setResetLine_resetLine (s : State) (x : Bool) : (s.setResetLine x).resetLine = x := rfl
@[simp] theorem setResetLine_draws (s : State) (x : Bool) : (s.setResetLine x).draws = s.draws := rfl
@[simp] theorem setResetLine_pending (s : State) (x : Bool) : (s.setResetLine x).pending = s.pending := rfl

@[simp] theorem setDraws_aps (s : State) (x : Nat) : (s.setDraws x).aps = s.aps := rfl
@[simp] theorem setDraws_map (s : State) (x : Nat) : (s.setDraws x).map = s.map := rfl
@[simp] theorem setDraws_pool (s : State) (x : Nat) : (s.setDraws x).pool = s.pool := rfl
@[simp] theorem setDraws_asm (s : State) (x : Nat) : (s.setDraws x).asm = s.asm := rfl
@[simp] theorem setDraws_ctl (s : State) (x : Nat) : (s.setDraws x).ctl = s.ctl := rfl
@[simp] theorem setDraws_enc (s : State) (x : Nat) : (s.setDraws x).enc = s.enc := rfl
@[simp] theorem setDraws_rd (s : State) (x : Nat) : (s.setDraws x).rd = s.rd := rfl
@[simp] theorem setDraws_port (s : State) (x : Nat) : (s.setDraws x).port = s.port := rfl
@[simp] theorem setDraws_store (s : State) (x : Nat) : (s.setDraws x).store = s.store := rfl
@[simp] theorem setDraws_link (s : State) (x : Nat) : (s.setDraws x).link = s.link := rfl
@[simp] theorem setDraws_ord (s : State) (x : Nat) : (s.setDraws x).ord = s.ord := rfl
@[simp] theorem setDraws_st (s : State) (x : Nat) : (s.setDraws x).st = s.st := rfl
@[simp] theorem setDraws_resetLine (s : State) (x : Nat) : (s.setDraws x).resetLine = s.resetLine := rfl
@[simp] theorem setDraws_draws (s : State) (x : Nat) : (s.setDraws x).draws = x := rfl
@[simp] theorem setDraws_pending (s : State) (x : Nat) : (s.setDraws x).pending = s.pending := rfl

@[simp] theorem setPending_aps (s : State) (x : List Instr) : (s.setPending x).aps = s.aps := rfl
@[simp] theorem setPending_map (s : State) (x : List Instr) : (s.setPending x).map = s.map := rfl
@[simp] theorem setPending_pool (s : State) (x : List Instr) : (s.setPending x).pool = s.pool := rfl
@[simp] theorem setPending_asm (s : State) (x : List Instr) : (s.setPending x).asm = s.asm := rfl
@[simp] theorem setPending_ctl (s : State) (x : List Instr) : (s.setPending x).ctl = s.ctl := rfl
@[simp] theorem setPending_enc (s : State) (x : List Instr) : (s.setPending x).enc = s.enc := rfl
@[simp] theorem setPending_rd (s : State) (x : List Instr) : (s.setPending x).rd = s.rd := rfl
@[simp] theorem setPending_port (s : State) (x : List Instr) : (s.setPending x).port = s.port := rfl
@[simp] theorem setPending_store (s : State) (x : List Instr) : (s.setPending x).store = s.store := rfl
@[simp] theorem setPending_link (s : State) (x : List Instr) : (s.setPending x).link = s.link := rfl
@[simp] theorem setPending_ord (s : State) (x : List Instr) : (s.setPending x).ord = s.ord := rfl
@[simp] theorem setPending_st (s : State) (x : List Instr) : (s.setPending x).st = s.st := rfl
@[simp] theorem setPending_resetLine (s : State) (x : List Instr) : (s.setPending x).resetLine = s.resetLine := rfl
@[simp] theorem setPending_draws (s : State) (x : List Instr) : (s.setPending x).draws = s.draws := rfl
@[simp] theorem setPending_pending (s : State) (x : List Instr) : (s.setPending x).pending = x := rfl

/-! ### Reported values replaced: the blocks left alone -/

@[simp] theorem markIf_aps (s : State) (b : Bool) : (s.markIf b).aps = s.aps := rfl
@[simp] theorem markIf_map (s : State) (b : Bool) : (s.markIf b).map = s.map := rfl
@[simp] theorem markIf_pool (s : State) (b : Bool) : (s.markIf b).pool = s.pool := rfl
@[simp] theorem markIf_asm (s : State) (b : Bool) : (s.markIf b).asm = s.asm := rfl
@[simp] theorem markIf_ctl (s : State) (b : Bool) : (s.markIf b).ctl = s.ctl := rfl
@[simp] theorem markIf_enc (s : State) (b : Bool) : (s.markIf b).enc = s.enc := rfl
@[simp] theorem markIf_rd (s : State) (b : Bool) : (s.markIf b).rd = s.rd := rfl
@[simp] theorem markIf_port (s : State) (b : Bool) : (s.markIf b).port = s.port := rfl
@[simp] theorem markIf_store (s : State) (b : Bool) : (s.markIf b).store = s.store := rfl
@[simp] theorem markIf_link (s : State) (b : Bool) : (s.markIf b).link = s.link := rfl
@[simp] theorem markIf_ord (s : State) (b : Bool) : (s.markIf b).ord = s.ord := rfl
@[simp] theorem markIf_resetLine (s : State) (b : Bool) : (s.markIf b).resetLine = s.resetLine := rfl
@[simp] theorem markIf_draws (s : State) (b : Bool) : (s.markIf b).draws = s.draws := rfl
@[simp] theorem markIf_pending (s : State) (b : Bool) : (s.markIf b).pending = s.pending := rfl
@[simp] theorem markIf_st_faults (s : State) (b : Bool) : (s.markIf b).st.faults = s.st.faults := rfl
@[simp] theorem markIf_st_mask (s : State) (b : Bool) : (s.markIf b).st.mask = s.st.mask := rfl
@[simp] theorem markIf_st_attn (s : State) (b : Bool) : (s.markIf b).st.attn = s.st.attn := rfl
@[simp] theorem markIf_st_addr (s : State) (b : Bool) : (s.markIf b).st.addr = s.st.addr := rfl
@[simp] theorem markIf_st_enable (s : State) (b : Bool) : (s.markIf b).st.enable = s.st.enable := rfl
@[simp] theorem markIf_st_inFlight (s : State) (b : Bool) : (s.markIf b).st.inFlight = s.st.inFlight := rfl
@[simp] theorem markIf_st_reissue (s : State) (b : Bool) : (s.markIf b).st.reissue = s.st.reissue := rfl

@[simp] theorem markStale_aps (s : State) : (s.markStale).aps = s.aps := rfl
@[simp] theorem markStale_map (s : State) : (s.markStale).map = s.map := rfl
@[simp] theorem markStale_pool (s : State) : (s.markStale).pool = s.pool := rfl
@[simp] theorem markStale_asm (s : State) : (s.markStale).asm = s.asm := rfl
@[simp] theorem markStale_ctl (s : State) : (s.markStale).ctl = s.ctl := rfl
@[simp] theorem markStale_enc (s : State) : (s.markStale).enc = s.enc := rfl
@[simp] theorem markStale_rd (s : State) : (s.markStale).rd = s.rd := rfl
@[simp] theorem markStale_port (s : State) : (s.markStale).port = s.port := rfl
@[simp] theorem markStale_store (s : State) : (s.markStale).store = s.store := rfl
@[simp] theorem markStale_link (s : State) : (s.markStale).link = s.link := rfl
@[simp] theorem markStale_ord (s : State) : (s.markStale).ord = s.ord := rfl
@[simp] theorem markStale_resetLine (s : State) : (s.markStale).resetLine = s.resetLine := rfl
@[simp] theorem markStale_draws (s : State) : (s.markStale).draws = s.draws := rfl
@[simp] theorem markStale_pending (s : State) : (s.markStale).pending = s.pending := rfl
@[simp] theorem markStale_st_faults (s : State) : (s.markStale).st.faults = s.st.faults := rfl
@[simp] theorem markStale_st_mask (s : State) : (s.markStale).st.mask = s.st.mask := rfl
@[simp] theorem markStale_st_attn (s : State) : (s.markStale).st.attn = s.st.attn := rfl
@[simp] theorem markStale_st_addr (s : State) : (s.markStale).st.addr = s.st.addr := rfl
@[simp] theorem markStale_st_enable (s : State) : (s.markStale).st.enable = s.st.enable := rfl
@[simp] theorem markStale_st_inFlight (s : State) : (s.markStale).st.inFlight = s.st.inFlight := rfl
@[simp] theorem markStale_st_reissue (s : State) : (s.markStale).st.reissue = s.st.reissue := rfl

@[simp] theorem putFaults_aps (s : State) (f : Byte) : (s.putFaults f).aps = s.aps := rfl
@[simp] theorem putFaults_map (s : State) (f : Byte) : (s.putFaults f).map = s.map := rfl
@[simp] theorem putFaults_pool (s : State) (f : Byte) : (s.putFaults f).pool = s.pool := rfl
@[simp] theorem putFaults_asm (s : State) (f : Byte) : (s.putFaults f).asm = s.asm := rfl
@[simp] theorem putFaults_ctl (s : State) (f : Byte) : (s.putFaults f).ctl = s.ctl := rfl
@[simp] theorem putFaults_enc (s : State) (f : Byte) : (s.putFaults f).enc = s.enc := rfl
@[simp] theorem putFaults_rd (s : State) (f : Byte) : (s.putFaults f).rd = s.rd := rfl
@[simp] theorem putFaults_port (s : State) (f : Byte) : (s.putFaults f).port = s.port := rfl
@[simp] theorem putFaults_store (s : State) (f : Byte) : (s.putFaults f).store = s.store := rfl
@[simp] theorem putFaults_link (s : State) (f : Byte) : (s.putFaults f).link = s.link := rfl
@[simp] theorem putFaults_ord (s : State) (f : Byte) : (s.putFaults f).ord = s.ord := rfl
@[simp] theorem putFaults_resetLine (s : State) (f : Byte) : (s.putFaults f).resetLine = s.resetLine := rfl
@[simp] theorem putFaults_draws (s : State) (f : Byte) : (s.putFaults f).draws = s.draws := rfl
@[simp] theorem putFaults_pending (s : State) (f : Byte) : (s.putFaults f).pending = s.pending := rfl
@[simp] theorem putFaults_st_mask (s : State) (f : Byte) : (s.putFaults f).st.mask = s.st.mask := rfl
@[simp] theorem putFaults_st_addr (s : State) (f : Byte) : (s.putFaults f).st.addr = s.st.addr := rfl
@[simp] theorem putFaults_st_enable (s : State) (f : Byte) : (s.putFaults f).st.enable = s.st.enable := rfl
@[simp] theorem putFaults_st_inFlight (s : State) (f : Byte) : (s.putFaults f).st.inFlight = s.st.inFlight := rfl
@[simp] theorem putFaults_st_reissue (s : State) (f : Byte) : (s.putFaults f).st.reissue = s.st.reissue := rfl

@[simp] theorem raise_aps (s : State) (k : FaultKind) : (s.raise k).aps = s.aps := rfl
@[simp] theorem raise_map (s : State) (k : FaultKind) : (s.raise k).map = s.map := rfl
@[simp] theorem raise_pool (s : State) (k : FaultKind) : (s.raise k).pool = s.pool := rfl
@[simp] theorem raise_asm (s : State) (k : FaultKind) : (s.raise k).asm = s.asm := rfl
@[simp] theorem raise_ctl (s : State) (k : FaultKind) : (s.raise k).ctl = s.ctl := rfl
@[simp] theorem raise_enc (s : State) (k : FaultKind) : (s.raise k).enc = s.enc := rfl
@[simp] theorem raise_rd (s : State) (k : FaultKind) : (s.raise k).rd = s.rd := rfl
@[simp] theorem raise_port (s : State) (k : FaultKind) : (s.raise k).port = s.port := rfl
@[simp] theorem raise_store (s : State) (k : FaultKind) : (s.raise k).store = s.store := rfl
@[simp] theorem raise_link (s : State) (k : FaultKind) : (s.raise k).link = s.link := rfl
@[simp] theorem raise_ord (s : State) (k : FaultKind) : (s.raise k).ord = s.ord := rfl
@[simp] theorem raise_resetLine (s : State) (k : FaultKind) : (s.raise k).resetLine = s.resetLine := rfl
@[simp] theorem raise_draws (s : State) (k : FaultKind) : (s.raise k).draws = s.draws := rfl
@[simp] theorem raise_pending (s : State) (k : FaultKind) : (s.raise k).pending = s.pending := rfl
@[simp] theorem raise_st_mask (s : State) (k : FaultKind) : (s.raise k).st.mask = s.st.mask := rfl
@[simp] theorem raise_st_addr (s : State) (k : FaultKind) : (s.raise k).st.addr = s.st.addr := rfl
@[simp] theorem raise_st_enable (s : State) (k : FaultKind) : (s.raise k).st.enable = s.st.enable := rfl
@[simp] theorem raise_st_inFlight (s : State) (k : FaultKind) : (s.raise k).st.inFlight = s.st.inFlight := rfl
@[simp] theorem raise_st_reissue (s : State) (k : FaultKind) : (s.raise k).st.reissue = s.st.reissue := rfl

@[simp] theorem raiseQuietly_aps (s : State) (k : FaultKind) : (s.raiseQuietly k).aps = s.aps := rfl
@[simp] theorem raiseQuietly_map (s : State) (k : FaultKind) : (s.raiseQuietly k).map = s.map := rfl
@[simp] theorem raiseQuietly_pool (s : State) (k : FaultKind) : (s.raiseQuietly k).pool = s.pool := rfl
@[simp] theorem raiseQuietly_asm (s : State) (k : FaultKind) : (s.raiseQuietly k).asm = s.asm := rfl
@[simp] theorem raiseQuietly_ctl (s : State) (k : FaultKind) : (s.raiseQuietly k).ctl = s.ctl := rfl
@[simp] theorem raiseQuietly_enc (s : State) (k : FaultKind) : (s.raiseQuietly k).enc = s.enc := rfl
@[simp] theorem raiseQuietly_rd (s : State) (k : FaultKind) : (s.raiseQuietly k).rd = s.rd := rfl
@[simp] theorem raiseQuietly_port (s : State) (k : FaultKind) : (s.raiseQuietly k).port = s.port := rfl
@[simp] theorem raiseQuietly_store (s : State) (k : FaultKind) : (s.raiseQuietly k).store = s.store := rfl
@[simp] theorem raiseQuietly_link (s : State) (k : FaultKind) : (s.raiseQuietly k).link = s.link := rfl
@[simp] theorem raiseQuietly_ord (s : State) (k : FaultKind) : (s.raiseQuietly k).ord = s.ord := rfl
@[simp] theorem raiseQuietly_resetLine (s : State) (k : FaultKind) : (s.raiseQuietly k).resetLine = s.resetLine := rfl
@[simp] theorem raiseQuietly_draws (s : State) (k : FaultKind) : (s.raiseQuietly k).draws = s.draws := rfl
@[simp] theorem raiseQuietly_pending (s : State) (k : FaultKind) : (s.raiseQuietly k).pending = s.pending := rfl
@[simp] theorem raiseQuietly_st_mask (s : State) (k : FaultKind) : (s.raiseQuietly k).st.mask = s.st.mask := rfl
@[simp] theorem raiseQuietly_st_addr (s : State) (k : FaultKind) : (s.raiseQuietly k).st.addr = s.st.addr := rfl
@[simp] theorem raiseQuietly_st_enable (s : State) (k : FaultKind) : (s.raiseQuietly k).st.enable = s.st.enable := rfl
@[simp] theorem raiseQuietly_st_inFlight (s : State) (k : FaultKind) : (s.raiseQuietly k).st.inFlight = s.st.inFlight := rfl
@[simp] theorem raiseQuietly_st_stale (s : State) (k : FaultKind) : (s.raiseQuietly k).st.stale = s.st.stale := rfl
@[simp] theorem raiseQuietly_st_reissue (s : State) (k : FaultKind) : (s.raiseQuietly k).st.reissue = s.st.reissue := rfl

@[simp] theorem evalPool_aps (s : State) : (s.evalPool).aps = s.aps := rfl
@[simp] theorem evalPool_map (s : State) : (s.evalPool).map = s.map := rfl
@[simp] theorem evalPool_pool (s : State) : (s.evalPool).pool = s.pool := rfl
@[simp] theorem evalPool_asm (s : State) : (s.evalPool).asm = s.asm := rfl
@[simp] theorem evalPool_enc (s : State) : (s.evalPool).enc = s.enc := rfl
@[simp] theorem evalPool_rd (s : State) : (s.evalPool).rd = s.rd := rfl
@[simp] theorem evalPool_port (s : State) : (s.evalPool).port = s.port := rfl
@[simp] theorem evalPool_store (s : State) : (s.evalPool).store = s.store := rfl
@[simp] theorem evalPool_link (s : State) : (s.evalPool).link = s.link := rfl
@[simp] theorem evalPool_ord (s : State) : (s.evalPool).ord = s.ord := rfl
@[simp] theorem evalPool_resetLine (s : State) : (s.evalPool).resetLine = s.resetLine := rfl
@[simp] theorem evalPool_draws (s : State) : (s.evalPool).draws = s.draws := rfl
@[simp] theorem evalPool_pending (s : State) : (s.evalPool).pending = s.pending := rfl
@[simp] theorem evalPool_st_mask (s : State) : (s.evalPool).st.mask = s.st.mask := rfl
@[simp] theorem evalPool_st_addr (s : State) : (s.evalPool).st.addr = s.st.addr := rfl
@[simp] theorem evalPool_st_enable (s : State) : (s.evalPool).st.enable = s.st.enable := rfl
@[simp] theorem evalPool_st_inFlight (s : State) : (s.evalPool).st.inFlight = s.st.inFlight := rfl
@[simp] theorem evalPool_st_reissue (s : State) : (s.evalPool).st.reissue = s.st.reissue := rfl

@[simp] theorem putPool_aps (s : State) (p : Pool) : (s.putPool p).aps = s.aps := rfl
@[simp] theorem putPool_map (s : State) (p : Pool) : (s.putPool p).map = s.map := rfl
@[simp] theorem putPool_asm (s : State) (p : Pool) : (s.putPool p).asm = s.asm := rfl
@[simp] theorem putPool_enc (s : State) (p : Pool) : (s.putPool p).enc = s.enc := rfl
@[simp] theorem putPool_rd (s : State) (p : Pool) : (s.putPool p).rd = s.rd := rfl
@[simp] theorem putPool_port (s : State) (p : Pool) : (s.putPool p).port = s.port := rfl
@[simp] theorem putPool_store (s : State) (p : Pool) : (s.putPool p).store = s.store := rfl
@[simp] theorem putPool_link (s : State) (p : Pool) : (s.putPool p).link = s.link := rfl
@[simp] theorem putPool_ord (s : State) (p : Pool) : (s.putPool p).ord = s.ord := rfl
@[simp] theorem putPool_resetLine (s : State) (p : Pool) : (s.putPool p).resetLine = s.resetLine := rfl
@[simp] theorem putPool_draws (s : State) (p : Pool) : (s.putPool p).draws = s.draws := rfl
@[simp] theorem putPool_pending (s : State) (p : Pool) : (s.putPool p).pending = s.pending := rfl
@[simp] theorem putPool_st_mask (s : State) (p : Pool) : (s.putPool p).st.mask = s.st.mask := rfl
@[simp] theorem putPool_st_addr (s : State) (p : Pool) : (s.putPool p).st.addr = s.st.addr := rfl
@[simp] theorem putPool_st_enable (s : State) (p : Pool) : (s.putPool p).st.enable = s.st.enable := rfl
@[simp] theorem putPool_st_inFlight (s : State) (p : Pool) : (s.putPool p).st.inFlight = s.st.inFlight := rfl
@[simp] theorem putPool_st_reissue (s : State) (p : Pool) : (s.putPool p).st.reissue = s.st.reissue := rfl

@[simp] theorem putAp_map (s : State) (a : ApIx) (x : Aperture) : (s.putAp a x).map = s.map := rfl
@[simp] theorem putAp_pool (s : State) (a : ApIx) (x : Aperture) : (s.putAp a x).pool = s.pool := rfl
@[simp] theorem putAp_asm (s : State) (a : ApIx) (x : Aperture) : (s.putAp a x).asm = s.asm := rfl
@[simp] theorem putAp_ctl (s : State) (a : ApIx) (x : Aperture) : (s.putAp a x).ctl = s.ctl := rfl
@[simp] theorem putAp_enc (s : State) (a : ApIx) (x : Aperture) : (s.putAp a x).enc = s.enc := rfl
@[simp] theorem putAp_rd (s : State) (a : ApIx) (x : Aperture) : (s.putAp a x).rd = s.rd := rfl
@[simp] theorem putAp_port (s : State) (a : ApIx) (x : Aperture) : (s.putAp a x).port = s.port := rfl
@[simp] theorem putAp_store (s : State) (a : ApIx) (x : Aperture) : (s.putAp a x).store = s.store := rfl
@[simp] theorem putAp_link (s : State) (a : ApIx) (x : Aperture) : (s.putAp a x).link = s.link := rfl
@[simp] theorem putAp_ord (s : State) (a : ApIx) (x : Aperture) : (s.putAp a x).ord = s.ord := rfl
@[simp] theorem putAp_resetLine (s : State) (a : ApIx) (x : Aperture) : (s.putAp a x).resetLine = s.resetLine := rfl
@[simp] theorem putAp_draws (s : State) (a : ApIx) (x : Aperture) : (s.putAp a x).draws = s.draws := rfl
@[simp] theorem putAp_pending (s : State) (a : ApIx) (x : Aperture) : (s.putAp a x).pending = s.pending := rfl
@[simp] theorem putAp_st_faults (s : State) (a : ApIx) (x : Aperture) : (s.putAp a x).st.faults = s.st.faults := rfl
@[simp] theorem putAp_st_mask (s : State) (a : ApIx) (x : Aperture) : (s.putAp a x).st.mask = s.st.mask := rfl
@[simp] theorem putAp_st_attn (s : State) (a : ApIx) (x : Aperture) : (s.putAp a x).st.attn = s.st.attn := rfl
@[simp] theorem putAp_st_addr (s : State) (a : ApIx) (x : Aperture) : (s.putAp a x).st.addr = s.st.addr := rfl
@[simp] theorem putAp_st_enable (s : State) (a : ApIx) (x : Aperture) : (s.putAp a x).st.enable = s.st.enable := rfl
@[simp] theorem putAp_st_inFlight (s : State) (a : ApIx) (x : Aperture) : (s.putAp a x).st.inFlight = s.st.inFlight := rfl
@[simp] theorem putAp_st_reissue (s : State) (a : ApIx) (x : Aperture) : (s.putAp a x).st.reissue = s.st.reissue := rfl

@[simp] theorem putSlot_aps (s : State) (k : SlotIx) (x : Slot) : (s.putSlot k x).aps = s.aps := rfl
@[simp] theorem putSlot_map (s : State) (k : SlotIx) (x : Slot) : (s.putSlot k x).map = s.map := rfl
@[simp] theorem putSlot_pool (s : State) (k : SlotIx) (x : Slot) : (s.putSlot k x).pool = s.pool := rfl
@[simp] theorem putSlot_ctl (s : State) (k : SlotIx) (x : Slot) : (s.putSlot k x).ctl = s.ctl := rfl
@[simp] theorem putSlot_enc (s : State) (k : SlotIx) (x : Slot) : (s.putSlot k x).enc = s.enc := rfl
@[simp] theorem putSlot_rd (s : State) (k : SlotIx) (x : Slot) : (s.putSlot k x).rd = s.rd := rfl
@[simp] theorem putSlot_port (s : State) (k : SlotIx) (x : Slot) : (s.putSlot k x).port = s.port := rfl
@[simp] theorem putSlot_store (s : State) (k : SlotIx) (x : Slot) : (s.putSlot k x).store = s.store := rfl
@[simp] theorem putSlot_link (s : State) (k : SlotIx) (x : Slot) : (s.putSlot k x).link = s.link := rfl
@[simp] theorem putSlot_ord (s : State) (k : SlotIx) (x : Slot) : (s.putSlot k x).ord = s.ord := rfl
@[simp] theorem putSlot_resetLine (s : State) (k : SlotIx) (x : Slot) : (s.putSlot k x).resetLine = s.resetLine := rfl
@[simp] theorem putSlot_draws (s : State) (k : SlotIx) (x : Slot) : (s.putSlot k x).draws = s.draws := rfl
@[simp] theorem putSlot_pending (s : State) (k : SlotIx) (x : Slot) : (s.putSlot k x).pending = s.pending := rfl
@[simp] theorem putSlot_st_faults (s : State) (k : SlotIx) (x : Slot) : (s.putSlot k x).st.faults = s.st.faults := rfl
@[simp] theorem putSlot_st_mask (s : State) (k : SlotIx) (x : Slot) : (s.putSlot k x).st.mask = s.st.mask := rfl
@[simp] theorem putSlot_st_attn (s : State) (k : SlotIx) (x : Slot) : (s.putSlot k x).st.attn = s.st.attn := rfl
@[simp] theorem putSlot_st_addr (s : State) (k : SlotIx) (x : Slot) : (s.putSlot k x).st.addr = s.st.addr := rfl
@[simp] theorem putSlot_st_enable (s : State) (k : SlotIx) (x : Slot) : (s.putSlot k x).st.enable = s.st.enable := rfl
@[simp] theorem putSlot_st_inFlight (s : State) (k : SlotIx) (x : Slot) : (s.putSlot k x).st.inFlight = s.st.inFlight := rfl
@[simp] theorem putSlot_st_reissue (s : State) (k : SlotIx) (x : Slot) : (s.putSlot k x).st.reissue = s.st.reissue := rfl

@[simp] theorem putOpenList_aps (s : State) (l : List SlotIx) : (s.putOpenList l).aps = s.aps := rfl
@[simp] theorem putOpenList_map (s : State) (l : List SlotIx) : (s.putOpenList l).map = s.map := rfl
@[simp] theorem putOpenList_pool (s : State) (l : List SlotIx) : (s.putOpenList l).pool = s.pool := rfl
@[simp] theorem putOpenList_ctl (s : State) (l : List SlotIx) : (s.putOpenList l).ctl = s.ctl := rfl
@[simp] theorem putOpenList_enc (s : State) (l : List SlotIx) : (s.putOpenList l).enc = s.enc := rfl
@[simp] theorem putOpenList_rd (s : State) (l : List SlotIx) : (s.putOpenList l).rd = s.rd := rfl
@[simp] theorem putOpenList_port (s : State) (l : List SlotIx) : (s.putOpenList l).port = s.port := rfl
@[simp] theorem putOpenList_store (s : State) (l : List SlotIx) : (s.putOpenList l).store = s.store := rfl
@[simp] theorem putOpenList_link (s : State) (l : List SlotIx) : (s.putOpenList l).link = s.link := rfl
@[simp] theorem putOpenList_ord (s : State) (l : List SlotIx) : (s.putOpenList l).ord = s.ord := rfl
@[simp] theorem putOpenList_st (s : State) (l : List SlotIx) : (s.putOpenList l).st = s.st := rfl
@[simp] theorem putOpenList_resetLine (s : State) (l : List SlotIx) : (s.putOpenList l).resetLine = s.resetLine := rfl
@[simp] theorem putOpenList_draws (s : State) (l : List SlotIx) : (s.putOpenList l).draws = s.draws := rfl
@[simp] theorem putOpenList_pending (s : State) (l : List SlotIx) : (s.putOpenList l).pending = s.pending := rfl

@[simp] theorem putSealQueue_aps (s : State) (l : List SlotIx) : (s.putSealQueue l).aps = s.aps := rfl
@[simp] theorem putSealQueue_map (s : State) (l : List SlotIx) : (s.putSealQueue l).map = s.map := rfl
@[simp] theorem putSealQueue_pool (s : State) (l : List SlotIx) : (s.putSealQueue l).pool = s.pool := rfl
@[simp] theorem putSealQueue_ctl (s : State) (l : List SlotIx) : (s.putSealQueue l).ctl = s.ctl := rfl
@[simp] theorem putSealQueue_enc (s : State) (l : List SlotIx) : (s.putSealQueue l).enc = s.enc := rfl
@[simp] theorem putSealQueue_rd (s : State) (l : List SlotIx) : (s.putSealQueue l).rd = s.rd := rfl
@[simp] theorem putSealQueue_port (s : State) (l : List SlotIx) : (s.putSealQueue l).port = s.port := rfl
@[simp] theorem putSealQueue_store (s : State) (l : List SlotIx) : (s.putSealQueue l).store = s.store := rfl
@[simp] theorem putSealQueue_link (s : State) (l : List SlotIx) : (s.putSealQueue l).link = s.link := rfl
@[simp] theorem putSealQueue_ord (s : State) (l : List SlotIx) : (s.putSealQueue l).ord = s.ord := rfl
@[simp] theorem putSealQueue_resetLine (s : State) (l : List SlotIx) : (s.putSealQueue l).resetLine = s.resetLine := rfl
@[simp] theorem putSealQueue_draws (s : State) (l : List SlotIx) : (s.putSealQueue l).draws = s.draws := rfl
@[simp] theorem putSealQueue_pending (s : State) (l : List SlotIx) : (s.putSealQueue l).pending = s.pending := rfl
@[simp] theorem putSealQueue_st_faults (s : State) (l : List SlotIx) : (s.putSealQueue l).st.faults = s.st.faults := rfl
@[simp] theorem putSealQueue_st_mask (s : State) (l : List SlotIx) : (s.putSealQueue l).st.mask = s.st.mask := rfl
@[simp] theorem putSealQueue_st_attn (s : State) (l : List SlotIx) : (s.putSealQueue l).st.attn = s.st.attn := rfl
@[simp] theorem putSealQueue_st_addr (s : State) (l : List SlotIx) : (s.putSealQueue l).st.addr = s.st.addr := rfl
@[simp] theorem putSealQueue_st_enable (s : State) (l : List SlotIx) : (s.putSealQueue l).st.enable = s.st.enable := rfl
@[simp] theorem putSealQueue_st_inFlight (s : State) (l : List SlotIx) : (s.putSealQueue l).st.inFlight = s.st.inFlight := rfl
@[simp] theorem putSealQueue_st_reissue (s : State) (l : List SlotIx) : (s.putSealQueue l).st.reissue = s.st.reissue := rfl

@[simp] theorem putHeld_aps (s : State) (l : List HeldWrite) : (s.putHeld l).aps = s.aps := rfl
@[simp] theorem putHeld_map (s : State) (l : List HeldWrite) : (s.putHeld l).map = s.map := rfl
@[simp] theorem putHeld_pool (s : State) (l : List HeldWrite) : (s.putHeld l).pool = s.pool := rfl
@[simp] theorem putHeld_ctl (s : State) (l : List HeldWrite) : (s.putHeld l).ctl = s.ctl := rfl
@[simp] theorem putHeld_enc (s : State) (l : List HeldWrite) : (s.putHeld l).enc = s.enc := rfl
@[simp] theorem putHeld_rd (s : State) (l : List HeldWrite) : (s.putHeld l).rd = s.rd := rfl
@[simp] theorem putHeld_port (s : State) (l : List HeldWrite) : (s.putHeld l).port = s.port := rfl
@[simp] theorem putHeld_store (s : State) (l : List HeldWrite) : (s.putHeld l).store = s.store := rfl
@[simp] theorem putHeld_link (s : State) (l : List HeldWrite) : (s.putHeld l).link = s.link := rfl
@[simp] theorem putHeld_ord (s : State) (l : List HeldWrite) : (s.putHeld l).ord = s.ord := rfl
@[simp] theorem putHeld_resetLine (s : State) (l : List HeldWrite) : (s.putHeld l).resetLine = s.resetLine := rfl
@[simp] theorem putHeld_draws (s : State) (l : List HeldWrite) : (s.putHeld l).draws = s.draws := rfl
@[simp] theorem putHeld_pending (s : State) (l : List HeldWrite) : (s.putHeld l).pending = s.pending := rfl
@[simp] theorem putHeld_st_faults (s : State) (l : List HeldWrite) : (s.putHeld l).st.faults = s.st.faults := rfl
@[simp] theorem putHeld_st_mask (s : State) (l : List HeldWrite) : (s.putHeld l).st.mask = s.st.mask := rfl
@[simp] theorem putHeld_st_attn (s : State) (l : List HeldWrite) : (s.putHeld l).st.attn = s.st.attn := rfl
@[simp] theorem putHeld_st_addr (s : State) (l : List HeldWrite) : (s.putHeld l).st.addr = s.st.addr := rfl
@[simp] theorem putHeld_st_enable (s : State) (l : List HeldWrite) : (s.putHeld l).st.enable = s.st.enable := rfl
@[simp] theorem putHeld_st_inFlight (s : State) (l : List HeldWrite) : (s.putHeld l).st.inFlight = s.st.inFlight := rfl
@[simp] theorem putHeld_st_reissue (s : State) (l : List HeldWrite) : (s.putHeld l).st.reissue = s.st.reissue := rfl

@[simp] theorem putEnc_aps (s : State) (e : Encoder) : (s.putEnc e).aps = s.aps := rfl
@[simp] theorem putEnc_map (s : State) (e : Encoder) : (s.putEnc e).map = s.map := rfl
@[simp] theorem putEnc_pool (s : State) (e : Encoder) : (s.putEnc e).pool = s.pool := rfl
@[simp] theorem putEnc_asm (s : State) (e : Encoder) : (s.putEnc e).asm = s.asm := rfl
@[simp] theorem putEnc_ctl (s : State) (e : Encoder) : (s.putEnc e).ctl = s.ctl := rfl
@[simp] theorem putEnc_rd (s : State) (e : Encoder) : (s.putEnc e).rd = s.rd := rfl
@[simp] theorem putEnc_port (s : State) (e : Encoder) : (s.putEnc e).port = s.port := rfl
@[simp] theorem putEnc_store (s : State) (e : Encoder) : (s.putEnc e).store = s.store := rfl
@[simp] theorem putEnc_link (s : State) (e : Encoder) : (s.putEnc e).link = s.link := rfl
@[simp] theorem putEnc_ord (s : State) (e : Encoder) : (s.putEnc e).ord = s.ord := rfl
@[simp] theorem putEnc_resetLine (s : State) (e : Encoder) : (s.putEnc e).resetLine = s.resetLine := rfl
@[simp] theorem putEnc_draws (s : State) (e : Encoder) : (s.putEnc e).draws = s.draws := rfl
@[simp] theorem putEnc_pending (s : State) (e : Encoder) : (s.putEnc e).pending = s.pending := rfl
@[simp] theorem putEnc_st_faults (s : State) (e : Encoder) : (s.putEnc e).st.faults = s.st.faults := rfl
@[simp] theorem putEnc_st_mask (s : State) (e : Encoder) : (s.putEnc e).st.mask = s.st.mask := rfl
@[simp] theorem putEnc_st_attn (s : State) (e : Encoder) : (s.putEnc e).st.attn = s.st.attn := rfl
@[simp] theorem putEnc_st_addr (s : State) (e : Encoder) : (s.putEnc e).st.addr = s.st.addr := rfl
@[simp] theorem putEnc_st_enable (s : State) (e : Encoder) : (s.putEnc e).st.enable = s.st.enable := rfl
@[simp] theorem putEnc_st_inFlight (s : State) (e : Encoder) : (s.putEnc e).st.inFlight = s.st.inFlight := rfl
@[simp] theorem putEnc_st_reissue (s : State) (e : Encoder) : (s.putEnc e).st.reissue = s.st.reissue := rfl

@[simp] theorem putQueue_aps (s : State) (l : List DecodeEntry) : (s.putQueue l).aps = s.aps := rfl
@[simp] theorem putQueue_map (s : State) (l : List DecodeEntry) : (s.putQueue l).map = s.map := rfl
@[simp] theorem putQueue_pool (s : State) (l : List DecodeEntry) : (s.putQueue l).pool = s.pool := rfl
@[simp] theorem putQueue_asm (s : State) (l : List DecodeEntry) : (s.putQueue l).asm = s.asm := rfl
@[simp] theorem putQueue_ctl (s : State) (l : List DecodeEntry) : (s.putQueue l).ctl = s.ctl := rfl
@[simp] theorem putQueue_enc (s : State) (l : List DecodeEntry) : (s.putQueue l).enc = s.enc := rfl
@[simp] theorem putQueue_port (s : State) (l : List DecodeEntry) : (s.putQueue l).port = s.port := rfl
@[simp] theorem putQueue_store (s : State) (l : List DecodeEntry) : (s.putQueue l).store = s.store := rfl
@[simp] theorem putQueue_link (s : State) (l : List DecodeEntry) : (s.putQueue l).link = s.link := rfl
@[simp] theorem putQueue_ord (s : State) (l : List DecodeEntry) : (s.putQueue l).ord = s.ord := rfl
@[simp] theorem putQueue_resetLine (s : State) (l : List DecodeEntry) : (s.putQueue l).resetLine = s.resetLine := rfl
@[simp] theorem putQueue_draws (s : State) (l : List DecodeEntry) : (s.putQueue l).draws = s.draws := rfl
@[simp] theorem putQueue_pending (s : State) (l : List DecodeEntry) : (s.putQueue l).pending = s.pending := rfl
@[simp] theorem putQueue_st_faults (s : State) (l : List DecodeEntry) : (s.putQueue l).st.faults = s.st.faults := rfl
@[simp] theorem putQueue_st_mask (s : State) (l : List DecodeEntry) : (s.putQueue l).st.mask = s.st.mask := rfl
@[simp] theorem putQueue_st_attn (s : State) (l : List DecodeEntry) : (s.putQueue l).st.attn = s.st.attn := rfl
@[simp] theorem putQueue_st_addr (s : State) (l : List DecodeEntry) : (s.putQueue l).st.addr = s.st.addr := rfl
@[simp] theorem putQueue_st_enable (s : State) (l : List DecodeEntry) : (s.putQueue l).st.enable = s.st.enable := rfl
@[simp] theorem putQueue_st_inFlight (s : State) (l : List DecodeEntry) : (s.putQueue l).st.inFlight = s.st.inFlight := rfl
@[simp] theorem putQueue_st_reissue (s : State) (l : List DecodeEntry) : (s.putQueue l).st.reissue = s.st.reissue := rfl

@[simp] theorem putCache_aps (s : State) (l : List CacheEntry) : (s.putCache l).aps = s.aps := rfl
@[simp] theorem putCache_map (s : State) (l : List CacheEntry) : (s.putCache l).map = s.map := rfl
@[simp] theorem putCache_pool (s : State) (l : List CacheEntry) : (s.putCache l).pool = s.pool := rfl
@[simp] theorem putCache_asm (s : State) (l : List CacheEntry) : (s.putCache l).asm = s.asm := rfl
@[simp] theorem putCache_ctl (s : State) (l : List CacheEntry) : (s.putCache l).ctl = s.ctl := rfl
@[simp] theorem putCache_enc (s : State) (l : List CacheEntry) : (s.putCache l).enc = s.enc := rfl
@[simp] theorem putCache_port (s : State) (l : List CacheEntry) : (s.putCache l).port = s.port := rfl
@[simp] theorem putCache_store (s : State) (l : List CacheEntry) : (s.putCache l).store = s.store := rfl
@[simp] theorem putCache_link (s : State) (l : List CacheEntry) : (s.putCache l).link = s.link := rfl
@[simp] theorem putCache_ord (s : State) (l : List CacheEntry) : (s.putCache l).ord = s.ord := rfl
@[simp] theorem putCache_resetLine (s : State) (l : List CacheEntry) : (s.putCache l).resetLine = s.resetLine := rfl
@[simp] theorem putCache_draws (s : State) (l : List CacheEntry) : (s.putCache l).draws = s.draws := rfl
@[simp] theorem putCache_pending (s : State) (l : List CacheEntry) : (s.putCache l).pending = s.pending := rfl
@[simp] theorem putCache_st_faults (s : State) (l : List CacheEntry) : (s.putCache l).st.faults = s.st.faults := rfl
@[simp] theorem putCache_st_mask (s : State) (l : List CacheEntry) : (s.putCache l).st.mask = s.st.mask := rfl
@[simp] theorem putCache_st_attn (s : State) (l : List CacheEntry) : (s.putCache l).st.attn = s.st.attn := rfl
@[simp] theorem putCache_st_addr (s : State) (l : List CacheEntry) : (s.putCache l).st.addr = s.st.addr := rfl
@[simp] theorem putCache_st_enable (s : State) (l : List CacheEntry) : (s.putCache l).st.enable = s.st.enable := rfl
@[simp] theorem putCache_st_inFlight (s : State) (l : List CacheEntry) : (s.putCache l).st.inFlight = s.st.inFlight := rfl
@[simp] theorem putCache_st_reissue (s : State) (l : List CacheEntry) : (s.putCache l).st.reissue = s.st.reissue := rfl

@[simp] theorem putWindow_aps (s : State) (l : List Request) : (s.putWindow l).aps = s.aps := rfl
@[simp] theorem putWindow_map (s : State) (l : List Request) : (s.putWindow l).map = s.map := rfl
@[simp] theorem putWindow_pool (s : State) (l : List Request) : (s.putWindow l).pool = s.pool := rfl
@[simp] theorem putWindow_asm (s : State) (l : List Request) : (s.putWindow l).asm = s.asm := rfl
@[simp] theorem putWindow_ctl (s : State) (l : List Request) : (s.putWindow l).ctl = s.ctl := rfl
@[simp] theorem putWindow_enc (s : State) (l : List Request) : (s.putWindow l).enc = s.enc := rfl
@[simp] theorem putWindow_rd (s : State) (l : List Request) : (s.putWindow l).rd = s.rd := rfl
@[simp] theorem putWindow_store (s : State) (l : List Request) : (s.putWindow l).store = s.store := rfl
@[simp] theorem putWindow_link (s : State) (l : List Request) : (s.putWindow l).link = s.link := rfl
@[simp] theorem putWindow_ord (s : State) (l : List Request) : (s.putWindow l).ord = s.ord := rfl
@[simp] theorem putWindow_resetLine (s : State) (l : List Request) : (s.putWindow l).resetLine = s.resetLine := rfl
@[simp] theorem putWindow_draws (s : State) (l : List Request) : (s.putWindow l).draws = s.draws := rfl
@[simp] theorem putWindow_pending (s : State) (l : List Request) : (s.putWindow l).pending = s.pending := rfl
@[simp] theorem putWindow_st_faults (s : State) (l : List Request) : (s.putWindow l).st.faults = s.st.faults := rfl
@[simp] theorem putWindow_st_mask (s : State) (l : List Request) : (s.putWindow l).st.mask = s.st.mask := rfl
@[simp] theorem putWindow_st_attn (s : State) (l : List Request) : (s.putWindow l).st.attn = s.st.attn := rfl
@[simp] theorem putWindow_st_addr (s : State) (l : List Request) : (s.putWindow l).st.addr = s.st.addr := rfl
@[simp] theorem putWindow_st_enable (s : State) (l : List Request) : (s.putWindow l).st.enable = s.st.enable := rfl
@[simp] theorem putWindow_st_inFlight (s : State) (l : List Request) : (s.putWindow l).st.inFlight = s.st.inFlight := rfl
@[simp] theorem putWindow_st_reissue (s : State) (l : List Request) : (s.putWindow l).st.reissue = s.st.reissue := rfl

@[simp] theorem putLink_aps (s : State) (l : Receiver) : (s.putLink l).aps = s.aps := rfl
@[simp] theorem putLink_map (s : State) (l : Receiver) : (s.putLink l).map = s.map := rfl
@[simp] theorem putLink_pool (s : State) (l : Receiver) : (s.putLink l).pool = s.pool := rfl
@[simp] theorem putLink_asm (s : State) (l : Receiver) : (s.putLink l).asm = s.asm := rfl
@[simp] theorem putLink_ctl (s : State) (l : Receiver) : (s.putLink l).ctl = s.ctl := rfl
@[simp] theorem putLink_enc (s : State) (l : Receiver) : (s.putLink l).enc = s.enc := rfl
@[simp] theorem putLink_rd (s : State) (l : Receiver) : (s.putLink l).rd = s.rd := rfl
@[simp] theorem putLink_port (s : State) (l : Receiver) : (s.putLink l).port = s.port := rfl
@[simp] theorem putLink_store (s : State) (l : Receiver) : (s.putLink l).store = s.store := rfl
@[simp] theorem putLink_ord (s : State) (l : Receiver) : (s.putLink l).ord = s.ord := rfl
@[simp] theorem putLink_resetLine (s : State) (l : Receiver) : (s.putLink l).resetLine = s.resetLine := rfl
@[simp] theorem putLink_draws (s : State) (l : Receiver) : (s.putLink l).draws = s.draws := rfl
@[simp] theorem putLink_pending (s : State) (l : Receiver) : (s.putLink l).pending = s.pending := rfl
@[simp] theorem putLink_st_faults (s : State) (l : Receiver) : (s.putLink l).st.faults = s.st.faults := rfl
@[simp] theorem putLink_st_mask (s : State) (l : Receiver) : (s.putLink l).st.mask = s.st.mask := rfl
@[simp] theorem putLink_st_attn (s : State) (l : Receiver) : (s.putLink l).st.attn = s.st.attn := rfl
@[simp] theorem putLink_st_addr (s : State) (l : Receiver) : (s.putLink l).st.addr = s.st.addr := rfl
@[simp] theorem putLink_st_enable (s : State) (l : Receiver) : (s.putLink l).st.enable = s.st.enable := rfl
@[simp] theorem putLink_st_inFlight (s : State) (l : Receiver) : (s.putLink l).st.inFlight = s.st.inFlight := rfl
@[simp] theorem putLink_st_reissue (s : State) (l : Receiver) : (s.putLink l).st.reissue = s.st.reissue := rfl

@[simp] theorem addRefits_aps (s : State) (n : Nat) : (s.addRefits n).aps = s.aps := rfl
@[simp] theorem addRefits_map (s : State) (n : Nat) : (s.addRefits n).map = s.map := rfl
@[simp] theorem addRefits_pool (s : State) (n : Nat) : (s.addRefits n).pool = s.pool := rfl
@[simp] theorem addRefits_asm (s : State) (n : Nat) : (s.addRefits n).asm = s.asm := rfl
@[simp] theorem addRefits_enc (s : State) (n : Nat) : (s.addRefits n).enc = s.enc := rfl
@[simp] theorem addRefits_rd (s : State) (n : Nat) : (s.addRefits n).rd = s.rd := rfl
@[simp] theorem addRefits_port (s : State) (n : Nat) : (s.addRefits n).port = s.port := rfl
@[simp] theorem addRefits_store (s : State) (n : Nat) : (s.addRefits n).store = s.store := rfl
@[simp] theorem addRefits_link (s : State) (n : Nat) : (s.addRefits n).link = s.link := rfl
@[simp] theorem addRefits_ord (s : State) (n : Nat) : (s.addRefits n).ord = s.ord := rfl
@[simp] theorem addRefits_resetLine (s : State) (n : Nat) : (s.addRefits n).resetLine = s.resetLine := rfl
@[simp] theorem addRefits_draws (s : State) (n : Nat) : (s.addRefits n).draws = s.draws := rfl
@[simp] theorem addRefits_pending (s : State) (n : Nat) : (s.addRefits n).pending = s.pending := rfl
@[simp] theorem addRefits_st_faults (s : State) (n : Nat) : (s.addRefits n).st.faults = s.st.faults := rfl
@[simp] theorem addRefits_st_mask (s : State) (n : Nat) : (s.addRefits n).st.mask = s.st.mask := rfl
@[simp] theorem addRefits_st_attn (s : State) (n : Nat) : (s.addRefits n).st.attn = s.st.attn := rfl
@[simp] theorem addRefits_st_addr (s : State) (n : Nat) : (s.addRefits n).st.addr = s.st.addr := rfl
@[simp] theorem addRefits_st_enable (s : State) (n : Nat) : (s.addRefits n).st.enable = s.st.enable := rfl
@[simp] theorem addRefits_st_inFlight (s : State) (n : Nat) : (s.addRefits n).st.inFlight = s.st.inFlight := rfl
@[simp] theorem addRefits_st_reissue (s : State) (n : Nat) : (s.addRefits n).st.reissue = s.st.reissue := rfl

/-! ### Reported values replaced: the new values -/

@[simp] theorem markIf_stale (s : State) (b : Bool) : (s.markIf b).st.stale = (s.st.stale || b) := rfl
@[simp] theorem markStale_stale (s : State) : s.markStale.st.stale = true := by
  simp [State.markStale]
@[simp] theorem putFaults_faults (s : State) (f : Byte) : (s.putFaults f).st.faults = f := rfl
@[simp] theorem putFaults_attn (s : State) (f : Byte) : (s.putFaults f).st.attn = attnOf f s.st.mask := rfl
@[simp] theorem raise_faults (s : State) (k : FaultKind) : (s.raise k).st.faults = s.st.faults ||| k.mask := rfl
@[simp] theorem raise_attn (s : State) (k : FaultKind) :
    (s.raise k).st.attn = attnOf (s.st.faults ||| k.mask) s.st.mask := rfl
@[simp] theorem raiseQuietly_faults (s : State) (k : FaultKind) :
    (s.raiseQuietly k).st.faults = s.st.faults ||| k.mask := rfl
@[simp] theorem raiseQuietly_attn (s : State) (k : FaultKind) :
    (s.raiseQuietly k).st.attn = attnOf (s.st.faults ||| k.mask) s.st.mask := rfl
@[simp] theorem putPool_pool (s : State) (p : Pool) : (s.putPool p).pool = p := rfl
@[simp] theorem putAp_aps (s : State) (a : ApIx) (x : Aperture) : (s.putAp a x).aps = s.aps.set a x := rfl
@[simp] theorem putSlot_asm (s : State) (k : SlotIx) (x : Slot) :
    (s.putSlot k x).asm = { s.asm with slots := s.asm.slots.set k x } := rfl
@[simp] theorem putOpenList_asm (s : State) (l : List SlotIx) : (s.putOpenList l).asm = { s.asm with openList := l } := rfl
@[simp] theorem putSealQueue_asm (s : State) (l : List SlotIx) :
    (s.putSealQueue l).asm = { s.asm with sealQueue := l } := rfl
@[simp] theorem putHeld_asm (s : State) (l : List HeldWrite) : (s.putHeld l).asm = { s.asm with held := l } := rfl
@[simp] theorem putEnc_enc (s : State) (e : Encoder) : (s.putEnc e).enc = e := rfl
@[simp] theorem putQueue_rd (s : State) (l : List DecodeEntry) : (s.putQueue l).rd = { s.rd with queue := l } := rfl
@[simp] theorem putCache_rd (s : State) (l : List CacheEntry) : (s.putCache l).rd = { s.rd with cache := l } := rfl
@[simp] theorem putWindow_port (s : State) (l : List Request) : (s.putWindow l).port = { s.port with window := l } := rfl
@[simp] theorem putLink_link (s : State) (l : Receiver) : (s.putLink l).link = l := rfl

/-! ### The fields of step control after the pool's figures were evaluated -/

@[simp] theorem evalPool_band (s : State) :
    s.evalPool.ctl.band = bandOf s.pool.count s.pool.free.length := rfl
@[simp] theorem evalPool_demanded (s : State) :
    s.evalPool.ctl.demanded = s.ctl.curve.get (bandOf s.pool.count s.pool.free.length) := rfl
@[simp] theorem evalPool_faults (s : State) :
    s.evalPool.st.faults = withPoolShort s.st.faults s.pool.isShort := rfl
@[simp] theorem evalPool_attn (s : State) :
    s.evalPool.st.attn = attnOf (withPoolShort s.st.faults s.pool.isShort) s.st.mask := rfl
@[simp] theorem evalPool_curve (s : State) : s.evalPool.ctl.curve = s.ctl.curve := rfl
@[simp] theorem evalPool_up (s : State) : s.evalPool.ctl.up = s.ctl.up := rfl
@[simp] theorem evalPool_down (s : State) : s.evalPool.ctl.down = s.ctl.down := rfl
@[simp] theorem evalPool_refitLimit (s : State) : s.evalPool.ctl.refitLimit = s.ctl.refitLimit := rfl
@[simp] theorem evalPool_applied (s : State) : s.evalPool.ctl.applied = s.ctl.applied := rfl
@[simp] theorem evalPool_upCount (s : State) : s.evalPool.ctl.upCount = s.ctl.upCount := rfl
@[simp] theorem evalPool_downCount (s : State) : s.evalPool.ctl.downCount = s.ctl.downCount := rfl
@[simp] theorem evalPool_refits (s : State) : s.evalPool.ctl.refits = s.ctl.refits := rfl
@[simp] theorem putPool_band (s : State) (p : Pool) : (s.putPool p).ctl.band = bandOf p.count p.free.length := rfl
@[simp] theorem putPool_demanded (s : State) (p : Pool) :
    (s.putPool p).ctl.demanded = s.ctl.curve.get (bandOf p.count p.free.length) := rfl
@[simp] theorem putPool_faults (s : State) (p : Pool) :
    (s.putPool p).st.faults = withPoolShort s.st.faults p.isShort := rfl
@[simp] theorem putPool_attn (s : State) (p : Pool) :
    (s.putPool p).st.attn = attnOf (withPoolShort s.st.faults p.isShort) s.st.mask := rfl
@[simp] theorem putPool_curve (s : State) (p : Pool) : (s.putPool p).ctl.curve = s.ctl.curve := rfl
@[simp] theorem putPool_up (s : State) (p : Pool) : (s.putPool p).ctl.up = s.ctl.up := rfl
@[simp] theorem putPool_down (s : State) (p : Pool) : (s.putPool p).ctl.down = s.ctl.down := rfl
@[simp] theorem putPool_refitLimit (s : State) (p : Pool) : (s.putPool p).ctl.refitLimit = s.ctl.refitLimit := rfl
@[simp] theorem putPool_applied (s : State) (p : Pool) : (s.putPool p).ctl.applied = s.ctl.applied := rfl
@[simp] theorem putPool_upCount (s : State) (p : Pool) : (s.putPool p).ctl.upCount = s.ctl.upCount := rfl
@[simp] theorem putPool_downCount (s : State) (p : Pool) : (s.putPool p).ctl.downCount = s.ctl.downCount := rfl
@[simp] theorem putPool_refits (s : State) (p : Pool) : (s.putPool p).ctl.refits = s.ctl.refits := rfl

/-! ### Access -/

theorem ap_putAp_same (s : State) (a : ApIx) (x : Aperture) : (s.putAp a x).ap a = x := by
  show (s.aps.set a.val x)[a.val] = x
  simp

theorem ap_putAp_other (s : State) (a b : ApIx) (x : Aperture) (h : b ≠ a) : (s.putAp a x).ap b = s.ap b := by
  have h' : a.val ≠ b.val := fun e => h (Fin.ext e.symm)
  show (s.aps.set a.val x)[b.val] = s.aps[b.val]
  simp [h']

theorem slot_putSlot_same (s : State) (k : SlotIx) (x : Slot) : (s.putSlot k x).slot k = x := by
  show (s.asm.slots.set k.val x)[k.val] = x
  simp

theorem slot_putSlot_other (s : State) (k j : SlotIx) (x : Slot) (h : j ≠ k) : (s.putSlot k x).slot j = s.slot j := by
  have h' : k.val ≠ j.val := fun e => h (Fin.ext e.symm)
  show (s.asm.slots.set k.val x)[j.val] = s.asm.slots[j.val]
  simp [h']

end Sys2Proof.Machine
end

