-- ==== Sys2Proof/Laws/Frame.lean ====
section
/-! SUPPORT. The frame of each shared operation: which blocks of the state it can touch, one lemma for each operation. Every
other block is as it was. -/

set_option Elab.async false

namespace Sys2Proof.Machine

theorem SameBlock.refl (b : Block) (s : State) : SameBlock b s s := by cases b <;> rfl

theorem SameBlock.trans {b : Block} {s t u : State} (h : SameBlock b s t) (k : SameBlock b t u) : SameBlock b s u := by
  cases b <;> exact Eq.trans k h

theorem OnlyTouches.refl (B : List Block) (s : State) : OnlyTouches B s s := fun b _ => SameBlock.refl b s

theorem OnlyTouches.mono {A B : List Block} {s t : State} (h : OnlyTouches A s t)
    (k : ∀ b ∈ A, b ∈ B := by decide) : OnlyTouches B s t := fun b hb => h b fun hA => hb (k b hA)

/-- One change after another. -/
theorem OnlyTouches.andThen {A B C : List Block} {s t u : State} (h : OnlyTouches A s t) (k : OnlyTouches B t u)
    (hA : ∀ b ∈ A, b ∈ C := by decide) (hB : ∀ b ∈ B, b ∈ C := by decide) : OnlyTouches C s u :=
  fun b hb => (h b fun x => hb (hA b x)).trans (k b fun x => hb (hB b x))

theorem OnlyTouches.foldl {α : Type} {B : List Block} (f : State → α → State)
    (h : ∀ s x, OnlyTouches B s (f s x)) (l : List α) (s : State) : OnlyTouches B s (l.foldl f s) := by
  induction l generalizing s with
  | nil => exact .refl B s
  | cons x xs ih => exact (h s x).andThen (ih (f s x)) (fun _ k => k) (fun _ k => k)

/-! ### One block replaced -/

theorem touches_setAps (s : State) (x : Vector Aperture 8) : OnlyTouches [.aps] s (s.setAps x) := by
  intro b hb; cases b <;> first | rfl | exact absurd (by decide) hb
theorem touches_setMap (s : State) (x : TileMap) : OnlyTouches [.map] s (s.setMap x) := by
  intro b hb; cases b <;> first | rfl | exact absurd (by decide) hb
theorem touches_setPool (s : State) (x : Pool) : OnlyTouches [.pool] s (s.setPool x) := by
  intro b hb; cases b <;> first | rfl | exact absurd (by decide) hb
theorem touches_setAsm (s : State) (x : Assembly) : OnlyTouches [.asm] s (s.setAsm x) := by
  intro b hb; cases b <;> first | rfl | exact absurd (by decide) hb
theorem touches_setCtl (s : State) (x : StepControl) : OnlyTouches [.ctl] s (s.setCtl x) := by
  intro b hb; cases b <;> first | rfl | exact absurd (by decide) hb
theorem touches_setEnc (s : State) (x : Encoder) : OnlyTouches [.enc] s (s.setEnc x) := by
  intro b hb; cases b <;> first | rfl | exact absurd (by decide) hb
theorem touches_setRd (s : State) (x : ReadPath) : OnlyTouches [.rd] s (s.setRd x) := by
  intro b hb; cases b <;> first | rfl | exact absurd (by decide) hb
theorem touches_setPort (s : State) (x : ComposerPort) : OnlyTouches [.port] s (s.setPort x) := by
  intro b hb; cases b <;> first | rfl | exact absurd (by decide) hb
theorem touches_setStore (s : State) (x : StorePort) : OnlyTouches [.store] s (s.setStore x) := by
  intro b hb; cases b <;> first | rfl | exact absurd (by decide) hb
theorem touches_setLink (s : State) (x : Receiver) : OnlyTouches [.link] s (s.setLink x) := by
  intro b hb; cases b <;> first | rfl | exact absurd (by decide) hb
theorem touches_setOrd (s : State) (x : OrderUnit) : OnlyTouches [.ord] s (s.setOrd x) := by
  intro b hb; cases b <;> first | rfl | exact absurd (by decide) hb
theorem touches_setSt (s : State) (x : StatusUnit) : OnlyTouches [.st] s (s.setSt x) := by
  intro b hb; cases b <;> first | rfl | exact absurd (by decide) hb
theorem touches_setResetLine (s : State) (x : Bool) : OnlyTouches [.resetLine] s (s.setResetLine x) := by
  intro b hb; cases b <;> first | rfl | exact absurd (by decide) hb
theorem touches_setDraws (s : State) (x : Nat) : OnlyTouches [.draws] s (s.setDraws x) := by
  intro b hb; cases b <;> first | rfl | exact absurd (by decide) hb
theorem touches_setPending (s : State) (x : List Instr) : OnlyTouches [.pending] s (s.setPending x) := by
  intro b hb; cases b <;> first | rfl | exact absurd (by decide) hb

/-! ### Reported values replaced -/

theorem touches_markIf (s : State) (b : Bool) : OnlyTouches [.st] s (s.markIf b) := by
  intro b hb; cases b <;> first | rfl | exact absurd (by decide) hb
theorem touches_markStale (s : State) : OnlyTouches [.st] s (s.markStale) := by
  intro b hb; cases b <;> first | rfl | exact absurd (by decide) hb
theorem touches_putFaults (s : State) (f : Byte) : OnlyTouches [.st] s (s.putFaults f) := by
  intro b hb; cases b <;> first | rfl | exact absurd (by decide) hb
theorem touches_raise (s : State) (k : FaultKind) : OnlyTouches [.st] s (s.raise k) := by
  intro b hb; cases b <;> first | rfl | exact absurd (by decide) hb
theorem touches_raiseQuietly (s : State) (k : FaultKind) : OnlyTouches [.st] s (s.raiseQuietly k) := by
  intro b hb; cases b <;> first | rfl | exact absurd (by decide) hb
theorem touches_evalPool (s : State) : OnlyTouches [.ctl, .st] s (s.evalPool) := by
  intro b hb; cases b <;> first | rfl | exact absurd (by decide) hb
theorem touches_putPool (s : State) (p : Pool) : OnlyTouches [.pool, .ctl, .st] s (s.putPool p) := by
  intro b hb; cases b <;> first | rfl | exact absurd (by decide) hb
theorem touches_putAp (s : State) (a : ApIx) (x : Aperture) : OnlyTouches [.aps, .st] s (s.putAp a x) := by
  intro b hb; cases b <;> first | rfl | exact absurd (by decide) hb
theorem touches_putSlot (s : State) (k : SlotIx) (x : Slot) : OnlyTouches [.asm, .st] s (s.putSlot k x) := by
  intro b hb; cases b <;> first | rfl | exact absurd (by decide) hb
theorem touches_putOpenList (s : State) (l : List SlotIx) : OnlyTouches [.asm] s (s.putOpenList l) := by
  intro b hb; cases b <;> first | rfl | exact absurd (by decide) hb
theorem touches_putSealQueue (s : State) (l : List SlotIx) : OnlyTouches [.asm, .st] s (s.putSealQueue l) := by
  intro b hb; cases b <;> first | rfl | exact absurd (by decide) hb
theorem touches_putHeld (s : State) (l : List HeldWrite) : OnlyTouches [.asm, .st] s (s.putHeld l) := by
  intro b hb; cases b <;> first | rfl | exact absurd (by decide) hb
theorem touches_putEnc (s : State) (e : Encoder) : OnlyTouches [.enc, .st] s (s.putEnc e) := by
  intro b hb; cases b <;> first | rfl | exact absurd (by decide) hb
theorem touches_putQueue (s : State) (l : List DecodeEntry) : OnlyTouches [.rd, .st] s (s.putQueue l) := by
  intro b hb; cases b <;> first | rfl | exact absurd (by decide) hb
theorem touches_putCache (s : State) (l : List CacheEntry) : OnlyTouches [.rd, .st] s (s.putCache l) := by
  intro b hb; cases b <;> first | rfl | exact absurd (by decide) hb
theorem touches_putWindow (s : State) (l : List Request) : OnlyTouches [.port, .st] s (s.putWindow l) := by
  intro b hb; cases b <;> first | rfl | exact absurd (by decide) hb
theorem touches_putLink (s : State) (l : Receiver) : OnlyTouches [.link, .st] s (s.putLink l) := by
  intro b hb; cases b <;> first | rfl | exact absurd (by decide) hb
theorem touches_addRefits (s : State) (n : Nat) : OnlyTouches [.ctl, .st] s (s.addRefits n) := by
  intro b hb; cases b <;> first | rfl | exact absurd (by decide) hb

theorem touches_issueStatus (s : State) : OnlyTouches [.store, .st] s s.issueStatus := by
  unfold State.issueStatus
  split
  · exact (touches_setStore _ _).andThen (touches_setSt _ _)
  · exact .refl _ s

/-! ### The window -/

theorem touches_updRequest (s : State) (id : Nat) (f : Request → Request) : OnlyTouches [.port] s (s.updRequest id f) :=
  touches_setPort s _

theorem touches_updPart (s : State) (p : PartRef) (f : Part → Part) : OnlyTouches [.port] s (s.updPart p f) :=
  touches_updRequest s _ _

/-! ### The read path -/

theorem touches_touchCache (s : State) (t : TileRef) : OnlyTouches [.rd, .st] s (s.touchCache t) := by
  unfold State.touchCache
  split
  · exact .refl _ s
  · exact touches_putCache s _

theorem touches_uncache (s : State) (t : TileRef) : OnlyTouches [.rd, .st] s (s.uncache t) := touches_putCache s _

theorem touches_insertCache (s : State) (t : TileRef) (x : Tile) : OnlyTouches [.rd, .st] s (s.insertCache t x) :=
  touches_putCache s _

theorem touches_useMapTile (s : State) (t : TileRef) : OnlyTouches [.rd, .st] s (s.useMapTile t) := by
  unfold State.useMapTile
  split
  · exact touches_touchCache s t
  · exact .refl _ s

theorem touches_joinDecode (s : State) (t : TileRef) (f : DecodeEntry → DecodeEntry) :
    OnlyTouches [.rd, .st] s (s.joinDecode t f) := by
  unfold State.joinDecode
  split
  · exact touches_putQueue s _
  · split
    · exact (touches_setRd s _).mono
    · split
      · exact touches_putQueue s _
      · exact (touches_setRd s _).mono

theorem touches_movePending {s t : State} (h : s.movePending = some t) : OnlyTouches [.rd, .st] s t := by
  unfold State.movePending at h
  split at h
  · cases h
  · split at h
    · cases h
      exact (touches_setRd s _).andThen (touches_putQueue _ _)
    · cases h

theorem touches_takeRead (s : State) (ref : PartRef) : OnlyTouches [.rd, .st, .port] s (s.takeRead ref) := by
  unfold State.takeRead
  split
  · exact .refl _ s
  · dsimp only
    split
    · exact (touches_updPart s _ _).mono
    · split
      · exact (touches_useMapTile s _).andThen (touches_updPart _ _ _)
      · exact (touches_joinDecode s _ _).andThen (touches_updPart _ _ _)

theorem touches_startDecode {s t : State} (h : s.startDecode = some t) : OnlyTouches [.rd, .store] s t := by
  unfold State.startDecode at h
  split at h
  · cases h
    exact (touches_setRd s _).andThen (touches_setStore _ _)
  · cases h

theorem touches_serveReader (x : Tile) (s : State) (ref : PartRef) : OnlyTouches [.port] s (s.serveReader x ref) :=
  touches_updPart s _ _

theorem touches_failReader (s : State) (ref : PartRef) : OnlyTouches [.port] s (s.failReader ref) :=
  touches_updPart s _ _

theorem touches_serveGather (s : State) (g : Option SlotIx) (x : Tile) :
    OnlyTouches [.asm, .st] s (s.serveGather g x) := by
  unfold State.serveGather
  split
  · exact .refl _ s
  · exact touches_putSlot s _ _

theorem touches_leaveDecoder (s : State) : OnlyTouches [.rd, .st] s s.leaveDecoder :=
  (touches_setRd s _).andThen (touches_putQueue _ _)

theorem touches_decodeSucceeds (s : State) (e : DecodeEntry) (x : Tile) :
    OnlyTouches [.rd, .st, .port, .asm] s (s.decodeSucceeds e x) :=
  (((touches_insertCache s e.tile x).andThen (C := [.rd, .st, .port])
      (OnlyTouches.foldl _ (touches_serveReader x) e.readers _)).andThen (C := [.rd, .st, .port, .asm])
    (touches_serveGather _ _ _)).andThen (touches_leaveDecoder _)

theorem touches_decodeFails (s : State) (e : DecodeEntry) : OnlyTouches [.rd, .st, .port, .asm] s (s.decodeFails e) :=
  ((OnlyTouches.foldl _ touches_failReader e.readers s).andThen (C := [.rd, .st, .port, .asm])
    (touches_serveGather _ _ _)).andThen (touches_leaveDecoder _)

theorem touches_closeReadPath (s : State) (a : ApIx) : OnlyTouches [.rd, .st] s (s.closeReadPath a) := by
  have h : ∀ s : State, OnlyTouches [.rd, .st] s
      (((s.setRd { s.rd with pendingList := s.rd.pendingList.filter fun e => decide (e.tile.ap ≠ a) }).putQueue
        (s.rd.queue.filterMap (DecodeEntry.closed a))).putCache
        ((s.setRd { s.rd with pendingList := s.rd.pendingList.filter fun e => decide (e.tile.ap ≠ a) }).putQueue
        (s.rd.queue.filterMap (DecodeEntry.closed a)) |>.rd.cache.filter fun e => decide (e.tile.ap ≠ a))) := fun s =>
    ((touches_setRd s _).andThen (C := [.rd, .st]) (touches_putQueue _ _)).andThen (touches_putCache _ _)
  unfold State.closeReadPath
  dsimp only
  split
  · exact h s
  · split
    · exact (h s).andThen (touches_leaveDecoder _)
    · exact h s

/-! ### The assembly buffer -/

theorem touches_startGather (s : State) (k : SlotIx) (t : TileRef) :
    OnlyTouches [.asm, .st, .rd] s (s.startGather k t) := by
  unfold State.startGather
  split
  · exact (touches_useMapTile s _).andThen (touches_putSlot _ _ _)
  · exact (touches_joinDecode s _ _).mono

theorem touches_sealNow (s : State) (k : SlotIx) : OnlyTouches [.asm, .st, .rd] s (s.sealNow k) := by
  have h : ∀ (l : List SlotIx) (x : Slot) (m : List SlotIx),
      OnlyTouches [.asm, .st, .rd] s (((s.putOpenList l).putSlot k x).putSealQueue m) := fun l x m =>
    ((touches_putOpenList s l).andThen (C := [.asm, .st]) (touches_putSlot _ k x)).andThen (touches_putSealQueue _ m)
  unfold State.sealNow
  dsimp only
  split
  · exact (h _ _ _).andThen (touches_startGather _ _ _)
  · exact h _ _ _

theorem touches_sealCall (s : State) (k : SlotIx) : OnlyTouches [.asm, .st, .rd] s (s.sealCall k) := by
  unfold State.sealCall
  dsimp only
  split
  · exact .refl _ s
  · split
    · exact touches_sealNow s k
    · split
      · exact .refl _ s
      · exact (touches_putOpenList s _).andThen (touches_putSlot _ _ _)

theorem touches_openSlot (s : State) (k : SlotIx) (t : TileRef) : OnlyTouches [.asm, .st] s (s.openSlot k t) :=
  (touches_putSlot s _ _).andThen (touches_putOpenList _ _)

theorem touches_land (s : State) (k : SlotIx) (ref : PartRef) (part : Part) :
    OnlyTouches [.asm, .st, .rd, .port] s (s.land k ref part) := by
  have h : ∀ (x : Slot) (l : List SlotIx) (f : Part → Part),
      OnlyTouches [.asm, .st, .rd, .port] s (((s.putSlot k x).putOpenList l).updPart ref f) := fun x l f =>
    ((touches_putSlot s k x).andThen (C := [.asm, .st]) (touches_putOpenList _ l)).andThen (touches_updPart _ _ f)
  unfold State.land
  dsimp only
  split
  · exact (h _ _ _).andThen (touches_sealCall _ _)
  · exact h _ _ _

theorem touches_hold (s : State) (ref : PartRef) (part : Part) :
    OnlyTouches [.asm, .st, .rd, .port] s (s.hold ref part) := by
  have h : ∀ (l : List HeldWrite) (f : Part → Part),
      OnlyTouches [.asm, .st, .rd, .port] s ((s.putHeld l).updPart ref f) := fun l f =>
    (touches_putHeld s l).andThen (touches_updPart _ _ f)
  unfold State.hold
  dsimp only
  split
  · exact h _ _
  · exact (h _ _).andThen (touches_sealCall _ _)

theorem touches_takeWrite (s : State) (ref : PartRef) : OnlyTouches [.asm, .st, .rd, .port] s (s.takeWrite ref) := by
  unfold State.takeWrite
  split
  · exact .refl _ s
  · split
    · exact (touches_updPart s _ _).mono
    · split
      · exact touches_land s _ _ _
      · split
        · exact (touches_openSlot s _ _).andThen (touches_land _ _ _ _)
        · exact touches_hold s _ _

theorem touches_grantHeld {s t : State} (h : s.grantHeld = some t) : OnlyTouches [.asm, .st, .rd, .port] s t := by
  unfold State.grantHeld at h
  split at h
  · cases h
    have k : ∀ (l : List HeldWrite) (i : SlotIx) (x : TileRef), OnlyTouches [.asm, .st, .rd, .port] s
        ((s.putHeld l).openSlot i x) := fun l i x => (touches_putHeld s l).andThen (touches_openSlot _ i x)
    generalize State.part _ _ = p
    cases p with
    | none => exact k _ _ _
    | some p => exact (k _ _ _).andThen (touches_land _ _ _ _)
  · cases h

theorem touches_unlinkSuccessor (s : State) (k : SlotIx) : OnlyTouches [.asm, .st, .rd] s (s.unlinkSuccessor k) := by
  unfold State.unlinkSuccessor
  split
  · exact .refl _ s
  · dsimp only
    split
    · exact (touches_putSlot s _ _).andThen (touches_sealNow _ _)
    · exact (touches_putSlot s _ _).mono

theorem touches_freeEncoding (s : State) (k : SlotIx) : OnlyTouches [.asm, .st, .rd] s (s.freeEncoding k) :=
  (touches_putSlot s _ _).andThen (touches_unlinkSuccessor _ _)

theorem touches_markSlot (s : State) (k : SlotIx) : OnlyTouches [.asm, .st] s (s.markSlot k) := touches_putSlot s _ _

theorem touches_forceSlots (s : State) (on : ApIx → Bool) :
    OnlyTouches [.asm, .st, .rd, .draws] s (s.forceSlots on) :=
  ((touches_setDraws s _).andThen (C := [.asm, .st, .rd, .draws])
    (OnlyTouches.foldl _ touches_markSlot _ _)).andThen (OnlyTouches.foldl _ touches_sealCall _ _)

theorem touches_clearMarks (s : State) : OnlyTouches [.asm, .st] s s.clearMarks :=
  (touches_setAsm s _).andThen (touches_markIf _ _)

theorem touches_closeSlots (s : State) (a : ApIx) : OnlyTouches [.asm, .st] s (s.closeSlots a) :=
  (touches_setAsm s _).andThen (touches_markStale _)

/-! ### The encoder -/

theorem touches_release (s : State) (cs : List Nat) : OnlyTouches [.pool, .ctl, .st] s (s.release cs) := by
  unfold State.release
  split
  · exact .refl _ s
  · exact touches_putPool s _

theorem touches_takeChunks (s : State) (n : Nat) : OnlyTouches [.pool, .ctl, .st] s (s.takeChunks n) :=
  touches_putPool s _

theorem touches_putOp (s : State) (op : TileOp) : OnlyTouches [.enc, .st] s (s.putOp op) := touches_putEnc s _

theorem touches_takeSealed {s t : State} (h : s.takeSealed = some t) : OnlyTouches [.asm, .st, .enc] s t := by
  unfold State.takeSealed at h
  split at h
  · split at h
    · cases h
      exact ((touches_putSealQueue s _).andThen (C := [.asm, .st]) (touches_putSlot _ _ _)).andThen (touches_putOp _ _)
    · cases h
  · cases h

theorem touches_commitCache (s : State) (t : TileRef) (r : Result) : OnlyTouches [.rd, .st] s (s.commitCache t r) := by
  unfold State.commitCache
  split
  · exact touches_uncache s t
  · exact (touches_uncache s t).andThen (touches_insertCache _ _ _)
  · exact (touches_uncache s t).andThen (touches_insertCache _ _ _)

theorem touches_countCommitted (s : State) (a : ApIx) (c : Content) :
    OnlyTouches [.aps, .st] s (s.countCommitted a c) := by
  unfold State.countCommitted
  split
  · exact touches_putAp s _ _
  · exact .refl _ s

theorem touches_slewStep (s : State) : OnlyTouches [.ctl, .st] s s.slewStep :=
  (touches_setCtl s _).andThen (touches_markIf _ _)

/-- The blocks that a commit touches. -/
abbrev commitBlocks : List Block := [.aps, .map, .pool, .asm, .ctl, .enc, .rd, .st]

/-- The blocks that an abandonment touches. -/
abbrev abandonBlocks : List Block := [.pool, .asm, .ctl, .enc, .rd, .st]

/-- The blocks that the end of a round of chunk writes touches. -/
abbrev roundBlocks : List Block := [.aps, .map, .pool, .asm, .ctl, .enc, .rd, .st, .store]

theorem touches_commit (s : State) (op : TileOp) (r : Result) : OnlyTouches commitBlocks s (s.commit op r) := by
  have h : ∀ (m : TileMap) (cs : List Nat) (t : TileRef) (a : ApIx) (c : Content) (k : SlotIx),
      OnlyTouches commitBlocks s
        (((((((s.setMap m).markStale.release cs).commitCache t r).countCommitted a c).putEnc Encoder.reset).freeEncoding
          k).slewStep) := fun m cs t a c k =>
    (((((((touches_setMap s m).andThen (C := commitBlocks) (touches_markStale _)).andThen (C := commitBlocks)
      (touches_release _ cs)).andThen (C := commitBlocks) (touches_commitCache _ t r)).andThen (C := commitBlocks)
      (touches_countCommitted _ a c)).andThen (C := commitBlocks) (touches_putEnc _ _)).andThen (C := commitBlocks)
      (touches_freeEncoding _ k)).andThen (touches_slewStep _)
  unfold State.commit
  dsimp only
  split
  · exact (h _ _ _ _ _ _).andThen (touches_raise _ _)
  · exact h _ _ _ _ _ _

theorem touches_abandon (s : State) (op : TileOp) : OnlyTouches abandonBlocks s (s.abandon op) :=
  ((touches_release s _).andThen (C := abandonBlocks) (touches_putEnc _ _)).andThen (touches_freeEncoding _ _)

theorem touches_commitCheck (s : State) (op : TileOp) (r : Result) :
    OnlyTouches commitBlocks s (s.commitCheck op r) := by
  unfold State.commitCheck
  split
  · exact (touches_abandon s op).mono
  · exact touches_commit s op r

theorem touches_degrade (s : State) (op : TileOp) : OnlyTouches commitBlocks s (s.degrade op) :=
  (touches_release s _).andThen (touches_commitCheck _ _ _)

theorem touches_startRound (s : State) (op : TileOp) (n : Nat) (held : List (Option Nat)) (ts : List (Nat × Nat)) :
    OnlyTouches [.enc, .st, .store] s (s.startRound op n held ts) :=
  (touches_putOp s _).andThen (touches_setStore _ _)

theorem touches_startWriting (s : State) (op : TileOp) (cs : List Nat) :
    OnlyTouches [.enc, .st, .store] s (s.startWriting op cs) := touches_startRound s _ _ _ _

theorem touches_endRound (s : State) (op : TileOp) : OnlyTouches roundBlocks s (s.endRound op) := by
  unfold State.endRound
  dsimp only
  split
  · exact (touches_commitCheck s _ _).mono
  · split
    · split
      · exact (touches_abandon s _).mono
      · split
        · exact (touches_takeChunks s _).andThen (touches_startRound _ _ _ _ _)
        · exact (touches_degrade s _).mono
    · exact (touches_degrade s _).mono

theorem touches_chunkWritten (s : State) (i c : Nat) (status : StoreStatus) :
    OnlyTouches roundBlocks s (s.chunkWritten i c status) := by
  unfold State.chunkWritten
  split
  · exact .refl _ s
  · dsimp only
    cases status with
    | okay =>
      dsimp only
      split
      · exact (touches_putEnc s _).andThen (touches_endRound _ _)
      · exact (touches_putEnc s _).mono
    | error =>
      have h : ∀ (e : Encoder) (p : Pool), OnlyTouches roundBlocks s (((s.putEnc e).putPool p).raise .store) := fun e p =>
        ((touches_putEnc s e).andThen (C := roundBlocks) (touches_putPool _ p)).andThen (touches_raise _ _)
      dsimp only
      split
      · exact (h _ _).andThen (touches_endRound _ _)
      · exact h _ _

theorem touches_firstRequest (s : State) (op : TileOp) (n : Nat) : OnlyTouches roundBlocks s (s.firstRequest op n) := by
  unfold State.firstRequest
  split
  · exact (touches_abandon s _).mono
  · split
    · exact (touches_takeChunks s _).andThen (touches_startWriting _ _ _)
    · exact (touches_putPool s _).andThen (touches_putEnc _ _)

theorem touches_endRefit (s : State) (op : TileOp) : OnlyTouches [.ctl, .enc, .st] s (s.endRefit op) := by
  unfold State.endRefit
  dsimp only
  split
  · exact (touches_addRefits s _).andThen (touches_putOp _ _)
  · exact .refl _ s

theorem touches_endCoding (s : State) (op : TileOp) : OnlyTouches roundBlocks s (s.endCoding op) := by
  unfold State.endCoding
  split
  · exact (touches_commitCheck s _ _).mono
  · exact ((touches_addRefits s _).andThen (C := roundBlocks) (touches_putOp _ _)).andThen (touches_firstRequest _ _ _)

/-- The blocks that the grant of a waiting request touches. -/
abbrev grantBlocks : List Block := [.pool, .asm, .ctl, .enc, .rd, .st, .store]

theorem touches_grantWaiting {s t : State} (h : s.grantWaiting = some t) : OnlyTouches grantBlocks s t := by
  unfold State.grantWaiting at h
  split at h
  · split at h
    · cases h
      have k : ∀ (n : Nat) (op : TileOp), OnlyTouches grantBlocks s ((s.takeChunks n).putOp op) := fun n op =>
        (touches_takeChunks s n).andThen (touches_putOp _ op)
      split
      · exact (k _ _).andThen (touches_abandon _ _)
      · exact (k _ _).andThen (touches_startWriting _ _ _)
    · cases h
  · cases h

theorem touches_expireWait (s : State) (op : TileOp) : OnlyTouches commitBlocks s (s.expireWait op) := by
  unfold State.expireWait
  dsimp only
  split
  · exact (touches_putPool s _).andThen (touches_degrade _ _)
  · exact (touches_putPool s _).andThen (touches_putOp _ _)

theorem touches_endRecode (s : State) (op : TileOp) : OnlyTouches roundBlocks s (s.endRecode op) := by
  unfold State.endRecode
  dsimp only
  split
  · exact (touches_abandon s _).mono
  · split
    · exact (touches_takeChunks s _).andThen (touches_startWriting _ _ _)
    · exact (touches_degrade s _).mono

theorem touches_visitEntry (s : State) (w : Walk) : OnlyTouches [.map, .pool, .ctl, .st] s (s.visitEntry w) :=
  (touches_setMap s _).andThen (touches_release _ _)

theorem touches_endWalk (s : State) (a : ApIx) : OnlyTouches [.map, .aps, .st] s (s.endWalk a) :=
  (touches_setMap s _).andThen (touches_putAp _ _ _)

/-! ### The ports -/

theorem touches_actOnClass (s : State) (r : Request) : OnlyTouches [.port, .st, .store] s (s.actOnClass r) := by
  unfold State.actOnClass
  split
  · exact ((touches_setPort s _).andThen (C := [.port, .st]) (touches_markStale _)).andThen (touches_raise _ _)
  · exact (touches_setStore s _).mono
  · exact .refl _ s

theorem touches_takeBus {s t : State} (h : s.takeBus = some t) : OnlyTouches [.port, .st, .store] s t := by
  unfold State.takeBus at h
  split at h
  · cases h
  · split at h
    · cases h
    · cases h
      exact ((touches_setPort s _).andThen (C := [.port, .st]) (touches_putWindow _ _)).andThen (touches_actOnClass _ _)

theorem touches_present (s : State) (q : BusRequest) : OnlyTouches [.port] s (s.present q) := touches_setPort s _

theorem touches_proceedNext {s t : State} (h : s.proceedNext = some t) : OnlyTouches [.asm, .st, .rd, .port] s t := by
  unfold State.proceedNext at h
  cases k : nextPart [] s.port.window with
  | none => simp [k] at h
  | some p =>
    simp only [k, Option.map_some, Option.some.injEq] at h
    subst h
    split
    · exact (touches_updPart s _ _).andThen (touches_takeWrite _ _)
    · exact (touches_updPart s _ _).andThen (touches_takeRead _ _)

theorem touches_respond {s t : State} (h : s.respond = some t) : OnlyTouches [.port, .st] s t := by
  unfold State.respond at h
  split at h
  · cases h
  · split at h
    · cases h
      exact (touches_setPort s _).andThen (touches_putWindow _ _)
    · cases h

theorem touches_closePort (s : State) (a : ApIx) : OnlyTouches [.port] s (s.closePort a) := touches_setPort s _

theorem touches_popOutstanding (s : State) : OnlyTouches [.store] s s.popOutstanding := touches_setStore s _

theorem touches_ignoreAnswer (s : State) : OnlyTouches [.store] s s.ignoreAnswer := touches_setStore s _

theorem touches_passAnswered (s : State) (id : Nat) (status : StoreStatus) (data : List Byte) :
    OnlyTouches [.port] s (s.passAnswered id status data) := touches_updRequest s _ _

theorem touches_putDecode (s : State) (d : Decode) (raises : Bool) : OnlyTouches [.rd, .st] s (s.putDecode d raises) := by
  unfold State.putDecode
  dsimp only
  split
  · exact (touches_setRd s _).andThen (touches_raise _ _)
  · exact (touches_setRd s _).mono

theorem touches_chunkAnswered (s : State) (status : StoreStatus) (data : List Byte) :
    OnlyTouches [.rd, .st, .port, .asm] s (s.chunkAnswered status data) := by
  unfold State.chunkAnswered
  split
  · dsimp only
    split
    · split
      · exact (touches_putDecode s _ _).andThen (touches_leaveDecoder _)
      · split
        · exact (touches_putDecode s _ _).andThen (touches_decodeFails _ _)
        · exact (touches_putDecode s _ _).mono
    · exact (touches_putDecode s _ _).mono
  · exact .refl _ s

theorem touches_endDecode (s : State) : OnlyTouches [.rd, .st, .port, .asm] s s.endDecode := by
  unfold State.endDecode
  split
  · split
    · split
      · exact touches_decodeSucceeds s _ _
      · exact (touches_raise s _).andThen (touches_decodeFails _ _)
    · exact .refl _ s
  · exact .refl _ s

theorem touches_statusAnswered (s : State) (status : StoreStatus) : OnlyTouches [.st] s (s.statusAnswered status) := by
  unfold State.statusAnswered
  split
  · exact touches_setSt s _
  · exact (touches_raiseQuietly s _).andThen (touches_setSt _ _)

/-! ### The order unit -/

theorem touches_concludeOrder (s : State) (o : Order) (r : OrderResult) (n : Option OrderReason) :
    OnlyTouches [.ord, .st] s (s.concludeOrder o r n) := (touches_setOrd s _).andThen (touches_markStale _)

theorem touches_orderDone (s : State) (o : Order) : OnlyTouches [.ord, .st] s (s.orderDone o) :=
  touches_concludeOrder s _ _ _

theorem touches_orderRefused (s : State) (o : Order) (n : OrderReason) : OnlyTouches [.ord, .st] s (s.orderRefused o n) :=
  (touches_concludeOrder s _ _ _).andThen (touches_raise _ _)

theorem touches_orderStarts (s : State) (o : Order) : OnlyTouches [.ord, .st] s (s.orderStarts o) :=
  (touches_setOrd s _).andThen (touches_markStale _)

theorem touches_runClearFaults (s : State) (o : Order) (f b2 : Byte) :
    OnlyTouches [.ord, .st] s (s.runClearFaults o f b2) := by
  unfold State.runClearFaults
  split
  · exact touches_orderRefused s _ _
  · exact (touches_putFaults s _).andThen (touches_orderDone _ _)

theorem touches_runSetStatus (s : State) (o : Order) (f : BitVec 40) (m : Byte) :
    OnlyTouches [.ord, .st] s (s.runSetStatus o f m) := by
  unfold State.runSetStatus
  dsimp only
  split
  · exact touches_orderRefused s _ _
  · split
    · exact touches_orderRefused s _ _
    · exact (touches_orderDone s _).andThen (touches_setSt _ _)

theorem touches_runThaw (s : State) (o : Order) (ap : BitVec 3) (z : BitVec 5) (b2 : Byte) :
    OnlyTouches [.aps, .ord, .st] s (s.runThaw o ap z b2) := by
  unfold State.runThaw
  dsimp only
  split
  · exact (touches_orderRefused s _ _).mono
  · split
    · exact (touches_putAp s _ _).andThen (touches_orderDone _ _)
    · exact (touches_orderRefused s _ _).mono

theorem touches_runProtect (s : State) (o : Order) (c : Bool) (ap : BitVec 3) (z : BitVec 4) (x0 y0 x1 y1 b6 : Byte) :
    OnlyTouches [.aps, .ord, .st] s (s.runProtect o c ap z x0 y0 x1 y1 b6) := by
  unfold State.runProtect
  dsimp only
  split
  · exact (touches_orderRefused s _ _).mono
  · split
    · exact (touches_orderRefused s _ _).mono
    · split
      · exact (touches_putAp s _ _).andThen (touches_orderDone _ _)
      · split
        · exact (touches_orderRefused s _ _).mono
        · split
          · exact (touches_orderRefused s _ _).mono
          · exact (touches_putAp s _ _).andThen (touches_orderDone _ _)

theorem touches_runOpen (s : State) (o : Order) (f : OpenFields) :
    OnlyTouches [.aps, .map, .ord, .st] s (s.runOpen o f) := by
  unfold State.runOpen
  dsimp only
  repeat' split
  all_goals first
    | exact (touches_orderRefused s _ _).mono
    | exact (((touches_setMap s _).andThen (C := [.aps, .map, .ord, .st]) (touches_putAp _ _ _)).andThen
        (C := [.aps, .map, .ord, .st]) (touches_markStale _)).andThen (touches_orderDone _ _)

theorem touches_runSetPool (s : State) (o : Order) (f : PoolFields) :
    OnlyTouches [.pool, .ctl, .ord, .st] s (s.runSetPool o f) := by
  unfold State.runSetPool
  repeat' split
  all_goals first
    | exact (touches_orderRefused s _ _).mono
    | exact (touches_putPool s _).andThen (touches_orderDone _ _)

theorem touches_runSetCurve (s : State) (o : Order) (f : CurveFields) :
    OnlyTouches [.ctl, .ord, .st] s (s.runSetCurve o f) := by
  unfold State.runSetCurve
  split
  · exact (touches_orderRefused s _ _).mono
  · exact ((touches_setCtl s _).andThen (C := [.ctl, .st]) (touches_evalPool _)).andThen (touches_orderDone _ _)

/-- The blocks that the start of a CLOSE touches. -/
abbrev closeBlocks : List Block := [.aps, .map, .asm, .rd, .port, .st]

theorem touches_startClose (s : State) (a : ApIx) : OnlyTouches closeBlocks s (s.startClose a) :=
  ((((touches_putAp s a _).andThen (C := closeBlocks) (touches_closeSlots _ a)).andThen (C := closeBlocks)
    (touches_closePort _ a)).andThen (C := closeBlocks) (touches_closeReadPath _ a)).andThen (touches_setMap _ _)

theorem touches_runClose (s : State) (o : Order) (ap : BitVec 3) (z : BitVec 5) (b2 : Byte) :
    OnlyTouches [.aps, .map, .asm, .rd, .port, .ord, .st] s (s.runClose o ap z b2) := by
  unfold State.runClose
  dsimp only
  split
  · exact (touches_orderRefused s _ _).mono
  · split
    all_goals first
      | exact (touches_orderRefused s _ _).mono
      | exact (touches_startClose s _).andThen (touches_orderStarts _ _)

theorem touches_flushOne (s : State) (o : Order) (a : ApIx) (f : Bool) :
    OnlyTouches [.aps, .asm, .rd, .ord, .st, .draws] s (s.flushOne o a f) := by
  unfold State.flushOne
  split
  · exact (touches_orderRefused s _ _).mono
  · exact (touches_orderDone s _).mono
  · dsimp only
    split
    · exact ((touches_putAp s _ _).andThen (C := [.aps, .asm, .rd, .st, .draws]) (touches_forceSlots _ _)).andThen
        (touches_orderStarts _ _)
    · exact (touches_forceSlots s _).andThen (touches_orderStarts _ _)
  · exact (touches_orderRefused s _ _).mono
  · exact (touches_orderRefused s _ _).mono

theorem touches_runFlush (s : State) (o : Order) (all freeze : Bool) (ap z : BitVec 3) (b2 : Byte) :
    OnlyTouches [.aps, .asm, .rd, .ord, .st, .draws] s (s.runFlush o all freeze ap z b2) := by
  unfold State.runFlush
  split
  · exact (touches_orderRefused s _ _).mono
  · split
    · exact (touches_forceSlots s _).andThen (touches_orderStarts _ _)
    · exact touches_flushOne s _ _ _

/-- The blocks that the execution of an order touches. -/
abbrev orderBlocks : List Block := [.aps, .map, .pool, .asm, .ctl, .rd, .port, .ord, .st, .draws]

theorem touches_execute (s : State) (o : Order) : OnlyTouches orderBlocks s (s.execute o) := by
  unfold State.execute
  split
  · exact .refl _ s
  · exact .refl _ s
  · exact (touches_runClose s _ _ _ _).mono
  · exact (touches_runFlush s _ _ _ _ _ _).mono
  · exact (touches_runThaw s _ _ _ _).mono
  · exact (touches_runClearFaults s _ _ _).mono
  · exact (touches_runProtect s _ _ _ _ _ _ _ _ _).mono
  · exact (touches_runSetStatus s _ _ _).mono
  · exact (touches_runOpen s _ _).mono
  · exact (touches_runSetPool s _ _).mono
  · exact (touches_runSetCurve s _ _).mono
  · exact (touches_orderRefused s _ _).mono

theorem touches_takeOrder {s t : State} (h : s.takeOrder = some t) : OnlyTouches orderBlocks s t := by
  unfold State.takeOrder at h
  split at h
  · cases h
    exact ((touches_setOrd s _).andThen (C := [.ord, .st]) (touches_markStale _)).andThen (touches_execute _ _)
  · cases h

theorem touches_endFreeze (s : State) (o : Order) (a : ApIx) : OnlyTouches [.aps, .ord, .st] s (s.endFreeze o a) :=
  (touches_putAp s _ _).andThen (touches_orderDone _ _)

theorem touches_endLongOrder {s t : State} (h : s.endLongOrder = some t) : OnlyTouches [.map, .aps, .ord, .st] s t := by
  unfold State.endLongOrder at h
  split at h
  · cases h
  · split at h
    · cases k : s.walkDone with
      | none => simp [k] at h
      | some a =>
        simp only [k, Option.map_some, Option.some.injEq] at h
        subst h
        exact (touches_endWalk s _).andThen (touches_orderDone _ _)
    · split at h
      · split at h
        · cases h
          exact (touches_endFreeze s _ _).mono
        · cases h
      · split at h
        · cases h
        · cases h
          exact (touches_orderDone s _).mono
    all_goals cases h

theorem touches_unfreeze (s : State) (a : ApIx) : OnlyTouches [.aps, .st] s (s.unfreeze a) := by
  unfold State.unfreeze
  split
  · exact touches_putAp s _ _
  · exact .refl _ s

theorem touches_haltExecuting (s : State) : OnlyTouches [.aps, .asm, .ord, .st] s s.haltExecuting.1 := by
  unfold State.haltExecuting
  split
  · exact .refl _ s
  · split
    · dsimp only
      split
      · exact ((touches_clearMarks s).andThen (C := [.aps, .asm, .st]) (touches_unfreeze _ _)).andThen
          (touches_setOrd _ _)
      · exact (touches_clearMarks s).andThen (touches_setOrd _ _)
    all_goals exact .refl _ s

theorem touches_haltNow (s : State) : OnlyTouches [.aps, .asm, .ord, .st] s s.haltNow :=
  ((touches_haltExecuting s).andThen (C := [.aps, .asm, .ord, .st]) (touches_setOrd _ _)).andThen (touches_markStale _)

theorem touches_enqueue (s : State) (o : Order) : OnlyTouches orderBlocks s (s.enqueue o) := by
  unfold State.enqueue
  split
  · exact (touches_raise s _).mono
  · split
    · exact touches_execute s o
    · exact (touches_setOrd s _).andThen (touches_markStale _)

theorem touches_arrive (s : State) (o : Order) : OnlyTouches orderBlocks s (s.arrive o) := by
  unfold State.arrive
  split
  · exact .refl _ s
  · split
    all_goals first
      | exact .refl _ s
      | exact (touches_haltNow s).mono
      | exact touches_enqueue s _

/-! ### The end of an event -/

/-- The one effect of a rule is that of one of the ten. -/
theorem micro_cases {s t : State} (h : s.micro = some t) :
    s.grantWaiting = some t ∨ s.movePending = some t ∨ s.startDecode = some t ∨ s.grantHeld = some t ∨
      s.proceedNext = some t ∨ s.respond = some t ∨ s.takeBus = some t ∨ s.endLongOrder = some t ∨
      s.takeOrder = some t ∨ s.takeSealed = some t := by
  obtain ⟨r, hr, ht⟩ := List.exists_of_findSome?_eq_some h
  simp only [rules, List.mem_cons, List.not_mem_nil, or_false] at hr
  rcases hr with rfl | rfl | rfl | rfl | rfl | rfl | rfl | rfl | rfl | rfl <;> simp [ht]

/-- A state is quiet when none of the ten rules applies. -/
theorem quiet_iff (s : State) : s.micro = none ↔
    s.grantWaiting = none ∧ s.movePending = none ∧ s.startDecode = none ∧ s.grantHeld = none ∧
      s.proceedNext = none ∧ s.respond = none ∧ s.takeBus = none ∧ s.endLongOrder = none ∧
      s.takeOrder = none ∧ s.takeSealed = none := by
  simp [State.micro, rules, List.findSome?_eq_none_iff]

/-- The blocks that the follow-on effects of an event touch: all but the receiver, the RESET line and the waiting commands. -/
abbrev settleBlocks : List Block :=
  [.aps, .map, .pool, .asm, .ctl, .enc, .rd, .port, .store, .ord, .st, .draws]

theorem touches_micro {s t : State} (h : s.micro = some t) : OnlyTouches settleBlocks s t := by
  rcases micro_cases h with h | h | h | h | h | h | h | h | h | h
  · exact (touches_grantWaiting h).mono
  · exact (touches_movePending h).mono
  · exact (touches_startDecode h).mono
  · exact (touches_grantHeld h).mono
  · exact (touches_proceedNext h).mono
  · exact (touches_respond h).mono
  · exact (touches_takeBus h).mono
  · exact (touches_endLongOrder h).mono
  · exact (touches_takeOrder h).mono
  · exact (touches_takeSealed h).mono

/-- What every follow-on effect keeps, the end of an event keeps. -/
theorem settle_induct (P : State → Prop) (h : ∀ s t, s.micro = some t → P s → P t) (n : Nat) (s : State) (k : P s) :
    P (settle n s) := by
  induction n generalizing s with
  | zero => exact k
  | succ n ih =>
    unfold settle
    split
    · exact k
    · rename_i m
      exact ih _ (h _ _ m k)

theorem touches_settle (n : Nat) (s : State) : OnlyTouches settleBlocks s (settle n s) :=
  settle_induct (OnlyTouches settleBlocks s) (fun _ _ m k => k.andThen (touches_micro m)) n s (.refl _ s)

theorem touches_finish (s : State) : OnlyTouches settleBlocks s s.finish :=
  (touches_settle _ s).andThen (touches_issueStatus _)

/-- The end of an event in a quiet state is the status write alone. -/
theorem finish_of_quiet {s : State} (h : s.micro = none) : s.finish = s.issueStatus := by
  unfold State.finish
  cases n : s.work with
  | zero => rfl
  | succ n => simp [settle, h]

end Sys2Proof.Machine
end

