-- ==== Sys2Proof/Laws/Vectors.lean ====
section
/-! SUPPORT. What the operations over vectors, tiles and slots hold at each place, and the reconstruction of a CODED tile. -/

set_option Elab.async false

namespace Sys2Proof.Machine

theorem mapFrom_getElem {α β : Type} (f : Nat → α → β) (k : Nat) (l : List α) (i : Nat) (h : i < l.length) :
    (mapFrom f k l)[i]'(by rw [mapFrom_length]; exact h) = f (k + i) l[i] := by
  induction l generalizing k i with
  | nil => simp at h
  | cons x xs ih =>
    cases i with
    | zero => rfl
    | succ i =>
      simp only [mapFrom, List.getElem_cons_succ]
      rw [ih (k + 1) i (by simpa using h)]
      congr 1
      omega

theorem mapFrom_getElem? {α β : Type} (f : Nat → α → β) (k : Nat) (l : List α) (i : Nat) :
    (mapFrom f k l)[i]? = l[i]?.map (f (k + i)) := by
  rcases Nat.lt_or_ge i l.length with h | h
  · rw [List.getElem?_eq_getElem (by rw [mapFrom_length]; exact h), List.getElem?_eq_getElem h,
      mapFrom_getElem f k l i h]
    rfl
  · rw [List.getElem?_eq_none (by rw [mapFrom_length]; exact h), List.getElem?_eq_none h]
    rfl

/-- Counted from 0 it is the library's own function. -/
theorem mapFrom_zero {α β : Type} (f : Nat → α → β) (l : List α) : mapFrom f 0 l = l.mapIdx f := by
  apply List.ext_getElem?
  intro i
  rw [mapFrom_getElem?, List.getElem?_mapIdx, Nat.zero_add]

/-- The members of a list with their places. -/
theorem mem_mapFrom {α β : Type} (f : Nat → α → β) (k : Nat) (l : List α) (y : β) :
    y ∈ mapFrom f k l ↔ ∃ i, ∃ h : i < l.length, y = f (k + i) l[i] := by
  rw [List.mem_iff_getElem]
  constructor
  · rintro ⟨i, h, e⟩
    rw [mapFrom_length] at h
    exact ⟨i, h, by rw [← e, mapFrom_getElem f k l i h]⟩
  · rintro ⟨i, h, e⟩
    exact ⟨i, by rw [mapFrom_length]; exact h, by rw [e, mapFrom_getElem f k l i h]⟩

theorem zipFrom_getElem {α β γ : Type} (f : Nat → α → β → γ) (k : Nat) (l : List α) (m : List β) (i : Nat)
    (h : i < l.length) (g : i < m.length) :
    (zipFrom f k l m)[i]'(by rw [zipFrom_length]; omega) = f (k + i) l[i] m[i] := by
  induction l generalizing k m i with
  | nil => simp at h
  | cons x xs ih =>
    cases m with
    | nil => simp at g
    | cons y ys =>
      cases i with
      | zero => rfl
      | succ i =>
        simp only [zipFrom, List.getElem_cons_succ]
        rw [ih (k + 1) ys i (by simpa using h) (by simpa using g)]
        congr 1
        omega

theorem vecMap_getElem {α β : Type} {n : Nat} (f : Nat → α → β) (v : Vector α n) (i : Nat) (h : i < n) :
    (vecMap f v)[i] = f i v[i] := by
  have := mapFrom_getElem f 0 v.toList i (by simpa using h)
  simpa [vecMap, Vector.getElem_mk] using this

theorem vecZip_getElem {α β γ : Type} {n : Nat} (f : Nat → α → β → γ) (v : Vector α n) (w : Vector β n) (i : Nat)
    (h : i < n) : (vecZip f v w)[i] = f i v[i] w[i] := by
  have := zipFrom_getElem f 0 v.toList w.toList i (by simpa using h) (by simpa using h)
  simpa [vecZip, Vector.getElem_mk] using this

theorem vecMap_get {α β : Type} {n : Nat} (f : Nat → α → β) (v : Vector α n) (i : Fin n) :
    (vecMap f v).get i = f i.val (v.get i) := by
  rw [Vector.get_eq_getElem, Vector.get_eq_getElem]
  exact vecMap_getElem f v i.val i.isLt

theorem pixelOf_eq (t : Tile) {i : Nat} (h : i < 1024) : pixelOf t i = t[i] := by simp [pixelOf, h]

theorem pixelOf_vecMap (f : Nat → Colour → Colour) (t : Tile) {i : Nat} (h : i < 1024) :
    pixelOf (vecMap f t) i = f i (pixelOf t i) := by
  rw [pixelOf_eq _ h, pixelOf_eq _ h, vecMap_getElem f t i h]

/-- A tile of one colour has it at every pixel. -/
theorem pixelOf_flatTile (c : Colour) {i : Nat} (h : i < 1024) : pixelOf (flatTile c) i = c := by
  rw [pixelOf_eq _ h, flatTile, Vector.getElem_replicate]

/-- Two tiles of the same pixels are the same. -/
theorem tile_ext {t u : Tile} (h : ∀ i < 1024, pixelOf t i = pixelOf u i) : t = u := by
  apply Vector.ext
  intro i hi
  rw [← pixelOf_eq t hi, ← pixelOf_eq u hi]
  exact h i hi

/-- A gathered slot keeps its present pixels and takes the others from the base (R69, R70). -/
theorem gatherFrom_pixel (sl : Slot) (base : Tile) {i : Nat} (h : i < 1024) :
    pixelOf (sl.gatherFrom base).px i = if sl.has i then pixelOf sl.px i else pixelOf base i := by
  rw [pixelOf_eq _ h, pixelOf_eq _ h, pixelOf_eq _ h]
  exact vecZip_getElem _ sl.px base i h

/-- A gathered slot's presence set is full. -/
theorem gatherFrom_isFull (sl : Slot) (base : Tile) : (sl.gatherFrom base).isFull = true := by
  simp [Slot.isFull, Slot.gatherFrom]

/-- A landing writes the enabled pixels and leaves the others (R59). -/
theorem write_pixel (sl : Slot) (ps : List PartPixel) {i : Nat} (h : i < 1024) :
    pixelOf (sl.write ps).px i = (pixelValue ps i).getD (pixelOf sl.px i) := pixelOf_vecMap _ _ h

/-- A sample and its reconstruction lie in the same quantiser interval, so it fits in 16 bits (R83, R84). -/
theorem rebuild_lt {k raw : Nat} (h : raw < 2 ^ 16) (m : k ≤ 15) : rebuild k (quantise k raw) < 2 ^ 16 := by
  unfold rebuild quantise
  split
  · rename_i e
    rw [e]
    simpa using h
  · have p : 2 ^ k * 2 ^ (16 - k) = 2 ^ 16 := by rw [← Nat.pow_add]; congr 1; omega
    have q : 2 ^ (k - 1) * 2 = 2 ^ k := by rw [← Nat.pow_succ]; congr 1; omega
    have z : 0 < 2 ^ (k - 1) := Nat.two_pow_pos _
    have l : raw / 2 ^ k + 1 ≤ 2 ^ (16 - k) := (Nat.div_lt_iff_lt_mul (by omega)).2 (by rw [Nat.mul_comm, p]; exact h)
    have u := Nat.mul_le_mul_left (2 ^ k) l
    rw [p, Nat.mul_add, Nat.mul_one, Nat.mul_comm] at u
    omega

/-- The samples of a reconstruction (R84). -/
theorem reconOf_pixel {k : Nat} (m : k ≤ 15) (t : Tile) {i : Nat} (h : i < 1024) :
    (pixelOf (reconOf k t) i).r.toNat = rebuild k (quantise k (pixelOf t i).r.toNat) ∧
    (pixelOf (reconOf k t) i).g.toNat = rebuild k (quantise k (pixelOf t i).g.toNat) ∧
    (pixelOf (reconOf k t) i).b.toNat = rebuild k (quantise k (pixelOf t i).b.toNat) := by
  have e : ∀ v : Sample, (BitVec.ofNat 16 (rebuild k (quantise k v.toNat))).toNat = rebuild k (quantise k v.toNat) :=
    fun v => by rw [BitVec.toNat_ofNat]; exact Nat.mod_eq_of_lt (rebuild_lt v.isLt m)
  rw [reconOf, pixelOf_vecMap _ _ h]
  exact ⟨e _, e _, e _⟩

/-- At exponent 0 the reconstruction is the tile (R84). -/
theorem reconOf_zero (t : Tile) : reconOf 0 t = t :=
  tile_ext fun i h => by
    rw [reconOf, pixelOf_vecMap _ _ h]
    simp [rebuild, quantise]

end Sys2Proof.Machine
end

