-- ==== Sys2Proof/Laws/Encoder.lean ====
section
/-! SUPPORT. What the shared operations of the encoder and the pool do: the open positions of a chunk list (R123), the figures
after an evaluation and a release (R46, R48), and a seal (R66). -/

set_option Elab.async false

namespace Sys2Proof.Machine

/-- The open positions of a list counted from `k`. -/
theorem openFrom_spec (held : List (Option Nat)) (k : Nat) :
    ((mapFrom (fun j h => (j, h)) k held).filterMap fun (j, h) => if h.isNone then some j else none).Pairwise (· < ·) ∧
    ∀ i, i ∈ ((mapFrom (fun j h => (j, h)) k held).filterMap fun (j, h) => if h.isNone then some j else none) ↔
      k ≤ i ∧ held[i - k]? = some none := by
  induction held generalizing k with
  | nil => simp [mapFrom]
  | cons x xs ih =>
    obtain ⟨a, b⟩ := ih (k + 1)
    simp only [mapFrom]
    cases x with
    | none =>
      simp only [List.filterMap_cons, Option.isNone_none, if_true, List.pairwise_cons, List.mem_cons]
      refine ⟨⟨fun j hj => ?_, a⟩, fun i => ?_⟩
      · have := (b j).1 hj; omega
      · rw [b i]
        constructor
        · rintro (rfl | ⟨h, g⟩)
          · simp
          · refine ⟨by omega, ?_⟩
            rw [show i - k = (i - (k + 1)) + 1 by omega, List.getElem?_cons_succ]; exact g
        · rintro ⟨h, g⟩
          rcases Nat.eq_or_lt_of_le h with rfl | h
          · exact Or.inl rfl
          · right
            rw [show i - k = (i - (k + 1)) + 1 by omega, List.getElem?_cons_succ] at g
            exact ⟨h, g⟩
    | some c =>
      simp only [List.filterMap_cons, Option.isNone_some, Bool.false_eq_true, if_false]
      refine ⟨a, fun i => ?_⟩
      rw [b i]
      constructor
      · rintro ⟨h, g⟩
        refine ⟨by omega, ?_⟩
        rw [show i - k = (i - (k + 1)) + 1 by omega, List.getElem?_cons_succ]; exact g
      · rintro ⟨h, g⟩
        rcases Nat.eq_or_lt_of_le h with rfl | h
        · simp at g
        · rw [show i - k = (i - (k + 1)) + 1 by omega, List.getElem?_cons_succ] at g
          exact ⟨h, g⟩

/-- The figures agree after they have been evaluated (R48, R98). -/
theorem figures_evalPool (s : State) : s.evalPool.FiguresAgree := by
  unfold State.FiguresAgree State.evalPool
  refine ⟨rfl, rfl, ?_, ?_⟩
  · show (withPoolShort s.st.faults s.pool.isShort).getLsbD 3 = true ↔ s.pool.free.length < s.pool.low
    unfold withPoolShort Pool.isShort
    by_cases h : s.pool.free.length < s.pool.low <;> simp [h, FaultKind.mask]
  · simp [State.putFaults, attnOf, State.setSt]

/-- A release appends its chunks and changes nothing else of the pool (R46). -/
theorem release_pool (s : State) (chunks : List Nat) :
    (s.release chunks).pool = { s.pool with free := s.pool.free ++ chunks } := by
  unfold State.release
  split
  · rename_i h
    simp at h
    simp [h]
  · rfl

/-- A release moves the band and the demanded step only. -/
theorem release_ctl (s : State) (chunks : List Nat) :
    (s.release chunks).ctl =
      { s.ctl with band := (s.release chunks).ctl.band, demanded := (s.release chunks).ctl.demanded } := by
  unfold State.release
  split <;> rfl

/-- A release keeps the figures in agreement. -/
theorem figures_release (s : State) (chunks : List Nat) (h : s.FiguresAgree) : (s.release chunks).FiguresAgree := by
  unfold State.release
  split
  · exact h
  · exact figures_evalPool _

/-- The start of a gather changes the state, the pixels and the presence set of its slot, and no list. -/
theorem startGather_lists (s : State) (k : SlotIx) (t : TileRef) :
    (s.startGather k t).asm.openList = s.asm.openList ∧ (s.startGather k t).asm.sealQueue = s.asm.sealQueue ∧
      (s.startGather k t).asm.held = s.asm.held ∧ ((s.startGather k t).slot k).pred = (s.slot k).pred ∧
      ((s.startGather k t).slot k).due = (s.slot k).due ∧ ∀ j, j ≠ k → (s.startGather k t).slot j = s.slot j := by
  unfold State.startGather
  split
  · have ea : (s.useMapTile t).asm = s.asm := touches_useMapTile s t .asm (by simp)
    have es : ∀ j, (s.useMapTile t).slot j = s.slot j := fun j => by unfold State.slot; rw [ea]
    simp only [putSlot_asm, slot_putSlot_same, ea, true_and]
    refine ⟨rfl, rfl, fun j h => ?_⟩
    rw [slot_putSlot_other _ _ _ _ h, es]
  · have ea : (s.joinDecode t fun e => { e with gather := some k }).asm = s.asm :=
      touches_joinDecode s t _ .asm (by simp)
    have es : ∀ j, (s.joinDecode t fun e => { e with gather := some k }).slot j = s.slot j := fun j => by
      unfold State.slot; rw [ea]
    simp [ea, es]

/-- A seal: the lists, the link and the due flag (R66). -/
theorem sealNow_lists (s : State) (k : SlotIx) :
    (s.sealNow k).asm.openList = s.asm.openList.erase k ∧ (s.sealNow k).asm.sealQueue = s.asm.sealQueue ++ [k] ∧
      (s.sealNow k).asm.held = s.asm.held ∧ ((s.sealNow k).slot k).pred = (s.slot k).pred ∧
      ((s.sealNow k).slot k).due = false ∧ ∀ j, j ≠ k → (s.sealNow k).slot j = s.slot j := by
  obtain ⟨v, hv⟩ : ∃ v, v = (s.putOpenList (s.asm.openList.erase k)).putSlot k
      { s.slot k with due := false, state := if (s.slot k).isFull then .sealed else .gathering } := ⟨_, rfl⟩
  obtain ⟨w, hw⟩ : ∃ w, w = v.putSealQueue (v.asm.sealQueue ++ [k]) := ⟨_, rfl⟩
  have lists : w.asm.openList = s.asm.openList.erase k ∧ w.asm.sealQueue = s.asm.sealQueue ++ [k] ∧
      w.asm.held = s.asm.held := by rw [hw, hv]; exact ⟨rfl, rfl, rfl⟩
  have same : w.slot k = v.slot k := by rw [hw]; rfl
  have here : v.slot k = { s.slot k with
      due := false, state := if (s.slot k).isFull then .sealed else .gathering } := by
    rw [hv]; exact slot_putSlot_same _ k _
  have others : ∀ j, j ≠ k → w.slot j = s.slot j := fun j h => by
    rw [hw, hv]; exact slot_putSlot_other _ k j _ h
  have cases : s.sealNow k = w ∨ ∃ t, s.sealNow k = w.startGather k t := by
    rw [hw, hv]
    unfold State.sealNow
    simp only
    split
    · exact Or.inr ⟨_, rfl⟩
    · exact Or.inl rfl
  rcases cases with e | ⟨t, e⟩
  · rw [e]
    exact ⟨lists.1, lists.2.1, lists.2.2, by rw [same, here], by rw [same, here], others⟩
  · rw [e]
    obtain ⟨a, b, c, d, f, g⟩ := startGather_lists w k t
    exact ⟨a.trans lists.1, b.trans lists.2.1, c.trans lists.2.2, by rw [d, same, here], by rw [f, same, here],
      fun j h => (g j h).trans (others j h)⟩

end Sys2Proof.Machine
end

