-- ==== Sys2Proof/Laws/Events.lean ====
section
/-! SUPPORT. What a command comes to: the order commands through the order unit's arrival, the requests through the bus, the status
write at the end of an event. -/

set_option Elab.async false

namespace Sys2Proof.Machine

theorem leBytes_length (n v : Nat) : (leBytes n v).length = n := by
  induction n generalizing v with
  | zero => rfl
  | succ n ih => simp [leBytes, ih]

theorem statusOfAp_length (s : State) (a : ApIx) : (s.statusOfAp a).length = 8 := by
  delta State.statusOfAp
  simp only [List.length_append, List.length_cons, List.length_nil]
  simp only [leBytes_length]

/-- The status block has 128 bytes (R185). -/
theorem statusBlock_length (s : State) : s.statusBlock.length = 128 := by
  delta State.statusBlock
  simp only [List.length_append, List.length_cons, List.length_nil]
  simp only [leBytes_length, statusOfAp_length]

/-- A status write that is due is issued (R187). -/
theorem issueStatus_due {s : State} (a : s.st.enable = true) (b : s.st.stale = true) (c : s.st.inFlight = false) :
    s.issueStatus = (s.setStore { s.store with
      status := s.store.status ++ [.statusWrite s.st.addr s.statusBlock] }).setSt
        { s.st with stale := false, inFlight := true, reissue := false } := by
  simp [State.issueStatus, a, b, c]

/-- A status write that is not due is not issued. -/
theorem issueStatus_not_due {s : State} (h : ¬(s.st.enable = true ∧ s.st.stale = true ∧ s.st.inFlight = false)) :
    s.issueStatus = s := by
  unfold State.issueStatus
  split
  · rename_i g
    simp only [Bool.and_eq_true, Bool.not_eq_true'] at g
    exact absurd ⟨g.1.1, g.1.2, g.2⟩ h
  · rfl

/-! ### Orders -/

/-- The order that a command brings arrives, and the event ends (R173). -/
theorem exec_order {c : Instr} {o : Order} (h : broughtOrder c = some o) (w : c.wf = true) (n : c ≠ .nop) (s : State) :
    exec c s = .next (s.arrive o).finish := by
  cases c <;> first | (cases h; done) | (cases h; rfl) | skip
  · exact absurd rfl n
  · cases h
    have w' : undefinedCode _ = true := w
    simp [exec, execUndefinedOrder, w', State.order]

/-- The order of an order command is neither NOP nor HALT but for those two. -/
theorem arrive_enqueue {c : Instr} {o : Order} (h : broughtOrder c = some o) (n : c ≠ .nop) (m : c ≠ .halt) (s : State)
    (r : s.resetLine = false) : s.arrive o = s.enqueue o := by
  cases c <;> first | (cases h; done) | (cases h; simp [State.arrive, r]; done) | skip
  · exact absurd rfl n
  · exact absurd rfl m

/-- A command's order is executed at once by an order unit that is ready (R173, R174). -/
theorem exec_ready {c : Instr} {o : Order} {s : State} (r : s.ReadyForOrder) (h : broughtOrder c = some o)
    (n : c ≠ .nop) (m : c ≠ .halt) (w : c.wf = true) : exec c s = .next (s.execute o).finish := by
  obtain ⟨r1, r2, r3⟩ := r
  rw [exec_order h w n, arrive_enqueue h n m s r1, State.enqueue, if_neg (by simp [r3, Config.orderQueueSize]),
    if_pos (by simp [r2, r3])]

/-- The effect of an order's refusal (R174). -/
theorem orderRefused_ord (s : State) (o : Order) (k : OrderReason) : (s.orderRefused o k).ord =
    { s.ord with executing := none, record := ⟨o.byte0, o.recordAp, .refused, some k, 0⟩
                 completed := s.ord.completed + 1 } := rfl

/-- The status unit after an order's refusal: ORDER is raised and the block is stale. -/
theorem orderRefused_st (s : State) (o : Order) (k : OrderReason) : (s.orderRefused o k).st =
    { s.st with faults := s.st.faults ||| 0x02, attn := attnOf (s.st.faults ||| 0x02) s.st.mask, stale := true } := by
  simp [State.orderRefused, State.concludeOrder, State.raise, State.putFaults, State.markStale, State.markIf,
    State.setSt, State.setOrd, FaultKind.mask]

/-- The status unit after a completion: the block is stale, nothing else. -/
theorem orderDone_st (s : State) (o : Order) : (s.orderDone o).st = { s.st with stale := true } := by
  simp [State.orderDone, State.concludeOrder, State.markStale, State.markIf, State.setSt, State.setOrd]

/-- A refused order has concluded (R174, R175). -/
theorem orderRefused_concluded (s : State) (o : Order) (k : OrderReason) :
    Concluded o s (s.orderRefused o k) .refused (some k) := ⟨rfl, rfl, rfl, rfl⟩

/-- A completed order has concluded (R174, R175). -/
theorem orderDone_concluded (s t : State) (o : Order) (h : t.ord = s.ord) :
    Concluded o s (t.orderDone o) .done none := by
  refine ⟨rfl, ?_, ?_, ?_⟩ <;>
    simp [State.orderDone, State.concludeOrder, State.markStale, State.markIf, State.setSt, State.setOrd, h]

/-! ### Requests -/

/-- A composer request of a length it can have is presented, and the event ends (R151). -/
theorem exec_request (kind : ReqKind) (addr : Addr) (s : State) (h : 1 ≤ kind.length) (k : kind.length ≤ 256) :
    exec (requestCommand kind addr) s = .next (s.present ⟨kind, addr⟩).finish := by
  cases kind <;> simp only [ReqKind.length] at h k <;>
    simp [requestCommand, exec, execComposerRead, execComposerWrite, lengthOk, h, k, Config.block]

/-! ### Events that come to rest -/

/-- A rule applies, and what is left is quiet: the end of the event is that rule's effect and the status write. -/
theorem finish_of_micro {s t : State} (h : s.micro = some t) (q : t.micro = none) (w : 1 ≤ s.work) :
    s.finish = t.issueStatus := by
  unfold State.finish
  obtain ⟨n, e⟩ : ∃ n, s.work = n + 1 := ⟨s.work - 1, by omega⟩
  rw [e, settle, h]
  cases n with
  | zero => rfl
  | succ n => simp [settle, q]

end Sys2Proof.Machine
end

