-- ==== Sys2Proof/Laws/Quiet.lean ====
section
/-! SUPPORT. When each of the ten rules of the end of an event applies, in terms of the blocks of the state; so a change that
leaves those blocks alone leaves a quiet state quiet. -/

set_option Elab.async false

namespace Sys2Proof.Machine

theorem grantWaiting_none_iff (s : State) : s.grantWaiting = none ↔
    ∀ n, s.pool.waiting = some n → s.enc.op.isSome = true → s.pool.free.length < n := by
  unfold State.grantWaiting
  split
  · rename_i n op h1 h2
    simp [h1, h2, State.canGrant]
  · rename_i h
    simp only [true_iff]
    intro n h1 h2
    obtain ⟨op, h3⟩ := Option.isSome_iff_exists.1 h2
    exact absurd h3 (h n op h1)

theorem movePending_none_iff (s : State) : s.movePending = none ↔
    (s.rd.pendingList = [] ∨ 288 ≤ s.rd.queue.length) := by
  unfold State.movePending
  split
  · simp [*]
  · rename_i h
    rw [h]
    dsimp only
    split
    · rename_i c
      simp only [Config.decodeQueueSize] at c
      simp
      omega
    · rename_i c
      simp only [Config.decodeQueueSize] at c
      simp
      omega

theorem startDecode_none_iff (s : State) : s.startDecode = none ↔
    (s.rd.decoder.isSome = true ∨ s.rd.queue = []) := by
  unfold State.startDecode
  split
  · rename_i h1 h2
    simp [h1, h2]
  · rename_i h
    simp only [true_iff]
    cases hd : s.rd.decoder with
    | some d => simp
    | none =>
      cases hq : s.rd.queue with
      | nil => simp
      | cons e r => exact absurd hq (h e r hd)

theorem grantHeld_none_iff (s : State) : s.grantHeld = none ↔ (s.asm.held = [] ∨ s.freeSlot? = none) := by
  unfold State.grantHeld
  split
  · rename_i h1 h2
    simp [h1, h2]
  · rename_i h
    simp only [true_iff]
    cases hd : s.asm.held with
    | nil => simp
    | cons e r =>
      cases hq : s.freeSlot? with
      | none => simp
      | some k => exact absurd hq (h e r k hd)

theorem proceedNext_none_iff (s : State) : s.proceedNext = none ↔ nextPart [] s.port.window = none := by
  simp [State.proceedNext]

theorem respond_none_iff (s : State) : s.respond = none ↔
    ∀ r, s.port.window.head? = some r → r.isComplete = false := by
  unfold State.respond
  split
  · simp [*]
  · rename_i h
    simp [h]

theorem takeBus_none_iff (s : State) : s.takeBus = none ↔
    (s.port.busHeld = [] ∨ s.resetLine = true ∨ 32 ≤ s.port.window.length) := by
  unfold State.takeBus
  split
  · simp [*]
  · rename_i h
    rw [h]
    dsimp only
    split
    · rename_i c
      rw [State.holdsBus, Bool.or_eq_true, decide_eq_true_eq] at c
      simp only [Config.windowSize] at c
      simp
      exact c
    · rename_i c
      rw [State.holdsBus, Bool.or_eq_true, decide_eq_true_eq] at c
      simp only [Config.windowSize] at c
      simp
      simpa using c

/-- The condition of the end of the executing long order (R36, R77, R78). -/
theorem endLongOrder_none_iff (s : State) : s.endLongOrder = none ↔
    ((∀ ap zero b2, s.ord.executing = some (.close ap zero b2) → s.walkDone = none) ∧
      ∀ all freeze ap zero b2, s.ord.executing = some (.flush all freeze ap zero b2) →
        if freeze && !all then s.freezeMet (apOf ap) = false else s.anyMark = true) := by
  unfold State.endLongOrder
  cases h : s.ord.executing with
  | none => simp
  | some o =>
    cases o with
    | flush all freeze ap zero b2 =>
      constructor
      · intro k
        refine ⟨fun _ _ _ e => (by cases e), fun all' freeze' ap' zero' b2' e => ?_⟩
        cases e
        dsimp only at k
        split at k
        · rename_i c
          rw [if_pos c]
          split at k
          · cases k
          · exact Bool.eq_false_iff.2 ‹_›
        · rename_i c
          rw [if_neg c]
          split at k
          · assumption
          · cases k
      · rintro ⟨-, k⟩
        have k' := k all freeze ap zero b2 rfl
        dsimp only
        split
        · rename_i c
          rw [if_pos c] at k'
          rw [k']
          rfl
        · rename_i c
          rw [if_neg c] at k'
          rw [k']
          rfl
    | close ap zero b2 => simp
    | _ => simp

theorem takeOrder_none_iff (s : State) : s.takeOrder = none ↔
    (s.ord.executing.isSome = true ∨ s.ord.queue = []) := by
  unfold State.takeOrder
  split
  · rename_i h1 h2
    simp [h1, h2]
  · rename_i h
    simp only [true_iff]
    cases hd : s.ord.executing with
    | some d => simp
    | none =>
      cases hq : s.ord.queue with
      | nil => simp
      | cons e r => exact absurd hq (h e r hd)

theorem takeSealed_none_iff (s : State) : s.takeSealed = none ↔
    (s.enc.op.isSome = true ∨ ∀ k, s.asm.sealQueue.head? = some k →
      (s.slot k).state ≠ .sealed ∨ (s.slot k).tile = none) := by
  unfold State.takeSealed
  split
  · rename_i k rest h1 h2
    rw [h1, h2]
    simp only [Option.isSome_none, Bool.false_eq_true, List.head?_cons, Option.some.injEq, forall_eq', false_or]
    split
    · rename_i h3 h4
      simp [h3, h4]
    · rename_i h
      simp only [true_iff]
      by_cases h3 : (s.slot k).state = .sealed
      · right
        cases h4 : (s.slot k).tile with
        | none => rfl
        | some t => exact absurd h4 (h t h3)
      · exact Or.inl h3
  · rename_i h
    simp only [true_iff]
    cases hd : s.enc.op with
    | some d => simp
    | none =>
      cases hq : s.asm.sealQueue with
      | nil => simp
      | cons e r => exact absurd hq (h e r hd)

/-- The blocks that the rules look at. -/
abbrev ruleBlocks : List Block := [.aps, .map, .pool, .asm, .enc, .rd, .port, .ord]

/-- A state that agrees in the rules' blocks, with no request waiting on the bus or the RESET line the same, is quiet with the
other. -/
theorem quiet_of_same {s t : State} (h : ∀ b ∈ ruleBlocks, SameBlock b s t)
    (r : s.port.busHeld = [] ∨ t.resetLine = s.resetLine) (q : s.Quiet) : t.Quiet := by
  have h1 : t.aps = s.aps := h .aps (by decide)
  have h2 : t.map = s.map := h .map (by decide)
  have h3 : t.pool = s.pool := h .pool (by decide)
  have h4 : t.asm = s.asm := h .asm (by decide)
  have h5 : t.enc = s.enc := h .enc (by decide)
  have h6 : t.rd = s.rd := h .rd (by decide)
  have h7 : t.port = s.port := h .port (by decide)
  have h8 : t.ord = s.ord := h .ord (by decide)
  have hs : ∀ k, t.slot k = s.slot k := fun k => by rw [State.slot, State.slot, h4]
  have ha : ∀ a, t.ap a = s.ap a := fun a => by rw [State.ap, State.ap, h1]
  have hf : t.freeSlot? = s.freeSlot? := by rw [State.freeSlot?, State.freeSlot?, State.firstSlot, State.firstSlot, h4]
  have hw : t.walkDone = s.walkDone := by
    have k : ∀ a, t.encoderHolds a = s.encoderHolds a := fun a => by rw [State.encoderHolds, State.encoderHolds, h5]
    unfold State.walkDone
    rw [h2]
    congr 1
    funext w
    rw [ha, k]
  have hz : ∀ a, t.freezeMet a = s.freezeMet a := fun a => by simp only [State.freezeMet, h4, h7]
  have hm : t.anyMark = s.anyMark := by simp only [State.anyMark, h4]
  obtain ⟨q1, q2, q3, q4, q5, q6, q7, q8, q9, q10⟩ := (quiet_iff s).1 q
  refine (quiet_iff t).2 ⟨?_, ?_, ?_, ?_, ?_, ?_, ?_, ?_, ?_, ?_⟩
  · rw [grantWaiting_none_iff] at q1 ⊢; rw [h3, h5]; exact q1
  · rw [movePending_none_iff] at q2 ⊢; rw [h6]; exact q2
  · rw [startDecode_none_iff] at q3 ⊢; rw [h6]; exact q3
  · rw [grantHeld_none_iff] at q4 ⊢; rw [h4, hf]; exact q4
  · rw [proceedNext_none_iff] at q5 ⊢; rw [h7]; exact q5
  · rw [respond_none_iff] at q6 ⊢; rw [h7]; exact q6
  · rw [takeBus_none_iff] at q7 ⊢
    rw [h7]
    rcases r with r | r
    · exact Or.inl r
    · rw [r]; exact q7
  · rw [endLongOrder_none_iff] at q8 ⊢
    rw [h8, hw, hm]
    simp only [hz]
    exact q8
  · rw [takeOrder_none_iff] at q9 ⊢; rw [h8]; exact q9
  · rw [takeSealed_none_iff] at q10 ⊢
    rw [h5, h4]
    simp only [hs]
    exact q10

/-- A change of other blocks leaves a quiet state quiet. -/
theorem quiet_of_touches {B : List Block} {s t : State} (h : OnlyTouches B s t)
    (k : ∀ b ∈ B, b ∉ ruleBlocks ∧ b ≠ .resetLine) (q : s.Quiet) : t.Quiet :=
  quiet_of_same (fun b hb => h b fun c => (k b c).1 hb) (Or.inr (h .resetLine fun c => (k _ c).2 rfl)) q

end Sys2Proof.Machine
end

