-- ==== Sys2Proof/Laws/Invariant.lean ====
section
/-! SUPPORT. How an invariant is shown to be kept by every step: it is enough that each operation a command starts with, each of
the ten rules and the status write keep it, each under what is known where the step uses it. -/

set_option Elab.async false

namespace Sys2Proof.Machine

/-- The operations that commands start with keep `P`. -/
structure KeptByCommands (P : State → Prop) : Prop where
  setPending : ∀ s l, P s → P (s.setPending l)
  issueStatus : ∀ s : State, P s → P s.issueStatus
  powerOn : ∀ s : State, P s → P s.powerOn
  resetAsserted : ∀ s : State, P s → P s.resetAsserted
  release : ∀ s, P s → P (s.setResetLine false)
  resetLink : ∀ s : State, P s → P s.resetLink
  bitTimeout : ∀ s : State, P s → P s.bitTimeout
  illegalClass : ∀ s : State, P s → P s.illegalClass
  firstEdge : ∀ s : State, P s → P s.firstEdge
  goDeaf : ∀ s : State, s.link.state = .taking → P s → P s.goDeaf
  takeBit : ∀ s b, s.link.state = .taking → P s → P (State.takeBit s b)
  arrive : ∀ s o, P s → P (State.arrive s o)
  present : ∀ s q, P s → P (State.present s q)
  turn : ∀ s : State, s.resetLine = false → P s → P (s.setStore s.store.turn)
  ignoreAnswer : ∀ s : State, 0 < s.store.ignore → P s → P s.ignoreAnswer
  passRead : ∀ s id addr n rest status data, s.store.outstanding = .passRead id addr n :: rest → P s →
    P (s.popOutstanding.passAnswered id status data)
  passWrite : ∀ s id addr bytes rest status data, s.store.outstanding = .passWrite id addr bytes :: rest → P s →
    P (s.popOutstanding.passAnswered id status data)
  chunkAnswered : ∀ s addr rest status data, s.store.outstanding = .chunkRead addr :: rest → P s →
    P (s.popOutstanding.chunkAnswered status data)
  chunkWritten : ∀ s i c addr data rest status, s.store.outstanding = .chunkWrite i c addr data :: rest → P s →
    P (s.popOutstanding.chunkWritten i c status)
  statusAnswered : ∀ s addr data rest status, s.store.outstanding = .statusWrite addr data :: rest → P s →
    P (s.popOutstanding.statusAnswered status)
  endDecode : ∀ s : State, P s → P s.endDecode
  endRefit : ∀ s op, s.enc.op = some op → op.isCoding = true → P s → P (State.endRefit s op)
  endCoding : ∀ s op, s.enc.op = some op → op.isCoding = true → P s → P (State.endCoding s op)
  expireWait : ∀ s op, s.enc.op = some op → op.stage = .poolWait → P s → P (State.expireWait s op)
  endRecode : ∀ s op, s.enc.op = some op → op.isRecoding = true → P s → P (State.endRecode s op)
  visitEntry : ∀ s w, s.map.walk = some w → w.next < (s.ap w.ap).extLen → P s → P (State.visitEntry s w)

/-- The ten rules keep `P`. -/
structure KeptByRules (P : State → Prop) : Prop where
  grantWaiting : ∀ s t, State.grantWaiting s = some t → P s → P t
  movePending : ∀ s t, State.movePending s = some t → P s → P t
  startDecode : ∀ s t, State.startDecode s = some t → P s → P t
  grantHeld : ∀ s t, State.grantHeld s = some t → P s → P t
  proceedNext : ∀ s t, State.proceedNext s = some t → P s → P t
  respond : ∀ s t, State.respond s = some t → P s → P t
  takeBus : ∀ s t, State.takeBus s = some t → P s → P t
  endLongOrder : ∀ s t, State.endLongOrder s = some t → P s → P t
  takeOrder : ∀ s t, State.takeOrder s = some t → P s → P t
  takeSealed : ∀ s t, State.takeSealed s = some t → P s → P t

variable {P : State → Prop}

theorem KeptByRules.micro (r : KeptByRules P) {s t : State} (h : s.micro = some t) (k : P s) : P t := by
  rcases micro_cases h with h | h | h | h | h | h | h | h | h | h
  · exact r.grantWaiting s t h k
  · exact r.movePending s t h k
  · exact r.startDecode s t h k
  · exact r.grantHeld s t h k
  · exact r.proceedNext s t h k
  · exact r.respond s t h k
  · exact r.takeBus s t h k
  · exact r.endLongOrder s t h k
  · exact r.takeOrder s t h k
  · exact r.takeSealed s t h k

/-- The end of an event keeps what the rules and the status write keep. -/
theorem finish_keeps (c : KeptByCommands P) (r : KeptByRules P) {s : State} (k : P s) : P s.finish :=
  c.issueStatus _ (settle_induct P (fun _ _ => r.micro) _ s k)

theorem takeHigh_keeps (c : KeptByCommands P) (r : KeptByRules P) (s : State) (h : Nat) (k : P s) : P (s.takeHigh h) := by
  unfold State.takeHigh
  split
  · rename_i l
    split
    · exact c.issueStatus _ (c.goDeaf _ l k)
    · have e := c.takeBit s (decide (Config.bitOneNs ≤ h)) l k
      unfold State.endBit
      split
      · exact finish_keeps c r e
      all_goals exact c.issueStatus _ e
  all_goals exact k

theorem takePulse_keeps (c : KeptByCommands P) (r : KeptByRules P) (s : State) (h : Nat) (k : P s) : P (s.takePulse h) := by
  have e := takeHigh_keeps c r _ h (c.issueStatus _ (c.firstEdge s k))
  unfold State.takePulse
  dsimp only
  split
  · exact c.issueStatus _ (c.resetLink _ e)
  · exact e

theorem takePulses_keeps (c : KeptByCommands P) (r : KeptByRules P) (hs : List Nat) (s : State) (k : P s) :
    P (s.takePulses hs) := by
  induction hs generalizing s with
  | nil => exact k
  | cons h hs ih => exact ih _ (takePulse_keeps c r s h k)

/-- An order command keeps what its order's arrival and the end of an event keep. -/
theorem order_keeps (c : KeptByCommands P) (r : KeptByRules P) {s t : State} {o : Order} (k : P s)
    (h : s.order o = .next t) : P t := by
  cases h
  exact finish_keeps c r (c.arrive s o k)

/-- Every command keeps `P`. -/
theorem exec_keeps (c : KeptByCommands P) (r : KeptByRules P) (i : Instr) {s t : State} (k : P s)
    (h : exec i s = .next t) : P t := by
  have f : ∀ {s : State}, P s → P s.finish := fun k => finish_keeps c r k
  cases i <;> simp only [exec] at h
  case powerOn => cases h; exact c.powerOn s k
  case reset => cases h; exact c.issueStatus _ (c.resetAsserted s k)
  case resetRelease =>
    unfold execResetRelease at h
    split at h <;> cases h
    · exact f (c.release s k)
    · exact k
  case lineReset => cases h; exact c.issueStatus _ (c.resetLink s k)
  case bitError => cases h; exact c.issueStatus _ (c.bitTimeout s k)
  case illegalLengthClass cls =>
    unfold execIllegalLengthClass at h
    split at h <;> cases h
    exact c.issueStatus _ (c.illegalClass s k)
  case orderFrame hs => cases h; exact takePulses_keeps c r hs s k
  case nop => cases h; exact c.arrive s _ k
  case undefinedOrder b =>
    unfold execUndefinedOrder at h
    split at h
    · exact order_keeps c r k h
    · cases h
  case composerRead addr n =>
    unfold execComposerRead at h
    split at h <;> cases h
    exact f (c.present s _ k)
  case composerWrite addr bytes =>
    unfold execComposerWrite at h
    split at h <;> cases h
    exact f (c.present s _ k)
  case storeTurn =>
    unfold execStoreTurn at h
    split at h
    · cases h; exact k
    · rename_i l
      cases h
      exact c.turn s (Bool.eq_false_iff.2 l) k
  case passThroughAnswer status data =>
    unfold execPassThroughAnswer at h
    split at h
    · cases h
    · split at h
      · rename_i l
        cases h
        exact c.ignoreAnswer s l k
      · split at h
        · rename_i o
          cases h
          exact f (c.passRead s _ _ _ _ _ _ o k)
        · rename_i o
          cases h
          exact f (c.passWrite s _ _ _ _ _ _ o k)
        · cases h
  case chunkReadAnswer status data =>
    unfold execChunkReadAnswer at h
    split at h
    · cases h
    · split at h
      · rename_i l
        cases h
        exact c.ignoreAnswer s l k
      · split at h
        · rename_i o
          cases h
          exact f (c.chunkAnswered s _ _ _ _ o k)
        · cases h
  case chunkWriteAnswer status =>
    unfold execChunkWriteAnswer at h
    split at h
    · rename_i l
      cases h
      exact c.ignoreAnswer s l k
    · split at h
      · rename_i o
        cases h
        exact f (c.chunkWritten s _ _ _ _ _ _ o k)
      · cases h
  case statusWriteAnswer status =>
    unfold execStatusWriteAnswer at h
    split at h
    · rename_i l
      cases h
      exact c.ignoreAnswer s l k
    · split at h
      · rename_i o
        cases h
        exact f (c.statusAnswered s _ _ _ _ o k)
      · cases h
  case ignoredAnswer status =>
    unfold execIgnoredAnswer at h
    split at h
    · rename_i l
      cases h
      exact c.ignoreAnswer s l k
    · cases h
  case decodeEnd =>
    unfold execDecodeEnd at h
    split at h
    · split at h <;> cases h
      · exact f (c.endDecode s k)
      · exact k
    · cases h; exact k
  case refitEnd =>
    unfold execRefitEnd at h
    split at h
    · rename_i o
      split at h
      · rename_i l
        cases h
        exact f (c.endRefit s _ o l k)
      · cases h; exact k
    · cases h; exact k
  case codingEnd =>
    unfold execCodingEnd at h
    split at h
    · rename_i o
      split at h
      · rename_i l
        cases h
        exact f (c.endCoding s _ o l k)
      · cases h; exact k
    · cases h; exact k
  case poolWaitExpiry =>
    unfold execPoolWaitExpiry at h
    split at h
    · rename_i o
      split at h
      · rename_i l
        cases h
        exact f (c.expireWait s _ o l k)
      · cases h; exact k
    · cases h; exact k
  case recodeEnd =>
    unfold execRecodeEnd at h
    split at h
    · rename_i o
      split at h
      · rename_i l
        cases h
        exact f (c.endRecode s _ o l k)
      · cases h; exact k
    · cases h; exact k
  case retireWalkVisit =>
    unfold execRetireWalkVisit at h
    split at h
    · rename_i o
      split at h
      · rename_i l
        cases h
        exact f (c.visitEntry s _ o l k)
      · cases h; exact k
    · cases h; exact k
  case firstBitEdge => cases h; exact c.issueStatus _ (c.firstEdge s k)
  all_goals exact order_keeps c r k h

/-- Every step keeps `P`. -/
theorem step_keeps (c : KeptByCommands P) (r : KeptByRules P) {s t : State} (k : P s) (h : step s = .next t) : P t := by
  unfold step at h
  split at h
  · cases h; exact k
  · exact exec_keeps c r _ (c.setPending s _ k) h

end Sys2Proof.Machine
end

