-- ==== Sys2Proof/Laws/Map.lean ====
section
/-! SUPPORT. The tile map's list of entries: every operation keeps its canonical form, and what each leaves at each number. -/

set_option Elab.async false

namespace Sys2Proof.Machine

theorem entriesWfFrom_mono {l : List (Nat × MapEntry)} {a b : Nat} (h : entriesWfFrom b l = true) (k : a ≤ b) :
    entriesWfFrom a l = true := by
  cases l with
  | nil => rfl
  | cons x xs =>
    simp only [entriesWfFrom, Bool.and_eq_true, decide_eq_true_eq] at h ⊢
    exact ⟨⟨by omega, h.1.2⟩, h.2⟩

/-- A number below a canonical list's bound is not listed. -/
theorem entryAt_below {l : List (Nat × MapEntry)} {lo i : Nat} (h : entriesWfFrom lo l = true) (k : i < lo) :
    entryAt l i = MapEntry.fresh := by
  induction l generalizing lo with
  | nil => rfl
  | cons x xs ih =>
    simp only [entriesWfFrom, Bool.and_eq_true, decide_eq_true_eq] at h
    rw [entryAt, if_neg (by omega)]
    exact ih h.2 (by omega)

/-- The replacement of an entry keeps the canonical form, from any lower bound that the number meets. -/
theorem putEntry_wfFrom {l : List (Nat × MapEntry)} {lo i : Nat} {e : MapEntry} (h : entriesWfFrom lo l = true)
    (k : lo ≤ i) : entriesWfFrom lo (putEntry l i e) = true := by
  induction l generalizing lo with
  | nil =>
    unfold putEntry
    split
    · rfl
    · simp [entriesWfFrom, *]
  | cons x xs ih =>
    have g := h
    simp only [entriesWfFrom, Bool.and_eq_true, decide_eq_true_eq] at h
    unfold putEntry
    split
    · split
      · exact g
      · simp only [entriesWfFrom, Bool.and_eq_true, decide_eq_true_eq]
        exact ⟨⟨k, by assumption⟩, ⟨by omega, h.1.2⟩, h.2⟩
    · split
      · split
        · exact entriesWfFrom_mono h.2 (by omega)
        · simp only [entriesWfFrom, Bool.and_eq_true, decide_eq_true_eq]
          refine ⟨⟨k, by assumption⟩, ?_⟩
          rename_i e _
          rw [e]
          exact h.2
      · simp only [entriesWfFrom, Bool.and_eq_true, decide_eq_true_eq]
        exact ⟨h.1, ih h.2 (by omega)⟩

/-- The replacement of an entry keeps the canonical form. -/
theorem putEntry_wf {l : List (Nat × MapEntry)} (i : Nat) (e : MapEntry) (h : entriesWfFrom 0 l = true) :
    entriesWfFrom 0 (putEntry l i e) = true := putEntry_wfFrom h (Nat.zero_le i)

/-- The entry just replaced reads as the replacement: in a canonical list always, in any list unless it is a fresh one. -/
theorem entryAt_putEntry_same {l : List (Nat × MapEntry)} (i : Nat) (e : MapEntry)
    (h : entriesWfFrom 0 l = true ∨ e ≠ MapEntry.fresh) : entryAt (putEntry l i e) i = e := by
  have g : (∃ lo, entriesWfFrom lo l = true) ∨ e ≠ MapEntry.fresh := h.imp (fun x => ⟨0, x⟩) id
  clear h
  induction l with
  | nil =>
    unfold putEntry
    split
    · simp [entryAt, *]
    · simp [entryAt]
  | cons x xs ih =>
    have g' : (∃ lo, entriesWfFrom lo xs = true) ∨ e ≠ MapEntry.fresh := by
      refine g.imp ?_ id
      rintro ⟨lo, h⟩
      simp only [entriesWfFrom, Bool.and_eq_true] at h
      exact ⟨_, h.2⟩
    unfold putEntry
    split
    · split
      · rename_i lt fr
        obtain ⟨lo, h⟩ := g.resolve_right (fun c => c fr)
        simp only [entriesWfFrom, Bool.and_eq_true, decide_eq_true_eq] at h
        rw [entryAt, if_neg (by omega), fr]
        exact entryAt_below h.2 (by omega)
      · simp [entryAt]
    · split
      · split
        · rename_i eq fr
          obtain ⟨lo, h⟩ := g.resolve_right (fun c => c fr)
          simp only [entriesWfFrom, Bool.and_eq_true, decide_eq_true_eq] at h
          rw [fr]
          exact entryAt_below h.2 (by omega)
        · simp [entryAt]
      · rw [entryAt, if_neg (by omega)]
        exact ih g'

/-- Every other entry reads as before. -/
theorem entryAt_putEntry_other (l : List (Nat × MapEntry)) {i j : Nat} (e : MapEntry) (h : j ≠ i) :
    entryAt (putEntry l i e) j = entryAt l j := by
  induction l with
  | nil =>
    unfold putEntry
    split
    · rfl
    · simp [entryAt, Ne.symm h]
  | cons x xs ih =>
    unfold putEntry
    split
    · split
      · rfl
      · rw [entryAt, if_neg (Ne.symm h)]
    · split
      · split
        · rw [entryAt, if_neg (by omega)]
        · rw [entryAt, if_neg (Ne.symm h), entryAt, if_neg (by omega)]
      · rw [entryAt, entryAt, ih]

theorem clearEntries_wfFrom {l : List (Nat × MapEntry)} {lo : Nat} (first len : Nat) (h : entriesWfFrom lo l = true) :
    entriesWfFrom lo (clearEntries l first len) = true := by
  induction l generalizing lo with
  | nil => rfl
  | cons x xs ih =>
    simp only [entriesWfFrom, Bool.and_eq_true, decide_eq_true_eq] at h
    unfold clearEntries
    rw [List.filter_cons]
    split
    · simp only [entriesWfFrom, Bool.and_eq_true, decide_eq_true_eq]
      exact ⟨h.1, ih h.2⟩
    · exact entriesWfFrom_mono (ih h.2) (by omega)

/-- The clearing of a run keeps the canonical form. -/
theorem clearEntries_wf {l : List (Nat × MapEntry)} (first len : Nat) (h : entriesWfFrom 0 l = true) :
    entriesWfFrom 0 (clearEntries l first len) = true := clearEntries_wfFrom first len h

/-- The entries of a run that is cleared read UNWRITTEN with generation 0. -/
theorem entryAt_clearEntries_in (l : List (Nat × MapEntry)) {first len i : Nat} (h : first ≤ i) (k : i < first + len) :
    entryAt (clearEntries l first len) i = MapEntry.fresh := by
  induction l with
  | nil => rfl
  | cons x xs ih =>
    unfold clearEntries at ih ⊢
    rw [List.filter_cons]
    split
    · rename_i c
      rw [entryAt, if_neg ?_]
      · exact ih
      · rintro rfl
        simp [h, k] at c
    · exact ih

/-- The entries outside a run that is cleared read as before. -/
theorem entryAt_clearEntries_out (l : List (Nat × MapEntry)) {first len i : Nat} (h : i < first ∨ first + len ≤ i) :
    entryAt (clearEntries l first len) i = entryAt l i := by
  induction l with
  | nil => rfl
  | cons x xs ih =>
    unfold clearEntries at ih ⊢
    rw [List.filter_cons]
    split
    · rw [entryAt, entryAt, ih]
    · rename_i c
      rw [entryAt, if_neg ?_]
      · exact ih
      · rintro rfl
        simp at c
        omega

/-- The map after power-on is canonical. -/
theorem reset_map_wf : TileMap.reset.wf = true := rfl

/-- First fit takes the first extent that is long enough (R26). -/
theorem takeExtent_append {before after : List Extent} {e : Extent} {n : Nat} (h : ∀ x ∈ before, x.len < n)
    (k : n ≤ e.len) : takeExtent (before ++ e :: after) n =
      some (e.first, before ++ (if e.len = n then after else ⟨e.first + n, e.len - n⟩ :: after)) := by
  induction before with
  | nil => simp [takeExtent, k]
  | cons x xs ih =>
    have hx := h x (by simp)
    rw [List.cons_append, takeExtent, if_neg (by omega), ih fun y hy => h y (by simp [hy])]
    rfl

/-- First fit takes a run from one extent and leaves every other entry where it was. -/
theorem takeExtent_covers {l left : List Extent} {n first : Nat} (h : takeExtent l n = some (first, left)) (i : Nat) :
    (∃ x ∈ l, x.first ≤ i ∧ i < x.first + x.len) ↔
      (first ≤ i ∧ i < first + n) ∨ ∃ x ∈ left, x.first ≤ i ∧ i < x.first + x.len := by
  induction l generalizing left with
  | nil => cases h
  | cons e rest ih =>
    rw [takeExtent] at h
    split at h
    · rename_i le
      obtain ⟨rfl, rfl⟩ := Prod.mk.inj (Option.some.inj h)
      by_cases q : e.len = n
      · rw [if_pos q]
        simp only [List.mem_cons, exists_eq_or_imp, q]
      · rw [if_neg q]
        simp only [List.mem_cons, exists_eq_or_imp, ← or_assoc]
        refine or_congr_left ?_
        omega
    · cases k : takeExtent rest n with
      | none => rw [k] at h; cases h
      | some p =>
        rw [k] at h
        obtain ⟨rfl, rfl⟩ := Prod.mk.inj (Option.some.inj h)
        simp only [List.mem_cons, exists_eq_or_imp, ih k]
        tauto

/-- A returned extent joins the free entries, and no other entry does (R36). -/
theorem returnExtent_covers (l : List Extent) (x : Extent) (i : Nat) :
    (∃ y ∈ returnExtent l x, y.first ≤ i ∧ i < y.first + y.len) ↔
      (x.first ≤ i ∧ i < x.first + x.len) ∨ ∃ y ∈ l, y.first ≤ i ∧ i < y.first + y.len := by
  induction l generalizing x with
  | nil => simp [returnExtent]
  | cons e rest ih =>
    rw [returnExtent]
    split
    · simp only [List.mem_cons, exists_eq_or_imp]
    · split
      · simp only [List.mem_cons, exists_eq_or_imp, ← or_assoc]
        refine or_congr_left ?_
        omega
      · split
        · simp only [ih, List.mem_cons, exists_eq_or_imp, ← or_assoc]
          refine or_congr_left ?_
          omega
        · simp only [List.mem_cons, exists_eq_or_imp, ih]
          tauto

/-- No extent is long enough. -/
theorem takeExtent_none {l : List Extent} {n : Nat} (h : ∀ x ∈ l, x.len < n) : takeExtent l n = none := by
  induction l with
  | nil => rfl
  | cons x xs ih =>
    have hx := h x (by simp)
    rw [takeExtent, if_neg (by omega), ih fun y hy => h y (by simp [hy])]
    rfl

end Sys2Proof.Machine
end

