-- ==== Sys2Proof/Laws/Regions.lean ====
section
/-! SUPPORT. The regions of the address space: the overlap checks as ranges of addresses (R11), that a run which meets none of
the regions shares no address with them, and that an address lies in one region at most. -/

set_option Elab.async false

namespace Sys2Proof.Machine

theorem pixelSize_eq (fmt : Format) : fmt.pixelSize = if fmt = .rgb8 then 4 else 8 := by cases fmt <;> rfl

theorem size_eq (x : Aperture) : x.size = x.width * 32 * (if x.fmt = .rgb8 then 4 else 8) * x.height * 32 := by
  rw [Aperture.size, byteSize, pitchOf, pixelSize_eq]

theorem runsMeet_iff (a la b lb : Nat) : runsMeet a la b lb = true ↔ a < b + lb ∧ b < a + la := by
  simp [runsMeet]

/-- The overlap check against the pool region (R11). -/
theorem meetsPool_iff (s : State) (a la : Nat) :
    s.meetsPool a la = true ↔ s.pool.count ≠ 0 ∧ a < s.pool.base + 256 * s.pool.count ∧ s.pool.base < a + la := by
  rw [State.meetsPool, Bool.and_eq_true, decide_eq_true_iff, runsMeet_iff]
  rfl

/-- The overlap check against the enabled status block (R11). -/
theorem meetsStatus_iff (s : State) (a la : Nat) :
    s.meetsStatus a la = true ↔ s.st.enable = true ∧ a < s.st.addr + 128 ∧ s.st.addr < a + la := by
  rw [State.meetsStatus, Bool.and_eq_true, runsMeet_iff]
  rfl

theorem isLive_iff (x : Aperture) : x.isLive = true ↔ x.state ≠ .closed := by simp [Aperture.isLive]

/-- The overlap check against the ranges of the apertures that are not CLOSED (R11). -/
theorem meetsAperture_iff (s : State) (a la : Nat) :
    s.meetsAperture a la = true ↔ ∃ b, (s.ap b).state ≠ .closed ∧ (s.ap b).base < a + la ∧
      a < (s.ap b).base + (s.ap b).width * 32 * (if (s.ap b).fmt = .rgb8 then 4 else 8) * (s.ap b).height * 32 := by
  rw [State.meetsAperture, List.any_eq_true]
  constructor
  · rintro ⟨x, m, h⟩
    obtain ⟨i, l, e⟩ := List.mem_iff_getElem.1 m
    have v : x = s.ap ⟨i, by simpa using l⟩ := by
      rw [← e, State.ap, Vector.get_eq_getElem]
      exact Vector.getElem_toList _
    rw [Bool.and_eq_true, isLive_iff, runsMeet_iff, size_eq, v] at h
    exact ⟨_, h.1, h.2.2, h.2.1⟩
  · rintro ⟨b, h, u, w⟩
    refine ⟨s.ap b, ?_, ?_⟩
    · rw [State.ap, Vector.get_eq_getElem]
      exact List.mem_of_getElem (i := b.val) (h := by simp) (Vector.getElem_toList _)
    · rw [Bool.and_eq_true, isLive_iff, runsMeet_iff, size_eq]
      exact ⟨h, w, u⟩

/-- A run that meets no aperture's range holds no address of one. -/
theorem not_inAperture {s : State} {a la x : Nat} (h : s.meetsAperture a la = false) (lo : a ≤ x) (hi : x < a + la)
    (b : ApIx) : ¬s.InAperture b x := by
  rintro ⟨u, v, w⟩
  rw [Bool.eq_false_iff] at h
  exact h ((meetsAperture_iff s a la).2 ⟨b, u, by omega, by omega⟩)

/-- A run that does not meet the pool region holds no address of it. -/
theorem not_inPool {s : State} {a la x : Nat} (h : s.meetsPool a la = false) (lo : a ≤ x) (hi : x < a + la) :
    ¬s.InPool x := by
  rintro ⟨v, w⟩
  rw [Bool.eq_false_iff] at h
  exact h ((meetsPool_iff s a la).2 ⟨by rintro e; rw [e] at w; omega, by omega, by omega⟩)

/-- A run that does not meet the enabled status block holds no address of it. -/
theorem not_inStatus {s : State} {a la x : Nat} (h : s.meetsStatus a la = false) (lo : a ≤ x) (hi : x < a + la) :
    ¬s.InStatus x := by
  rintro ⟨u, v, w⟩
  rw [Bool.eq_false_iff] at h
  exact h ((meetsStatus_iff s a la).2 ⟨u, by omega, by omega⟩)

/-- With the regions apart, the range that holds an address is the only one (R11). -/
theorem RegionsOk.only {s : State} (h : s.RegionsOk) {a b : ApIx} {x : Nat} (k : s.InAperture a x) (n : b ≠ a) :
    ¬s.InAperture b x := fun m => n (h.1 x b a m k)

end Sys2Proof.Machine
end

