-- ==== Sys2Proof/Laws/Parts.lean ====
section
/-! SUPPORT. The tile parts of an aperture request, by its pixels (R8, R9, R13, R153). -/

set_option Elab.async false

namespace Sys2Proof.Machine

/-- A pixel added to parts in the order of their first pixels. -/
theorem addPixel_eq {fmt : Format} (l : List TileRef) (f : TileRef → List PartPixel) (t : TileRef) (p : PartPixel)
    (hn : t ∉ l → f t = []) :
    addPixel fmt (l.eraseDups.map fun x => ⟨x, fmt, f x, .waiting⟩) t p =
      (l ++ [t]).eraseDups.map fun x => ⟨x, fmt, if x = t then f x ++ [p] else f x, .waiting⟩ := by
  induction h : l.length using Nat.strong_induction_on generalizing l with
  | _ n ih =>
    cases l with
    | nil => simp [addPixel, List.eraseDups_cons, hn (by simp)]
    | cons x xs =>
      rw [List.cons_append, List.eraseDups_cons, List.eraseDups_cons, List.filter_append]
      simp only [List.map_cons, addPixel]
      by_cases e : x = t
      · subst e
        simp only [if_true]
        congr 1
        rw [show List.filter (fun b => !b == x) [x] = [] by simp, List.append_nil]
        apply List.map_congr_left
        intro y hy
        have : y ≠ x := by simpa using (List.mem_filter.1 (List.mem_eraseDups.1 hy)).2
        simp [this]
      · rw [if_neg e, if_neg e, ih _ _ (xs.filter fun b => !b == x) _ rfl]
        · rw [show List.filter (fun b => !b == x) [t] = [t] by simp [Ne.symm e]]
        · simp only [List.length_cons] at h
          have := List.length_filter_le (fun b => !b == x) xs
          omega
        · intro g
          exact hn (by simp [Ne.symm e] at g ⊢; exact g)

/-- The parts of the first `n` pixels: one for each tile, in the order of its first pixel, with its pixels in order. -/
theorem partsFold_eq (fmt : Format) (tile : Nat → TileRef) (pixel : Nat → PartPixel) (n : Nat) :
    (List.range n).foldl (fun ps i => addPixel fmt ps (tile i) (pixel i)) [] =
      (((List.range n).map tile).eraseDups).map fun t =>
        ⟨t, fmt, ((List.range n).filter fun i => decide (tile i = t)).map pixel, .waiting⟩ := by
  induction n with
  | zero => rfl
  | succ n ih =>
    rw [List.range_succ, List.foldl_append, ih, List.map_append]
    simp only [List.foldl_cons, List.foldl_nil, List.map_cons, List.map_nil]
    rw [addPixel_eq _ fun t => ((List.range n).filter fun i => decide (tile i = t)).map pixel]
    · apply List.map_congr_left
      intro x _
      by_cases h : x = tile n
      · simp [h, List.filter_append]
      · have : ¬tile n = x := fun e => h e.symm
        simp [h, this, List.filter_append]
    · intro h
      simp only [List.map_eq_nil_iff, List.filter_eq_nil_iff, decide_eq_true_eq]
      intro i hi e
      exact h (List.mem_map.2 ⟨i, hi, e⟩)

theorem runAt_getElem? {α : Type} (n i j : Nat) (l : List α) : (runAt n i l)[j]? = if j < n then l[i * n + j]? else none := by
  unfold runAt; rw [List.getElem?_take]; simp [List.getElem?_drop]

/-- A pixel of a WRITE: its samples little-endian where its enables are on (R1, R13). -/
theorem writePixel_eq (fmt : Format) (bytes : List (Byte × Bool)) (i : Nat)
    (h : i < bytes.length / (if fmt = .rgb8 then 4 else 8)) :
    writePixel fmt bytes i =
      let px := if fmt = .rgb8 then 4 else 8
      let byte := fun j => ((bytes.getD (i * px + j) (0, false)).1).toNat
      let sample := fun c => BitVec.ofNat 16
          (if fmt = .rgb8 then byte c else byte (2 * c) + 256 * byte (2 * c + 1))
      if ∀ j < px, (bytes.getD (i * px + j) (0, false)).2 = true then some ⟨sample 0, sample 1, sample 2⟩ else none := by
  have all : ∀ px, i < bytes.length / px →
      ((runAt px i bytes).all Prod.snd = true ↔ ∀ j < px, (bytes.getD (i * px + j) (0, false)).2 = true) := by
    intro px hp
    have h1 : (i + 1) * px ≤ bytes.length := (Nat.mul_le_mul_right px hp).trans (Nat.div_mul_le_self _ _)
    rw [Nat.add_mul] at h1
    rw [List.all_eq_true]
    constructor
    · intro a j hj
      apply a
      rw [List.mem_iff_getElem?]
      refine ⟨j, ?_⟩
      rw [runAt_getElem?, if_pos hj, List.getD_eq_getElem?_getD, List.getElem?_eq_getElem (by omega)]; rfl
    · intro a x hx
      obtain ⟨j, hj⟩ := List.mem_iff_getElem?.1 hx
      rw [runAt_getElem?] at hj
      split at hj
      · rename_i g
        have := a j g
        rw [List.getD_eq_getElem?_getD, hj] at this; exact this
      · simp at hj
  have byte : ∀ px j, j < px → ((runAt px i bytes).map Prod.fst).getD j 0 = (bytes.getD (i * px + j) (0, false)).1 := by
    intro px j hj
    rw [List.getD_eq_getElem?_getD, List.getElem?_map, runAt_getElem?, if_pos hj, List.getD_eq_getElem?_getD]
    cases bytes[i * px + j]? <;> rfl
  have two : ∀ a b : Byte, a ++ b = BitVec.ofNat 16 (b.toNat + 256 * a.toNat) := by
    intro a b
    apply BitVec.eq_of_toNat_eq
    rw [BitVec.toNat_append, Nat.shiftLeft_eq, BitVec.toNat_ofNat, Nat.mod_eq_of_lt (by omega), Nat.mul_comm (a.toNat),
      ]
    rw [show 2 ^ 8 * a.toNat = 2 ^ 8 * a.toNat from rfl, ← Nat.two_pow_add_eq_or_of_lt b.isLt]
    omega
  cases fmt
  · simp only [if_true] at h ⊢
    have wide : ∀ b : Byte, b.setWidth 16 = BitVec.ofNat 16 b.toNat := fun b => BitVec.eq_of_toNat_eq (by simp)
    unfold writePixel
    simp only [Format.pixelSize, all 4 h, colourOfBytes, byte 4 0 (by omega), byte 4 1 (by omega), byte 4 2 (by omega), wide]
  · simp only [reduceCtorEq, if_false] at h ⊢
    unfold writePixel
    simp only [Format.pixelSize, all 8 h, colourOfBytes, byte 8 0 (by omega), byte 8 1 (by omega), byte 8 2 (by omega),
      byte 8 3 (by omega), byte 8 4 (by omega), byte 8 5 (by omega), two]

end Sys2Proof.Machine
end

