-- ==== Sys2Proof/Laws/PerInstr.lean ====
section
/-! SUPPORT. Statements made per command. Family Framed: the order that a well-formed command brings to the order unit has a
byte 0 of a legal length class, and is of undefined code only where the code is undefined (R169, R174, R176). -/

set_option Elab.async false

namespace Sys2Proof.Laws.Framed

open Sys2Proof.Machine

/-- What a frame carries of an order's byte 0. -/
def OrderFramed (o : Order) : Prop :=
  (classLength (lengthClass o.byte0)).isSome = true ∧ ∀ b, o = .undefined b → undefinedCode b = true

/-- The command's order, if it brings one and is well formed, is framed. -/
def Statement (i : Instr) : Prop := i.wf = true → ∀ o, broughtOrder i = some o → OrderFramed o

/-- A command that brings no order. -/
theorem of_none {i : Instr} (h : broughtOrder i = none) : Statement i := fun _ o k => by rw [h] at k; cases k

/-- A command that brings this order, of this defined code. -/
theorem of_order {i : Instr} (o : Order) (c : Byte) (h : broughtOrder i = some o) (e : o.byte0 = c)
    (n : ∀ b, o ≠ .undefined b) (k : (classLength (lengthClass c)).isSome = true := by decide) : Statement i :=
  fun _ p hp => by
    rw [h] at hp
    cases hp
    exact ⟨e ▸ k, fun b e => absurd e (n b)⟩

theorem powerOn : Statement .powerOn := of_none rfl
theorem reset : Statement .reset := of_none rfl
theorem resetRelease : Statement .resetRelease := of_none rfl
theorem lineReset : Statement .lineReset := of_none rfl
theorem bitError : Statement .bitError := of_none rfl
theorem illegalLengthClass (cls : BitVec 3) : Statement (.illegalLengthClass cls) := of_none rfl
theorem orderFrame (hs : List Nat) : Statement (.orderFrame hs) := of_none rfl
theorem nop : Statement .nop := of_order .nop 0x00 rfl rfl fun _ e => by cases e
theorem halt : Statement .halt := of_order .halt 0x01 rfl rfl fun _ e => by cases e
theorem close (ap : BitVec 3) (z : BitVec 5) (b2 : Byte) :
    Statement (.close ap z b2) := of_order (.close ap z b2) 0x21 rfl rfl fun _ e => by cases e
theorem flush (ap z : BitVec 3) (b2 : Byte) :
    Statement (.flush ap z b2) := of_order (.flush false false ap z b2) 0x22 rfl rfl fun _ e => by cases e
theorem flushFreeze (ap z : BitVec 3) (b2 : Byte) :
    Statement (.flushFreeze ap z b2) := of_order (.flush false true ap z b2) 0x22 rfl rfl fun _ e => by cases e
theorem flushAll (fr : Bool) (ap z : BitVec 3) (b2 : Byte) :
    Statement (.flushAll fr ap z b2) := of_order (.flush true fr ap z b2) 0x22 rfl rfl fun _ e => by cases e
theorem thaw (ap : BitVec 3) (z : BitVec 5) (b2 : Byte) :
    Statement (.thaw ap z b2) := of_order (.thaw ap z b2) 0x23 rfl rfl fun _ e => by cases e
theorem clearFaults (fs b2 : Byte) :
    Statement (.clearFaults fs b2) := of_order (.clearFaults fs b2) 0x24 rfl rfl fun _ e => by cases e
theorem protectAdd (ap : BitVec 3) (z : BitVec 4) (x0 y0 x1 y1 b6 : Byte) :
    Statement (.protectAdd ap z x0 y0 x1 y1 b6) := of_order (.protect false ap z x0 y0 x1 y1 b6) 0x41 rfl rfl fun _ e => by cases e
theorem protectClearAll (ap : BitVec 3) (z : BitVec 4) (x0 y0 x1 y1 b6 : Byte) :
    Statement (.protectClearAll ap z x0 y0 x1 y1 b6) := of_order (.protect true ap z x0 y0 x1 y1 b6) 0x41 rfl rfl fun _ e => by cases e
theorem setStatus (fd : BitVec 40) (mk : Byte) :
    Statement (.setStatus fd mk) := of_order (.setStatus fd mk) 0x42 rfl rfl fun _ e => by cases e
theorem openOrder (f : OpenFields) : Statement (.openOrder f) := of_order (.openOrder f) 0x61 rfl rfl fun _ e => by cases e
theorem setPool (f : PoolFields) : Statement (.setPool f) := of_order (.setPool f) 0x62 rfl rfl fun _ e => by cases e
theorem setCurve (f : CurveFields) : Statement (.setCurve f) := of_order (.setCurve f) 0x63 rfl rfl fun _ e => by cases e
theorem undefinedOrder (b : Byte) : Statement (.undefinedOrder b) := by
  intro h o k
  cases k
  have u : undefinedCode b = true := h
  refine ⟨?_, fun x e => by cases e; exact u⟩
  simp only [undefinedCode, Bool.and_eq_true] at u
  exact u.1
theorem composerRead (ad : Addr) (n : Nat) : Statement (.composerRead ad n) := of_none rfl
theorem composerWrite (ad : Addr) (bs : List (Byte × Bool)) : Statement (.composerWrite ad bs) := of_none rfl
theorem storeTurn : Statement .storeTurn := of_none rfl
theorem passThroughAnswer (st : StoreStatus) (d : List Byte) : Statement (.passThroughAnswer st d) := of_none rfl
theorem chunkReadAnswer (st : StoreStatus) (d : List Byte) : Statement (.chunkReadAnswer st d) := of_none rfl
theorem chunkWriteAnswer (st : StoreStatus) : Statement (.chunkWriteAnswer st) := of_none rfl
theorem statusWriteAnswer (st : StoreStatus) : Statement (.statusWriteAnswer st) := of_none rfl
theorem ignoredAnswer (st : StoreStatus) : Statement (.ignoredAnswer st) := of_none rfl
theorem decodeEnd : Statement .decodeEnd := of_none rfl
theorem refitEnd : Statement .refitEnd := of_none rfl
theorem codingEnd : Statement .codingEnd := of_none rfl
theorem poolWaitExpiry : Statement .poolWaitExpiry := of_none rfl
theorem recodeEnd : Statement .recodeEnd := of_none rfl
theorem retireWalkVisit : Statement .retireWalkVisit := of_none rfl
theorem firstBitEdge : Statement .firstBitEdge := of_none rfl

end Sys2Proof.Laws.Framed
end

