-- ==== Sys2Proof/Laws/Queues.lean ====
section
/-! SUPPORT. What waits in line: what joining the decode queue, the move of a pending record, the start of a decode and the take
of an order come to; that seals and the starts of the long orders leave the order unit apart; and which slot is the first of its
kind. -/

set_option Elab.async false

namespace Sys2Proof.Machine

/-! ### The decode queue (R136, R137, R138) -/

theorem joinable_iff (e : DecodeEntry) (t : TileRef) : e.joinable t = true ↔ e.tile = t ∧ e.discard = false := by
  simp [DecodeEntry.joinable]

/-- Only the first element that passes the test is changed. -/
theorem modifyFirst_split {α : Type} (p : α → Bool) (f : α → α) (l : List α) (x : α) (r : List α) (h : p x = true)
    (n : ∀ y ∈ l, p y = false) : modifyFirst p f (l ++ x :: r) = l ++ f x :: r := by
  induction l with
  | nil => simp [modifyFirst, h]
  | cons y l ih =>
    rw [List.cons_append, modifyFirst, n y List.mem_cons_self, if_neg Bool.false_ne_true,
      ih fun z m => n z (List.mem_cons_of_mem _ m)]
    rfl

theorem not_joinable {e : DecodeEntry} {t : TileRef} (h : ¬(e.tile = t ∧ e.discard = false)) : e.joinable t = false :=
  Bool.eq_false_iff.2 fun k => h ((joinable_iff e t).1 k)

theorem any_joinable_false {l : List DecodeEntry} {t : TileRef} (h : ∀ x ∈ l, ¬(x.tile = t ∧ x.discard = false)) :
    (l.any fun e => e.joinable t) = false :=
  List.any_eq_false.2 fun x m => by simpa using not_joinable (h x m)

/-- A waiter of a tile that has an entry joins it (R136). -/
theorem joinDecode_queue (s : State) (t : TileRef) (add : DecodeEntry → DecodeEntry) (l : List DecodeEntry)
    (e : DecodeEntry) (r : List DecodeEntry) (q : s.rd.queue = l ++ e :: r) (j : e.tile = t ∧ e.discard = false)
    (n : ∀ x ∈ l, ¬(x.tile = t ∧ x.discard = false)) :
    (s.joinDecode t add).rd = { s.rd with queue := l ++ add e :: r } := by
  have a : (s.rd.queue.any fun e => e.joinable t) = true := by
    rw [q]
    exact List.any_eq_true.2 ⟨e, by simp, (joinable_iff e t).2 j⟩
  rw [State.joinDecode, if_pos a, q,
    modifyFirst_split (fun e => e.joinable t) add _ _ _ ((joinable_iff e t).2 j) fun x m => not_joinable (n x m)]
  rfl

/-- A waiter of a tile that has a pending record and no entry joins the record (R137). -/
theorem joinDecode_pending (s : State) (t : TileRef) (add : DecodeEntry → DecodeEntry) (l : List DecodeEntry)
    (e : DecodeEntry) (r : List DecodeEntry) (q : s.rd.pendingList = l ++ e :: r) (j : e.tile = t ∧ e.discard = false)
    (n : ∀ x ∈ s.rd.queue ++ l, ¬(x.tile = t ∧ x.discard = false)) :
    (s.joinDecode t add).rd = { s.rd with pendingList := l ++ add e :: r } := by
  have a := any_joinable_false fun x m => n x (List.mem_append_left _ m)
  have b : (s.rd.pendingList.any fun e => e.joinable t) = true := by
    rw [q]
    exact List.any_eq_true.2 ⟨e, by simp, (joinable_iff e t).2 j⟩
  rw [State.joinDecode, if_neg (by rw [a]; exact Bool.false_ne_true), if_pos b, q,
    modifyFirst_split (fun e => e.joinable t) add _ _ _ ((joinable_iff e t).2 j)
      fun x m => not_joinable (n x (List.mem_append_right _ m))]
  rfl

/-- A waiter of a tile that has neither makes an entry at the tail of the queue, or a pending record while the queue is full
(R136, R137). -/
theorem joinDecode_new (s : State) (t : TileRef) (add : DecodeEntry → DecodeEntry)
    (n : ∀ x ∈ s.rd.queue ++ s.rd.pendingList, ¬(x.tile = t ∧ x.discard = false)) :
    (s.joinDecode t add).rd =
      if s.rd.queue.length < 288 then { s.rd with queue := s.rd.queue ++ [add ⟨t, [], none, .queued, false⟩] }
      else { s.rd with pendingList := s.rd.pendingList ++ [add ⟨t, [], none, .queued, false⟩] } := by
  have a := any_joinable_false fun x m => n x (List.mem_append_left _ m)
  have b := any_joinable_false fun x m => n x (List.mem_append_right _ m)
  rw [State.joinDecode, if_neg (by rw [a]; exact Bool.false_ne_true), if_neg (by rw [b]; exact Bool.false_ne_true)]
  by_cases c : s.rd.queue.length < 288
  · rw [if_pos (show s.rd.queue.length < Config.decodeQueueSize from c), if_pos c]
    rfl
  · rw [if_neg (show ¬s.rd.queue.length < Config.decodeQueueSize from c), if_neg c]
    rfl

/-- The head of the pending list moves in where the queue has room (R137). -/
theorem movePending_eq {s : State} {e : DecodeEntry} {rest : List DecodeEntry} (p : s.rd.pendingList = e :: rest)
    (c : s.rd.queue.length < 288) :
    s.movePending = some ((s.setRd { s.rd with pendingList := rest }).putQueue (s.rd.queue ++ [e])) := by
  rw [State.movePending, p]
  exact if_pos c

/-- The chunk list of an entry by its kind (R20, R22). -/
theorem chunks_eq (c : Content) : c.chunks =
    match c with
    | .unwritten => []
    | .uniform _ _ => []
    | .coded _ l _ => l
    | .plain l _ => l := by
  cases c <;> rfl

/-- An IDLE decoder starts the head of the queue (R138). -/
theorem startDecode_eq {s : State} {e : DecodeEntry} {rest : List DecodeEntry} (d : s.rd.decoder = none)
    (q : s.rd.queue = e :: rest) :
    s.startDecode = some ((s.setRd { s.rd with
        queue := { e with phase := .decoding } :: rest
        decoder := some ⟨e.tile, s.entry e.tile, [], (s.entry e.tile).content.chunks.length, false⟩ }).setStore
      { s.store with
        decoder := s.store.decoder ++
          (s.entry e.tile).content.chunks.map fun c => .chunkRead (s.pool.base + 256 * c) }) := by
  rw [State.startDecode, d, q]
  rfl

/-! ### The order queue (R173, R174) -/

/-- An IDLE order unit takes the head of its queue (R174). -/
theorem takeOrder_eq {s : State} {o : Order} {rest : List Order} (i : s.ord.executing = none) (q : s.ord.queue = o :: rest) :
    s.takeOrder = some (((s.setOrd { s.ord with queue := rest }).markStale).execute o) := by
  rw [State.takeOrder, i, q]

/-! ### The order unit apart -/

theorem startGather_setOrd (s : State) (x : OrderUnit) (k : SlotIx) (t : TileRef) :
    (s.setOrd x).startGather k t = (s.startGather k t).setOrd x := by
  unfold State.startGather
  rw [show (s.setOrd x).mapTile t = s.mapTile t from rfl]
  split
  · unfold State.useMapTile State.touchCache
    rw [show (s.setOrd x).entry t = s.entry t from rfl, show (s.setOrd x).cached t = s.cached t from rfl]
    repeat' split
    all_goals rfl
  · unfold State.joinDecode
    rw [show (s.setOrd x).rd = s.rd from rfl]
    repeat' split
    all_goals rfl

theorem sealNow_setOrd (s : State) (x : OrderUnit) (k : SlotIx) : (s.setOrd x).sealNow k = (s.sealNow k).setOrd x := by
  unfold State.sealNow
  dsimp only
  have key : ∀ s2 : State, (match (s.slot k).isFull, (s.slot k).tile with
      | false, some t => (s2.setOrd x).startGather k t
      | _, _ => s2.setOrd x) = (match (s.slot k).isFull, (s.slot k).tile with
      | false, some t => s2.startGather k t
      | _, _ => s2).setOrd x := by
    intro s2
    split
    · exact startGather_setOrd s2 x k _
    · rfl
  let s1 := (s.putOpenList (s.asm.openList.erase k)).putSlot k
    { s.slot k with due := false, state := if (s.slot k).isFull then .sealed else .gathering }
  exact key (s1.putSealQueue (s1.asm.sealQueue ++ [k]))

/-- A seal call looks at nothing of the order unit and changes nothing of it (R65). -/
theorem sealCall_setOrd (s : State) (x : OrderUnit) (k : SlotIx) : (s.setOrd x).sealCall k = (s.sealCall k).setOrd x := by
  unfold State.sealCall
  rw [show (s.setOrd x).slot k = s.slot k from rfl]
  dsimp only
  split
  · rfl
  · split
    · exact sealNow_setOrd s x k
    · split <;> rfl

theorem foldl_setOrd {α : Type} (f : State → α → State) (x : OrderUnit)
    (h : ∀ s a, f (s.setOrd x) a = (f s a).setOrd x) (l : List α) (s : State) :
    l.foldl f (s.setOrd x) = (l.foldl f s).setOrd x := by
  induction l generalizing s with
  | nil => rfl
  | cons a l ih => rw [List.foldl_cons, h, ih]; rfl

/-- Nor does the forcing of a FLUSH (R76). -/
theorem forceSlots_setOrd (s : State) (x : OrderUnit) (on : ApIx → Bool) :
    (s.setOrd x).forceSlots on = (s.forceSlots on).setOrd x := by
  unfold State.forceSlots
  dsimp only
  rw [show ((s.setOrd x).setDraws ((s.setOrd x).draws + 1)) = (s.setDraws (s.draws + 1)).setOrd x from rfl]
  rw [foldl_setOrd _ x (fun s a => rfl), foldl_setOrd _ x (fun s a => sealCall_setOrd s x a)]
  rfl

theorem closeReadPath_setOrd (s : State) (x : OrderUnit) (a : ApIx) :
    (s.setOrd x).closeReadPath a = (s.closeReadPath a).setOrd x := by
  unfold State.closeReadPath
  have key : ∀ s2 : State, (match (s2.setOrd x).rd.decoder with
      | none => s2.setOrd x
      | some d => if d.tile.ap = a ∧ d.isChecking then (s2.setOrd x).leaveDecoder else s2.setOrd x) =
      (match s2.rd.decoder with
      | none => s2
      | some d => if d.tile.ap = a ∧ d.isChecking then s2.leaveDecoder else s2).setOrd x := by
    intro s2
    rw [show (s2.setOrd x).rd = s2.rd from rfl]
    split
    · rfl
    · split <;> rfl
  let s1 := (s.setRd { s.rd with pendingList := s.rd.pendingList.filter fun e => decide (e.tile.ap ≠ a) }).putQueue
    (s.rd.queue.filterMap (DecodeEntry.closed a))
  exact key (s1.putCache (s1.rd.cache.filter fun e => decide (e.tile.ap ≠ a)))

/-- Nor does the start of a CLOSE (R178). -/
theorem startClose_setOrd (s : State) (x : OrderUnit) (a : ApIx) :
    (s.setOrd x).startClose a = (s.startClose a).setOrd x := by
  unfold State.startClose
  dsimp only
  rw [show (((s.setOrd x).putAp a { (s.setOrd x).ap a with state := .retiring }).closeSlots a).closePort a =
    (((s.putAp a { s.ap a with state := .retiring }).closeSlots a).closePort a).setOrd x from rfl, closeReadPath_setOrd]
  rfl

/-! ### The first slot of its kind -/

theorem slot_toList (s : State) (k : SlotIx) : s.asm.slots.toList[k.val]? = some (s.slot k) := by
  have l : k.val < s.asm.slots.toList.length := by simp
  rw [State.slot, Vector.get_eq_getElem, List.getElem?_eq_getElem l, Vector.getElem_toList]

/-- No slot passes the test. -/
theorem firstSlot_none_iff (s : State) (p : Slot → Bool) : s.firstSlot p = none ↔ ∀ k, p (s.slot k) = false := by
  rw [State.firstSlot, Option.map_eq_none_iff, List.findIdx?_eq_none_iff]
  constructor
  · exact fun h k => h _ (List.mem_of_getElem? (slot_toList s k))
  · intro h x m
    obtain ⟨i, l, e⟩ := List.mem_iff_getElem.1 m
    have g := slot_toList s ⟨i, by simpa using l⟩
    rw [List.getElem?_eq_getElem l, e] at g
    rw [Option.some.inj g]
    exact h _

/-- The slot passes the test, and no lower-numbered one does. -/
theorem firstSlot_some_iff (s : State) (p : Slot → Bool) (k : SlotIx) :
    s.firstSlot p = some k ↔ p (s.slot k) = true ∧ ∀ j < k, p (s.slot j) = false := by
  have len : s.asm.slots.toList.length = 256 := by simp
  have g : ∀ (i : Nat) (l : i < 256), s.asm.slots.toList[i]'(by rw [len]; exact l) = s.slot ⟨i, l⟩ := fun i l =>
    Option.some.inj ((List.getElem?_eq_getElem _).symm.trans (slot_toList s ⟨i, l⟩))
  rw [State.firstSlot, Option.map_eq_some_iff]
  constructor
  · rintro ⟨i, h, e⟩
    obtain ⟨l, a, b⟩ := List.findIdx?_eq_some_iff_getElem.1 h
    rw [len] at l
    have v : k = ⟨i, l⟩ := by rw [← e]; exact Fin.ext (Nat.mod_eq_of_lt l)
    rw [v]
    refine ⟨by rw [← g i l]; exact a, fun j c => ?_⟩
    have n := b j.val c
    rw [g j.val j.isLt] at n
    simpa using n
  · rintro ⟨a, b⟩
    refine ⟨k.val, List.findIdx?_eq_some_iff_getElem.2 ⟨by rw [len]; exact k.isLt, ?_, fun j c => ?_⟩,
      Fin.ext (Nat.mod_eq_of_lt k.isLt)⟩
    · rw [g k.val k.isLt]
      exact a
    · rw [g j (by omega)]
      simpa using b ⟨j, by omega⟩ c

theorem isSealed_iff (sl : Slot) :
    sl.isSealed = true ↔ sl.state = .gathering ∨ sl.state = .sealed ∨ sl.state = .encoding := by
  cases h : sl.state <;> simp [Slot.isSealed, h]

end Sys2Proof.Machine
end

