-- ==== Sys2Proof/Laws/TileCode.lean ====
section
/-! SUPPORT. What the tile code says of a stream: which bytes decode (R90, R91, R93), what the encoder writes (R87, R88), and
the data of the chunks (R92). -/

set_option Elab.async false

namespace Sys2Proof.Machine

/-! ### Bits and groups (R87, R93) -/

theorem bitsOf_eq (n v : Nat) : bitsOf n v = msbBits n v := by
  unfold msbBits
  induction n with
  | zero => rfl
  | succ n ih =>
    rw [bitsOf, ih, List.range_succ_eq_map, List.map_cons, List.map_map]
    congr 1
    apply List.map_congr_left
    intro j _
    show _ = v.testBit (n + 1 - 1 - (j + 1))
    congr 1; omega

theorem bitsOf_mod (n v k : Nat) (h : k ≤ n) : bitsOf k (v % 2 ^ n) = bitsOf k v := by
  induction k with
  | zero => rfl
  | succ k ih =>
    rw [bitsOf, bitsOf, ih (by omega), Nat.testBit_mod_two_pow]
    simp; omega

theorem testBit_top {n z : Nat} (b : Bool) (h : z < 2 ^ n) : (2 ^ n * b.toNat + z).testBit n = b := by
  rw [Nat.testBit_two_pow_mul_add _ h]
  cases b <;> simp

/-- Reading `n` bits gives a number below 2^n and the bits after it. -/
theorem readBits_iff (n acc : Nat) (bits : List Bool) (v : Nat) (rest : List Bool) :
    readBits n acc bits = some (v, rest) ↔ ∃ z < 2 ^ n, v = acc * 2 ^ n + z ∧ bits = bitsOf n z ++ rest := by
  induction n generalizing acc bits with
  | zero =>
    simp only [readBits, bitsOf]
    constructor
    · intro h; cases h; exact ⟨0, by simp, by simp, rfl⟩
    · rintro ⟨z, h, rfl, rfl⟩
      simp at h; subst h; simp
  | succ n ih =>
    cases bits with
    | nil => simp [readBits, bitsOf]
    | cons b bs =>
      rw [readBits, ih]
      constructor
      · rintro ⟨z, h, rfl, rfl⟩
        refine ⟨2 ^ n * b.toNat + z, ?_, ?_, ?_⟩
        · rw [Nat.pow_succ]; cases b <;> simp <;> omega
        · rw [Nat.pow_succ]; ring
        · rw [bitsOf, testBit_top b h, show bitsOf n (2 ^ n * b.toNat + z) = bitsOf n z by
            rw [← bitsOf_mod n (2 ^ n * b.toNat + z) n (le_refl _), Nat.mul_add_mod, Nat.mod_eq_of_lt h]]
          rfl
      · rintro ⟨z, h, rfl, e⟩
        rw [bitsOf, List.cons_append, List.cons.injEq] at e
        refine ⟨z % 2 ^ n, Nat.mod_lt _ (Nat.two_pow_pos n), ?_, ?_⟩
        · rw [e.1]
          have := Nat.div_add_mod z (2 ^ n)
          have hb : (z.testBit n).toNat = z / 2 ^ n := by
            rw [Nat.testBit_eq_decide_div_mod_eq]
            have : z / 2 ^ n < 2 := by rw [Nat.div_lt_iff_lt_mul (Nat.two_pow_pos n)]; rw [Nat.pow_succ] at h; omega
            rw [Nat.mod_eq_of_lt this]
            generalize z / 2 ^ n = t at this
            rcases Nat.lt_or_ge t 1 with g | g
            · simp [show t = 0 by omega]
            · simp [show t = 1 by omega]
          rw [hb, Nat.pow_succ]
          calc acc * (2 ^ n * 2) + z = acc * (2 ^ n * 2) + (2 ^ n * (z / 2 ^ n) + z % 2 ^ n) := by rw [this]
            _ = _ := by ring
        · rw [bitsOf_mod n _ n (le_refl _)]; exact e.2

/-- The bits of groups of widths `ws` that hold the values `zs`, four in each (R87). -/
def listBits : List Nat → List Nat → List Bool
  | [], _ => []
  | w :: ws, zs => bitsOf 5 w ++ (zs.take 4).flatMap (bitsOf w) ++ listBits ws (zs.drop 4)

/-- The widths are 17 or less and each holds its four values (R87, R93). -/
def WidthsFit : List Nat → List Nat → Prop
  | [], zs => zs = []
  | w :: ws, zs => w ≤ 17 ∧ 4 ≤ zs.length ∧ (∀ z ∈ zs.take 4, z < 2 ^ w) ∧ WidthsFit ws (zs.drop 4)

theorem WidthsFit.length {ws zs : List Nat} (h : WidthsFit ws zs) : zs.length = 4 * ws.length := by
  induction ws generalizing zs with
  | nil => simp [WidthsFit] at h; simp [h]
  | cons w ws ih =>
    have := ih h.2.2.2
    simp only [List.length_drop, List.length_cons] at this ⊢
    have := h.2.1
    omega

/-- Reading a group: a width of 17 or less and four values that it holds. -/
theorem readGroup_iff (bits : List Bool) (zs : List Nat) (rest : List Bool) :
    readGroup bits = some (zs, rest) ↔ ∃ w, WidthsFit [w] zs ∧ bits = listBits [w] zs ++ rest := by
  unfold readGroup
  constructor
  · intro h
    obtain ⟨⟨w, b0⟩, h0, h⟩ := Option.bind_eq_some_iff.1 h
    simp only at h
    split at h
    · cases h
    · obtain ⟨⟨z0, b1⟩, h1, h⟩ := Option.bind_eq_some_iff.1 h
      obtain ⟨⟨z1, b2⟩, h2, h⟩ := Option.bind_eq_some_iff.1 h
      obtain ⟨⟨z2, b3⟩, h3, h⟩ := Option.bind_eq_some_iff.1 h
      obtain ⟨⟨z3, b4⟩, h4, h5⟩ := Option.map_eq_some_iff.1 h
      simp only at h1 h2 h3 h4
      obtain ⟨rfl, rfl⟩ := Prod.mk.inj h5
      clear h h5
      obtain ⟨y, _, e, rfl⟩ := (readBits_iff _ _ _ _ _).1 h0
      obtain ⟨y0, l0, e0, rfl⟩ := (readBits_iff _ _ _ _ _).1 h1
      obtain ⟨y1, l1, e1, rfl⟩ := (readBits_iff _ _ _ _ _).1 h2
      obtain ⟨y2, l2, e2, rfl⟩ := (readBits_iff _ _ _ _ _).1 h3
      obtain ⟨y3, l3, e3, rfl⟩ := (readBits_iff _ _ _ _ _).1 h4
      simp only [Nat.zero_mul, Nat.zero_add] at e e0 e1 e2 e3
      subst e e0 e1 e2 e3
      refine ⟨w, ⟨by omega, by simp, ?_, by simp [WidthsFit]⟩, ?_⟩
      · simp [l0, l1, l2, l3]
      · simp [listBits]
  · rintro ⟨w, ⟨h, l, f, e⟩, rfl⟩
    have : zs.length = 4 := by simpa [WidthsFit, List.drop_eq_nil_iff] using Nat.le_antisymm (by simpa [WidthsFit] using e) l
    match zs, this with
    | [z0, z1, z2, z3], _ =>
      simp only [List.take_succ_cons, List.take_zero, List.mem_cons, List.not_mem_nil, or_false, forall_eq_or_imp,
        forall_eq] at f
      simp only [listBits, List.take_succ_cons, List.take_zero, List.flatMap_cons, List.flatMap_nil, List.append_nil,
        List.append_assoc]
      have r : ∀ (n z : Nat) (x : List Bool), z < 2 ^ n → readBits n 0 (bitsOf n z ++ x) = some (z, x) := fun n z x hz =>
        (readBits_iff _ _ _ _ _).2 ⟨z, hz, by simp, rfl⟩
      rw [r 5 w _ (by omega)]
      simp only [Option.bind_some, show ¬17 < w by omega, if_false]
      rw [r w z0 _ f.1]; simp only [Option.bind_some]
      rw [r w z1 _ f.2.1]; simp only [Option.bind_some]
      rw [r w z2 _ f.2.2.1]; simp only [Option.bind_some]
      rw [r w z3 _ f.2.2.2]; rfl

theorem listBits_append {ws zs : List Nat} (h : zs.length = 4 * ws.length) (us ys : List Nat) :
    listBits (ws ++ us) (zs ++ ys) = listBits ws zs ++ listBits us ys := by
  induction ws generalizing zs with
  | nil => simp at h; subst h; rfl
  | cons w ws ih =>
    simp only [List.length_cons] at h
    rw [List.cons_append, listBits, listBits, List.take_append_of_le_length (by omega),
      List.drop_append_of_le_length (by omega),
      ih (by rw [List.length_drop]; omega)]
    simp

theorem widthsFit_append {ws zs us ys : List Nat} (h : zs.length = 4 * ws.length) :
    WidthsFit (ws ++ us) (zs ++ ys) ↔ WidthsFit ws zs ∧ WidthsFit us ys := by
  induction ws generalizing zs with
  | nil => simp at h; subst h; simp [WidthsFit]
  | cons w ws ih =>
    simp only [List.length_cons] at h
    rw [List.cons_append, WidthsFit, WidthsFit, List.take_append_of_le_length (by omega),
      List.drop_append_of_le_length (by omega),
      ih (by rw [List.length_drop]; omega)]
    have : 4 ≤ (zs ++ ys).length := by rw [List.length_append]; omega
    have : 4 ≤ zs.length := by omega
    tauto

theorem readGroups_iff (n : Nat) (bits : List Bool) (zs : List Nat) (rest : List Bool) :
    readGroups n bits = some (zs, rest) ↔
      ∃ ws, ws.length = n ∧ WidthsFit ws zs ∧ bits = listBits ws zs ++ rest := by
  induction n generalizing bits zs with
  | zero =>
    simp only [readGroups]
    constructor
    · intro h; cases h; exact ⟨[], rfl, rfl, rfl⟩
    · rintro ⟨ws, h, f, rfl⟩
      cases List.length_eq_zero_iff.1 h
      cases (show zs = [] from f); rfl
  | succ n ih =>
    rw [readGroups]
    constructor
    · intro h
      obtain ⟨⟨z1, b1⟩, h1, h⟩ := Option.bind_eq_some_iff.1 h
      obtain ⟨⟨z2, b2⟩, h2, h⟩ := Option.map_eq_some_iff.1 h
      simp only at h2 h
      cases h
      obtain ⟨w, f, rfl⟩ := (readGroup_iff _ _ _).1 h1
      obtain ⟨ws, l, g, rfl⟩ := (ih _ _).1 h2
      refine ⟨w :: ws, by simp [l], (widthsFit_append (ws := [w]) (WidthsFit.length f)).2 ⟨f, g⟩, ?_⟩
      rw [show w :: ws = [w] ++ ws from rfl, listBits_append (WidthsFit.length f), List.append_assoc]
    · rintro ⟨ws, l, f, rfl⟩
      match ws, l with
      | w :: ws, l =>
        have hz := WidthsFit.length f
        simp only [List.length_cons] at hz l
        have e : zs = zs.take 4 ++ zs.drop 4 := (List.take_append_drop 4 zs).symm
        have hl : (zs.take 4).length = 4 * [w].length := by simp; omega
        rw [e, show w :: ws = [w] ++ ws from rfl] at f ⊢
        rw [widthsFit_append hl] at f
        rw [listBits_append hl, List.append_assoc, (readGroup_iff _ _ _).2 ⟨w, f.1, rfl⟩, Option.bind_some]
        show Option.map _ (readGroups n _) = _
        rw [(ih _ _).2 ⟨ws, by omega, f.2, rfl⟩]
        rfl

/-! ### Residuals and lines (R85, R86, R88) -/

theorem zigzag_unzigzag (z : Nat) : zigzag (unzigzag z) = z := by
  unfold zigzag unzigzag
  split_ifs <;> omega

theorem unzigzag_zigzag (d : Int) : unzigzag (zigzag d) = d := by
  unfold zigzag unzigzag
  split_ifs <;> omega

/-- The quantised values of zigzag values: those that have them, each in 0..Q. -/
theorem unzigzags_iff (maxQ p : Nat) (zs qs : List Nat) :
    unzigzags maxQ p zs = some qs ↔ zs = zigzags p qs ∧ ∀ q ∈ qs, q ≤ maxQ := by
  induction zs generalizing p qs with
  | nil =>
    cases qs with
    | nil => simp [unzigzags, zigzags]
    | cons q qs => simp [unzigzags, zigzags]
  | cons z zs ih =>
    rw [unzigzags]
    constructor
    · intro h
      split at h
      · rename_i g
        obtain ⟨l, hl, rfl⟩ := Option.map_eq_some_iff.1 h
        obtain ⟨e, m⟩ := (ih _ _).1 hl
        refine ⟨?_, ?_⟩
        · rw [zigzags, ← e, Int.toNat_of_nonneg g.1, show (p : Int) + unzigzag z - p = unzigzag z by omega, zigzag_unzigzag]
        · intro q hq
          rcases List.mem_cons.1 hq with rfl | hq
          · omega
          · exact m q hq
      · cases h
    · rintro ⟨e, m⟩
      cases qs with
      | nil => simp [zigzags] at e
      | cons q qs =>
        rw [zigzags, List.cons.injEq] at e
        have hq : (p : Int) + unzigzag z = q := by rw [e.1, unzigzag_zigzag]; omega
        have : q ≤ maxQ := m q (by simp)
        rw [hq, if_pos ⟨by omega, by omega⟩, Int.toNat_natCast, (ih _ _).2 ⟨e.2, fun x hx => m x (by simp [hx])⟩]
        rfl

theorem zigzags_length (p : Nat) (qs : List Nat) : (zigzags p qs).length = qs.length := by
  induction qs generalizing p with
  | nil => rfl
  | cons q qs ih => simp [zigzags, ih]

theorem readLine_iff (maxQ p : Nat) (bits : List Bool) (qs : List Nat) (rest : List Bool) :
    readLine maxQ p bits = some (qs, rest) ↔ ∃ ws, ws.length = 8 ∧ WidthsFit ws (zigzags p qs) ∧ (∀ q ∈ qs, q ≤ maxQ) ∧
      bits = listBits ws (zigzags p qs) ++ rest := by
  unfold readLine
  constructor
  · intro h
    obtain ⟨⟨zs, b⟩, h1, h⟩ := Option.bind_eq_some_iff.1 h
    obtain ⟨l, h2, h⟩ := Option.map_eq_some_iff.1 h
    cases h
    obtain ⟨e, m⟩ := (unzigzags_iff _ _ _ _).1 h2
    subst e
    obtain ⟨ws, a, f, rfl⟩ := (readGroups_iff _ _ _ _).1 h1
    exact ⟨ws, a, f, m, rfl⟩
  · rintro ⟨ws, a, f, m, rfl⟩
    rw [(readGroups_iff _ _ _ _).2 ⟨ws, a, f, rfl⟩, Option.bind_some]
    show Option.map _ (unzigzags maxQ p _) = _
    rw [(unzigzags_iff _ _ _ _).2 ⟨rfl, m⟩]
    rfl

/-- The zigzag values of some lines in the order of a body (R85, R86, R88). -/
def lineCodes : Predictions → List LineSamples → List Nat
  | _, [] => []
  | p, l :: rest =>
    zigzags p.r l.r ++ zigzags p.g l.g ++ zigzags p.b l.b ++ lineCodes ⟨l.r.headD 0, l.g.headD 0, l.b.headD 0⟩ rest

/-- The samples of a line in the order of a body (R88). -/
def LineSamples.all (l : LineSamples) : List Nat := l.r ++ l.g ++ l.b

/-- A line has 32 samples in each channel. -/
def LineSamples.Whole (l : LineSamples) : Prop := l.r.length = 32 ∧ l.g.length = 32 ∧ l.b.length = 32

/-- Reading the lines of a body: their groups, then the bits left over. -/
theorem readLines_iff (maxQ n : Nat) (p : Predictions) (bits : List Bool) (lines : List LineSamples) (rest : List Bool) :
    readLines maxQ n p bits = some (lines, rest) ↔ ∃ ws, ws.length = 24 * n ∧ lines.length = n ∧
      (∀ l ∈ lines, l.Whole ∧ ∀ q ∈ l.all, q ≤ maxQ) ∧ WidthsFit ws (lineCodes p lines) ∧
      bits = listBits ws (lineCodes p lines) ++ rest := by
  induction n generalizing p bits lines with
  | zero =>
    simp only [readLines]
    constructor
    · intro h; cases h; exact ⟨[], rfl, rfl, by simp, rfl, rfl⟩
    · rintro ⟨ws, h, h', -, f, rfl⟩
      cases List.length_eq_zero_iff.1 h
      cases List.length_eq_zero_iff.1 h'; rfl
  | succ n ih =>
    rw [readLines]
    constructor
    · intro h
      obtain ⟨⟨r, b1⟩, h1, h⟩ := Option.bind_eq_some_iff.1 h
      obtain ⟨⟨g, b2⟩, h2, h⟩ := Option.bind_eq_some_iff.1 h
      obtain ⟨⟨b, b3⟩, h3, h⟩ := Option.bind_eq_some_iff.1 h
      obtain ⟨⟨more, left⟩, h4, h⟩ := Option.map_eq_some_iff.1 h
      simp only at h2 h3 h4 h
      cases h
      obtain ⟨w1, a1, f1, m1, rfl⟩ := (readLine_iff _ _ _ _ _).1 h1
      obtain ⟨w2, a2, f2, m2, rfl⟩ := (readLine_iff _ _ _ _ _).1 h2
      obtain ⟨w3, a3, f3, m3, rfl⟩ := (readLine_iff _ _ _ _ _).1 h3
      obtain ⟨w4, a4, a5, m4, f4, rfl⟩ := (ih _ _ _).1 h4
      have l1 := f1.length; have l2 := f2.length; have l3 := f3.length
      have l12 : (zigzags p.r r ++ zigzags p.g g).length = 4 * (w1 ++ w2).length := by simp [l1, l2]; omega
      have l123 : (zigzags p.r r ++ zigzags p.g g ++ zigzags p.b b).length = 4 * (w1 ++ w2 ++ w3).length := by
        simp [l1, l2, l3]; omega
      refine ⟨w1 ++ w2 ++ w3 ++ w4, by simp; omega, by simp [a5], ?_, ?_, ?_⟩
      · intro l hl
        rcases List.mem_cons.1 hl with rfl | hl
        · rw [zigzags_length] at l1 l2 l3
          refine ⟨⟨?_, ?_, ?_⟩, fun q hq => ?_⟩
          iterate 3 simp only; omega
          simp only [LineSamples.all, List.mem_append] at hq
          rcases hq with (hq | hq) | hq
          · exact m1 q hq
          · exact m2 q hq
          · exact m3 q hq
        · exact m4 l hl
      · rw [lineCodes, widthsFit_append l123, widthsFit_append l12, widthsFit_append l1]
        exact ⟨⟨⟨f1, f2⟩, f3⟩, f4⟩
      · rw [lineCodes, listBits_append l123, listBits_append l12, listBits_append l1]
        simp
    · rintro ⟨ws, a, a', m, f, rfl⟩
      match lines, a' with
      | l :: rest', a' =>
        obtain ⟨⟨lr, lg, lb⟩, m0⟩ := m l (by simp)
        have e : ws = ws.take 8 ++ (ws.drop 8).take 8 ++ (ws.drop 16).take 8 ++ ws.drop 24 := by
          rw [show ws.drop 24 = (ws.drop 16).drop 8 by simp, List.append_assoc, List.take_append_drop,
            show ws.drop 16 = (ws.drop 8).drop 8 by simp, List.append_assoc, List.take_append_drop, List.take_append_drop]
        have c1 : (ws.take 8).length = 8 := by simp; omega
        have c2 : ((ws.drop 8).take 8).length = 8 := by simp; omega
        have c3 : ((ws.drop 16).take 8).length = 8 := by simp; omega
        have c4 : (ws.drop 24).length = 24 * n := by simp; omega
        generalize ws.take 8 = w1 at *
        generalize (ws.drop 8).take 8 = w2 at *
        generalize (ws.drop 16).take 8 = w3 at *
        generalize ws.drop 24 = w4 at *
        subst e
        have l1 : (zigzags p.r l.r).length = 4 * w1.length := by rw [zigzags_length]; omega
        have l12 : (zigzags p.r l.r ++ zigzags p.g l.g).length = 4 * (w1 ++ w2).length := by simp [zigzags_length]; omega
        have l123 : (zigzags p.r l.r ++ zigzags p.g l.g ++ zigzags p.b l.b).length = 4 * (w1 ++ w2 ++ w3).length := by
          simp [zigzags_length]; omega
        rw [lineCodes, widthsFit_append l123, widthsFit_append l12, widthsFit_append l1] at f
        obtain ⟨⟨⟨f1, f2⟩, f3⟩, f4⟩ := f
        rw [lineCodes, listBits_append l123, listBits_append l12, listBits_append l1]
        simp only [List.append_assoc]
        rw [(readLine_iff _ _ _ _ _).2 ⟨w1, c1, f1, fun q hq => m0 q (by simp [LineSamples.all, hq]), rfl⟩]
        simp only [Option.bind_some]
        rw [(readLine_iff _ _ _ _ _).2 ⟨w2, c2, f2, fun q hq => m0 q (by simp [LineSamples.all, hq]), rfl⟩]
        simp only [Option.bind_some]
        rw [(readLine_iff _ _ _ _ _).2 ⟨w3, c3, f3, fun q hq => m0 q (by simp [LineSamples.all, hq]), rfl⟩]
        simp only [Option.bind_some]
        rw [(ih _ _ _).2 ⟨w4, c4, by simpa using a', fun x hx => m x (by simp [hx]), f4, rfl⟩]
        rfl

/-! ### By sample number -/

theorem append_congr {α : Type} {a b c d : List α} (h : a = b) (k : c = d) : a ++ c = b ++ d := by rw [h, k]

theorem length_map_range {α : Type} (f : Nat → α) (n : Nat) : ((List.range n).map f).length = n := by simp

theorem getD_map_range (f : Nat → Nat) {n i : Nat} (h : i < n) : ((List.range n).map f).getD i 0 = f i := by
  simp [List.getD_eq_getElem?_getD, List.getElem?_map, List.getElem?_range h]


theorem zigzags_map (f : Nat → Nat) (p m : Nat) :
    zigzags p ((List.range m).map f) =
      (List.range m).map fun x => zigzag ((f x : Int) - (if x = 0 then p else f (x - 1) : Nat)) := by
  induction m generalizing f p with
  | zero => rfl
  | succ m ih =>
    rw [List.range_succ_eq_map, List.map_cons, List.map_map, zigzags, List.map_cons, List.map_map]
    congr 1
    rw [ih]
    apply List.map_congr_left
    intro x _
    simp only [Function.comp]
    cases x <;> simp

theorem residualCode_eq (q : Nat → Nat) (n : Nat) : residualCode q n = zigzag ((q n : Int) - predicted q n) := by
  unfold residualCode zigzag
  simp only
  split <;> rfl

/-- Line `y` of samples given by number. -/
def lineOf (q : Nat → Nat) (y : Nat) : LineSamples :=
  let channel := fun c => (List.range 32).map fun x => q (96 * y + 32 * c + x)
  ⟨channel 0, channel 1, channel 2⟩

/-- The predictions for column 0 of line `y` (R85). -/
def headsAt (q : Nat → Nat) (y : Nat) : Predictions :=
  let head := fun c => if y = 0 then 0 else q (96 * (y - 1) + 32 * c)
  ⟨head 0, head 1, head 2⟩

/-- The zigzag values of lines given by number. -/
theorem lineCodes_lineOf (q : Nat → Nat) (y n : Nat) :
    lineCodes (headsAt q y) ((List.range n).map fun i => lineOf q (y + i)) =
      (List.range (96 * n)).map fun i => residualCode q (96 * y + i) := by
  induction n generalizing y with
  | zero => rfl
  | succ n ih =>
    rw [List.range_succ_eq_map, List.map_cons, List.map_map, lineCodes]
    have tail : lineCodes ⟨(lineOf q (y + 0)).r.headD 0, (lineOf q (y + 0)).g.headD 0, (lineOf q (y + 0)).b.headD 0⟩
        (List.map ((fun i => lineOf q (y + i)) ∘ Nat.succ) (List.range n)) =
        (List.range (96 * n)).map fun i => residualCode q (96 * (y + 1) + i) := by
      rw [← ih (y + 1)]
      congr 1
      apply List.map_congr_left
      intro i _
      show lineOf q (y + (i + 1)) = _
      congr 1; omega
    rw [tail]
    have chan : ∀ c < 3, zigzags (if y = 0 then 0 else q (96 * (y - 1) + 32 * c))
      ((List.range 32).map fun x => q (96 * (y + 0) + 32 * c + x)) =
        (List.range 32).map fun x => residualCode q (96 * y + (32 * c + x)) := by
      intro c hc
      rw [zigzags_map]
      apply List.map_congr_left
      intro x hx
      have hx := List.mem_range.1 hx
      rw [residualCode_eq]
      have e : 96 * (y + 0) + 32 * c + x = 96 * y + (32 * c + x) := by omega
      rw [e]
      have hp : (if x = 0 then (if y = 0 then 0 else q (96 * (y - 1) + 32 * c)) else
          q (96 * (y + 0) + 32 * c + (x - 1))) = predicted q (96 * y + (32 * c + x)) := by
        unfold predicted
        split_ifs <;> first | rfl | (exfalso; omega) | (congr 1; omega)
      rw [hp]
    have c0 := chan 0 (by omega)
    have c1 := chan 1 (by omega)
    have c2 := chan 2 (by omega)
    show zigzags (headsAt q y).r (lineOf q (y + 0)).r ++ zigzags (headsAt q y).g (lineOf q (y + 0)).g ++
      zigzags (headsAt q y).b (lineOf q (y + 0)).b ++ _ = _
    simp only [headsAt, lineOf]
    rw [c0, c1, c2]
    rw [show 96 * (n + 1) = 32 + (32 + (32 + 96 * n)) by omega]
    rw [List.range_add (n := 32) (m := 32 + (32 + 96 * n)), List.range_add (n := 32) (m := 32 + 96 * n),
      List.range_add (n := 32) (m := 96 * n)]
    simp only [List.map_append, List.map_map, List.append_assoc]
    refine append_congr ?_ (append_congr ?_ (append_congr ?_ ?_))
    · apply List.map_congr_left; intro x _; simp
    · apply List.map_congr_left; intro x _; simp only [Function.comp]
    · apply List.map_congr_left; intro x _; simp only [Function.comp]; congr 1; omega
    · apply List.map_congr_left; intro x _; simp only [Function.comp]; congr 1; omega

theorem list_eq_map_getD (l : List Nat) : l = (List.range l.length).map fun i => l.getD i 0 := by
  apply List.ext_getElem
  · simp
  · intro i h1 h2; simp [List.getElem?_eq_getElem h1]

theorem listBits_eq (ws zs : List Nat) (h : zs.length = 4 * ws.length) :
    listBits ws zs = (List.range ws.length).flatMap fun m =>
      bitsOf 5 (ws.getD m 0) ++ (List.range 4).flatMap fun j => bitsOf (ws.getD m 0) (zs.getD (4 * m + j) 0) := by
  induction ws generalizing zs with
  | nil => rfl
  | cons w ws ih =>
    simp only [List.length_cons] at h
    rw [listBits, ih _ (by rw [List.length_drop]; omega), List.length_cons, List.range_succ_eq_map (n := ws.length),
      List.flatMap_cons, List.flatMap_map]
    congr 1
    · match zs, h with
      | a :: b :: c :: d :: r, _ => rfl
      | [], h => simp at h
      | [_], h => simp at h; omega
      | [_, _], h => simp at h; omega
      | [_, _, _], h => simp at h; omega
    · apply List.flatMap_congr
      intro m _
      simp only [List.getD_cons_succ]
      congr 1
      apply List.flatMap_congr
      intro j _
      congr 1
      simp only [List.getD_eq_getElem?_getD, List.getElem?_drop]
      congr 2; omega

theorem widthsFit_iff (ws zs : List Nat) (h : zs.length = 4 * ws.length) :
    WidthsFit ws zs ↔ ∀ m < ws.length, ws.getD m 0 ≤ 17 ∧ ∀ j < 4, zs.getD (4 * m + j) 0 < 2 ^ ws.getD m 0 := by
  induction ws generalizing zs with
  | nil => simp at h; simp [WidthsFit, h]
  | cons w ws ih =>
    simp only [List.length_cons] at h
    rw [WidthsFit, ih _ (by rw [List.length_drop]; omega)]
    have hd : ∀ m j, (zs.drop 4).getD (4 * m + j) 0 = zs.getD (4 * (m + 1) + j) 0 := by
      intro m j
      simp only [List.getD_eq_getElem?_getD, List.getElem?_drop]
      congr 2; omega
    have h4 : (∀ z ∈ zs.take 4, z < 2 ^ w) ↔ ∀ j < 4, zs.getD (4 * 0 + j) 0 < 2 ^ w := by
      constructor
      · intro f j hj
        apply f
        rw [List.mem_iff_getElem?]
        refine ⟨j, ?_⟩
        rw [List.getElem?_take, if_pos hj, List.getD_eq_getElem?_getD, Nat.mul_zero, Nat.zero_add,
          List.getElem?_eq_getElem (by omega)]; rfl
      · intro f z hz
        obtain ⟨j, hj⟩ := List.mem_iff_getElem?.1 hz
        rw [List.getElem?_take] at hj
        split at hj
        · rename_i g
          have := f j g
          rw [List.getD_eq_getElem?_getD, Nat.mul_zero, Nat.zero_add, hj] at this; exact this
        · cases hj
    rw [h4]
    constructor
    · rintro ⟨a, _, b, c⟩ m hm
      cases m with
      | zero => exact ⟨a, b⟩
      | succ m =>
        have := c m (by simpa using hm)
        refine ⟨this.1, fun j hj => ?_⟩
        rw [← hd]; exact this.2 j hj
    · intro c
      refine ⟨(c 0 (by simp)).1, by omega, (c 0 (by simp)).2, fun m hm => ?_⟩
      have := c (m + 1) (by simpa using hm)
      refine ⟨this.1, fun j hj => ?_⟩
      rw [hd]; exact this.2 j hj

theorem lineOf_all (q : Nat → Nat) (y : Nat) : (lineOf q y).all = (List.range 96).map fun i => q (96 * y + i) := by
  unfold LineSamples.all lineOf
  rw [show 96 * y = 96 * y from rfl, show List.range 96 = List.range (32 + (32 + 32)) from rfl,
    List.range_add (n := 32) (m := 32 + 32), List.range_add (n := 32) (m := 32)]
  simp only [List.map_append, List.map_map, List.append_assoc]
  refine append_congr ?_ (append_congr ?_ ?_)
  · apply List.map_congr_left; intro x _; simp
  · apply List.map_congr_left; intro x _; simp only [Function.comp]; congr 1; omega
  · apply List.map_congr_left; intro x _; simp only [Function.comp]; congr 1; omega

/-- Whole lines are the lines of their samples by number. -/
theorem exists_lineOf (lines : List LineSamples) (h : ∀ l ∈ lines, l.Whole) :
    ∃ q : Nat → Nat, lines = (List.range lines.length).map fun i => lineOf q (0 + i) := by
  refine ⟨fun n => let l := lines.getD (n / 96) ⟨[], [], []⟩
    if n % 96 < 32 then l.r.getD (n % 96) 0 else if n % 96 < 64 then l.g.getD (n % 96 - 32) 0 else l.b.getD (n % 96 - 64) 0, ?_⟩
  apply List.ext_getElem
  · simp
  · intro i h1 h2
    simp only [List.getElem_map, List.getElem_range, Nat.zero_add, lineOf]
    have hw := h lines[i] (List.getElem_mem h1)
    have hi : lines.getD i ⟨[], [], []⟩ = lines[i] := by simp [h1]
    cases e : lines[i] with
    | mk r g b =>
    rw [e] at hw hi
    obtain ⟨w1, w2, w3⟩ := hw
    simp only at w1 w2 w3
    congr 1
    · rw [list_eq_map_getD r, w1]
      apply List.map_congr_left
      intro x hx
      have hx := List.mem_range.1 hx
      rw [show (96 * i + 32 * 0 + x) / 96 = i by omega, show (96 * i + 32 * 0 + x) % 96 = x by omega, hi, if_pos hx]
    · rw [list_eq_map_getD g, w2]
      apply List.map_congr_left
      intro x hx
      have hx := List.mem_range.1 hx
      rw [show (96 * i + 32 * 1 + x) / 96 = i by omega, show (96 * i + 32 * 1 + x) % 96 = 32 + x by omega, hi,
        if_neg (by omega), if_pos (by omega),
        show 32 + x - 32 = x by omega]
    · rw [list_eq_map_getD b, w3]
      apply List.map_congr_left
      intro x hx
      have hx := List.mem_range.1 hx
      rw [show (96 * i + 32 * 2 + x) / 96 = i by omega, show (96 * i + 32 * 2 + x) % 96 = 64 + x by omega, hi,
        if_neg (by omega), if_neg (by omega),
        show 64 + x - 64 = x by omega]

/-- The bits of a body by number and by list. -/
theorem bodyBits_eq (w q : Nat → Nat) :
    bodyBits w q = listBits ((List.range 768).map w) ((List.range 3072).map (residualCode q)) := by
  rw [listBits_eq _ _ (by rw [length_map_range, length_map_range]), length_map_range]
  unfold bodyBits
  apply List.flatMap_congr
  intro m hm
  have hm := List.mem_range.1 hm
  rw [getD_map_range w hm, ← bitsOf_eq]
  refine append_congr rfl ?_
  apply List.flatMap_congr
  intro j hj
  have hj := List.mem_range.1 hj
  rw [getD_map_range (residualCode q) (show 4 * m + j < 3072 by omega), bitsOf_eq]

theorem bitsOfBytes_eq (bs : List Byte) : bs.flatMap (fun x => bitsOf 8 x.toNat) = bitsOfBytes bs := by
  unfold bitsOfBytes; simp only [bitsOf_eq]

/-- The tile that quantised samples give (R84). -/
def tileOf (k : Nat) (q : Nat → Nat) : Tile :=
  tileOfList ((List.range 32).flatMap fun y => rebuildLine k (lineOf q y))

/-- A body decodes to a tile exactly when it is well formed with some samples, and the tile is theirs (R93). -/
theorem decodeBody_iff (fmt : Format) (k : Nat) (body : List Byte) (t : Tile) :
    decodeBody fmt k body = some t ↔ ∃ w q, BodyHolds fmt k body w q ∧ t = tileOf k q := by
  have hQ : maxQuantised fmt k = 2 ^ ((if fmt = .rgb8 then 8 else 16) - k) - 1 := by cases fmt <;> rfl
  unfold decodeBody
  rw [bitsOfBytes_eq]
  constructor
  · intro h
    obtain ⟨⟨lines, left⟩, h1, h⟩ := Option.bind_eq_some_iff.1 h
    obtain ⟨ws, a, b, m, f, e⟩ := (readLines_iff _ _ _ _ _ _).1 h1
    simp only at h
    split at h
    · rename_i g
      obtain ⟨q, hq⟩ := exists_lineOf lines fun l hl => (m l hl).1
      rw [b] at hq
      have hc : lineCodes ⟨0, 0, 0⟩ lines = (List.range 3072).map (residualCode q) := by
        have := lineCodes_lineOf q 0 32
        rw [← hq] at this
        rw [show (⟨0, 0, 0⟩ : Predictions) = headsAt q 0 from rfl, this]
        simp only [Nat.mul_zero, Nat.zero_add]
      have hw : ws = (List.range 768).map fun i => ws.getD i 0 := by
        have := list_eq_map_getD ws; rw [a] at this; exact this
      rw [hc] at f e
      refine ⟨fun i => ws.getD i 0, q, ⟨?_, ?_, ?_⟩, ?_⟩
      · have := (widthsFit_iff _ _ (by rw [length_map_range, a])).1 f
        intro i hi
        obtain ⟨x, y⟩ := this i (by omega)
        refine ⟨x, fun j hj => ?_⟩
        have := y j hj
        rw [getD_map_range (residualCode q) (show 4 * i + j < 3072 by omega)] at this
        exact this
      · intro n hn
        rw [← hQ]
        have hl : lineOf q (n / 96) ∈ lines := by
          rw [hq]
          refine List.mem_map.2 ⟨n / 96, List.mem_range.2 (by omega), by simp⟩
        apply (m _ hl).2
        rw [lineOf_all]
        exact List.mem_map.2 ⟨n % 96, List.mem_range.2 (by omega), by congr 1; omega⟩
      · refine ⟨left.length, g.1, ?_⟩
        rw [bodyBits_eq, ← hw, e]
        congr 1
        apply List.eq_replicate_of_mem
        intro x hx
        have := List.all_eq_true.1 g.2 x hx
        simpa using this
      · have : t = tileOfList (lines.flatMap (rebuildLine k)) := by injection h with h; exact h.symm
        rw [this, hq, List.flatMap_map]
        unfold tileOf
        refine congrArg tileOfList (List.flatMap_congr fun y _ => ?_)
        rw [Nat.zero_add]
    · cases h
  · rintro ⟨w, q, ⟨fit, small, z, hz, e⟩, rfl⟩
    have hc := lineCodes_lineOf q 0 32
    obtain ⟨ws, hws⟩ : ∃ ws, ws = (List.range 768).map w := ⟨_, rfl⟩
    obtain ⟨zs, hzs⟩ : ∃ zs, zs = (List.range 3072).map (residualCode q) := ⟨_, rfl⟩
    obtain ⟨lines, hl⟩ : ∃ lines, lines = (List.range 32).map fun i => lineOf q (0 + i) := ⟨_, rfl⟩
    have lw : ws.length = 768 := by rw [hws, length_map_range]
    have lz : zs.length = 3072 := by rw [hzs, length_map_range]
    have ll : lines.length = 32 := by rw [hl, length_map_range]
    have hf : WidthsFit ws zs := by
      rw [widthsFit_iff _ _ (by rw [lw, lz]), lw]
      intro i hi
      rw [hws, hzs, getD_map_range w hi]
      refine ⟨(fit i hi).1, fun j hj => ?_⟩
      rw [getD_map_range (residualCode q) (show 4 * i + j < 3072 by omega)]
      exact (fit i hi).2 j hj
    have hc' : lineCodes ⟨0, 0, 0⟩ lines = zs := by
      rw [hl, hzs, show (⟨0, 0, 0⟩ : Predictions) = headsAt q 0 from rfl, hc]; simp only [Nat.mul_zero, Nat.zero_add]
    have h6 : bitsOfBytes body = listBits ws zs ++ List.replicate z false := by rw [e, bodyBits_eq, hws, hzs]
    have := (readLines_iff (maxQuantised fmt k) 32 ⟨0, 0, 0⟩ (bitsOfBytes body) lines (List.replicate z false)).2
      ⟨ws, lw, ll, ?_, by rw [hc']; exact hf, by rw [hc']; exact h6⟩
    · rw [this]
      rw [Option.bind_some]
      show (if _ then some _ else none) = _
      rw [if_pos ⟨by rw [List.length_replicate]; exact hz, by simp⟩]
      unfold tileOf
      rw [hl, List.flatMap_map]
      simp only [Nat.zero_add]
    · intro l hm
      rw [hl] at hm
      obtain ⟨y, hy, rfl⟩ := List.mem_map.1 hm
      have hy := List.mem_range.1 hy
      refine ⟨⟨length_map_range _ _, length_map_range _ _, length_map_range _ _⟩, fun x hx => ?_⟩
      rw [lineOf_all] at hx
      obtain ⟨i, hi, rfl⟩ := List.mem_map.1 hx
      have hi := List.mem_range.1 hi
      rw [hQ]
      exact small _ (by omega)

/-! ### Tiles, chunks and headers -/

/-- An element of runs of one length. -/
theorem getElem?_flatMap_block {α : Type} (n b : Nat) (f : Nat → List α) (h : ∀ y < n,
    (f y).length = b) (i : Nat) (hi : i < n * b) :
    ((List.range n).flatMap f)[i]? = (f (i / b))[i % b]? := by
  induction n with
  | zero => omega
  | succ n ih =>
    have len : ((List.range n).flatMap f).length = n * b := by
      rw [List.length_flatMap]
      have : (List.range n).map (fun y => (f y).length) = List.replicate n b := by
        apply List.ext_getElem
        · simp
        · intro j h1 h2; simp only [List.length_map, List.length_range] at h1; simp [h j (by omega)]
      rw [this]; simp
    have hb : 0 < b := by rcases Nat.eq_zero_or_pos b with rfl | h' <;> omega
    rw [List.range_succ, List.flatMap_append, List.flatMap_cons, List.flatMap_nil, List.append_nil]
    rcases Nat.lt_or_ge i (n * b) with g | g
    · rw [List.getElem?_append_left (by omega), ih (fun y hy => h y (by omega)) g]
    · rw [List.getElem?_append_right (by omega), len]
      rw [Nat.add_mul] at hi
      have e1 : i / b = n := by rw [Nat.div_eq_iff hb]; constructor <;> omega
      have e2 : i - n * b = i % b := by
        have := Nat.div_add_mod i b
        rw [e1, Nat.mul_comm] at this; omega
      rw [e1, e2]


theorem getElem?_takeD {α : Type} (n : Nat) (l : List α) (d : α) (i : Nat) :
    (l.takeD n d)[i]? = if i < n then some (l[i]?.getD d) else none := by
  induction n generalizing l i with
  | zero => simp [List.takeD]
  | succ n ih =>
    rw [List.takeD]
    cases i with
    | zero => cases l <;> rfl
    | succ i =>
      rw [List.getElem?_cons_succ, ih]
      cases l <;> simp

theorem pixelOf_tileOfList (l : List Colour) {i : Nat} (h : i < 1024) : pixelOf (tileOfList l) i = l[i]?.getD Colour.black := by
  have e : (l.takeD 1024 Colour.black)[i]? = some (l[i]?.getD Colour.black) := by rw [getElem?_takeD, if_pos h]
  rw [pixelOf_eq _ h]
  simp only [tileOfList, vecOfList, Vector.getElem_mk, List.getElem_toArray]
  exact (List.getElem_eq_iff _).2 e

/-- The pixels of the tile that quantised samples give. -/
theorem tileOf_pixel (k : Nat) (q : Nat → Nat) {i : Nat} (h : i < 1024) :
    pixelOf (tileOf k q) i = let sample := fun c => BitVec.ofNat 16 (rebuilt k (q (i / 32 * 96 + c * 32 + i % 32)))
      ⟨sample 0, sample 1, sample 2⟩ := by
  unfold tileOf
  rw [pixelOf_tileOfList _ h, getElem?_flatMap_block 32 32 _ (fun y _ => by simp [rebuildLine, lineOf]) i h]
  have hx := Nat.mod_lt i (show 0 < 32 by omega)
  have e : ∀ k q, rebuild k q = rebuilt k q := fun _ _ => rfl
  simp only [rebuildLine, lineOf, List.getElem?_map, List.zip_map', List.getElem?_range hx, Option.map_some,
    Option.getD_some, e]
  congr 4 <;> omega

theorem chunkData_length (stream : List Byte) (j : Nat) : (chunkData stream j).length = 256 := List.takeD_length _ _ _

/-- The data of the chunks in order: the stream, then zeros (R92). -/
theorem chunkData_flatMap (stream : List Byte) (n : Nat) (h : stream.length ≤ 256 * n) :
    (List.range n).flatMap (chunkData stream) = stream ++ List.replicate (256 * n - stream.length) 0 := by
  apply List.ext_getElem?
  intro i
  rcases Nat.lt_or_ge i (n * 256) with g | g
  · rw [getElem?_flatMap_block n 256 _ (fun y _ => chunkData_length _ _) i g]
    unfold chunkData
    rw [getElem?_takeD, if_pos (Nat.mod_lt _ (by omega)), List.getElem?_drop, Nat.div_add_mod]
    rcases Nat.lt_or_ge i stream.length with l | l
    · rw [List.getElem?_append_left l, List.getElem?_eq_getElem l]; rfl
    · rw [List.getElem?_append_right l, List.getElem?_replicate, if_pos (by omega), List.getElem?_eq_none l]; rfl
  · rw [List.getElem?_eq_none, List.getElem?_eq_none]
    · rw [List.length_append, List.length_replicate]; omega
    · rw [List.length_flatMap]; simp only [chunkData_length, List.map_const', List.sum_replicate, List.length_range,
        smul_eq_mul]; omega

/-- The header check leaves byte 3 open (R90). -/
theorem headerMatches_iff (stream : List Byte) (kind : Nat) (tile : TileRef) (fmt : Format) (gen : Byte) (len : Nat) :
    headerMatches stream kind tile fmt gen len = true ↔ ∃ byte3, stream.take 10 = streamHead kind tile fmt byte3 gen len := by
  have h0 : ∀ b3, streamHead kind tile fmt b3 gen len = (headerOf kind tile fmt 0 gen len).take 3 ++ [b3] ++
    ((headerOf kind tile fmt 0 gen len).drop 4).take 6 := by
    intro b3
    have : BitVec.ofNat 8 fmt.code = if fmt = .rgb8 then 0 else 1 := by cases fmt <;> rfl
    simp [streamHead, headerOf, leBytes, this, Nat.div_div_eq_div_mul]
  have l3 : ((headerOf kind tile fmt 0 gen len).take 3).length = 3 := rfl
  have l6 : (((headerOf kind tile fmt 0 gen len).drop 4).take 6).length = 6 := rfl
  unfold headerMatches
  rw [Bool.and_eq_true, decide_eq_true_iff, decide_eq_true_iff]
  simp only [h0]
  generalize (headerOf kind tile fmt 0 gen len).take 3 = a at l3
  generalize ((headerOf kind tile fmt 0 gen len).drop 4).take 6 = b at l6
  constructor
  · rintro ⟨e3, e6⟩
    have hl : 10 ≤ stream.length := by
      have := congrArg List.length e6
      rw [l6, List.length_take, List.length_drop] at this; omega
    refine ⟨stream[3], ?_⟩
    rw [← e3, ← e6]
    rw [show 10 = 3 + 7 from rfl, List.take_add, List.append_assoc, List.drop_eq_getElem_cons (by omega)]
    rfl
  · rintro ⟨b3, e⟩
    constructor
    · have := congrArg (List.take 3) e
      rw [List.take_take] at this
      rw [show min 3 10 = 3 from rfl] at this
      rw [this, List.append_assoc, ← l3, List.take_left']; rfl
    · have := congrArg (List.drop 4) e
      rw [List.drop_take] at this
      rw [show 10 - 4 = 6 from rfl] at this
      rw [this, show 4 = (a ++ [b3]).length by simp [l3], List.drop_left']; rfl

theorem checkHolds_iff (stream : List Byte) (len : Nat) :
    checkHolds stream len = true ↔ (stream.drop (16 + len)).take 2 = checkBytes (crc16 (stream.take (16 + len))) := by
  unfold checkHolds; rw [decide_eq_true_iff]; rfl

theorem passes_iff (kind : Nat) (tile : TileRef) (fmt : Format) (gen : Byte) (len : Nat) (stream : List Byte) :
    (headerMatches stream kind tile fmt gen len && checkHolds stream len) = true ↔
      StreamPasses kind tile fmt gen len stream := by
  rw [Bool.and_eq_true, headerMatches_iff, checkHolds_iff]; rfl

/-- The pixels of a PLAIN body (R89). -/
theorem decodePlain_pixel (fmt : Format) (body : List Byte) (len : Nat) (h : body.length = len) (hl : len =
    (if fmt = .rgb8 then 3072 else 6144)) {i : Nat} (hi : i < 1024) :
    pixelOf (decodePlain fmt body) i =
        let byte := fun n => (body.getD n 0).toNat
        let sample := fun c => BitVec.ofNat 16
          (if fmt = .rgb8 then byte (3 * i + c) else byte (6 * i + 2 * c) + 256 * byte (6 * i + 2 * c + 1))
        ⟨sample 0, sample 1, sample 2⟩ := by
  have cs : ∀ (l : List Sample) (i : Nat), 3 * i + 2 < l.length → (coloursOf l)[i]? = some ⟨l.getD (3 * i) 0,
    l.getD (3 * i + 1) 0, l.getD (3 * i + 2) 0⟩ := by
    intro l
    induction l using coloursOf.induct with
    | case1 r g b rest ih =>
      intro i hi
      cases i with
      | zero => rfl
      | succ i =>
        rw [coloursOf, List.getElem?_cons_succ, ih i (by simp only [List.length_cons] at hi; omega)]
        rfl
    | case2 l h =>
      intro i hi
      match l, h with
      | [], _ => simp at hi
      | [_], _ => simp at hi
      | [_, _], _ => simp at hi
      | a :: b :: c :: r, h => exact absurd rfl (h a b c r)
  have ws : ∀ (l : List Byte) (i : Nat),
    2 * i + 1 < l.length → (wideSamples l)[i]? =
      some (BitVec.ofNat 16 ((l.getD (2 * i) 0).toNat + 256 * (l.getD (2 * i + 1) 0).toNat)) := by
    intro l
    induction l using wideSamples.induct with
    | case1 lo hi rest ih =>
      intro i hi'
      cases i with
      | zero =>
        simp only [wideSamples, List.getElem?_cons_zero]
        congr 1
        apply BitVec.eq_of_toNat_eq
        rw [BitVec.toNat_append, Nat.shiftLeft_eq, BitVec.toNat_ofNat]
        show _ = (lo.toNat + 256 * hi.toNat) % 2 ^ 16
        rw [Nat.mod_eq_of_lt (by omega), Nat.mul_comm, ← Nat.two_pow_add_eq_or_of_lt lo.isLt]
        omega
      | succ i =>
        rw [wideSamples, List.getElem?_cons_succ, ih i (by simp only [List.length_cons] at hi'; omega)]
        rfl
    | case2 l h =>
      intro i hi
      match l, h with
      | [], _ => simp at hi
      | [_], _ => simp at hi
      | a :: b :: r, h => exact absurd rfl (h a b r)
  have wl : ∀ (l : List Byte), (wideSamples l).length = l.length / 2 := by
    intro l
    induction l using wideSamples.induct with
    | case1 lo hi rest ih => simp [wideSamples, ih]; omega
    | case2 l h =>
      match l, h with
      | [], _ => rfl
      | [_], _ => simp [wideSamples]
      | a :: b :: r, h => exact absurd rfl (h a b r)
  unfold decodePlain
  rw [pixelOf_tileOfList _ hi]
  cases fmt
  · simp only [if_true] at hl ⊢
    rw [cs _ _ (by simp [samplesOf, h, hl]; omega)]
    have : ∀ b : Byte, b.setWidth 16 = BitVec.ofNat 16 b.toNat := fun b => BitVec.eq_of_toNat_eq (by simp)
    have g : ∀ j, j < 3072 → ((samplesOf .rgb8 body).getD j 0) = BitVec.ofNat 16 (body.getD j 0).toNat := by
      intro j hj
      rw [samplesOf, List.getD_eq_getElem?_getD, List.getElem?_map, List.getD_eq_getElem?_getD,
        List.getElem?_eq_getElem (by omega)]
      exact this _
    rw [g _ (by omega), g _ (by omega), g _ (by omega)]
    rfl
  · simp only [reduceCtorEq, if_false] at hl ⊢
    rw [cs _ _ (by simp [samplesOf, wl, h, hl]; omega)]
    have g : ∀ j, j < 3072 → ((samplesOf .rgb16 body).getD j 0) =
        BitVec.ofNat 16 ((body.getD (2 * j) 0).toNat + 256 * (body.getD (2 * j + 1) 0).toNat) := by
      intro j hj
      rw [samplesOf, List.getD_eq_getElem?_getD, ws _ _ (by omega)]; rfl
    rw [g _ (by omega), g _ (by omega), g _ (by omega)]
    simp only [Option.getD_some, Nat.mul_add, ← Nat.mul_assoc]
    rfl

/-! ### What the encoder writes (R87, R88) -/

theorem bitLength_spec {z : Nat} (h : z < 2 ^ 17) : bitLength z ≤ 17 ∧ z < 2 ^ bitLength z ∧
    (bitLength z = 0 ∨ 2 ^ (bitLength z - 1) ≤ z) := by
  unfold bitLength
  cases e : (List.range 32).find? fun w => decide (z < 2 ^ w) with
  | none =>
    have := List.find?_eq_none.1 e 17 (by simp)
    simp at this; omega
  | some w =>
    rw [Option.getD_some]
    have hw := List.find?_some e
    simp at hw
    have hm : ∀ v < w, 2 ^ v ≤ z := by
      intro v hv
      rw [List.find?_range_eq_some] at e
      have := e.2.2 v hv
      simpa using this
    refine ⟨?_, hw, ?_⟩
    · by_contra g
      have := hm 17 (by omega)
      omega
    · rcases Nat.eq_zero_or_pos w with rfl | p
      · exact Or.inl rfl
      · exact Or.inr (hm (w - 1) (by omega))

/-- The least widths that hold the values. -/
def minWidths : List Nat → List Nat
  | a :: b :: c :: d :: rest => ([a, b, c, d].map bitLength).foldl max 0 :: minWidths rest
  | _ => []

/-- The groups of values below 2^17: in the least widths, each of 17 or less. -/
theorem groups_bits (n : Nat) (zs : List Nat) (h : zs.length = 4 * n) (hz : ∀ z ∈ zs, z < 2 ^ 17) :
    (minWidths zs).length = n ∧ (groupsOf zs).flatMap groupBits = listBits (minWidths zs) zs ∧ WidthsFit (minWidths zs) zs ∧
    ∀ m < n, (minWidths zs).getD m 0 = 0 ∨ ∃ j < 4, 2 ^ ((minWidths zs).getD m 0 - 1) ≤ zs.getD (4 * m + j) 0 := by
  induction n generalizing zs with
  | zero => simp at h; subst h; simp [minWidths, groupsOf, listBits, WidthsFit]
  | succ n ih =>
    match zs, h with
    | a :: b :: c :: d :: rest, h =>
      obtain ⟨i1, i2, i3, i4⟩ := ih rest (by simp only [List.length_cons] at h; omega) (fun z hz' => hz z (by simp [hz']))
      have ba := bitLength_spec (hz a (by simp))
      have bb := bitLength_spec (hz b (by simp))
      have bc := bitLength_spec (hz c (by simp))
      have bd := bitLength_spec (hz d (by simp))
      have mw : minWidths (a :: b :: c :: d :: rest) = max (max (max (max 0 (bitLength a)) (bitLength b)) (bitLength c))
        (bitLength d) :: minWidths rest := rfl
      generalize hM : max (max (max (max 0 (bitLength a)) (bitLength b)) (bitLength c)) (bitLength d) = M at mw
      have le : ∀ x y : Nat, x < 2 ^ y → y ≤ M → x < 2 ^ M := fun x y hx hy =>
        lt_of_lt_of_le hx (Nat.pow_le_pow_right (by omega) hy)
      rw [mw]
      refine ⟨by simp [i1], ?_, ⟨by omega, by simp, ?_, by simpa using i3⟩, ?_⟩
      · rw [groupsOf, List.flatMap_cons, i2, listBits]
        refine append_congr ?_ rfl
        show bitsOf 5 (max (max (max (max 0 (bitLength a)) (bitLength b)) (bitLength c)) (bitLength d)) ++ _ = _
        rw [hM]; simp only [List.map_cons, List.map_nil, List.foldl_cons, List.foldl_nil, hM]; rfl
      · intro z hz'
        simp only [List.take_succ_cons, List.take_zero, List.mem_cons, List.not_mem_nil, or_false] at hz'
        rcases hz' with rfl | rfl | rfl | rfl
        · exact le _ _ ba.2.1 (by omega)
        · exact le _ _ bb.2.1 (by omega)
        · exact le _ _ bc.2.1 (by omega)
        · exact le _ _ bd.2.1 (by omega)
      · intro m hm
        cases m with
        | succ m =>
          have := i4 m (by omega)
          rw [List.getD_cons_succ]
          rcases this with g | ⟨j, hj, g⟩
          · exact Or.inl g
          · refine Or.inr ⟨j, hj, ?_⟩
            rw [show 4 * (m + 1) + j = (4 * m + j) + 1 + 1 + 1 + 1 by omega]
            simpa using g
        | zero =>
          simp only [List.getD_cons_zero]
          have : M = bitLength a ∨ M = bitLength b ∨ M = bitLength c ∨ M = bitLength d := by omega
          rcases this with e | e | e | e
          · rw [e]; rcases ba.2.2 with g | g
            · exact Or.inl g
            · exact Or.inr ⟨0, by omega, g⟩
          · rw [e]; rcases bb.2.2 with g | g
            · exact Or.inl g
            · exact Or.inr ⟨1, by omega, g⟩
          · rw [e]; rcases bc.2.2 with g | g
            · exact Or.inl g
            · exact Or.inr ⟨2, by omega, g⟩
          · rw [e]; rcases bd.2.2 with g | g
            · exact Or.inl g
            · exact Or.inr ⟨3, by omega, g⟩

theorem groupsOf_append (n : Nat) (a b : List Nat) (h : a.length = 4 * n) : groupsOf (a ++ b) = groupsOf a ++ groupsOf b := by
  induction n generalizing a with
  | zero => simp at h; subst h; rfl
  | succ n ih =>
    match a, h with
    | w :: x :: y :: z :: rest, h =>
      show [w, x, y, z] :: groupsOf (rest ++ b) = _
      rw [ih rest (by simp only [List.length_cons] at h; omega)]; rfl

theorem lineCodes_length (p : Predictions) (lines : List LineSamples) (h : ∀ l ∈ lines,
    l.Whole) : (lineCodes p lines).length = 96 * lines.length := by
  induction lines generalizing p with
  | nil => rfl
  | cons l ls ih =>
    obtain ⟨a, b, c⟩ := h l (by simp)
    rw [lineCodes, List.length_append, List.length_append, List.length_append, zigzags_length, zigzags_length, zigzags_length,
      ih _ (fun x hx => h x (by simp [hx])), List.length_cons]
    omega

theorem linesBits_eq (p : Predictions) (lines : List LineSamples) (h : ∀ l ∈ lines, l.Whole) :
    linesBits p lines = (groupsOf (lineCodes p lines)).flatMap groupBits := by
  induction lines generalizing p with
  | nil => rfl
  | cons l ls ih =>
    obtain ⟨a, b, c⟩ := h l (by simp)
    rw [linesBits, lineCodes, groupsOf_append 24 _ _ (by simp [zigzags_length]; omega),
      groupsOf_append 16 _ _ (by simp [zigzags_length]; omega), groupsOf_append 8 _ _ (by simp [zigzags_length]; omega)]
    simp only [List.flatMap_append]
    rw [ih _ (fun x hx => h x (by simp [hx]))]
    rfl

theorem byteOfBits_bits : ∀ a b c d e f g h : Bool, msbBits 8 (byteOfBits [a, b, c, d, e, f, g, h]).toNat = [a, b, c, d, e,
    f, g, h] := by decide +kernel

/-- The bits of packed bits: the bits, then fewer than 8 zeros (R88). -/
theorem bits_packBits (bits : List Bool) : ∃ z < 8, bitsOfBytes (packBits bits) = bits ++ List.replicate z false := by
  induction bits using packBits.induct with
  | case1 a b c d e f g h rest ih =>
    obtain ⟨z, hz, e'⟩ := ih
    refine ⟨z, hz, ?_⟩
    show msbBits 8 (byteOfBits _).toNat ++ bitsOfBytes (packBits rest) = _
    rw [byteOfBits_bits, e']; rfl
  | case2 => exact ⟨0, by omega, rfl⟩
  | case3 l h1 h2 =>
    match l, h1, h2 with
    | [], _, h2 => exact absurd rfl h2
    | [a], _, _ => exact ⟨7, by omega, (List.append_nil _).trans (byteOfBits_bits a _ _ _ _ _ _ _)⟩
    | [a, b], _, _ => exact ⟨6, by omega, (List.append_nil _).trans (byteOfBits_bits a b _ _ _ _ _ _)⟩
    | [a, b, c], _, _ => exact ⟨5, by omega, (List.append_nil _).trans (byteOfBits_bits a b c _ _ _ _ _)⟩
    | [a, b, c, d], _, _ => exact ⟨4, by omega, (List.append_nil _).trans (byteOfBits_bits a b c d _ _ _ _)⟩
    | [a, b, c, d, e], _, _ => exact ⟨3, by omega, (List.append_nil _).trans (byteOfBits_bits a b c d e _ _ _)⟩
    | [a, b, c, d, e, f], _, _ => exact ⟨2, by omega, (List.append_nil _).trans (byteOfBits_bits a b c d e f _ _)⟩
    | [a, b, c, d, e, f, g], _, _ => exact ⟨1, by omega, (List.append_nil _).trans (byteOfBits_bits a b c d e f g _)⟩
    | a :: b :: c :: d :: e :: f :: g :: h :: r, h1, _ => exact absurd rfl (h1 a b c d e f g h r)

/-- The quantised samples of a tile by number (R83, R88). -/
theorem quantLines_eq (k : Nat) (t : Tile) :
    let raw := fun n =>
        let c := pixelOf t (n / 96 * 32 + n % 32)
        (if n / 32 % 3 = 0 then c.r else if n / 32 % 3 = 1 then c.g else c.b).toNat
    quantLines k t = (List.range 32).map fun y => lineOf (fun n => raw n / 2 ^ k) y := by
  intro raw
  unfold quantLines
  apply List.map_congr_left
  intro y hy
  have hy := List.mem_range.1 hy
  have px : runAt 32 y t.toList = (List.range 32).map fun x => pixelOf t (y * 32 + x) := by
    apply List.ext_getElem?
    intro i
    unfold runAt
    rw [List.getElem?_take, List.getElem?_drop, List.getElem?_map]
    rcases Nat.lt_or_ge i 32 with hi | hi
    · rw [if_pos hi, List.getElem?_range hi, Option.map_some, List.getElem?_eq_getElem (by simp; omega)]
      rw [pixelOf_eq _ (by omega)]; simp
    · rw [if_neg (by omega), List.getElem?_eq_none (by simpa using hi)]; rfl
  rw [px]
  unfold lineOf
  simp only [List.map_map]
  congr 1
  · apply List.map_congr_left
    intro x hx
    have hx := List.mem_range.1 hx
    simp only [Function.comp, quantise, raw]
    rw [show (96 * y + 32 * 0 + x) / 96 * 32 + (96 * y + 32 * 0 + x) % 32 = y * 32 + x by omega, if_pos (by omega)]
  · apply List.map_congr_left
    intro x hx
    have hx := List.mem_range.1 hx
    simp only [Function.comp, quantise, raw]
    rw [show (96 * y + 32 * 1 + x) / 96 * 32 + (96 * y + 32 * 1 + x) % 32 = y * 32 + x by omega, if_neg (by omega),
      if_pos (by omega)]
  · apply List.map_congr_left
    intro x hx
    have hx := List.mem_range.1 hx
    simp only [Function.comp, quantise, raw]
    rw [show (96 * y + 32 * 2 + x) / 96 * 32 + (96 * y + 32 * 2 + x) % 32 = y * 32 + x by omega, if_neg (by omega),
      if_neg (by omega)]

/-- A body that the encoder wrote is well formed, in the least widths (R93). -/
theorem codedBody_holds (fmt : Format) (k : Nat) (t : Tile)
    (hs : let bits := if fmt = .rgb8 then 8 else 16; ∀ i < 1024, (pixelOf t i).r.toNat < 2 ^ bits ∧
      (pixelOf t i).g.toNat < 2 ^ bits ∧
      (pixelOf t i).b.toNat < 2 ^ bits) (hk : k ≤ if fmt = .rgb8 then 7 else 15) :
    let raw := fun n =>
        let c := pixelOf t (n / 96 * 32 + n % 32)
        (if n / 32 % 3 = 0 then c.r else if n / 32 % 3 = 1 then c.g else c.b).toNat
    let q := fun n => raw n / 2 ^ k
    ∃ w, BodyHolds fmt k (codedBody k t) w q ∧ ∀ m < 768, w m = 0 ∨ ∃ j < 4, 2 ^ (w m - 1) ≤ residualCode q (4 * m + j) := by
  intro raw q
  have hq : ∀ n < 3072, q n ≤ 2 ^ ((if fmt = .rgb8 then 8 else 16) - k) - 1 := by
    intro n hn
    have hr : raw n < 2 ^ (if fmt = .rgb8 then 8 else 16) := by
      have := hs (n / 96 * 32 + n % 32) (by omega)
      simp only [raw]
      split
      · exact this.1
      · split
        · exact this.2.1
        · exact this.2.2
    have hb : k ≤ (if fmt = .rgb8 then 8 else 16) := by cases fmt <;> simp at hk ⊢ <;> omega
    generalize (if fmt = .rgb8 then 8 else 16) = b at *
    have : 2 ^ b = 2 ^ k * 2 ^ (b - k) := by rw [← Nat.pow_add]; congr 1; omega
    have : q n < 2 ^ (b - k) := by
      show raw n / 2 ^ k < _
      rw [Nat.div_lt_iff_lt_mul (Nat.two_pow_pos k), Nat.mul_comm, ← this]; exact hr
    omega
  have hz : ∀ n < 3072, residualCode q n < 2 ^ 17 := by
    intro n hn
    have h1 := hq n hn
    have h2 : predicted q n ≤ 2 ^ ((if fmt = .rgb8 then 8 else 16) - k) - 1 := by
      unfold predicted
      split
      · exact hq _ (by omega)
      · split
        · exact hq _ (by omega)
        · omega
    have : 2 ^ ((if fmt = .rgb8 then 8 else 16) - k) ≤ 2 ^ 16 := Nat.pow_le_pow_right (by omega) (by split <;> omega)
    rw [residualCode_eq]
    unfold zigzag
    split <;> omega
  obtain ⟨zs, hzs⟩ : ∃ zs, zs = (List.range 3072).map (residualCode q) := ⟨_, rfl⟩
  have lz : zs.length = 4 * 768 := by rw [hzs, length_map_range]
  obtain ⟨a, b, c, d⟩ := groups_bits 768 zs lz (by
    intro z hm; rw [hzs] at hm
    obtain ⟨n, hn, rfl⟩ := List.mem_map.1 hm
    exact hz n (List.mem_range.1 hn))
  have lc : linesBits ⟨0, 0, 0⟩ (quantLines k t) = listBits (minWidths zs) zs := by
    rw [quantLines_eq]
    have := lineCodes_lineOf q 0 32
    simp only [Nat.zero_add, Nat.mul_zero] at this
    rw [linesBits_eq, show (⟨0, 0, 0⟩ : Predictions) = headsAt q 0 from rfl, this, ← b, hzs]
    intro l hl
    obtain ⟨y, _, rfl⟩ := List.mem_map.1 hl
    exact ⟨length_map_range _ _, length_map_range _ _, length_map_range _ _⟩
  have wd : (List.range 768).map (fun i => (minWidths zs).getD i 0) = minWidths zs := by
    have := list_eq_map_getD (minWidths zs); rw [a] at this; exact this.symm
  refine ⟨fun i => (minWidths zs).getD i 0, ⟨?_, hq, ?_⟩, ?_⟩
  · have := (widthsFit_iff _ _ (by rw [a]; exact lz)).1 c
    rw [a] at this
    intro m hm
    obtain ⟨x, y⟩ := this m hm
    refine ⟨x, fun j hj => ?_⟩
    have := y j hj
    rw [hzs, getD_map_range (residualCode q) (show 4 * m + j < 3072 by omega), ← hzs] at this
    exact this
  · unfold codedBody
    rw [lc]
    obtain ⟨z, h, e⟩ := bits_packBits (listBits (minWidths zs) zs)
    refine ⟨z, h, ?_⟩
    rw [e, bodyBits_eq, wd, ← hzs]
  · intro m hm
    rcases d m hm with g | ⟨j, hj, g⟩
    · exact Or.inl g
    · refine Or.inr ⟨j, hj, ?_⟩
      rw [hzs, getD_map_range (residualCode q) (show 4 * m + j < 3072 by omega), ← hzs] at g
      exact g
end Sys2Proof.Machine
end

