-- ==== Sys2Proof/Laws/Window.lean ====
section
/-! SUPPORT. Tile parts and the window: what the parts of a request are (R152, R153), what a change of a tile part leaves in the
window (R155), and when a bit of the setup line is late (R167). -/

set_option Elab.async false

namespace Sys2Proof.Machine

/-! ### The parts of a request -/

/-- What adding a pixel does to the tiles of the parts. -/
theorem addPixel_tiles (fmt : Format) (l : List Part) (t : TileRef) (p : PartPixel) :
    (addPixel fmt l t p).map Part.tile = if t ∈ l.map Part.tile then l.map Part.tile else l.map Part.tile ++ [t] := by
  induction l with
  | nil => rfl
  | cons q rest ih =>
    by_cases h : q.tile = t
    · simp [addPixel, h]
    · by_cases m : t ∈ rest.map Part.tile
      · rw [if_pos m] at ih
        rw [addPixel, if_neg h, List.map_cons, ih, if_pos (by simp [m])]
        rfl
      · rw [if_neg m] at ih
        have n : t ∉ (q :: rest).map Part.tile := by
          simp only [List.map_cons, List.mem_cons, not_or]
          exact ⟨fun e => h e.symm, m⟩
        rw [addPixel, if_neg h, List.map_cons, ih, if_neg n]
        rfl

/-- The parts after a pixel was added: each is as it was but for its pixels, or new. -/
theorem mem_addPixel {fmt : Format} {l : List Part} {t : TileRef} {p : PartPixel} {x : Part}
    (h : x ∈ addPixel fmt l t p) :
    (∃ q ∈ l, x.tile = q.tile ∧ x.fmt = q.fmt ∧ x.progress = q.progress) ∨
      (x.tile = t ∧ x.fmt = fmt ∧ x.progress = .waiting) := by
  induction l with
  | nil =>
    rw [addPixel, List.mem_singleton] at h
    rw [h]
    exact .inr ⟨rfl, rfl, rfl⟩
  | cons q rest ih =>
    rw [addPixel] at h
    split at h
    · rcases List.mem_cons.1 h with e | m
      · rw [e]
        exact .inl ⟨q, List.mem_cons_self, rfl, rfl, rfl⟩
      · exact .inl ⟨x, List.mem_cons_of_mem _ m, rfl, rfl, rfl⟩
    · rcases List.mem_cons.1 h with e | m
      · rw [e]
        exact .inl ⟨q, List.mem_cons_self, rfl, rfl, rfl⟩
      · exact (ih m).imp (fun ⟨y, k, g⟩ => ⟨y, List.mem_cons_of_mem _ k, g⟩) id

/-- The parts that a list of pixels is gathered into. -/
theorem foldl_addPixel (fmt : Format) (tile : Nat → TileRef) (px : Nat → PartPixel) (is : List Nat) (l : List Part)
    (P : Part → Prop) (hl : (l.map Part.tile).Nodup) (hp : ∀ x ∈ l, P x)
    (step : ∀ x y : Part, P x → y.tile = x.tile → y.fmt = x.fmt → y.progress = x.progress → P y)
    (new : ∀ i ∈ is, ∀ x : Part, x.tile = tile i → x.fmt = fmt → x.progress = .waiting → P x) :
    ((is.foldl (fun ps i => addPixel fmt ps (tile i) (px i)) l).map Part.tile).Nodup ∧
      ∀ x ∈ is.foldl (fun ps i => addPixel fmt ps (tile i) (px i)) l, P x := by
  induction is generalizing l with
  | nil => exact ⟨hl, hp⟩
  | cons i rest ih =>
    refine ih _ ?_ (fun x m => ?_) fun j k => new j (List.mem_cons_of_mem _ k)
    · rw [addPixel_tiles]
      split
      · exact hl
      · rename_i n
        exact List.nodup_append.2 ⟨hl, List.nodup_singleton _, fun a ha b hb e => n (by
          rw [List.mem_singleton.1 hb] at e
          exact e ▸ ha)⟩
    · rcases mem_addPixel m with ⟨q, k, e1, e2, e3⟩ | ⟨e1, e2, e3⟩
      · exact step q x (hp q k) e1 e2 e3
      · exact new i List.mem_cons_self x e1 e2 e3

/-- The tile parts of an aperture request: of different tiles, each of the aperture, in its format, and WAITING. -/
theorem partsOf_parts (a : ApIx) (x : Aperture) (kind : ReqKind) (addr : Nat) :
    ((partsOf a x kind addr).map Part.tile).Nodup ∧
      ∀ p ∈ partsOf a x kind addr, p.tile.ap = a ∧ p.fmt = x.fmt ∧ p.progress = .waiting :=
  foldl_addPixel x.fmt _ _ _ [] (fun p => p.tile.ap = a ∧ p.fmt = x.fmt ∧ p.progress = .waiting) List.nodup_nil
    (fun _ h => by cases h) (fun _ _ h e1 e2 e3 => ⟨by rw [e1]; exact h.1, e2.trans h.2.1, e3.trans h.2.2⟩)
    fun _ _ _ e1 e2 e3 => ⟨by rw [e1], e2, e3⟩

/-! ### A change of tile parts in the window -/

theorem isFinished_iff (p : Part) : p.isFinished = true ↔ p.progress = .complete ∨ p.progress = .failed := by
  cases h : p.progress <;> simp [Part.isFinished, h]

theorem isComplete_iff (r : Request) : r.isComplete = true ↔ r.outcome ≠ .undetermined := by
  simp [Request.isComplete]

/-- The outcome that an aperture request takes with its parts. -/
theorem conclude_eq (r : Request) (parts : List Part) : ({ r with parts := parts } : Request).conclude = r.withParts parts := by
  have e : ((!parts.all Part.isFinished) = false) ↔ ∀ p ∈ parts, p.progress = .complete ∨ p.progress = .failed := by
    simp [List.all_eq_true, isFinished_iff]
  unfold Request.conclude Request.withParts
  by_cases h : r.outcome = .undetermined
  · by_cases n : parts = []
    · simp [Request.isComplete, h, n]
    · by_cases a : ∀ p ∈ parts, p.progress = .complete ∨ p.progress = .failed
      · have f := e.2 a
        simp only [Request.isComplete, h, ne_eq, not_true, decide_false, Bool.false_or, List.isEmpty_iff, n,
          Bool.or_eq_true, f, not_false_eq_true, true_and, if_pos a]
        by_cases g : ∃ p ∈ parts, p.progress = .failed
        · simp [g]
        · simp [g]
      · have f : (!parts.all Part.isFinished) = true := by
          cases k : !parts.all Part.isFinished with
          | false => exact absurd (e.1 k) a
          | true => rfl
        simp [Request.isComplete, h, n, f, a]
  · simp [Request.isComplete, h]

theorem modify_eq_mapIdx (l : List Part) (f : Part → Part) (i : Nat) :
    l.modify i f = l.mapIdx fun j p => if j = i then f p else p := by
  apply List.ext_getElem?
  intro n
  rw [List.getElem?_modify, List.getElem?_mapIdx]
  cases l[n]? with
  | none => rfl
  | some p => by_cases h : i = n <;> simp [h, eq_comm]

/-- The window after a change of one tile part. -/
theorem updPart_window (s : State) (ref : PartRef) (f : Part → Part) :
    (s.updPart ref f).port = { s.port with window := windowWith s.port.window [ref] f } := by
  suffices e : (s.updPart ref f).port.window = windowWith s.port.window [ref] f by
    rw [← e]
    rfl
  refine List.map_congr_left fun r _ => ?_
  by_cases h : r.id = ref.req
  · have g : ∃ x ∈ [ref], x.req = r.id := ⟨ref, List.mem_singleton.2 rfl, h.symm⟩
    rw [if_pos h, if_pos g, conclude_eq, modify_eq_mapIdx]
    congr 1
    refine List.mapIdx_eq_mapIdx_iff.2 fun i hi => ?_
    have e : ((⟨r.id, i⟩ : PartRef) ∈ [ref]) ↔ i = ref.part := by
      rw [List.mem_singleton]
      exact ⟨fun k => by rw [← k], fun k => by cases ref; cases h; cases k; rfl⟩
    by_cases k : i = ref.part
    · rw [if_pos k, if_pos (e.2 k)]
    · rw [if_neg k, if_neg fun m => k (e.1 m)]
  · have g : ¬∃ x ∈ [ref], x.req = r.id := by
      rintro ⟨x, m, k⟩
      rw [List.mem_singleton.1 m] at k
      exact h k.symm
    rw [if_neg h, if_neg g]

/-! ### Late bits -/

/-- The order's last bit may stay high for 3 µs, and a bit before it for less (R167). -/
theorem isLate_iff (r : Receiver) (h : Nat) :
    r.isLate h = true ↔
      if r.bits.length = 7 ∧ r.cls.bind classLength = some (r.bytes.length + 1) then 3000 < h else 3000 ≤ h := by
  have e : r.atLastBit = true ↔ r.bits.length = 7 ∧ r.cls.bind classLength = some (r.bytes.length + 1) := by
    simp [Receiver.atLastBit, and_comm]
  by_cases k : r.bits.length = 7 ∧ r.cls.bind classLength = some (r.bytes.length + 1)
  · rw [Receiver.isLate, if_pos (e.2 k), if_pos k, decide_eq_true_iff]
    rfl
  · rw [Receiver.isLate, if_neg fun m => k (e.1 m), if_neg k, decide_eq_true_iff]
    rfl

/-- A pulse while nothing is taken (R171): DEAF and PASSING take no bit. -/
theorem takeHigh_idle (s : State) (h : Nat) (k : s.link.state ≠ .taking) : s.takeHigh h = s := by
  unfold State.takeHigh
  split
  · rename_i e
    exact absurd e k
  · rfl
  · rfl
  · rfl

end Sys2Proof.Machine
end

