-- ==== Sys2Proof/Tests/Slice0.lean ====
section
/-! SUPPORT. Tests: an ill-formed command for each check of WellFormed, which the command refuses; the manual's worked values; one
step of commands on small states; and, for each obligation with hypotheses, a state and operands that meet them. -/

set_option Elab.async false

namespace Sys2Proof.Tests

open Sys2Proof Sys2Proof.Machine

/-! ### Well-formedness -/

theorem test_illFormed_class : Instr.wf (.illegalLengthClass 0) = false := by decide +kernel
theorem test_illFormed_code : Instr.wf (.undefinedOrder 0x21) = false := by decide +kernel
theorem test_illFormed_class4_code : Instr.wf (.undefinedOrder 0x80) = false := by decide +kernel
theorem test_illFormed_read : Instr.wf (.composerRead 0 0) = false ∧ Instr.wf (.composerRead 0 257) = false := by decide +kernel
theorem test_illFormed_write : Instr.wf (.composerWrite 0 []) = false ∧
    Instr.wf (.composerWrite 0 (List.replicate 257 (0, true))) = false := by decide +kernel
theorem test_illFormed_pass : Instr.wf (.passThroughAnswer .okay (List.replicate 257 0)) = false := by decide +kernel
theorem test_illFormed_chunk : Instr.wf (.chunkReadAnswer .okay [0]) = false := by decide +kernel
theorem test_wellFormed : [Instr.illegalLengthClass 4, .undefinedOrder 0x20, .undefinedOrder 0xE0, .composerRead 0 1,
    .composerRead 0 256, .chunkReadAnswer .error [], .chunkReadAnswer .okay (List.replicate 256 0)].all Instr.wf = true := by
  decide +kernel

/-! ### Small states -/

/-- A pool of 100 chunks at 0x10000, all free, low water 5. -/
def pool100 : Pool := ⟨0x10000, 100, List.range 100, [], 5, 10, none⟩

/-- An RGB8 aperture of 2 × 2 tiles at 0x100000, in some state. -/
def ap0 (st : ApState) : Aperture := ⟨st, .rgb8, .fixed, 0, 4, 0x100000, 2, 2, 1, 2, 3, 0, 4, [], 0⟩

/-- The part with that pool and that aperture as aperture 0. -/
def part (st : ApState) : State :=
  { State.reset with
    aps := State.reset.aps.set 0 (ap0 st), pool := pool100
    map := { TileMap.reset with freeExtents := [⟨4, 262140⟩] } }

/-- The part with slot `k` replaced. -/
def withSlot (k : SlotIx) (sl : Slot) (s : State) : State :=
  { s with asm := { s.asm with slots := s.asm.slots.set k sl } }

/-- A FILLING slot of tile `ix` of aperture 0 with nothing present. -/
def fillingOf (ix : Nat) (pred : Option SlotIx) : Slot :=
  ⟨.filling, some ⟨0, ix⟩, Vector.replicate 1024 Colour.black, 0, pred, false, false⟩

/-- A tile operation on slot 0 for tile 0 of aperture 0. -/
def opOf (stage : Stage) : TileOp :=
  ⟨stage, 0, ⟨0, 0⟩, 1, false, 0, 2, 0, false, none, none, [], 0, 0⟩

/-- A slot of tile 0 that the encoder holds, black, or with one white pixel. -/
def encodingSlot (white : Bool) : Slot :=
  ⟨.encoding, some ⟨0, 0⟩, if white then (Vector.replicate 1024 Colour.black).set 5 ⟨255, 255, 255⟩
    else Vector.replicate 1024 Colour.black, BitVec.allOnes 1024, none, false, false⟩

/-- The part whose encoder has that operation in hand. -/
def coding (white : Bool) (op : TileOp) : State :=
  { withSlot 0 (encodingSlot white) (part .opened) with enc := ⟨some op, none⟩ }

/-- The order unit executing an order. -/
def executing (o : Order) (s : State) : State := { s with ord := { s.ord with executing := some o } }

theorem ready_part (st : ApState) : (part st).ReadyForOrder := ⟨rfl, rfl, rfl⟩

theorem alone_part : (part .opened).Alone := ⟨by show (part .opened).micro = none; decide +kernel, rfl, rfl, rfl⟩

/-! ### The manual's values -/

theorem test_crc8 : crc8 [0x31, 0x32, 0x33, 0x34, 0x35, 0x36, 0x37, 0x38, 0x39] = 0xF4 := by decide +kernel
theorem test_crc16 : crc16 [0x31, 0x32, 0x33, 0x34, 0x35, 0x36, 0x37, 0x38, 0x39] = 0x29B1 := by decide +kernel
theorem test_frame_close : (Order.close 3 0 0).frame = [0x21, 0x03, 0x00, 0x17] := by decide +kernel
theorem test_frame_thaw : (Order.thaw 1 0 0).frame = [0x23, 0x01, 0x00, 0xEB] := by decide +kernel
theorem test_mapping :
    let x : Aperture := { Aperture.reset with fmt := .rgb16, base := 0x400000000, width := 225, height := 150 }
    x.size = 276480000 ∧ x.tileIx (0x40A4E3540 - x.base) = 21081 ∧ x.pixelIx (0x40A4E3540 - x.base) = 808 := by decide +kernel
theorem test_bands : bandOf 1000 1000 = 0 ∧ bandOf 1000 875 = 1 ∧ bandOf 1000 125 = 7 ∧ bandOf 1000 0 = 7 ∧
    bandOf 0 0 = 0 := by decide +kernel
theorem test_zigzag : [0, -1, 1, -2, 2].map zigzag = [0, 1, 2, 3, 4] ∧ [0, 1, 2, 3, 4].map unzigzag = [0, -1, 1, -2, 2] :=
  by decide +kernel
theorem test_refitSteps : stepOfRefit .rgb16 14 1 = 15 ∧ stepOfRefit .rgb8 5 1 = 7 ∧ stepOfRefit .rgb16 3 2 = 7 := by decide +kernel
theorem test_statusBlock_reset : State.reset.statusBlock.take 12 =
    [0x01, 0, 0, 0, 0, 0, 0, 0, 0xFF, 0, 0, 0] := by decide +kernel

/-! ### What the statements assume can be met: the machine, power and RESET -/

theorem test_meets_StepRunsTheFrontCommand :
    ({ State.reset with pending := [.nop, .halt] } : State).pending = .nop :: [.halt] := rfl

theorem test_meets_WellFormedCommandsComplete :
    Instr.wf .nop = true ∧ Instr.wf (.chunkWriteAnswer .okay) = true ∧ Instr.wf (.composerRead 0 0) = false := by
  decide +kernel

/-- The page store holds one request of the part, with an ignore count. -/
def outstanding (q : StoreReq) (n : Nat) (s : State) : State :=
  { s with store := { s.store with outstanding := [q], ignore := n } }

/-- An answer of each kind that is called for, one that is not, and one for each way an ignored answer can come. -/
theorem test_meets_WellFormed_unsolicited :
    ¬Unsolicited .nop State.reset ∧ ¬Unsolicited (.passThroughAnswer .okay []) (outstanding (.passWrite 0 0 []) 0 State.reset) ∧
      ¬Unsolicited (.chunkReadAnswer .error []) (outstanding (.chunkRead 0) 0 State.reset) ∧
      ¬Unsolicited (.chunkWriteAnswer .okay) (outstanding (.chunkWrite 0 0 0 []) 0 State.reset) ∧
      ¬Unsolicited (.statusWriteAnswer .okay) (outstanding (.statusWrite 0 []) 0 State.reset) ∧
      ¬Unsolicited (.ignoredAnswer .okay) (outstanding (.chunkRead 0) 1 State.reset) ∧
      Unsolicited (.chunkWriteAnswer .okay) (outstanding (.chunkRead 0) 0 State.reset) ∧
      Unsolicited (.ignoredAnswer .okay) State.reset := by
  simp [Unsolicited, outstanding, StoreReq.source, State.reset, StorePort.reset]

theorem test_meets_FinishIsTheStatusWriteWhenQuiet :
    let due : State := { State.reset with st := ⟨0, 0, false, 128, true, false, true, false⟩ }
    due.micro = none ∧ (due.st.enable = true ∧ due.st.stale = true ∧ due.st.inFlight = false) ∧
      State.reset.micro = none ∧
      ¬(State.reset.st.enable = true ∧ State.reset.st.stale = true ∧ State.reset.st.inFlight = false) := by
  decide +kernel

theorem test_meets_ResetLineKeepsReceiverAndStatusSettings :
    ({ State.reset with st := ⟨0, 0, false, 128, true, false, true, false⟩ } : State).st.enable = true ∧
      State.reset.st.enable = false := by decide +kernel

/-- RESET asserted, with and without a request that the bus holds. -/
def inReset (held : List BusRequest) : State :=
  { State.reset with resetLine := true, port := { ComposerPort.reset with busHeld := held } }

theorem test_meets_ResetReleaseLetsRequestsIn :
    (inReset []).resetLine = true ∧ (inReset []).micro = none ∧ (inReset []).port.busHeld = [] ∧
      (inReset [⟨.read 4, 0⟩]).port.busHeld = ⟨.read 4, 0⟩ :: [] ∧ (inReset [⟨.read 4, 0⟩]).port.window = [] := by
  decide +kernel

/-- A window of 32 requests that wait for the page store. -/
def fullWindow : State :=
  { State.reset with port := { ComposerPort.reset with
      window := List.replicate 32 ⟨0, .read 4, 0, .passThrough, [], [], .undetermined⟩ } }

theorem test_meets_AssertedResetTakesNothing :
    (inReset []).resetLine = true ∧ (inReset []).micro = none ∧ 32 ≤ fullWindow.port.window.length ∧
      fullWindow.micro = none ∧ (ReqKind.read 1).length = 1 ∧ (ReqKind.read 256).length = 256 ∧
      broughtOrder (.close 0 0 0) = some (.close 0 0 0) ∧ Instr.wf (.close 0 0 0) = true := by decide +kernel

/-! ### The setup line and the order unit -/

/-- The part with its receiver in a link state, nothing taken. -/
def linked (l : LinkState) : State := { State.reset with link := ⟨l, [], [], none⟩ }

theorem test_meets_LineEventsMoveTheReceiver :
    (linked .armed).link.state = .armed ∧ (linked .deaf).link.state ≠ .armed ∧ (linked .taking).link.state = .taking ∧
      classLength 4 = none ∧ classLength 6 = none ∧ (linked .taking).link.cls = none := by decide +kernel

/-- The frames of CLOSE of aperture 3, of NOP, and of a THAW with a wrong bit, as R166's high times. -/
theorem test_meets_WholeFrameIsCheckedAndHandedOver :
    (∀ frame ∈ [[0x21, 0x03, 0x00, 0x17], [0x00], ([0x23, 0x05, 0x00, 0xEB] : List Byte)],
      (∀ h ∈ (pulsesOf frame).dropLast, h < 3000) ∧ (∀ h ∈ pulsesOf frame, h ≤ 3000) ∧ packBits ((pulsesOf frame).map fun h => decide (500 ≤ h)) = frame ∧
        (pulsesOf frame).length = 8 * frame.length ∧ classLength (lengthClass (frame.headD 0)) = some frame.length) ∧
      frameHolds [0x21, 0x03, 0x00, 0x17] = true ∧ frameHolds [0x00] = true ∧
      frameHolds [0x23, 0x05, 0x00, 0xEB] = false ∧ (linked .armed).link.state = .armed := by decide +kernel

theorem test_meets_WholeFrame_times :
    packBits ([499, 499, 499, 499, 499, 499, 499, 3000].map fun h => decide (500 ≤ h)) = [0x01] ∧
      packBits ([499, 499, 499, 499, 499, 499, 499, 500].map fun h => decide (500 ≤ h)) = [0x01] := by decide +kernel

/-- A receiver that has taken some bits of an order, with no status write due. -/
def taking (bytes : List Byte) (bits : List Bool) (cls : Option (BitVec 3)) : State :=
  { State.reset with link := ⟨.taking, bytes, bits, cls⟩ }

/-- A first bit, a third bit of a legal class and of an illegal one, an eighth bit that is not the order's last and one that
is, in time and late. -/
theorem test_meets_WholeFrame_bits :
    ¬(taking [] [] none).WriteDue ∧ (linked .deaf).link.state = .deaf ∧ (linked .passing).link.state = .passing ∧
      ¬(linked .passing).WriteDue ∧ (taking [] [] none).link.bits.length < 7 ∧
      (taking [] [true, false] none).link.bits = [true, false] ∧
      classLength (BitVec.ofBool true ++ BitVec.ofBool false ++ BitVec.ofBool (decide (500 ≤ 250))) = none ∧
      classLength (BitVec.ofBool false ++ BitVec.ofBool false ++ BitVec.ofBool (decide (500 ≤ 250))) = some 1 ∧
      (taking [] (List.replicate 7 false) (some 0)).link.cls.bind classLength = some (0 + 1) ∧
      (taking [] (List.replicate 7 false) (some 1)).link.cls.bind classLength ≠ some (0 + 1) ∧
      (∀ c, (taking [] (List.replicate 7 false) (some 1)).link.cls = some c → classLength c ≠ none) := by
  simp only [State.WriteDue]
  decide +kernel

theorem test_meets_OrdersReadBackFromTheirFrames :
    (∀ b ∈ ([0x02, 0x20, 0x40, 0x60, 0xE0] : List Byte), undefinedCode b = true) ∧
      ∀ b, Order.close 3 0 0 = .undefined b → undefinedCode b = true := ⟨by decide +kernel, fun _ h => by cases h⟩

/-- Orders that wait. -/
def queued (n : Nat) (s : State) : State :=
  { s with ord := { s.ord with executing := some (.close 0 0 0), queue := List.replicate n (.thaw 0 0 0) } }

theorem test_meets_ArrivingOrdersAreQueuedOrTaken :
    State.reset.resetLine = false ∧ 4 ≤ (queued 4 State.reset).ord.queue.length ∧
      (queued 3 State.reset).ord.queue.length < 4 ∧ (queued 3 State.reset).ord.executing ≠ none ∧
      (queued 3 State.reset).ord.queue ≠ [] ∧ State.reset.ord.executing = none ∧ State.reset.ord.queue = [] ∧
      broughtOrder (.thaw 0 0 0) = some (.thaw 0 0 0) ∧ Instr.wf (.thaw 0 0 0) = true := by decide +kernel

/-- An IDLE unit with two orders queued. -/
def waitingOrders : State := { State.reset with ord := { OrderUnit.reset with queue := [.thaw 1 0 0, .clearFaults 0 0] } }

theorem test_meets_ArrivingOrders_take :
    waitingOrders.ord.executing = none ∧ waitingOrders.ord.queue = .thaw 1 0 0 :: [.clearFaults 0 0] ∧
      (queued 1 State.reset).ord.executing ≠ none := by decide +kernel

theorem test_meets_RefusedOrderChangesNothingElse :
    undefinedCode 0x20 = true ∧ undefinedCode 0xE0 = true ∧ undefinedCode 0x1F = true ∧ State.reset.ReadyForOrder :=
  ⟨by decide +kernel, by decide +kernel, by decide +kernel, rfl, rfl, rfl⟩

theorem test_meets_HaltEmptiesTheQueueAndEndsFlush :
    (part .opened).resetLine = false ∧ (part .opened).ord.executing = none ∧
      (executing (.flush false true 0 0 0) (part .freezing)).ord.executing = some (.flush false true 0 0 0) ∧
      ((executing (.flush false true 0 0 0) (part .freezing)).ap 0).state = .freezing ∧ apOf 0 = 0 ∧
      (executing (.flush true false 0 0 0) (part .opened)).ord.executing = some (.flush true false 0 0 0) ∧
      (executing (.close 0 0 0) (part .retiring)).ord.executing = some (.close 0 0 0) := by decide +kernel

theorem test_meets_CloseAndFlushRefusals :
    (part .frozen).ReadyForOrder ∧ ((part .frozen).ap (apOf 0)).state = .frozen ∧
      ((part .frozen).ap (apOf 1)).state = .closed ∧ (1 : BitVec 5) ≠ 0 := ⟨ready_part _, by decide +kernel⟩

theorem test_meets_CloseStartsRetiring :
    (∀ st ∈ [ApState.opened, .freezing, .frozen], ((part st).ap (apOf 0)).state = st) ∧ (part .opened).ReadyForOrder ∧
      (part .opened).rd.decoder = none ∧ ∀ e ∈ (part .opened).rd.queue, e.phase = .queued :=
  ⟨by decide +kernel, ready_part _, rfl, fun _ h => by cases h⟩

/-- The decoder works on tile 0 of an aperture, with some answers to come, and another tile waits behind it. -/
def closingDecode (a : ApIx) (n : Nat) : State :=
  { part .opened with rd := ⟨[⟨⟨a, 0⟩, [⟨3, 0⟩], none, .decoding, false⟩, ⟨⟨1, 2⟩, [], none, .queued, false⟩], [],
      some ⟨⟨a, 0⟩, ⟨.coded 0 [5] 10, 1⟩, [], n, false⟩, []⟩ }

theorem test_meets_CloseStartsRetiring_decodes :
    ∀ a ∈ [(0 : ApIx), 1], ∀ n ∈ [0, 1],
      (closingDecode a n).rd.decoder = some ⟨⟨a, 0⟩, ⟨.coded 0 [5] 10, 1⟩, [], n, false⟩ ∧
      (closingDecode a n).rd.queue =
        ⟨⟨a, 0⟩, [⟨3, 0⟩], none, .decoding, false⟩ :: [⟨⟨1, 2⟩, [], none, .queued, false⟩] := by decide +kernel

/-- FILLING slots 0 and 2, of tiles 0 and 1, slot 0's with a predecessor. -/
def twoFilling : State :=
  { withSlot 0 (fillingOf 0 (some 7)) (withSlot 2 (fillingOf 1 none) (part .opened)) with draws := 3 }

theorem test_meets_ForcingMarksAndSealsFillingSlots :
    ((twoFilling.slot 0).state = .filling ∧ (twoFilling.slot 0).tile = some ⟨0, 0⟩ ∧ (twoFilling.slot 0).pred ≠ none ∧
      (twoFilling.slot 0).due = false) ∧
      ((twoFilling.slot 2).state = .filling ∧ (twoFilling.slot 2).tile = some ⟨0, 1⟩ ∧ (twoFilling.slot 2).pred = none) ∧
      (twoFilling.slot 1).state ≠ .filling ∧ twoFilling.asm.openList.Nodup := by decide +kernel

theorem test_meets_FlushFormsForceTheirApertures :
    twoFilling.ReadyForOrder ∧ (twoFilling.ap (apOf 0)).state = .opened := ⟨⟨rfl, rfl, rfl⟩, by decide +kernel⟩

theorem test_meets_LongOrdersEndAtTheirCondition :
    let plain := executing (.flush false false 0 0 0) (part .opened)
    let marked := withSlot 2 { fillingOf 1 none with mark := true } plain
    let freeze := executing (.flush false true 0 0 0) (part .freezing)
    let close := fun n => executing (.close 0 0 0) { part .retiring with map := { TileMap.reset with walk := some ⟨0, n⟩ } }
    plain.ord.executing = some (.flush false false 0 0 0) ∧ plain.anyMark = false ∧ marked.anyMark = true ∧
      freeze.freezeMet (apOf 0) = true ∧ (withSlot 2 (fillingOf 1 none) freeze).freezeMet (apOf 0) = false ∧
      (close 3).map.walk = some ⟨0, 3⟩ ∧ 3 < ((close 3).ap 0).extLen ∧ ((close 4).ap 0).extLen ≤ 4 ∧
      (close 4).encoderHolds 0 = false ∧ { close 4 with enc := ⟨some (opOf .coding), none⟩ }.encoderHolds 0 = true := by
  decide +kernel

/-- A returned extent that touches a free extent on each side, on one side, and on none. -/
theorem test_meets_LongOrders_extents :
    let l : List Extent := [⟨0, 2⟩, ⟨6, 3⟩, ⟨20, 1⟩]
    l.Pairwise (fun y z => y.first + y.len < z.first) ∧
      ∀ x ∈ [(⟨2, 4⟩ : Extent), ⟨2, 2⟩, ⟨4, 2⟩, ⟨12, 3⟩],
        0 < x.len ∧ ∀ y ∈ l, 0 < y.len ∧ (y.first + y.len ≤ x.first ∨ x.first + x.len ≤ y.first) := by decide +kernel

theorem test_returned_extent_joins :
    returnExtent [⟨0, 2⟩, ⟨6, 3⟩, ⟨20, 1⟩] ⟨2, 4⟩ = [⟨0, 9⟩, ⟨20, 1⟩] ∧
      returnExtent [⟨0, 2⟩, ⟨6, 3⟩, ⟨20, 1⟩] ⟨12, 3⟩ = [⟨0, 2⟩, ⟨6, 3⟩, ⟨12, 3⟩, ⟨20, 1⟩] := by decide +kernel

theorem test_meets_ThawOpensOnlyAFrozenAperture :
    (part .frozen).ReadyForOrder ∧ ((part .frozen).ap (apOf 0)).state = .frozen ∧
      ((part .opened).ap (apOf 0)).state ≠ .frozen := ⟨ready_part _, by decide +kernel⟩

theorem test_meets_ClearFaultsRemovesNamedStickyFaults : State.reset.ReadyForOrder ∧ (1 : Byte) ≠ 0 :=
  ⟨⟨rfl, rfl, rfl⟩, by decide⟩

/-- Rectangles at the corners of a 2 × 2 aperture, and beside it. -/
theorem test_meets_ProtectChangesOnlyTheList :
    let x := (part .opened).ap 0
    let full : Aperture := { x with rects := List.replicate 8 ⟨0, 0, 0, 0⟩ }
    (part .opened).ReadyForOrder ∧ x.state = .opened ∧ (0 ≤ 1 ∧ 1 < x.width ∧ 0 ≤ 1 ∧ 1 < x.height) ∧ ¬2 < x.width ∧
      x.rects.length < 8 ∧ 8 ≤ full.rects.length ∧ ((part .opened).ap 1).state = .closed :=
  ⟨ready_part _, by decide +kernel⟩

/-- The part with the status block enabled at an address. -/
def statusAt (addr : Nat) (s : State) : State := { s with st := { s.st with addr := addr, enable := true } }

/-- A block in the aperture's last 128 bytes and one behind them; one in the pool's first chunk and one before it. -/
theorem test_meets_SetStatusSetsAddressEnableAndMask :
    (part .opened).ReadyForOrder ∧ (0x103F80 : BitVec 36).toNat % 128 = 0 ∧ (0x100040 : BitVec 36).toNat % 128 ≠ 0 ∧
      ((part .opened).ap 0).state ≠ .closed ∧ ((part .opened).ap 0).base = 0x100000 ∧
      ((part .opened).ap 0).fmt = .rgb8 ∧ 0x100000 < 0x103F80 + 128 ∧ 0x103F80 < 0x100000 + 2 * 32 * 4 * 2 * 32 ∧
      ¬0x104000 < 0x100000 + 2 * 32 * 4 * 2 * 32 ∧ (part .opened).meetsAperture 0x103F80 128 = true ∧
      (part .opened).meetsAperture 0x104000 128 = false ∧ (part .opened).meetsPool 0x10000 128 = true ∧
      (part .opened).meetsPool 0xFF80 128 = false ∧ (part .opened).meetsAperture 0xFF80 128 = false :=
  ⟨ready_part _, by decide +kernel⟩

/-- OPEN of aperture 1, RGB8, 2 × 2 tiles, at an address. -/
def openAt (base : BitVec 40) : OpenFields := ⟨1, 0, 0, 0, 0, 0, 4, base, 1, 1, 0, 0, 0, 0⟩

theorem test_meets_OpenRefusedByTheFirstFailingCheck :
    (part .opened).ReadyForOrder ∧ (openAt 0x200001).base.toNat % 256 ≠ 0 ∧
      2 ^ 36 < (openAt 0xFFFFFC100).base.toNat + 16384 ∧ (openAt 0xFFFFFC000).base.toNat + 16384 = 2 ^ 36 ∧
      ((part .opened).ap 0).state ≠ .closed ∧ ((part .opened).ap 1).state = .closed ∧ State.reset.pool.count = 0 ∧
      (part .opened).pool.count ≠ 0 ∧ (part .opened).meetsAperture 0x103F00 16384 = true ∧
      (part .opened).meetsPool 0xC100 16384 = true ∧ (part .opened).meetsPool 0xC000 16384 = false ∧
      (statusAt 0x203F80 (part .opened)).meetsStatus 0x200000 16384 = true ∧
      (statusAt 0x204000 (part .opened)).meetsStatus 0x200000 16384 = false ∧
      (part .opened).meetsAperture 0x200000 16384 = false ∧ (part .opened).meetsPool 0x200000 16384 = false ∧
      (part .opened).meetsStatus 0x200000 16384 = false ∧
      (∀ e ∈ [(⟨7, 3⟩ : Extent)], e.len < 4) :=
  ⟨ready_part _, by decide +kernel⟩

/-- Extents of 3, 4 and 5 entries: the second is taken whole, or the third when the second is shorter. -/
theorem test_meets_OpenLoadsTheRecordByFirstFit :
    (openAt 0x200000).budget.toNat = 4 ∧ (openAt 0x200000).base.toNat % 256 = 0 ∧
      (openAt 0x200000).base.toNat + 16384 ≤ 2 ^ 36 ∧ ((part .opened).ap (apOf 1)).state = .closed ∧
      (part .opened).pool.count ≠ 0 ∧ (∀ b, ((part .opened).ap b).state ≠ .closed →
        ((part .opened).ap b).base + ((part .opened).ap b).width * 32 * 4 * ((part .opened).ap b).height * 32 ≤ 0x200000 ∧
          ((part .opened).ap b).fmt = .rgb8) ∧
      (part .opened).pool.base + 256 * (part .opened).pool.count ≤ 0x200000 ∧ (part .opened).st.enable = false ∧
      (part .opened).map.freeExtents = [] ++ ⟨4, 262140⟩ :: [] ∧ 4 ≤ 262140 ∧
      takeExtent [⟨0, 3⟩, ⟨10, 4⟩, ⟨20, 5⟩] 4 = some (10, [⟨0, 3⟩, ⟨20, 5⟩]) ∧
      takeExtent [⟨0, 3⟩, ⟨20, 5⟩] 4 = some (20, [⟨0, 3⟩, ⟨24, 1⟩]) := by decide +kernel

/-- SET POOL of `count` chunks at an address with low water 2. -/
def poolAt (base : BitVec 40) (count : BitVec 24) : PoolFields := ⟨base, count, 2, 1, 0, 0⟩

theorem test_meets_SetPoolDefinesAFreePool :
    State.reset.ReadyForOrder ∧ poolBadParam (poolAt 0x10000 2) = false ∧ poolBadParam (poolAt 0x10000 1) = true ∧
      poolBadParam (poolAt 0 4194304) = false ∧ poolBadParam (poolAt 0 4194305) = true ∧
      ((part .opened).ap 0).state ≠ .closed ∧ (∀ a, (State.reset.ap a).state = .closed) ∧
      (statusAt 0x10180 State.reset).st.enable = true ∧ 0x10000 < 0x10180 + 128 ∧ 0x10180 < 0x10000 + 256 * 2 ∧
      ¬0x10200 < 0x10000 + 256 * 2 :=
  ⟨⟨rfl, rfl, rfl⟩, by decide +kernel⟩

/-- SET CURVE with a first step and intervals. -/
def curveOf (step up refit : Byte) : CurveFields := ⟨#v[step, 1, 2, 3, 4, 5, 6, 7], up, 1, refit, 0, 0, 0⟩

theorem test_meets_SetCurveLoadsTheSettings :
    State.reset.ReadyForOrder ∧ curveBadParam (curveOf 15 1 3) = false ∧ curveBadParam (curveOf 16 1 3) = true ∧
      curveBadParam (curveOf 15 0 3) = true ∧ curveBadParam (curveOf 15 1 4) = true :=
  ⟨⟨rfl, rfl, rfl⟩, by decide +kernel⟩

/-! ### The composer port -/

/-- A WRITE of pixels of one colour byte, all enabled. -/
def pixels (n : Nat) : List (Byte × Bool) := List.replicate (4 * n) (9, true)

/-- Addresses at each border of the pool and of the aperture, and a request that crosses a block. -/
theorem test_meets_RequestClassFollowsTheChecks :
    (0xFE / 256 ≠ (0xFE + 4 - 1) / 256 ∧ 0xFC / 256 = (0xFC + 4 - 1) / 256) ∧
      ((part .opened).pool.base ≤ 0x10000 ∧ 0x163FC < (part .opened).pool.base + 256 * (part .opened).pool.count) ∧
      ¬0x16400 < (part .opened).pool.base + 256 * (part .opened).pool.count ∧
      ((part .opened).ap 0).base ≤ 0x100000 ∧ 0x103FFF < ((part .opened).ap 0).base + ((part .opened).ap 0).size ∧
      ¬0x104000 < ((part .opened).ap 0).base + ((part .opened).ap 0).size ∧
      (∀ b : ApIx, b ≠ 0 → ((part .opened).ap b).state = .closed) ∧
      (part .opened).classify (.read 4) 0x103FFC = .aperture 0 ∧ (part .opened).classify (.read 4) 0x104000 = .passThrough ∧
      (part .frozen).classify (.write (pixels 1)) 0x100000 = .refused .frozen ∧
      (part .frozen).classify (.read 4) 0x100000 = .aperture 0 ∧
      (part .retiring).classify (.read 4) 0x100000 = .refused .retired ∧
      (part .opened).classify (.read 2) 0x100000 = .refused .pixel := by decide +kernel

/-- A WRITE of four pixels from x = 30 of line 0 meets two tiles; its third pixel has its enables off. A READ of the pixel at
x = 33 of line 33 lies in tile 3 at index 33. -/
theorem test_parts_of_a_request :
    partsOf 0 (ap0 .opened) (.write (pixels 2 ++ List.replicate 4 (7, false) ++ [(1, true), (2, true), (3, true), (4, true)]))
        0x100078 =
      [⟨⟨0, 0⟩, .rgb8, [⟨30, some ⟨9, 9, 9⟩⟩, ⟨31, some ⟨9, 9, 9⟩⟩], .waiting⟩,
        ⟨⟨0, 1⟩, .rgb8, [⟨0, none⟩, ⟨1, some ⟨1, 2, 3⟩⟩], .waiting⟩] ∧
      partsOf 0 (ap0 .opened) (.read 4) 0x102184 = [⟨⟨0, 3⟩, .rgb8, [⟨33, none⟩], .waiting⟩] := by decide +kernel

/-- A RGB16 pixel holds its samples low byte first. -/
theorem test_parts_of_an_rgb16_request :
    partsOf 0 { ap0 .opened with fmt := .rgb16 }
        (.write ([1, 2, 3, 4, 5, 6, 7, 8].map fun b => (b, true))) 0x100000 =
      [⟨⟨0, 0⟩, .rgb16, [⟨0, some ⟨0x0201, 0x0403, 0x0605⟩⟩], .waiting⟩] := by decide +kernel

/-- An aperture request that the bus holds is taken. -/
theorem test_meets_RequestClass_take :
    let s : State := { part .opened with port := { ComposerPort.reset with busHeld := [⟨.read 4, 0x100000⟩] } }
    s.port.busHeld = ⟨.read 4, 0x100000⟩ :: [] ∧ s.resetLine = false ∧ s.port.window.length < 32 ∧
      s.classify (.read 4) (0x100000 : Addr).toNat = .aperture 0 := by decide +kernel

theorem test_meets_RefusedRequestIsAnsweredError :
    (part .opened).Alone ∧ (ReqKind.read 2).length = 2 ∧
      (part .opened).classify (.read 2) (0x100000 : Addr).toNat = .refused .pixel := ⟨alone_part, by decide +kernel⟩

/-- A window with one request, complete or not. -/
def oneRequest (outcome : ReqOutcome) : State :=
  { part .opened with port := { ComposerPort.reset with
      window := [⟨0, .read 4, 0, .passThrough, [], [7], outcome⟩], nextId := 1 } }

theorem test_meets_RefusedRequest_behind :
    (oneRequest .undetermined).micro = none ∧ (oneRequest .undetermined).resetLine = false ∧
      (oneRequest .undetermined).port.busHeld = [] ∧ (oneRequest .undetermined).port.window ≠ [] ∧
      (oneRequest .undetermined).port.window.length < 32 ∧
      (oneRequest .undetermined).classify (.read 2) (0x100000 : Addr).toNat = .refused .pixel ∧
      (oneRequest .okay).port.window = ⟨0, .read 4, 0, .passThrough, [], [7], .okay⟩ :: [] := by decide +kernel

theorem test_meets_PassThroughRequestIsForwarded :
    State.reset.micro = none ∧ State.reset.resetLine = false ∧ State.reset.port.busHeld = [] ∧
      State.reset.port.window.length < 32 ∧ State.reset.classify (.read 4) (0 : Addr).toNat = .passThrough ∧
      State.reset.classify (.write (pixels 1)) (0 : Addr).toNat = .passThrough := by decide +kernel

theorem freeBlank_part : (part .opened).FreeSlotsBlank := by
  intro k _
  have e : (part .opened).slot k = Slot.reset := by
    show (Vector.replicate 256 Slot.reset).get k = Slot.reset
    rw [Vector.get_eq_getElem, Vector.getElem_replicate]
  rw [e]
  decide +kernel

/-- A write of one pixel that opens slot 0, and one that lands in slot 2. -/
theorem test_meets_ApertureWriteLandsInTheSlot :
    (part .opened).Alone ∧ (part .opened).FreeSlotsBlank ∧ (pixels 1).length = 4 ∧
      (part .opened).classify (.write (pixels 1)) (0x100004 : Addr).toNat = .aperture 0 ∧
      partsOf 0 ((part .opened).ap 0) (.write (pixels 1)) 0x100004 = [⟨⟨0, 0⟩, .rgb8, [⟨1, some ⟨9, 9, 9⟩⟩], .waiting⟩] ∧
      (part .opened).fillingSlot ⟨0, 0⟩ = none ∧ (part .opened).freeSlot? = some 0 ∧
      ((fillingOf 0 none).write [⟨1, some ⟨9, 9, 9⟩⟩]).isFull = false ∧ twoFilling.fillingSlot ⟨0, 1⟩ = some 2 :=
  ⟨alone_part, freeBlank_part, by decide +kernel⟩

/-- Two requests of aperture 0 at tile 0, a write in front of a read, and the window's part references. -/
def twoRequests (first : Progress) (done : ReqOutcome) : State :=
  { part .opened with port := { ComposerPort.reset with
      window := [⟨0, .write (pixels 1), 0x100000, .aperture 0, [⟨⟨0, 0⟩, .rgb8, [⟨0, some ⟨9, 9, 9⟩⟩], first⟩], [], done⟩,
        ⟨1, .read 4, 0x100000, .aperture 0, [⟨⟨0, 0⟩, .rgb8, [⟨0, none⟩], .waiting⟩], [], .undetermined⟩]
      nextId := 2 } }

/-- A write part for which a slot is opened, a read part with no enabled pixel, and the pixels of a part. -/
theorem test_meets_ApertureWrite_part :
    (twoRequests .waiting .undetermined).part ⟨0, 0⟩ = some ⟨⟨0, 0⟩, .rgb8, [⟨0, some ⟨9, 9, 9⟩⟩], .waiting⟩ ∧
      (twoRequests .waiting .undetermined).part ⟨1, 0⟩ = some ⟨⟨0, 0⟩, .rgb8, [⟨0, none⟩], .waiting⟩ ∧
      (twoRequests .waiting .undetermined).fillingSlot ⟨0, 0⟩ = none ∧
      (twoRequests .waiting .undetermined).freeSlot? = some 0 ∧
      ([⟨0, some ⟨9, 9, 9⟩⟩, ⟨1, none⟩].map PartPixel.index).Nodup := by decide +kernel

/-- A tile part with no enabled pixel whose tile has a FILLING slot at the head of the open list. -/
theorem test_meets_ApertureWrite_noPixel :
    let s : State := { twoFilling with
      asm := { twoFilling.asm with openList := [2, 5] }
      port := { ComposerPort.reset with
        window := [⟨0, .write [(9, false)], 0x100080, .aperture 0, [⟨⟨0, 1⟩, .rgb8, [⟨0, none⟩], .proceeding⟩], [], .undetermined⟩] } }
    s.part ⟨0, 0⟩ = some ⟨⟨0, 1⟩, .rgb8, [⟨0, none⟩], .proceeding⟩ ∧ s.fillingSlot ⟨0, 1⟩ = some 2 ∧ 2 ∈ s.asm.openList ∧
      (∀ q ∈ [(⟨0, none⟩ : PartPixel)], q.value = none) ∧ (s.takeWrite ⟨0, 0⟩).asm.openList = [2, 5] := by decide +kernel

/-- The write may go; the read may go only when the write is complete. -/
theorem test_meets_ApertureRead_order :
    let r : Request := ⟨1, .read 4, 0x100000, .aperture 0, [⟨⟨0, 0⟩, .rgb8, [⟨0, none⟩], .waiting⟩], [], .undetermined⟩
    (∃ w p, (twoRequests .waiting .undetermined).port.window = [] ++ w :: [r] ∧ w.parts = [] ++ p :: [] ∧ MayGo [] w p) ∧
      (∃ w, (twoRequests .proceeding .undetermined).port.window = [w] ++ r :: [] ∧
        ¬MayGo [w] r ⟨⟨0, 0⟩, .rgb8, [⟨0, none⟩], .waiting⟩) ∧
      (∃ w, (twoRequests .complete .okay).port.window = [w] ++ r :: [] ∧
        MayGo [w] r ⟨⟨0, 0⟩, .rgb8, [⟨0, none⟩], .waiting⟩) := by
  refine ⟨⟨_, _, rfl, rfl, rfl, rfl, fun q h => by cases h⟩, ⟨_, rfl, fun h => ?_⟩, ⟨_, rfl, rfl, rfl, fun q h _ => ?_⟩⟩
  · exact (h.2.2 _ (List.mem_singleton.2 rfl) ⟨_, List.mem_singleton.2 rfl, rfl⟩).elim (fun e => e rfl) (fun e => by cases e.2)
  · rw [List.mem_singleton.1 h]
    exact .inl (by decide)

/-- Tile 0 is UNWRITTEN, so each of its pixels is visible as the fill colour. -/
theorem test_meets_ApertureReadReturnsVisibleContent :
    (part .opened).Alone ∧ (part .opened).classify (.read 4) (0x100000 : Addr).toNat = .aperture 0 ∧
      partsOf 0 ((part .opened).ap 0) (.read 4) 0x100000 = [⟨⟨0, 0⟩, .rgb8, [⟨0, none⟩], .waiting⟩] ∧
      (part .opened).visible ⟨0, 0⟩ 0 = some ⟨1, 2, 3⟩ := ⟨alone_part, by decide +kernel⟩

/-- Tile 0 has a FILLING slot, 1, with pixel 0 present, and a SEALED one, 2, with pixels 0 and 1 present. -/
def twoSources : State :=
  withSlot 1 { fillingOf 0 (some 2) with present := 1 }
    (withSlot 2 { fillingOf 0 none with state := .sealed, present := 3 } (part .opened))

/-- Pixel 0 is in the FILLING slot, pixel 1 in the other slot alone, pixel 2 in neither. -/
theorem test_meets_ApertureRead_sources :
    twoSources.fillingSlot ⟨0, 0⟩ = some 1 ∧ twoSources.otherSlot ⟨0, 0⟩ = some 2 ∧
      (twoSources.slot 1).present.getLsbD 0 = true ∧ (twoSources.slot 1).present.getLsbD 1 = false ∧
      (twoSources.slot 2).present.getLsbD 1 = true ∧ (twoSources.slot 1).present.getLsbD 2 = false ∧
      (twoSources.slot 2).present.getLsbD 2 = false ∧ (part .opened).fillingSlot ⟨0, 0⟩ = none ∧
      (part .opened).otherSlot ⟨0, 0⟩ = none := by decide +kernel

/-- The decode queue with `n` entries of aperture 1, an entry of tile 0 of aperture 0 that a CLOSE has marked, and one of it
that may be joined, in the queue or on the pending list or nowhere. -/
def decodeLine (n : Nat) (inQueue inPending : Bool) : State :=
  let e : Nat → DecodeEntry := fun i => ⟨⟨1, i⟩, [], none, .queued, false⟩
  let mine : DecodeEntry := ⟨⟨0, 0⟩, [⟨7, 0⟩], none, .queued, false⟩
  { part .opened with rd := { ReadPath.reset with
      queue := ⟨⟨0, 0⟩, [], none, .decoding, true⟩ :: (List.range n).map e ++ if inQueue then [mine] else []
      pendingList := e 300 :: if inPending then [mine] else [] } }

/-- Each case of a join, at a queue of 287 and of 288 entries too, and a pending record that moves in or stays. -/
theorem test_meets_ApertureRead_join :
    let joins := fun (e : DecodeEntry) => decide (e.tile = ⟨0, 0⟩) && !e.discard
    let mine : DecodeEntry := ⟨⟨0, 0⟩, [⟨7, 0⟩], none, .queued, false⟩
    (∃ b, (decodeLine 1 true false).rd.queue = b ++ mine :: [] ∧ b.all (fun x => !joins x) = true ∧ joins mine = true) ∧
      (∃ b, (decodeLine 1 false true).rd.pendingList = b ++ mine :: [] ∧ b.all (fun x => !joins x) = true ∧
        (decodeLine 1 false true).rd.queue.all (fun x => !joins x) = true) ∧
      ((decodeLine 286 false false).rd.queue ++ (decodeLine 286 false false).rd.pendingList).all (fun x => !joins x) = true ∧
      (decodeLine 286 false false).rd.queue.length = 287 ∧ (decodeLine 287 false false).rd.queue.length = 288 ∧
      (decodeLine 287 false false).rd.pendingList = ⟨⟨1, 300⟩, [], none, .queued, false⟩ :: [] :=
  ⟨⟨[⟨⟨0, 0⟩, [], none, .decoding, true⟩, ⟨⟨1, 0⟩, [], none, .queued, false⟩], by decide +kernel⟩,
    ⟨[⟨⟨1, 300⟩, [], none, .queued, false⟩], by decide +kernel⟩, by decide +kernel⟩

/-! ### The assembly buffer and the store port -/

theorem test_meets_SealCallSealsOrMakesDue :
    (twoFilling.slot 1).state ≠ .filling ∧ (twoFilling.slot 2).state = .filling ∧ (twoFilling.slot 2).pred = none ∧
      (twoFilling.slot 0).pred ≠ none ∧ (twoFilling.slot 0).due = false ∧
      ((withSlot 3 { fillingOf 3 (some 7) with due := true } twoFilling).slot 3).due = true := by decide +kernel

/-- A map in which tile 0 is CODED, so a gather of it waits for a decode. -/
def codedMap (s : State) : State :=
  { s with map := { s.map with entries := [(0, ⟨.coded 0 [5] 10, 1⟩)] } }

theorem test_meets_SealQueuesTheSlotAndGathers :
    (twoFilling.slot 2).tile = some ⟨0, 1⟩ ∧ (twoFilling.slot 2).isFull = false ∧
      (twoFilling.mapTile ⟨0, 1⟩).isSome = true ∧ (codedMap twoFilling).mapTile ⟨0, 0⟩ = none ∧
      (encodingSlot true).isFull = true := by decide +kernel

/-- Tile 0 is CODED and cached, so it is gathered and read from the cache; without the cache it needs a decode. -/
theorem test_meets_Seal_and_Read_cached :
    let s : State := { codedMap twoFilling with rd := { ReadPath.reset with cache := [⟨⟨0, 0⟩, flatTile ⟨4, 5, 6⟩⟩] } }
    (s.entry ⟨0, 0⟩).content = .coded 0 [5] 10 ∧ (s.mapTile ⟨0, 0⟩).isSome = true ∧ (s.slot 0).isFull = false ∧
      (twoFilling.entry ⟨0, 0⟩).content = .unwritten ∧ s.visible ⟨0, 0⟩ 0 = some ⟨4, 5, 6⟩ ∧
      (codedMap twoFilling).visible ⟨0, 0⟩ 0 = none := by decide +kernel

/-- Every slot is taken, and a write waits for one. -/
def crowded : State :=
  { part .opened with
    asm := ⟨Vector.replicate 256 (fillingOf 1 none), [4], [], []⟩
    port := { ComposerPort.reset with
      window := [⟨0, .write (pixels 1), 0x100000, .aperture 0, [⟨⟨0, 0⟩, .rgb8, [⟨0, some ⟨9, 9, 9⟩⟩], .proceeding⟩], [], .undetermined⟩] } }

theorem test_meets_HeldWriteEvictsTheOpenListHead :
    crowded.part ⟨0, 0⟩ = some ⟨⟨0, 0⟩, .rgb8, [⟨0, some ⟨9, 9, 9⟩⟩], .proceeding⟩ ∧ crowded.fillingSlot ⟨0, 0⟩ = none ∧
      crowded.freeSlot? = none ∧ crowded.asm.openList = 4 :: [] := by decide +kernel

/-- Slot 3 is the lowest FREE slot, a write of tile 0 is held, and slot 7 holds tile 0 in the encoder. -/
def granting (st : ApState) : State :=
  let s := part st
  { s with
    asm := ⟨((Vector.replicate 256 (fillingOf 1 none)).set 3 Slot.reset).set 7 (encodingSlot false), [4], [], [⟨⟨0, 0⟩, ⟨0, 0⟩⟩]⟩
    port := crowded.port }

theorem test_meets_HeldWrite_granted :
    (granting .opened).asm.held = ⟨⟨0, 0⟩, ⟨0, 0⟩⟩ :: [] ∧ ((granting .opened).slot 3).state = .free ∧
      (∀ j < 3, ((granting .opened).slot j).state ≠ .free) ∧
      (granting .opened).part ⟨0, 0⟩ = some ⟨⟨0, 0⟩, .rgb8, [⟨0, some ⟨9, 9, 9⟩⟩], .proceeding⟩ ∧
      (granting .opened).otherSlot ⟨0, 0⟩ = some 7 ∧ ((granting .freezing).ap 0).state = .freezing := by decide +kernel

theorem test_meets_StoreTurnGrantsRoundRobin :
    let p : StorePort := { StorePort.reset with status := [.statusWrite 0 []], pointer := .encoder }
    State.reset.resetLine = false ∧ (∀ x ∈ [Source.composer, .decoder, .encoder, .status], StorePort.reset.listOf x = []) ∧
      [p.pointer, p.pointer.next, p.pointer.next.next, p.pointer.next.next.next] =
        [.encoder] ++ .status :: [.composer, .decoder] ∧ p.listOf .encoder = [] ∧
      p.listOf .status = .statusWrite 0 [] :: [] := by decide +kernel

theorem test_meets_AnswersAreIgnoredAfterReset :
    0 < (outstanding (.chunkRead 0) 1 State.reset).store.ignore ∧ Instr.wf (.ignoredAnswer .okay) = true ∧
      Instr.wf (.chunkReadAnswer .error []) = true ∧ Instr.wf (.passThroughAnswer .okay [1]) = true := by decide +kernel

theorem test_meets_PassThroughAnswerCompletesTheRequest :
    let s := outstanding (.passRead 0 0 4) 0 fullWindow
    s.store.ignore = 0 ∧ s.store.outstanding = .passRead 0 0 4 :: [] ∧ ([1, 2, 3, 4] : List Byte).length ≤ 256 := by
  decide +kernel

/-- The decoder waits for `n` answers of tile 0's stream, whose entry is discarded or not. -/
def decoding (n : Nat) (discard failed : Bool) : State :=
  outstanding (.chunkRead 0x10500) 0 { codedMap (part .opened) with
    rd := ⟨[⟨⟨0, 0⟩, [], some 2, .decoding, discard⟩], [], some ⟨⟨0, 0⟩, ⟨.coded 0 [5] 10, 1⟩, [], n, failed⟩, []⟩ }

theorem test_meets_ChunkReadAnswerFeedsTheDecode :
    (∀ n ∈ [1, 2], ∀ b ∈ [false, true], ∀ f ∈ [false, true],
      (decoding n b f).store.ignore = 0 ∧ (decoding n b f).store.outstanding = .chunkRead 0x10500 :: [] ∧
        (decoding n b f).rd.decoder = some ⟨⟨0, 0⟩, ⟨.coded 0 [5] 10, 1⟩, [], n, f⟩ ∧
        (decoding n b f).rd.queue = ⟨⟨0, 0⟩, [], some 2, .decoding, b⟩ :: []) ∧
      (List.replicate 256 (0 : Byte)).length = 256 := by decide +kernel

/-- A decode of tile 0 that may start, its stream in chunks 5 and 2. -/
theorem test_meets_ChunkRead_start :
    let s : State := { part .opened with
      map := { (part .opened).map with entries := [(0, ⟨.coded 0 [5, 2] 300, 1⟩)] }
      rd := { ReadPath.reset with queue := [⟨⟨0, 0⟩, [], some 2, .queued, false⟩, ⟨⟨0, 1⟩, [], none, .queued, false⟩] } }
    s.rd.decoder = none ∧
      s.rd.queue = ⟨⟨0, 0⟩, [], some 2, .queued, false⟩ :: [⟨⟨0, 1⟩, [], none, .queued, false⟩] ∧
      (entryAt s.map.entries ((s.ap 0).extFirst + 0)).content = .coded 0 [5, 2] 300 ∧
      s.startDecode.map (fun u => u.store.decoder) = some [.chunkRead 0x10500, .chunkRead 0x10200] := by decide +kernel

theorem test_meets_DecodeEndServesOrFailsTheWaiters :
    (decoding 0 false false).rd.decoder = some ⟨⟨0, 0⟩, ⟨.coded 0 [5] 10, 1⟩, [], 0, false⟩ ∧
      decodeStream .rgb8 ⟨0, 0⟩ ⟨.coded 0 [5] 10, 1⟩ [] = none := by decide +kernel

/-- Two requests wait for the decode of tile 0. -/
def decodingFor (refs : List PartRef) : State :=
  let read : Nat → Request := fun id =>
    ⟨id, .read 4, 0x100000, .aperture 0, [⟨⟨0, 0⟩, .rgb8, [⟨0, none⟩], .proceeding⟩], [], .undetermined⟩
  { decoding 0 false false with
    rd := ⟨[⟨⟨0, 0⟩, refs, none, .decoding, false⟩], [], some ⟨⟨0, 0⟩, ⟨.coded 0 [5] 10, 1⟩, [], 0, false⟩, []⟩
    port := { ComposerPort.reset with window := [read 0, read 1], nextId := 2 } }

theorem test_meets_DecodeEnd_readers :
    (decodingFor [⟨0, 0⟩, ⟨1, 0⟩]).part ⟨1, 0⟩ = some ⟨⟨0, 0⟩, .rgb8, [⟨0, none⟩], .proceeding⟩ ∧
      (∀ r ∈ (decodingFor [⟨0, 0⟩, ⟨1, 0⟩]).port.window, ∀ ref ∈ [(⟨0, 0⟩ : PartRef), ⟨1, 0⟩], ref.req = r.id →
        ∀ p, r.parts[ref.part]? = some p → p.progress = .proceeding) ∧
      (decoding 0 false false).rd.queue = ⟨⟨0, 0⟩, [], some 2, .decoding, false⟩ :: [] := by decide +kernel

/-- A stream with an empty PLAIN body decodes. -/
theorem test_meets_DecodeEnd_success :
    (decodeStream .rgb8 ⟨0, 0⟩ ⟨.plain [5] 0, 1⟩ (streamOf (headerOf 2 ⟨0, 0⟩ .rgb8 0 1 0) [])).isSome = true := by
  decide +kernel

/-! ### The encoder and the tile map -/

/-- The encoder writes chunks 3 and 4, with `n` answers to come. -/
def writing (n round : Nat) (held : List (Option Nat)) : TileOp :=
  { opOf .writing with
    result := some (codeTile .rgb8 ⟨0, 0⟩ 1 0 (encodingSlot true).px), held := held, round := round, unanswered := n }

theorem figures_part : (part .opened).FiguresAgree := ⟨by decide +kernel, by decide +kernel, by decide +kernel, by decide +kernel⟩

theorem test_meets_ChunkWriteAnswerKeepsOrWithdraws :
    let s := outstanding (.chunkWrite 0 3 0x10300 []) 0 (coding true (writing 2 1 [some 3, some 4]))
    s.store.ignore = 0 ∧ s.store.outstanding = .chunkWrite 0 3 0x10300 [] :: [] ∧ 1 < (writing 2 1 []).unanswered ∧
      s.FiguresAgree := ⟨rfl, rfl, by decide, figures_part⟩

theorem test_meets_RoundEndCommitsReplacesOrDegrades :
    (writing 0 1 []).result.isSome = true ∧ openPositions [some 3, some 4] = [] ∧ openPositions [some 3, none] = [1] ∧
      openPositions [none, some 4, none] = [0, 2] ∧
      (writing 0 1 []).round = 1 ∧ (writing 0 2 []).round ≠ 1 ∧ ((part .opened).ap 0).state ≠ .retiring ∧
      ((part .retiring).ap 0).state = .retiring ∧ 1 ≤ (part .opened).pool.free.length ∧
      State.reset.pool.free.length < 1 := by decide +kernel

theorem test_meets_RoundEnd_lastAnswer :
    let s := outstanding (.chunkWrite 0 3 0x10300 []) 0 (coding true (writing 1 1 [some 3, some 4]))
    s.store.ignore = 0 ∧ s.store.outstanding = .chunkWrite 0 3 0x10300 [] :: [] ∧
      s.enc.op = some (writing 1 1 [some 3, some 4]) ∧ (writing 1 1 []).unanswered = 1 := ⟨rfl, rfl, rfl, rfl⟩

theorem test_meets_StatusWriteAnswerEndsTheFlight :
    (outstanding (.statusWrite 128 []) 0 State.reset).store.ignore = 0 ∧
      (outstanding (.statusWrite 128 []) 0 State.reset).store.outstanding = .statusWrite 128 [] :: [] := by decide +kernel

theorem test_meets_CommitReplacesTheEntry :
    (part .opened).FiguresAgree ∧ ∀ k, ((part .opened).slot k).pred = some 0 → ((part .opened).slot k).due = false := by
  refine ⟨figures_part, fun k _ => ?_⟩
  have e : (part .opened).slot k = Slot.reset := by
    show (Vector.replicate 256 Slot.reset).get k = Slot.reset
    rw [Vector.get_eq_getElem, Vector.getElem_replicate]
  rw [e]
  decide +kernel

/-- Slot 0 is in the encoder, and slot 2 its successor, whose seal is due or not. -/
def successor (due : Bool) : State := withSlot 2 { fillingOf 0 (some 0) with due := due } (coding true (opOf .coding))

theorem test_meets_Commit_successor :
    ∀ due ∈ [true, false], ((successor due).slot 2).pred = some (opOf .coding).slot ∧ ((successor due).slot 2).due = due ∧
      ((successor due).slot 2).tile = some (opOf .coding).tile ∧
      ∀ j, j ≠ (opOf .coding).slot → ((successor due).slot j).pred = some (opOf .coding).slot → j = 2 := by decide +kernel

theorem test_meets_CommitCountsUnwrittenTiles :
    (entryAt (part .opened).map.entries 0).content = .unwritten ∧
      (entryAt (codedMap (part .opened)).map.entries 0).content ≠ .unwritten := by decide +kernel

theorem test_meets_CodingEndCommitsAllocatesOrWaits :
    (coding false (opOf .coding)).enc.op = some (opOf .coding) ∧ (opOf .coding).stage = .coding ∧
      (opOf .coding).recode = false ∧ (opOf .coding).held = [] ∧
      ((coding true (opOf .coding)).ap 0).state ≠ .retiring ∧ ((part .retiring).ap 0).state = .retiring ∧
      (coding true (opOf .coding)).pool.free.length = 100 := by decide +kernel

/-- A black tile has one colour; one with a white pixel has none. -/
theorem test_meets_CodingEnd_tiles :
    (∀ i < 1024, pixelOf (encodingSlot false).px i = Colour.black) ∧
      ∀ c : Colour, ∃ i < 1024, pixelOf (encodingSlot true).px i ≠ c := by
  refine ⟨fun i h => ?_, fun c => ?_⟩
  · rw [pixelOf, dif_pos h]
    show (Vector.replicate 1024 Colour.black)[i] = _
    rw [Vector.getElem_replicate]
  · by_cases h : c = Colour.black
    · exact ⟨5, by omega, by rw [h]; decide +kernel⟩
    · refine ⟨0, by omega, fun e => h ?_⟩
      rw [← e]
      decide +kernel

theorem test_meets_RefitEndCountsTheRefit :
    (coding true (opOf .coding)).enc.op = some (opOf .coding) ∧ (opOf .coding).stage = .coding ∧
      (opOf .coding).recode = false ∧ (opOf .coding).refits < (opOf .coding).allowance := by decide +kernel

theorem test_meets_PoolWaitExpiryRecodesOrDegrades :
    (coding true (opOf .poolWait)).enc.op = some (opOf .poolWait) ∧ (opOf .poolWait).stage = .poolWait ∧
      (opOf .poolWait).isProtected = false ∧ (opOf .poolWait).held = [] ∧ (coding true (opOf .poolWait)).FiguresAgree ∧
      { opOf .poolWait with isProtected := true }.isProtected = true := ⟨rfl, rfl, rfl, rfl, figures_part, rfl⟩

theorem test_meets_RecodeEndWritesOrDegrades :
    let op := { opOf .coding with recode := true }
    (coding true op).enc.op = some op ∧ op.stage = .coding ∧ op.recode = true ∧ op.held = [] ∧
      ((coding true op).ap op.tile.ap).state ≠ .retiring := by decide +kernel

theorem test_meets_RetireWalkVisitEmptiesTheEntry :
    let s : State := { codedMap (part .retiring) with map := { (codedMap (part .retiring)).map with walk := some ⟨0, 3⟩ } }
    s.map.walk = some ⟨0, 3⟩ ∧ 3 < (s.ap 0).extLen ∧ s.map.wf = true := by decide +kernel

theorem test_meets_SlewMovesTheAppliedStepByOne :
    let c : StepControl := { StepControl.reset with demanded := 3, applied := 2, upCount := 14 }
    (c.applied < c.demanded ∧ c.upCount + 1 < c.up) ∧ c.up ≤ ({ c with upCount := 15 } : StepControl).upCount + 1 := by
  decide +kernel

/-- A SEALED slot of tile 0 at the head of the seal queue. -/
def sealedHead : State :=
  let s := withSlot 0 { encodingSlot true with state := .sealed } (part .opened)
  { s with asm := { s.asm with sealQueue := [0] } }

theorem test_meets_TakeFixesStepAndAllowance :
    sealedHead.enc.op = none ∧ sealedHead.asm.sealQueue = 0 :: [] ∧ (sealedHead.slot 0).state = .sealed ∧
      (sealedHead.slot 0).tile = some ⟨0, 0⟩ := by decide +kernel

/-- Nothing is taken with a tile in hand, from an empty seal queue, and from behind a GATHERING head. -/
theorem test_meets_Take_nothing :
    let gathering := withSlot 0 { encodingSlot true with state := .gathering } sealedHead
    (coding true (opOf .coding)).enc.op ≠ none ∧ (part .opened).asm.sealQueue = [] ∧ gathering.asm.sealQueue = 0 :: [] ∧
      (gathering.slot 0).state ≠ .sealed := by decide +kernel

theorem test_meets_ReleaseGrantsTheWaitingRequest :
    let s : State := { coding true (opOf .poolWait) with pool := { pool100 with waiting := some 3 } }
    s.pool.waiting = some 3 ∧ s.enc.op = some (opOf .poolWait) ∧ 3 ≤ s.pool.free.length ∧
      ({ s with pool := { s.pool with free := [1, 2] } } : State).pool.free.length < 3 ∧
      ({ opOf .writing with held := [some 4, none, some 3] } : TileOp).heldChunks = [4, 3] := by decide +kernel

/-- A waiting tile has the result of its coding. -/
theorem test_meets_ReleaseGrants_result (r : Result) :
    ({ opOf .poolWait with result := some r } : TileOp).result = some r := rfl

theorem test_meets_DecodeOfEncodeIsTheReconstruction :
    ∀ i < 1024, (pixelOf (flatTile ⟨255, 255, 255⟩) i).r.toNat < 2 ^ (if Format.rgb8 = .rgb8 then 8 else 16) ∧
      (pixelOf (flatTile ⟨255, 255, 255⟩) i).g.toNat < 2 ^ (if Format.rgb8 = .rgb8 then 8 else 16) ∧
      (pixelOf (flatTile ⟨255, 255, 255⟩) i).b.toNat < 2 ^ (if Format.rgb8 = .rgb8 then 8 else 16) := by
  intro i h
  have e : pixelOf (flatTile ⟨255, 255, 255⟩) i = ⟨255, 255, 255⟩ := by
    rw [pixelOf, dif_pos h, flatTile, Vector.getElem_replicate]
  rw [e]
  decide +kernel

/-- A stream made of a header, a body and its check value passes both checks, and holds the body. -/
theorem passes_of_parts (kind : Nat) (tile : TileRef) (fmt : Format) (gen : Byte) (body : List Byte) :
    let checked := streamHead kind tile fmt 0 gen body.length ++ List.replicate 6 0 ++ body
    StreamPasses kind tile fmt gen body.length (checked ++ checkBytes (crc16 checked)) ∧
      ((checked ++ checkBytes (crc16 checked)).drop 16).take body.length = body := by
  intro checked
  have l : checked.length = 16 + body.length := by
    simp only [checked, List.length_append, List.length_replicate, streamHead, List.length_cons, List.length_nil]
  refine ⟨⟨⟨0, rfl⟩, ?_⟩, ?_⟩
  · rw [List.take_left' l, List.drop_left' l]
    rfl
  · show ((streamHead kind tile fmt 0 gen body.length ++ List.replicate 6 0 ++ body ++ _).drop 16).take _ = body
    have h : (streamHead kind tile fmt 0 gen body.length ++ List.replicate 6 0).length = 16 := rfl
    rw [List.append_assoc, List.drop_left' h, List.take_left' rfl]

/-- The body of 480 zero bytes is well formed: each group has width 0, and nothing is left over. -/
theorem test_meets_Decode_body : BodyHolds .rgb8 7 (List.replicate 480 0) (fun _ => 0) (fun _ => 0) :=
  ⟨by decide +kernel, fun _ _ => Nat.zero_le _, 0, by decide, by decide +kernel⟩

/-- A stream with that body decodes, and so does a PLAIN one; a width of 31, bits that run out and bits left over do not. -/
theorem test_meets_Decode_streams :
    (∃ stream, StreamPasses 1 ⟨0, 0⟩ .rgb8 1 480 stream ∧ (stream.drop 16).take 480 = List.replicate 480 0) ∧
      (∃ stream, StreamPasses 2 ⟨0, 0⟩ .rgb8 1 3072 stream) ∧ ¬StreamPasses 1 ⟨0, 0⟩ .rgb8 1 480 [] ∧
      decodeBody .rgb8 7 [0xFF] = none ∧ decodeBody .rgb8 7 (List.replicate 479 0) = none ∧
      decodeBody .rgb8 7 (List.replicate 481 0) = none := by
  have p := passes_of_parts 1 ⟨0, 0⟩ .rgb8 1 (List.replicate 480 0)
  have q := passes_of_parts 2 ⟨0, 0⟩ .rgb8 1 (List.replicate 3072 0)
  rw [List.length_replicate] at p q
  refine ⟨⟨_, p⟩, ⟨_, q.1⟩, fun h => ?_, by decide +kernel, by decide +kernel, by decide +kernel⟩
  have := congrArg List.length h.2
  simp [checkBytes] at this

/-- The manual's shape of a stream in chunks: 498 bytes take 2 chunks, the second ending in 14 zeros (R92). -/
theorem test_chunks : chunkCount 498 = 2 ∧ chunkCount 512 = 2 ∧ chunkCount 513 = 3 ∧
    chunkData (List.replicate 498 7) 1 = List.replicate 242 7 ++ List.replicate 14 0 := by decide +kernel

/-- Every tile has a CODED form at every step and a PLAIN form. -/
theorem test_meets_DecodeOfEncode_forms (step : Nat) (t : Tile) :
    (∃ stream len recon, codeTile .rgb8 ⟨0, 0⟩ 1 step t = .coded step stream len recon) ∧
      ∃ stream len recon, plainTile .rgb8 ⟨0, 0⟩ 1 t = .plain stream len recon := by
  unfold codeTile plainTile
  exact ⟨⟨_, _, _, rfl⟩, _, _, _, rfl⟩

/-- The worked values of a reconstruction: 200 at exponents 0, 3 and 7 (R84). -/
theorem test_rebuild : [0, 3, 7].map (fun k => rebuild k (quantise k 200)) = [200, 204, 192] := by decide +kernel

theorem test_meets_StepKeeps : step (part .opened) = .next (part .opened) ∧ (part .opened).FiguresAgree ∧
    (part .opened).MapOk ∧ (part .opened).ListsBounded ∧ (part .opened).FreeSlotsBlank ∧ (part .opened).WaitOk :=
  ⟨rfl, figures_part, rfl, by unfold State.ListsBounded; decide +kernel, freeBlank_part,
    by unfold State.WaitOk; decide +kernel⟩

theorem extent_part (a : ApIx) : (part .opened).extent a = if a = 0 then ⟨0, 4⟩ else ⟨0, 0⟩ := by
  revert a
  decide +kernel

theorem extents_part : (part .opened).ExtentsOk := by
  refine ⟨by decide +kernel, by decide +kernel, by decide +kernel, fun i h => ?_, fun a i h => ?_, fun w h => (by cases h),
    fun ap z b h => (by cases h)⟩
  · by_cases l : i < 4
    · exact .inr ⟨0, by rw [extent_part, if_pos rfl]; exact ⟨Nat.zero_le _, by simpa using l⟩⟩
    · exact .inl ⟨⟨4, 262140⟩, List.mem_singleton.2 rfl, by simp only [Extent.Holds]; omega⟩
  · have e : a = 0 := by
      by_contra n
      rw [extent_part, if_neg n] at h
      simp [Extent.Holds] at h
    rw [e, extent_part, if_pos rfl] at h
    refine ⟨fun x m => ?_, fun b n k => ?_⟩
    · rw [List.mem_singleton.1 m]
      unfold Extent.Holds at h ⊢
      simp at h ⊢
      omega
    · rw [extent_part, if_neg (by rw [← e]; exact n)] at k
      simp [Extent.Holds] at k

theorem slot_part (k : SlotIx) : (part .opened).slot k = Slot.reset := by
  show (Vector.replicate 256 Slot.reset).get k = Slot.reset
  rw [Vector.get_eq_getElem, Vector.getElem_replicate]

theorem buffers_part : (part .opened).BuffersOk := by
  refine ⟨⟨⟨.nil, fun i h => (by cases h)⟩, fun r h => (by cases h), fun b r a h => ?_, .nil, fun h m => (by cases m),
    fun e m => (by cases m), fun q m => (by cases m)⟩, ⟨fun e m => (by cases m), fun e m => (by cases m), .nil⟩, ?_⟩
  · cases b <;> cases h
  · refine ⟨.nil, ?_, .nil, ?_, freeBlank_part, ?_, ?_, ?_, ?_, ?_, ?_, ?_, ?_, ?_, ?_, ?_⟩ <;>
      (try simp only [slot_part]) <;>
      simp [Slot.reset, Slot.IsOther, part, State.reset, Assembly.reset, Encoder.reset, ReadPath.reset]

theorem sound_part : (part .opened).Sound := by
  refine ⟨rfl, by unfold State.WaitOk; decide +kernel, extents_part, buffers_part, ⟨by decide +kernel, fun k t h => ?_,
    fun r h => (by cases h), fun i h => absurd rfl h, fun w h => (by cases h)⟩,
    ⟨List.Perm.of_eq (by decide +kernel), fun op h => (by cases h), .nil, fun i c h => (by cases h)⟩⟩
  rw [slot_part] at h
  cases h

/-- An aperture, the pool and an enabled status block that touch nowhere. -/
theorem regions_part : (statusAt 0x20000 (part .opened)).RegionsOk := by
  have only : ∀ a, ((statusAt 0x20000 (part .opened)).ap a).state ≠ .closed → a = 0 := by decide +kernel
  have lo : ∀ a x, (statusAt 0x20000 (part .opened)).InAperture a x → a = 0 ∧ 0x100000 ≤ x := fun a x h => by
    have e := only a h.1
    have k := h.2.1
    rw [e, show ((statusAt 0x20000 (part .opened)).ap 0).base = 0x100000 by decide +kernel] at k
    exact ⟨e, k⟩
  have pool : ∀ x, (statusAt 0x20000 (part .opened)).InPool x → 0x10000 ≤ x ∧ x < 0x16400 := fun x h => by
    rw [State.InPool, show (statusAt 0x20000 (part .opened)).pool.base = 0x10000 by decide +kernel,
      show (statusAt 0x20000 (part .opened)).pool.count = 100 by decide +kernel] at h
    omega
  have status : ∀ x, (statusAt 0x20000 (part .opened)).InStatus x → 0x20000 ≤ x ∧ x < 0x20080 := fun x h => by
    have k := h.2
    rw [show (statusAt 0x20000 (part .opened)).st.addr = 0x20000 by decide +kernel] at k
    omega
  refine ⟨fun x a b h k => ?_, fun x a h k => ?_, fun x a h k => ?_, fun x h k => ?_, fun ap z b h => (by cases h)⟩
  · rw [(lo a x h).1, (lo b x k).1]
  · have := (lo a x h).2
    have := (pool x k).2
    omega
  · have := (lo a x h).2
    have := (status x k).2
    omega
  · have := (pool x h).2
    have := (status x k).1
    omega

theorem test_meets_StepKeeps_sound : (part .opened).ExtentsOk ∧ (part .opened).ResponsesInOrder ∧
    (part .opened).DecoderOk ∧ (part .opened).BuffersOk ∧ (part .opened).Sound :=
  ⟨extents_part, buffers_part.1.1, buffers_part.2.1, buffers_part, sound_part⟩

theorem test_meets_StepKeepsTheBounds : (part .opened).StepsOk ∧ (part .opened).ReceiverOk := by
  refine ⟨by unfold State.StepsOk; decide +kernel, fun _ => ⟨rfl, rfl, rfl⟩, by decide +kernel, by decide +kernel, ?_⟩
  rintro (h | h)
  · exact absurd rfl h
  · exact absurd h (by decide +kernel)

/-! ### One step of some commands -/

/-- What a command leaves, or the state it ran in where it stops. -/
def after (c : Instr) (s : State) : State :=
  match exec c s with
  | .next t => t
  | .fault _ => s
  | .refused _ => s

theorem test_write_then_visible :
    ((after (.composerWrite 0x100004 (pixels 1)) (part .opened)).visible ⟨0, 0⟩ 1 = some ⟨9, 9, 9⟩) ∧
      (after (.composerWrite 0x100004 (pixels 1)) (part .opened)).port.sent = [⟨0, true, []⟩] := by decide +kernel

theorem test_read_of_the_fill_colour :
    (after (.composerRead 0x100000 4) (part .opened)).port.sent = [⟨0, true, [1, 2, 3, 0]⟩] := by decide +kernel

theorem test_open_records_done :
    let t := after (.openOrder (openAt 0x200000)) (part .opened)
    t.ord.record = ⟨0x61, 1, .done, none, 0⟩ ∧ (t.ap 1).extFirst = 4 ∧ t.map.freeExtents = [⟨8, 262136⟩] := by
  decide +kernel

theorem test_flush_seals_and_takes :
    let t := after (.flush 0 0 0) (withSlot 2 (fillingOf 1 none) (part .opened))
    (t.slot 2).state = .encoding ∧ (t.slot 2).mark = true ∧ t.ord.executing = some (.flush false false 0 0 0) := by
  decide +kernel

theorem test_uniform_commit :
    let t := after .codingEnd (coding false (opOf .coding))
    entryAt t.map.entries 0 = ⟨.uniform Colour.black false, 1⟩ ∧ (t.ap 0).committed = 1 ∧ t.enc.op = none ∧
      (t.slot 0).state = .free := by decide +kernel

theorem test_close_walks_and_closes :
    let t := after (.close 0 0 0) (part .opened)
    let u := after .retireWalkVisit (after .retireWalkVisit (after .retireWalkVisit (after .retireWalkVisit t)))
    (t.ap 0).state = .retiring ∧ (u.ap 0).state = .closed ∧ u.map.freeExtents = [⟨0, 262144⟩] ∧
      u.ord.record = ⟨0x21, 0, .done, none, 0⟩ := by decide +kernel

theorem test_orderFrame_opens_the_queue :
    (after (.orderFrame (pulsesOf [0x21, 0x03, 0x00, 0x17])) (linked .armed)).ord.record =
      ⟨0x21, 3, .refused, some .state, 0⟩ := by decide +kernel

theorem test_bad_check_raises_link :
    (after (.orderFrame (pulsesOf [0x23, 0x05, 0x00, 0xEB])) (linked .armed)).st.faults = 0x01 ∧
      (after (.orderFrame (pulsesOf [0x23, 0x05, 0x00, 0xEB])) (linked .armed)).link.state = .passing := by decide +kernel

/-- A bit before the last that stays high for 3 µs is a bit error; 50 µs high arms the receiver again (R167, R168). -/
theorem test_late_bit_and_line_reset :
    (after (.orderFrame [250, 3000, 250]) (linked .armed)).link.state = .deaf ∧
      (after (.orderFrame [250, 2999, 250]) (linked .armed)).link.bits = [false, true, false] ∧
      (after (.orderFrame [50000]) (linked .passing)).link.state = .armed ∧
      (after (.orderFrame ([250, 50000] ++ pulsesOf [0x00])) (linked .armed)).link.state = .passing := by decide +kernel

/-- A complete read keeps the format of its take while its aperture is closed and opened in the other format (R14, R155). -/
theorem test_response_keeps_its_format :
    let r : Request := ⟨0, .read 4, 0x100000, .aperture 0, [⟨⟨0, 0⟩, .rgb8, [⟨0, some ⟨1, 2, 3⟩⟩], .complete⟩], [], .okay⟩
    let s : State := { part .opened with
      aps := (part .opened).aps.set 0 { ap0 .opened with fmt := .rgb16 }
      port := { ComposerPort.reset with window := [r], nextId := 1 } }
    s.respond.map (fun t => t.port.sent) = some [⟨0, true, [1, 2, 3, 0]⟩] := by decide +kernel

theorem test_unsolicited_answer : exec (.chunkWriteAnswer .okay) State.reset = .fault .unsolicitedAnswer := rfl

theorem test_illFormed_refused : exec (.undefinedOrder 0x21) State.reset = .refused .illFormed := rfl

end Sys2Proof.Tests
end

section
/-! PROOFS. Apertures and the picture address space: OPEN's five checks (R15). What the order's fields say about the size and the
checks, then OPEN at each check with the checks before it passed, then the statement. -/

set_option Elab.async false

namespace Sys2Proof.Machine

/-! ### What an OPEN asks for -/

theorem pixelSize_formatOf (b : BitVec 1) : (formatOf b).pixelSize = if b = 0 then 4 else 8 := by
  unfold formatOf
  split <;> rfl

/-- The size of the aperture that an OPEN describes, in the order's own fields (R7). -/
theorem openSize_eq (f : OpenFields) : openSize f =
    (f.width.toNat + 1) * 32 * (if f.fmt = 0 then 4 else 8) * (f.height.toNat + 1) * 32 := by
  rw [openSize, byteSize, pitchOf, pixelSize_formatOf]

/-- Step 1 of OPEN's checks, in the order's own fields (R15). -/
theorem openBadParam_iff (f : OpenFields) : openBadParam f = true ↔
    f.zero1 ≠ 0 ∨ f.zero2 ≠ 0 ∨ 2 ≤ f.mode.toNat ∨ f.budget.toNat < 2 ∨ 25 < f.budget.toNat ∨
      f.base.toNat % 256 ≠ 0 ∨ 2 ^ 36 < f.base.toNat + openSize f ∨ f.zero14 ≠ 0 := by
  simp only [openBadParam, Bool.or_eq_true, decide_eq_true_eq, or_assoc]
  rfl

/-- Step 4 of OPEN's checks: the range meets that of an aperture that is not CLOSED, the pool region or the enabled status
block (R11, R15). -/
def State.meetsRegion (s : State) (a la : Nat) : Bool := s.meetsAperture a la || s.meetsPool a la || s.meetsStatus a la

theorem meetsRegion_iff (s : State) (a la : Nat) : s.meetsRegion a la = true ↔
    (∃ b, (s.ap b).state ≠ .closed ∧ (s.ap b).base < a + la ∧
      a < (s.ap b).base + (s.ap b).width * 32 * (if (s.ap b).fmt = .rgb8 then 4 else 8) * (s.ap b).height * 32) ∨
    (s.pool.count ≠ 0 ∧ a < s.pool.base + 256 * s.pool.count ∧ s.pool.base < a + la) ∨
    (s.st.enable = true ∧ a < s.st.addr + 128 ∧ s.st.addr < a + la) := by
  rw [State.meetsRegion, Bool.or_eq_true, Bool.or_eq_true, or_assoc, meetsAperture_iff, meetsPool_iff, meetsStatus_iff]

theorem not_isLive {x : Aperture} (closed : x.state = .closed) : ¬x.isLive = true :=
  fun live => (isLive_iff x).1 live closed

/-! ### OPEN at each of its checks, with the checks before it passed -/

section
variable {s : State} {f : OpenFields} (o : Order)

/-- Step 1: a field of the order is not legal. -/
theorem runOpen_badParam (bad : openBadParam f = true) : s.runOpen o f = s.orderRefused o .badParam := if_pos bad

/-- Step 2: the aperture is not CLOSED. -/
theorem runOpen_state (good : ¬openBadParam f = true) (live : (s.ap (apOf f.ap)).state ≠ .closed) :
    s.runOpen o f = s.orderRefused o .state :=
  (if_neg good).trans (if_pos ((isLive_iff _).2 live))

/-- Step 3: no pool is defined. -/
theorem runOpen_noPool (good : ¬openBadParam f = true) (closed : (s.ap (apOf f.ap)).state = .closed)
    (noPool : s.pool.count = 0) : s.runOpen o f = s.orderRefused o .noPool :=
  (if_neg good).trans <| (if_neg (not_isLive closed)).trans (if_pos noPool)

/-- Step 4: the range that the order describes meets another region. -/
theorem runOpen_overlap (good : ¬openBadParam f = true) (closed : (s.ap (apOf f.ap)).state = .closed)
    (pool : s.pool.count ≠ 0) (meets : s.meetsRegion f.base.toNat (openSize f) = true) :
    s.runOpen o f = s.orderRefused o .overlap :=
  (if_neg good).trans <| (if_neg (not_isLive closed)).trans <| (if_neg pool).trans (if_pos meets)

/-- Step 5: no free extent is long enough (R26). -/
theorem runOpen_noSpace (good : ¬openBadParam f = true) (closed : (s.ap (apOf f.ap)).state = .closed)
    (pool : s.pool.count ≠ 0) (apart : ¬s.meetsRegion f.base.toNat (openSize f) = true)
    (short : ∀ e ∈ s.map.freeExtents, e.len < (f.width.toNat + 1) * (f.height.toNat + 1)) :
    s.runOpen o f = s.orderRefused o .noSpace := by
  refine (if_neg good).trans <| (if_neg (not_isLive closed)).trans <| (if_neg pool).trans <| (if_neg apart).trans ?_
  rw [takeExtent_none short]
end

/-- An OPEN that the order unit takes at once is executed at the arrival (R173, R174). -/
theorem exec_openOrder {s : State} (ready : s.ReadyForOrder) (f : OpenFields) :
    exec (.openOrder f) s = .next (s.runOpen (.openOrder f) f).finish :=
  exec_ready (o := .openOrder f) ready rfl nofun nofun rfl

/-- Settles O24: OPEN stops at the first of R15's checks that fails, with that check's reason. -/
theorem openRefusedByTheFirstFailingCheck : Obligations.OpenRefusedByTheFirstFailingCheck := by
  intro s f ready
  simp only [← openSize_eq, ← openBadParam_iff, ← meetsRegion_iff, exec_openOrder ready]
  refine ⟨fun bad => ?badParam, fun good live => ?state, fun good closed noPool => ?noPool,
    fun good closed pool meets => ?overlap, fun good closed pool apart short => ?noSpace, fun k => ?refusal⟩
  case badParam => rw [runOpen_badParam _ bad]
  case state => rw [runOpen_state _ good live]
  case noPool => rw [runOpen_noPool _ good closed noPool]
  case overlap => rw [runOpen_overlap _ good closed pool meets]
  case noSpace => rw [runOpen_noSpace _ good closed pool apart short]
  case refusal =>
    exact ⟨orderRefused_concluded s _ k, congrArg StatusUnit.faults (orderRefused_st s _ k), touches_orderRefused s _ k⟩

end Sys2Proof.Machine
end

section
/-! PROOFS. The tile map: the committed-tile count at a commit (R5, R30). A commit is cut at its counting: what comes before
leaves the aperture records alone, and what comes after leaves them and the stale mark. -/

set_option Elab.async false

namespace Sys2Proof.Machine

/-! ### The stale mark stays

A set stale mark stays through each update of a reported value, and so through a seal and the freeing of a slot (R187). -/

section
variable {s : State} (stale : s.st.stale = true)
include stale

theorem markIf_stays_stale (b : Bool) : (s.markIf b).st.stale = true := by
  rw [markIf_stale, stale, Bool.true_or]

theorem putSlot_stays_stale (k : SlotIx) (x : Slot) : (s.putSlot k x).st.stale = true :=
  markIf_stays_stale (s := s.setAsm _) stale _

theorem putSealQueue_stays_stale (l : List SlotIx) : (s.putSealQueue l).st.stale = true :=
  markIf_stays_stale (s := s.setAsm _) stale _

theorem putEnc_stays_stale (e : Encoder) : (s.putEnc e).st.stale = true :=
  markIf_stays_stale (s := s.setEnc e) stale _

theorem putQueue_stays_stale (l : List DecodeEntry) : (s.putQueue l).st.stale = true :=
  markIf_stays_stale (s := s.setRd _) stale _

theorem putCache_stays_stale (l : List CacheEntry) : (s.putCache l).st.stale = true :=
  markIf_stays_stale (s := s.setRd _) stale _

theorem slewStep_stays_stale : s.slewStep.st.stale = true :=
  markIf_stays_stale (s := s.setCtl _) stale _

theorem raise_stays_stale (k : FaultKind) : (s.raise k).st.stale = true := by
  rw [State.raise, State.putFaults, setSt_st, stale, Bool.true_or]

theorem useMapTile_stays_stale (t : TileRef) : (s.useMapTile t).st.stale = true := by
  unfold State.useMapTile State.touchCache
  split
  · split
    · exact stale
    · exact putCache_stays_stale stale _
  · exact stale

theorem joinDecode_stays_stale (t : TileRef) (add : DecodeEntry → DecodeEntry) :
    (s.joinDecode t add).st.stale = true := by
  unfold State.joinDecode
  split
  · exact putQueue_stays_stale stale _
  · split
    · exact stale
    · split
      · exact putQueue_stays_stale stale _
      · exact stale

theorem startGather_stays_stale (k : SlotIx) (t : TileRef) : (s.startGather k t).st.stale = true := by
  unfold State.startGather
  split
  · exact putSlot_stays_stale (useMapTile_stays_stale stale t) k _
  · exact joinDecode_stays_stale stale t _

theorem sealNow_stays_stale (k : SlotIx) : (s.sealNow k).st.stale = true := by
  have queued (l : List SlotIx) (x : Slot) (m : List SlotIx) :
      (((s.putOpenList l).putSlot k x).putSealQueue m).st.stale = true :=
    putSealQueue_stays_stale (putSlot_stays_stale (s := s.putOpenList l) stale k x) m
  unfold State.sealNow
  dsimp only
  split
  · exact startGather_stays_stale (queued _ _ _) k _
  · exact queued _ _ _

theorem unlinkSuccessor_stays_stale (k : SlotIx) : (s.unlinkSuccessor k).st.stale = true := by
  unfold State.unlinkSuccessor
  split
  · exact stale
  · dsimp only
    split
    · exact sealNow_stays_stale (putSlot_stays_stale stale _ _) _
    · exact putSlot_stays_stale stale _ _

theorem freeEncoding_stays_stale (k : SlotIx) : (s.freeEncoding k).st.stale = true :=
  unlinkSuccessor_stays_stale (putSlot_stays_stale stale k _) k
end

/-! ### The count raised by one, or left (R5, R30) -/

theorem ap_eq_of_aps_eq {s t : State} (same : t.aps = s.aps) (a : ApIx) : t.ap a = s.ap a :=
  congrArg (Vector.get · a) same

/-- A record whose committed-tile count changes is one whose report changes (R185). -/
theorem putAp_stale_of_committed {s : State} {a : ApIx} {x : Aperture} (changed : x.committed ≠ (s.ap a).committed) :
    (s.putAp a x).st.stale = true := by
  rw [State.putAp, markIf_stale, Aperture.reportDiffers, decide_eq_true changed, Bool.or_true, Bool.or_true]

theorem countCommitted_of_unwritten (s : State) (a : ApIx) :
    s.countCommitted a .unwritten = s.putAp a { s.ap a with committed := (s.ap a).committed + 1 } := if_pos rfl

theorem countCommitted_of_written (s : State) (a : ApIx) {old : Content} (written : old ≠ .unwritten) :
    s.countCommitted a old = s := if_neg written

theorem ap_countCommitted_other (s : State) {a b : ApIx} (old : Content) (other : b ≠ a) :
    (s.countCommitted a old).ap b = s.ap b := by
  unfold State.countCommitted
  split
  · exact ap_putAp_other s a b _ other
  · rfl

/-! ### A commit cut at its counting -/

/-- What a commit does before the count: the entry replaced, the old chunks released, the cache updated (R28, R29, R31). -/
def State.beforeCount (s : State) (op : TileOp) (r : Result) : State :=
  ((s.setMap (s.map.commit (s.entryIx op.tile) (r.content op.heldChunks) r.isDegraded)).markStale.release
    (s.entry op.tile).content.chunks).commitCache op.tile r

/-- What a commit does after the count: the encoder's record emptied, the slot freed, the completion slewed, DEGRADED raised
(R73, R100, R126). -/
def State.afterCount (s : State) (op : TileOp) (r : Result) : State :=
  let u := ((s.putEnc Encoder.reset).freeEncoding op.slot).slewStep
  if r.isDegraded then u.raise .degraded else u

theorem commit_eq_count (s : State) (op : TileOp) (r : Result) : s.commit op r =
    ((s.beforeCount op r).countCommitted op.tile.ap (s.entry op.tile).content).afterCount op r := rfl

/-- The blocks that a commit touches before its count. -/
abbrev beforeCountBlocks : List Block := [.map, .pool, .ctl, .rd, .st]

theorem touches_beforeCount (s : State) (op : TileOp) (r : Result) :
    OnlyTouches beforeCountBlocks s (s.beforeCount op r) :=
  (((touches_setMap s _).andThen (C := beforeCountBlocks) (touches_markStale _)).andThen (C := beforeCountBlocks)
    (touches_release _ _)).andThen (touches_commitCache _ _ _)

/-- The blocks that a commit touches after its count. -/
abbrev afterCountBlocks : List Block := [.asm, .ctl, .enc, .rd, .st]

theorem touches_afterCount (s : State) (op : TileOp) (r : Result) :
    OnlyTouches afterCountBlocks s (s.afterCount op r) := by
  have slewed : OnlyTouches afterCountBlocks s (((s.putEnc Encoder.reset).freeEncoding op.slot).slewStep) :=
    ((touches_putEnc s _).andThen (C := afterCountBlocks) (touches_freeEncoding _ _)).andThen (touches_slewStep _)
  unfold State.afterCount
  dsimp only
  split
  · exact slewed.andThen (touches_raise _ _)
  · exact slewed

theorem afterCount_stays_stale {s : State} (stale : s.st.stale = true) (op : TileOp) (r : Result) :
    (s.afterCount op r).st.stale = true := by
  have slewed := slewStep_stays_stale (freeEncoding_stays_stale (putEnc_stays_stale stale Encoder.reset) op.slot)
  unfold State.afterCount
  dsimp only
  split
  · exact raise_stays_stale slewed .degraded
  · exact slewed

/-- The aperture records after a commit are those after its counting. -/
theorem ap_commit (s : State) (op : TileOp) (r : Result) (b : ApIx) : (s.commit op r).ap b =
    ((s.beforeCount op r).countCommitted op.tile.ap (s.entry op.tile).content).ap b := by
  rw [commit_eq_count]
  exact ap_eq_of_aps_eq (touches_afterCount _ op r .aps (by decide)) b

theorem ap_beforeCount (s : State) (op : TileOp) (r : Result) (b : ApIx) : (s.beforeCount op r).ap b = s.ap b :=
  ap_eq_of_aps_eq (touches_beforeCount s op r .aps (by decide)) b

/-- Settles O45: a commit adds 1 to the count of the tile's aperture exactly when the old entry was UNWRITTEN (R5, R30). -/
theorem commitCountsUnwrittenTiles : Obligations.CommitCountsUnwrittenTiles := by
  intro s op r
  refine ⟨fun (unwritten : (s.entry op.tile).content = .unwritten) => ⟨?counted, ?stale⟩,
    fun (written : (s.entry op.tile).content ≠ .unwritten) => ?kept, fun b other => ?others⟩
  case counted =>
    rw [ap_commit, unwritten, countCommitted_of_unwritten, ap_putAp_same, ap_beforeCount]
  case stale =>
    rw [commit_eq_count, unwritten, countCommitted_of_unwritten]
    exact afterCount_stays_stale (putAp_stale_of_committed (Nat.succ_ne_self _)) op r
  case kept => rw [ap_commit, countCommitted_of_written _ _ written, ap_beforeCount]
  case others => rw [ap_commit, ap_countCommitted_other _ _ other, ap_beforeCount]

end Sys2Proof.Machine
end

section
/-! PROOFS. The assembly buffer: seal calls (R65). A seal call on each kind of slot, then what making a seal due changes and
leaves, then the statement. -/

set_option Elab.async false

namespace Sys2Proof.Machine

/-! ### A seal call on each kind of slot -/

/-- A slot's seal is made due: the slot leaves the open list and its due flag is set (R65). -/
def State.makeSealDue (s : State) (k : SlotIx) : State :=
  (s.putOpenList (s.asm.openList.erase k)).putSlot k { s.slot k with due := true }

section
variable {s : State} {k : SlotIx}

theorem sealCall_of_not_filling (notFilling : (s.slot k).state ≠ .filling) : s.sealCall k = s := if_pos notFilling

theorem sealCall_of_no_pred (filling : (s.slot k).state = .filling) (noPred : (s.slot k).pred = none) :
    s.sealCall k = s.sealNow k := by
  simp only [State.sealCall, filling, noPred, ne_eq, not_true_eq_false, if_false]

/-- A FILLING slot with a predecessor takes its seal call by its due flag alone. -/
theorem sealCall_of_pred (filling : (s.slot k).state = .filling) (hasPred : (s.slot k).pred ≠ none) :
    s.sealCall k = if (s.slot k).due then s else s.makeSealDue k := by
  obtain ⟨p, pred⟩ := Option.ne_none_iff_exists'.1 hasPred
  simp only [State.sealCall, State.makeSealDue, filling, pred, ne_eq, not_true_eq_false, if_false]
end

/-! ### A seal made due -/

theorem slot_makeSealDue_same (s : State) (k : SlotIx) : (s.makeSealDue k).slot k = { s.slot k with due := true } :=
  slot_putSlot_same _ k _

theorem slot_makeSealDue_other (s : State) {k j : SlotIx} (other : j ≠ k) : (s.makeSealDue k).slot j = s.slot j :=
  slot_putSlot_other _ k j _ other

theorem openList_makeSealDue (s : State) (k : SlotIx) : (s.makeSealDue k).asm.openList = s.asm.openList.erase k := rfl

theorem touches_makeSealDue (s : State) (k : SlotIx) : OnlyTouches [.asm, .st] s (s.makeSealDue k) :=
  (touches_putOpenList s _).andThen (touches_putSlot _ k _)

/-- Settles O33: a seal call changes nothing, makes the seal at once, or makes it due, by the slot's state, predecessor link
and due flag (R65). -/
theorem sealCallSealsOrMakesDue : Obligations.SealCallSealsOrMakesDue := by
  intro s k
  refine ⟨sealCall_of_not_filling, sealCall_of_no_pred, fun filling hasPred due => ?alreadyDue,
    fun filling hasPred notDue => ?madeDue⟩
  case alreadyDue => rw [sealCall_of_pred filling hasPred, if_pos due]
  case madeDue =>
    have called : s.sealCall k = s.makeSealDue k := by
      rw [sealCall_of_pred filling hasPred, if_neg (Bool.eq_false_iff.1 notDue)]
    rw [called]
    exact ⟨slot_makeSealDue_same s k, fun _ other => slot_makeSealDue_other s other, openList_makeSealDue s k,
      touches_makeSealDue s k⟩

end Sys2Proof.Machine
end

section
/-! PROOFS. The setup line and orders: HALT (R180). What HALT leaves of an executing FLUSH, then what it does to the executing
order of each kind, then the whole of HALT, then the statement. -/

set_option Elab.async false

namespace Sys2Proof.Machine

/-! ### A FLUSH that is stopped -/

/-- What HALT does to the aperture records and the slots of an executing FLUSH: the marks are cleared, and the aperture of a
FREEZE goes back to OPEN (R77, R78). -/
def State.stopFlush (s : State) (all freeze : Bool) (ap : BitVec 3) : State :=
  if freeze && !all then s.clearMarks.unfreeze (apOf ap) else s.clearMarks

section
variable (s : State)

theorem slot_clearMarks (k : SlotIx) : s.clearMarks.slot k = { s.slot k with mark := false } := vecMap_get _ _ k

theorem unfreeze_of_freezing {s : State} {a : ApIx} (freezing : (s.ap a).state = .freezing) :
    s.unfreeze a = s.putAp a { s.ap a with state := .opened } := if_pos freezing

/-- An aperture's return to OPEN is its record's alone, and raises and clears no fault. -/
theorem unfreeze_leaves (a : ApIx) :
    (s.unfreeze a).asm = s.asm ∧ (s.unfreeze a).ord = s.ord ∧ (s.unfreeze a).st.faults = s.st.faults := by
  unfold State.unfreeze
  split <;> exact ⟨rfl, rfl, rfl⟩

/-- A stopped FLUSH leaves the assembly buffer with the marks cleared, and the order unit and the faults as they were. -/
theorem stopFlush_leaves (all freeze : Bool) (ap : BitVec 3) :
    (s.stopFlush all freeze ap).asm = s.clearMarks.asm ∧ (s.stopFlush all freeze ap).ord = s.ord ∧
      (s.stopFlush all freeze ap).st.faults = s.st.faults := by
  unfold State.stopFlush
  split
  · exact unfreeze_leaves s.clearMarks (apOf ap)
  · exact ⟨rfl, rfl, rfl⟩

/-- Only a FREEZE has an aperture to give back (R78). -/
theorem stopFlush_of_not_freeze {all freeze : Bool} (ap : BitVec 3) (plain : freeze = false ∨ all = true) :
    s.stopFlush all freeze ap = s.clearMarks := by
  rcases plain with rfl | rfl
  · rfl
  · exact if_neg (by simp)

theorem stopFlush_of_freezing {s : State} {ap : BitVec 3} (freezing : (s.ap (apOf ap)).state = .freezing) :
    s.stopFlush false true ap = s.clearMarks.putAp (apOf ap) { s.ap (apOf ap) with state := .opened } :=
  unfreeze_of_freezing (s := s.clearMarks) freezing

/-- A slot of the assembly buffer has a number. -/
theorem exists_slot_of_mem {s : State} {sl : Slot} (mem : sl ∈ s.asm.slots.toList) : ∃ k, s.slot k = sl := by
  obtain ⟨i, bound, at_i⟩ := List.mem_iff_getElem.1 mem
  exact ⟨⟨i, by simpa using bound⟩, at_i⟩

/-- With no slot marked, a FREEZING aperture alone has a FLUSH pending (R76, R78). -/
theorem flushPending_of_unmarked {s : State} {a : ApIx} (unmarked : ∀ k, (s.slot k).mark = false)
    (notFreezing : (s.ap a).state ≠ .freezing) : s.flushPending a = false := by
  have noMark : (s.asm.slots.toList.any fun sl => sl.mark && sl.ofAp a) = false := by
    refine List.any_eq_false.2 fun sl mem => ?_
    obtain ⟨k, rfl⟩ := exists_slot_of_mem mem
    simp [unmarked k]
  rw [State.flushPending, noMark, decide_eq_false notFreezing, Bool.or_false]
end

/-! ### HALT on the executing order, by its kind -/

section
variable {s : State}

theorem haltExecuting_of_idle (idle : s.ord.executing = none) : s.haltExecuting = (s, 0xFF, .done) := by
  rw [State.haltExecuting, idle]

theorem haltExecuting_of_close {ap : BitVec 3} {zero : BitVec 5} {b2 : Byte}
    (closing : s.ord.executing = some (.close ap zero b2)) : s.haltExecuting = (s, ap.setWidth 8, .none) := by
  rw [State.haltExecuting, closing]
  rfl

/-- An executing FLUSH is stopped, ends, and is counted (R180). -/
theorem haltExecuting_of_flush {all freeze : Bool} {ap zero : BitVec 3} {b2 : Byte}
    (flushing : s.ord.executing = some (.flush all freeze ap zero b2)) :
    s.haltExecuting =
      ((s.stopFlush all freeze ap).setOrd { s.ord with executing := none, completed := s.ord.completed + 1 },
        if all then 0xFF else ap.setWidth 8, .halted) := by
  obtain ⟨-, ord, -⟩ := stopFlush_leaves s all freeze ap
  rw [← ord, State.haltExecuting, flushing]
  rfl

/-- No order but a FLUSH is changed by HALT. -/
theorem haltExecuting_of_not_flush
    (other : ∀ all freeze ap zero b2, s.ord.executing ≠ some (.flush all freeze ap zero b2)) :
    s.haltExecuting.1 = s := by
  unfold State.haltExecuting
  split
  · rfl
  · next executing =>
    split
    · exact absurd executing (other _ _ _ _ _)
    all_goals rfl
end

theorem faults_haltExecuting (s : State) : s.haltExecuting.1.st.faults = s.st.faults := by
  by_cases flush : ∃ all freeze ap zero b2, s.ord.executing = some (.flush all freeze ap zero b2)
  · obtain ⟨all, freeze, ap, zero, b2, flushing⟩ := flush
    obtain ⟨-, -, faults⟩ := stopFlush_leaves s all freeze ap
    rw [haltExecuting_of_flush flushing]
    exact faults
  · rw [haltExecuting_of_not_flush fun all freeze ap zero b2 flushing => flush ⟨all, freeze, ap, zero, b2, flushing⟩]

/-! ### HALT at its arrival -/

/-- HALT is not queued and not validated: it acts at its arrival (R173, R180). -/
theorem exec_halt {s : State} (released : s.resetLine = false) : exec .halt s = .next s.haltNow.finish := by
  rw [exec_order (c := .halt) rfl rfl nofun, State.arrive, released]
  rfl

/-- The order unit after HALT: the executing order as its kind has it, the queue empty, and HALT's record (R180). -/
theorem ord_haltNow (s : State) : s.haltNow.ord = { s.haltExecuting.1.ord with
    queue := [], record := ⟨0x01, s.haltExecuting.2.1, s.haltExecuting.2.2, none, s.ord.queue.length⟩ } := rfl

theorem aps_haltNow (s : State) : s.haltNow.aps = s.haltExecuting.1.aps := rfl

theorem asm_haltNow (s : State) : s.haltNow.asm = s.haltExecuting.1.asm := rfl

theorem faults_haltNow (s : State) : s.haltNow.st.faults = s.st.faults := faults_haltExecuting s

section
variable {s : State} {all freeze : Bool} {ap zero : BitVec 3} {b2 : Byte}
  (flushing : s.ord.executing = some (.flush all freeze ap zero b2))
include flushing

theorem aps_haltNow_of_flush : s.haltNow.aps = (s.stopFlush all freeze ap).aps := by
  rw [aps_haltNow, haltExecuting_of_flush flushing, setOrd_aps]

theorem ap_haltNow_of_flush (a : ApIx) : s.haltNow.ap a = (s.stopFlush all freeze ap).ap a :=
  congrArg (·.get a) (aps_haltNow_of_flush flushing)

theorem asm_haltNow_of_flush : s.haltNow.asm = s.clearMarks.asm := by
  obtain ⟨asm, -, -⟩ := stopFlush_leaves s all freeze ap
  rw [asm_haltNow, haltExecuting_of_flush flushing, setOrd_asm, asm]

theorem slot_haltNow_of_flush (k : SlotIx) : s.haltNow.slot k = { s.slot k with mark := false } :=
  (congrArg (·.slots.get k) (asm_haltNow_of_flush flushing)).trans (slot_clearMarks s k)
end

/-- Settles O14: HALT empties the queue, ends an executing FLUSH as HALTED, lets an executing CLOSE go on, and leaves its own
record (R180). -/
theorem haltEmptiesTheQueueAndEndsFlush : Obligations.HaltEmptiesTheQueueAndEndsFlush := by
  intro s released
  refine ⟨s.haltNow, exec_halt released, rfl, faults_haltNow s, markStale_stale _, touches_haltNow s,
    fun idle => ?idle, fun all freeze ap zero b2 flushing => ?flush, fun ap zero b2 closing => ?close⟩
  case idle =>
    rw [ord_haltNow, aps_haltNow, asm_haltNow, haltExecuting_of_idle idle]
    exact ⟨rfl, idle, rfl, rfl, rfl⟩
  case close =>
    rw [ord_haltNow, aps_haltNow, asm_haltNow, haltExecuting_of_close closing]
    exact ⟨rfl, rfl, rfl, rfl, rfl⟩
  case flush =>
    have asm := asm_haltNow_of_flush flushing
    have slot := slot_haltNow_of_flush flushing
    rw [ord_haltNow, haltExecuting_of_flush flushing]
    refine ⟨rfl, rfl, rfl, slot, congrArg (·.openList) asm, congrArg (·.sealQueue) asm, congrArg (·.held) asm,
      fun isFreeze notAll freezing => ?freeze, fun plain => ?plain, fun a => ?flags⟩
    case freeze =>
      subst isFreeze notAll
      have ap_eq := ap_haltNow_of_flush flushing
      rw [stopFlush_of_freezing freezing] at ap_eq
      exact ⟨(ap_eq _).trans (ap_putAp_same _ _ _), fun b other => (ap_eq b).trans (ap_putAp_other _ _ b _ other)⟩
    case plain => rw [aps_haltNow_of_flush flushing, stopFlush_of_not_freeze s ap plain]; rfl
    case flags => exact flushPending_of_unmarked fun k => congrArg Slot.mark (slot k)

end Sys2Proof.Machine
end

section
/-! PROOFS. The status unit: which operations change its stale mark alone (R187), and which keep the pool's figures in agreement and
the status block where it is. -/

set_option Elab.async false

namespace Sys2Proof.Machine

/-! ### Only the stale mark moves -/

/-- From `s` to `t` the status unit changes in its stale mark alone. -/
def OnlyMarks (s t : State) : Prop := ∃ b, t.st = { s.st with stale := b }

theorem OnlyMarks.refl (s : State) : OnlyMarks s s := ⟨s.st.stale, rfl⟩

theorem OnlyMarks.trans {s t u : State} (h : OnlyMarks s t) (k : OnlyMarks t u) : OnlyMarks s u := by
  obtain ⟨b, hb⟩ := h
  obtain ⟨c, hc⟩ := k
  exact ⟨c, by rw [hc, hb]⟩

theorem OnlyMarks.of_touches {B : List Block} {s t : State} (h : OnlyTouches B s t) (k : Block.st ∉ B := by decide) :
    OnlyMarks s t := ⟨s.st.stale, h .st k⟩

theorem OnlyMarks.foldl {α : Type} {f : State → α → State} (h : ∀ s x, OnlyMarks s (f s x)) (l : List α) (s : State) :
    OnlyMarks s (l.foldl f s) := by
  induction l generalizing s with
  | nil => exact .refl s
  | cons x xs ih => exact (h s x).trans (ih _)

theorem OnlyMarks.faults {s t : State} (h : OnlyMarks s t) : t.st.faults = s.st.faults := by
  obtain ⟨b, hb⟩ := h
  rw [hb]

theorem marks_markIf (s : State) (b : Bool) : OnlyMarks s (s.markIf b) := ⟨_, rfl⟩
theorem marks_markStale (s : State) : OnlyMarks s s.markStale := ⟨_, rfl⟩
theorem marks_putAp (s : State) (a : ApIx) (x : Aperture) : OnlyMarks s (s.putAp a x) := ⟨_, rfl⟩
theorem marks_putSlot (s : State) (k : SlotIx) (x : Slot) : OnlyMarks s (s.putSlot k x) := ⟨_, rfl⟩
theorem marks_putSealQueue (s : State) (l : List SlotIx) : OnlyMarks s (s.putSealQueue l) := ⟨_, rfl⟩
theorem marks_putHeld (s : State) (l : List HeldWrite) : OnlyMarks s (s.putHeld l) := ⟨_, rfl⟩
theorem marks_putEnc (s : State) (e : Encoder) : OnlyMarks s (s.putEnc e) := ⟨_, rfl⟩
theorem marks_putQueue (s : State) (l : List DecodeEntry) : OnlyMarks s (s.putQueue l) := ⟨_, rfl⟩
theorem marks_putCache (s : State) (l : List CacheEntry) : OnlyMarks s (s.putCache l) := ⟨_, rfl⟩
theorem marks_putWindow (s : State) (l : List Request) : OnlyMarks s (s.putWindow l) := ⟨_, rfl⟩
theorem marks_putLink (s : State) (l : Receiver) : OnlyMarks s (s.putLink l) := ⟨_, rfl⟩
theorem marks_addRefits (s : State) (n : Nat) : OnlyMarks s (s.addRefits n) := ⟨_, rfl⟩
theorem marks_slewStep (s : State) : OnlyMarks s s.slewStep := ⟨_, rfl⟩
theorem marks_resetLink (s : State) : OnlyMarks s s.resetLink := marks_putLink s _

/-! ### The read path -/

theorem marks_useMapTile (s : State) (t : TileRef) : OnlyMarks s (s.useMapTile t) := by
  unfold State.useMapTile State.touchCache
  split
  · split
    · exact .refl s
    · exact marks_putCache s _
  · exact .refl s

theorem marks_joinDecode (s : State) (t : TileRef) (add : DecodeEntry → DecodeEntry) :
    OnlyMarks s (s.joinDecode t add) := by
  unfold State.joinDecode
  split
  · exact marks_putQueue s _
  · split
    · exact .of_touches (touches_setRd s _)
    · split
      · exact marks_putQueue s _
      · exact .of_touches (touches_setRd s _)

theorem marks_movePending {s t : State} (h : s.movePending = some t) : OnlyMarks s t := by
  unfold State.movePending at h
  split at h
  · cases h
  · split at h
    · cases h
      exact marks_putQueue (s.setRd _) _
    · cases h

theorem marks_takeRead (s : State) (ref : PartRef) : OnlyMarks s (s.takeRead ref) := by
  unfold State.takeRead
  split
  · exact .refl s
  · dsimp only
    split
    · exact .of_touches (touches_updPart s _ _)
    · split
      · exact (marks_useMapTile s _).trans (.of_touches (touches_updPart _ _ _))
      · exact (marks_joinDecode s _ _).trans (.of_touches (touches_updPart _ _ _))

theorem marks_serveGather (s : State) (g : Option SlotIx) (x : Tile) : OnlyMarks s (s.serveGather g x) := by
  cases g with
  | none => exact .refl s
  | some k => exact marks_putSlot s k _

theorem marks_leaveDecoder (s : State) : OnlyMarks s s.leaveDecoder := marks_putQueue (s.setRd _) _

theorem marks_decodeSucceeds (s : State) (e : DecodeEntry) (x : Tile) : OnlyMarks s (s.decodeSucceeds e x) :=
  (((marks_putCache s _).trans (.foldl (fun u ref => .of_touches (touches_serveReader x u ref)) e.readers _)).trans
    (marks_serveGather _ _ _)).trans (marks_leaveDecoder _)

theorem marks_decodeFails (s : State) (e : DecodeEntry) : OnlyMarks s (s.decodeFails e) :=
  ((OnlyMarks.foldl (fun u ref => .of_touches (touches_failReader u ref)) e.readers s).trans
    (marks_serveGather _ _ _)).trans (marks_leaveDecoder _)

/-- What a CLOSE start leaves of the queues and the cache, before a decode whose checks are running ends (R148). -/
def State.closeQueues (s : State) (a : ApIx) : State :=
  ((s.setRd { s.rd with pendingList := s.rd.pendingList.filter fun e => decide (e.tile.ap ≠ a) }).putQueue
    (s.rd.queue.filterMap (DecodeEntry.closed a))).putCache (s.rd.cache.filter fun e => decide (e.tile.ap ≠ a))

/-- A CLOSE start ends the aperture's decode whose checks are running, and no other (R149). -/
theorem closeReadPath_cases (s : State) (a : ApIx) :
    (s.closeReadPath a = (s.closeQueues a).leaveDecoder ∧
      ∃ d, s.rd.decoder = some d ∧ d.tile.ap = a ∧ d.unanswered = 0) ∨
    (s.closeReadPath a = s.closeQueues a ∧
      ∀ d, s.rd.decoder = some d → d.tile.ap = a → d.unanswered ≠ 0) := by
  unfold State.closeReadPath
  dsimp only
  split
  case h_1 idle => exact .inr ⟨rfl, fun d busy => absurd (idle.symm.trans busy) nofun⟩
  case h_2 d busy =>
    have busy : s.rd.decoder = some d := busy
    by_cases ends : d.tile.ap = a ∧ d.isChecking
    · exact .inl ⟨if_pos ends, d, busy, ends.1, of_decide_eq_true ends.2⟩
    · refine .inr ⟨if_neg ends, fun e isE ofAp none_left => ends ?_⟩
      cases busy.symm.trans isE
      exact ⟨ofAp, decide_eq_true none_left⟩

theorem marks_closeQueues (s : State) (a : ApIx) : OnlyMarks s (s.closeQueues a) := ⟨_, rfl⟩

theorem marks_closeReadPath (s : State) (a : ApIx) : OnlyMarks s (s.closeReadPath a) := by
  rcases closeReadPath_cases s a with ⟨ended, -⟩ | ⟨left, -⟩
  · rw [ended]
    exact (marks_closeQueues s a).trans (marks_leaveDecoder _)
  · rw [left]
    exact marks_closeQueues s a

/-! ### The assembly buffer -/

theorem marks_startGather (s : State) (k : SlotIx) (t : TileRef) : OnlyMarks s (s.startGather k t) := by
  unfold State.startGather
  split
  · exact (marks_useMapTile s t).trans (marks_putSlot _ _ _)
  · exact marks_joinDecode s t _

theorem marks_sealNow (s : State) (k : SlotIx) : OnlyMarks s (s.sealNow k) := by
  unfold State.sealNow
  dsimp only
  split
  · exact .trans ⟨_, rfl⟩ (marks_startGather _ _ _)
  · exact ⟨_, rfl⟩

theorem marks_sealCall (s : State) (k : SlotIx) : OnlyMarks s (s.sealCall k) := by
  unfold State.sealCall
  dsimp only
  split
  · exact .refl s
  · split
    · exact marks_sealNow s k
    · split
      · exact .refl s
      · exact ⟨_, rfl⟩

theorem marks_openSlot (s : State) (k : SlotIx) (t : TileRef) : OnlyMarks s (s.openSlot k t) := marks_putSlot s _ _

theorem marks_land (s : State) (k : SlotIx) (ref : PartRef) (part : Part) : OnlyMarks s (s.land k ref part) := by
  unfold State.land
  dsimp only
  split
  · exact .trans ⟨_, rfl⟩ (marks_sealCall _ _)
  · exact ⟨_, rfl⟩

theorem marks_hold (s : State) (ref : PartRef) (part : Part) : OnlyMarks s (s.hold ref part) := by
  unfold State.hold
  dsimp only
  split
  · exact ⟨_, rfl⟩
  · exact .trans ⟨_, rfl⟩ (marks_sealCall _ _)

theorem marks_takeWrite (s : State) (ref : PartRef) : OnlyMarks s (s.takeWrite ref) := by
  unfold State.takeWrite
  split
  · exact .refl s
  · split
    · exact .of_touches (touches_updPart s _ _)
    · split
      · exact marks_land s _ _ _
      · split
        · exact (marks_openSlot s _ _).trans (marks_land _ _ _ _)
        · exact marks_hold s _ _

theorem marks_grantHeld {s t : State} (h : s.grantHeld = some t) : OnlyMarks s t := by
  unfold State.grantHeld at h
  split at h
  · cases h
    generalize State.part _ _ = p
    cases p with
    | none => exact (marks_putHeld s _).trans (marks_openSlot _ _ _)
    | some p => exact ((marks_putHeld s _).trans (marks_openSlot _ _ _)).trans (marks_land _ _ _ _)
  · cases h

theorem marks_unlinkSuccessor (s : State) (k : SlotIx) : OnlyMarks s (s.unlinkSuccessor k) := by
  unfold State.unlinkSuccessor
  split
  · exact .refl s
  · dsimp only
    split
    · exact (marks_putSlot s _ _).trans (marks_sealNow _ _)
    · exact marks_putSlot s _ _

theorem marks_freeEncoding (s : State) (k : SlotIx) : OnlyMarks s (s.freeEncoding k) :=
  (marks_putSlot s _ _).trans (marks_unlinkSuccessor _ _)

theorem marks_forceSlots (s : State) (on : ApIx → Bool) : OnlyMarks s (s.forceSlots on) :=
  ((OnlyMarks.of_touches (touches_setDraws s _)).trans (.foldl (fun u _ => marks_putSlot u _ _) _ _)).trans
    (.foldl marks_sealCall _ _)

theorem marks_clearMarks (s : State) : OnlyMarks s s.clearMarks := ⟨_, rfl⟩

theorem marks_closeSlots (s : State) (a : ApIx) : OnlyMarks s (s.closeSlots a) := ⟨_, rfl⟩

/-! ### The encoder, the ports and the order unit -/

theorem marks_takeSealed {s t : State} (h : s.takeSealed = some t) : OnlyMarks s t := by
  unfold State.takeSealed at h
  split at h
  · split at h
    · cases h
      exact ⟨_, rfl⟩
    · cases h
  · cases h

theorem marks_startRound (s : State) (op : TileOp) (n : Nat) (held : List (Option Nat)) (ts : List (Nat × Nat)) :
    OnlyMarks s (s.startRound op n held ts) := ⟨_, rfl⟩

theorem marks_startWriting (s : State) (op : TileOp) (cs : List Nat) : OnlyMarks s (s.startWriting op cs) := ⟨_, rfl⟩

theorem marks_commitCache (s : State) (t : TileRef) (r : Result) : OnlyMarks s (s.commitCache t r) := by
  cases r with
  | uniform _ _ => exact marks_putCache s _
  | coded _ _ _ _ => exact (marks_putCache s _).trans (marks_putCache _ _)
  | plain _ _ _ => exact (marks_putCache s _).trans (marks_putCache _ _)

theorem marks_countCommitted (s : State) (a : ApIx) (old : Content) : OnlyMarks s (s.countCommitted a old) := by
  unfold State.countCommitted
  split
  · exact marks_putAp s _ _
  · exact .refl s

theorem marks_endRefit (s : State) (op : TileOp) : OnlyMarks s (s.endRefit op) := by
  unfold State.endRefit
  dsimp only
  split
  · exact (marks_addRefits s 1).trans (marks_putEnc _ _)
  · exact .refl s

theorem marks_endWalk (s : State) (a : ApIx) : OnlyMarks s (s.endWalk a) := ⟨_, rfl⟩

theorem marks_proceedNext {s t : State} (h : s.proceedNext = some t) : OnlyMarks s t := by
  unfold State.proceedNext at h
  obtain ⟨⟨ref, isWrite⟩, -, rfl⟩ := Option.map_eq_some_iff.1 h
  have start := OnlyMarks.of_touches (touches_updPart s ref fun p => { p with progress := .proceeding })
  cases isWrite with
  | true => exact start.trans (marks_takeWrite _ _)
  | false => exact start.trans (marks_takeRead _ _)

theorem marks_respond {s t : State} (h : s.respond = some t) : OnlyMarks s t := by
  unfold State.respond at h
  split at h
  · cases h
  · split at h
    · cases h
      exact marks_putWindow (s.setPort _) _
    · cases h

theorem marks_orderDone (s : State) (o : Order) : OnlyMarks s (s.orderDone o) := ⟨_, rfl⟩

theorem marks_orderStarts (s : State) (o : Order) : OnlyMarks s (s.orderStarts o) := ⟨_, rfl⟩

theorem marks_startClose (s : State) (a : ApIx) : OnlyMarks s (s.startClose a) :=
  (((marks_putAp s a _).trans (marks_closeSlots _ a)).trans (.of_touches (touches_closePort _ a))).trans
    (marks_closeReadPath _ a) |>.trans (.of_touches (touches_setMap _ _))

/-- A long order ends in one of three ways: a CLOSE at the end of its walk, a FLUSH with no marked slot left, a FREEZE at its
condition (R36, R77, R78). -/
theorem endLongOrder_cases {s t : State} (h : s.endLongOrder = some t) :
    (∃ ap zero b2 w, s.ord.executing = some (.close ap zero b2) ∧ s.map.walk = some w ∧ (s.ap w.ap).extLen ≤ w.next ∧
      s.encoderHolds w.ap = false ∧ t = (s.endWalk w.ap).orderDone (.close ap zero b2)) ∨
    (∃ all freeze ap zero b2, s.ord.executing = some (.flush all freeze ap zero b2) ∧ (freeze && !all) = false ∧
      s.anyMark = false ∧ t = s.orderDone (.flush all freeze ap zero b2)) ∨
    ∃ ap zero b2, s.ord.executing = some (.flush false true ap zero b2) ∧ s.freezeMet (apOf ap) = true ∧
      t = s.endFreeze (.flush false true ap zero b2) (apOf ap) := by
  unfold State.endLongOrder at h
  split at h
  · cases h
  · next o executing =>
    split at h
    · next ap zero b2 =>
      obtain ⟨a, done, rfl⟩ := Option.map_eq_some_iff.1 h
      obtain ⟨w, walk, ends⟩ := Option.bind_eq_some_iff.1 done
      split at ends
      · next met =>
        cases ends
        exact .inl ⟨ap, zero, b2, w, executing, walk, met.1, met.2, rfl⟩
      · cases ends
    · next all freeze ap zero b2 =>
      split at h
      · next isFreeze =>
        obtain ⟨rfl, rfl⟩ : freeze = true ∧ all = false := by simpa using isFreeze
        split at h
        · next met =>
          cases h
          exact .inr (.inr ⟨ap, zero, b2, executing, met, rfl⟩)
        · cases h
      · next plain =>
        split at h
        · cases h
        · next unmarked =>
          cases h
          exact .inr (.inl ⟨all, freeze, ap, zero, b2, executing, Bool.eq_false_iff.2 plain, Bool.eq_false_iff.2 unmarked,
            rfl⟩)
    all_goals cases h

theorem marks_endLongOrder {s t : State} (h : s.endLongOrder = some t) : OnlyMarks s t := by
  rcases endLongOrder_cases h with ⟨_, _, _, w, -, -, -, -, rfl⟩ | ⟨_, _, _, _, _, -, -, -, rfl⟩ | ⟨_, _, _, -, -, rfl⟩
  · exact (marks_endWalk s w.ap).trans (marks_orderDone _ _)
  · exact marks_orderDone s _
  · exact (marks_putAp s _ _).trans (marks_orderDone _ _)

theorem marks_unfreeze (s : State) (a : ApIx) : OnlyMarks s (s.unfreeze a) := by
  unfold State.unfreeze
  split
  · exact marks_putAp s _ _
  · exact .refl s

theorem marks_haltExecuting (s : State) : OnlyMarks s s.haltExecuting.1 := by
  unfold State.haltExecuting
  split
  · exact .refl s
  · split
    · dsimp only
      split
      · exact (marks_clearMarks s).trans ((marks_unfreeze _ _).trans (.of_touches (touches_setOrd _ _)))
      · exact (marks_clearMarks s).trans (.of_touches (touches_setOrd _ _))
    all_goals exact .refl s

theorem marks_haltNow (s : State) : OnlyMarks s s.haltNow := (marks_haltExecuting s).trans ⟨_, rfl⟩

end Sys2Proof.Machine
end

section
/-! PROOFS. The pool's figures, POOL_SHORT and ATTN agree with the pool, the curve and the mask through every step (R48, R50, R98,
R184). Each operation keeps them, and, but for SET STATUS, keeps the status block's address and enable. -/

set_option Elab.async false

namespace Sys2Proof.Machine

/-- From `s` to `t` the status block stays where it is, and the figures stay in agreement. -/
structure KeepsStatus (s t : State) : Prop where
  addr : t.st.addr = s.st.addr
  enable : t.st.enable = s.st.enable
  figures : s.FiguresAgree → t.FiguresAgree

theorem KeepsStatus.refl (s : State) : KeepsStatus s s := ⟨rfl, rfl, id⟩

theorem KeepsStatus.trans {s t u : State} (h : KeepsStatus s t) (k : KeepsStatus t u) : KeepsStatus s u :=
  ⟨k.addr.trans h.addr, k.enable.trans h.enable, k.figures ∘ h.figures⟩

/-! ### What the figures are read from -/

theorem attnOf_iff (faults mask : Byte) : attnOf faults mask = true ↔ faults &&& mask ≠ 0 := decide_eq_true_iff

/-- The figures agree in a state that has them, the pool and the curve from one in which they agree, and that drives ATTN from a
fault set with POOL_SHORT as it was. -/
theorem State.FiguresAgree.of_same {s t : State} (h : State.FiguresAgree s) (pool : t.pool = s.pool) (band : t.ctl.band = s.ctl.band)
    (demanded : t.ctl.demanded = s.ctl.demanded) (curve : t.ctl.curve = s.ctl.curve)
    (short : t.st.faults.getLsbD 3 = s.st.faults.getLsbD 3)
    (attn : t.st.attn = true ↔ t.st.faults &&& t.st.mask ≠ 0) : t.FiguresAgree := by
  obtain ⟨bandOk, demandedOk, shortOk, -⟩ := h
  refine ⟨?_, ?_, ?_, attn⟩
  · rw [pool, band, bandOk]
  · rw [demanded, curve, band, demandedOk]
  · rw [pool, short, shortOk]

/-- An operation that leaves the pool and step control alone and marks the status block at most. -/
theorem KeepsStatus.of_marks {B : List Block} {s t : State} (h : OnlyTouches B s t) (m : OnlyMarks s t)
    (pool : Block.pool ∉ B := by decide) (ctl : Block.ctl ∉ B := by decide) : KeepsStatus s t := by
  have ctlSame : t.ctl = s.ctl := h .ctl ctl
  obtain ⟨b, st⟩ := m
  refine ⟨by rw [st], by rw [st], fun f => f.of_same (h .pool pool) (by rw [ctlSame]) (by rw [ctlSame]) (by rw [ctlSame])
    (by rw [st]) ?_⟩
  rw [st]
  exact f.2.2.2

/-- An operation that leaves the pool, step control and the status unit alone. -/
theorem KeepsStatus.of_touches {B : List Block} {s t : State} (h : OnlyTouches B s t)
    (pool : Block.pool ∉ B := by decide) (ctl : Block.ctl ∉ B := by decide) (st : Block.st ∉ B := by decide) :
    KeepsStatus s t := .of_marks h (.of_touches h st) pool ctl

theorem KeepsStatus.foldl {α : Type} {f : State → α → State} (h : ∀ s x, KeepsStatus s (f s x)) (l : List α) (s : State) :
    KeepsStatus s (l.foldl f s) := by
  induction l generalizing s with
  | nil => exact .refl s
  | cons x xs ih => exact (h s x).trans (ih _)

/-! ### The status unit, the pool and step control -/

/-- A fault of another kind leaves POOL_SHORT's bit as it is (R182). -/
theorem poolShort_or_mask (faults : Byte) {k : FaultKind} (other : k ≠ .poolShort) :
    (faults ||| k.mask).getLsbD 3 = faults.getLsbD 3 := by
  have off : k.mask.getLsbD 3 = false := by
    cases k with
    | poolShort => exact absurd rfl other
    | _ => rfl
  rw [BitVec.getLsbD_or, off, Bool.or_false]

theorem keeps_raise (s : State) {k : FaultKind} (other : k ≠ .poolShort) : KeepsStatus s (s.raise k) :=
  ⟨rfl, rfl, fun f => f.of_same rfl rfl rfl rfl (poolShort_or_mask _ other) (attnOf_iff _ _)⟩

theorem keeps_evalPool (s : State) : KeepsStatus s s.evalPool := ⟨rfl, rfl, fun _ => figures_evalPool s⟩

theorem keeps_putPool (s : State) (p : Pool) : KeepsStatus s (s.putPool p) := ⟨rfl, rfl, fun _ => figures_evalPool _⟩

theorem keeps_markStale (s : State) : KeepsStatus s s.markStale := .of_marks (touches_markStale s) (marks_markStale s)

theorem keeps_release (s : State) (cs : List Nat) : KeepsStatus s (s.release cs) := by
  unfold State.release
  split
  · exact .refl s
  · exact keeps_putPool s _

theorem keeps_takeChunks (s : State) (n : Nat) : KeepsStatus s (s.takeChunks n) := keeps_putPool s _

/-- The slew moves the applied step and the counters alone (R100). -/
theorem slew_leaves (c : StepControl) :
    c.slew = { c with applied := c.slew.applied, upCount := c.slew.upCount, downCount := c.slew.downCount } := by
  unfold StepControl.slew
  split
  · split <;> rfl
  · split
    · split <;> rfl
    · rfl

theorem keeps_slewStep (s : State) : KeepsStatus s s.slewStep := by
  refine ⟨rfl, rfl, fun f => f.of_same rfl ?_ ?_ ?_ rfl f.2.2.2⟩
  all_goals
    show _ = _
    simp only [State.slewStep, State.markIf, setSt_ctl, setCtl_ctl]
    rw [slew_leaves]

theorem keeps_addRefits (s : State) (n : Nat) : KeepsStatus s (s.addRefits n) :=
  ⟨rfl, rfl, fun f => f.of_same rfl rfl rfl rfl rfl f.2.2.2⟩

theorem keeps_issueStatus (s : State) : KeepsStatus s s.issueStatus := by
  unfold State.issueStatus
  split
  · exact ⟨rfl, rfl, fun f => f.of_same rfl rfl rfl rfl rfl f.2.2.2⟩
  · exact .refl s

/-! ### The encoder -/

theorem keeps_putOp (s : State) (op : TileOp) : KeepsStatus s (s.putOp op) :=
  .of_marks (touches_putOp s op) (marks_putEnc s _)

theorem keeps_putEnc (s : State) (e : Encoder) : KeepsStatus s (s.putEnc e) := .of_marks (touches_putEnc s e) (marks_putEnc s e)

theorem keeps_freeEncoding (s : State) (k : SlotIx) : KeepsStatus s (s.freeEncoding k) :=
  .of_marks (touches_freeEncoding s k) (marks_freeEncoding s k)

theorem keeps_commit (s : State) (op : TileOp) (r : Result) : KeepsStatus s (s.commit op r) := by
  have counted (m : TileMap) (cs : List Nat) (t : TileRef) (a : ApIx) (c : Content) :
      KeepsStatus s ((((s.setMap m).markStale.release cs).commitCache t r).countCommitted a c) :=
    ((((KeepsStatus.of_touches (touches_setMap s m)).trans (keeps_markStale _)).trans (keeps_release _ cs)).trans
      (.of_marks (touches_commitCache _ t r) (marks_commitCache _ t r))).trans
      (.of_marks (touches_countCommitted _ a c) (marks_countCommitted _ a c))
  have slewed := fun m cs t a c =>
    (((counted m cs t a c).trans (keeps_putEnc _ Encoder.reset)).trans (keeps_freeEncoding _ op.slot)).trans
      (keeps_slewStep _)
  unfold State.commit
  dsimp only
  split
  · exact (slewed _ _ _ _ _).trans (keeps_raise _ nofun)
  · exact slewed _ _ _ _ _

theorem keeps_abandon (s : State) (op : TileOp) : KeepsStatus s (s.abandon op) :=
  ((keeps_release s _).trans (keeps_putEnc _ _)).trans (keeps_freeEncoding _ _)

theorem keeps_commitCheck (s : State) (op : TileOp) (r : Result) : KeepsStatus s (s.commitCheck op r) := by
  unfold State.commitCheck
  split
  · exact keeps_abandon s op
  · exact keeps_commit s op r

theorem keeps_degrade (s : State) (op : TileOp) : KeepsStatus s (s.degrade op) :=
  (keeps_release s _).trans (keeps_commitCheck _ _ _)

theorem keeps_startRound (s : State) (op : TileOp) (n : Nat) (held : List (Option Nat)) (ts : List (Nat × Nat)) :
    KeepsStatus s (s.startRound op n held ts) := .of_marks (touches_startRound s op n held ts) (marks_startRound s op n held ts)

theorem keeps_startWriting (s : State) (op : TileOp) (cs : List Nat) : KeepsStatus s (s.startWriting op cs) :=
  keeps_startRound s _ _ _ _

theorem keeps_endRound (s : State) (op : TileOp) : KeepsStatus s (s.endRound op) := by
  unfold State.endRound
  dsimp only
  split
  · exact keeps_commitCheck s _ _
  · split
    · split
      · exact keeps_abandon s _
      · split
        · exact (keeps_takeChunks s _).trans (keeps_startRound _ _ _ _ _)
        · exact keeps_degrade s _
    · exact keeps_degrade s _

theorem keeps_chunkWritten (s : State) (i c : Nat) (status : StoreStatus) : KeepsStatus s (s.chunkWritten i c status) := by
  unfold State.chunkWritten
  split
  · exact .refl s
  · dsimp only
    cases status with
    | okay =>
      dsimp only
      split
      · exact (keeps_putEnc s _).trans (keeps_endRound _ _)
      · exact keeps_putEnc s _
    | error =>
      have withdrawn (e : Encoder) (p : Pool) : KeepsStatus s (((s.putEnc e).putPool p).raise .store) :=
        ((keeps_putEnc s e).trans (keeps_putPool _ p)).trans (keeps_raise _ nofun)
      dsimp only
      split
      · exact (withdrawn _ _).trans (keeps_endRound _ _)
      · exact withdrawn _ _

theorem keeps_firstRequest (s : State) (op : TileOp) (n : Nat) : KeepsStatus s (s.firstRequest op n) := by
  unfold State.firstRequest
  split
  · exact keeps_abandon s _
  · split
    · exact (keeps_takeChunks s _).trans (keeps_startWriting _ _ _)
    · exact (keeps_putPool s _).trans (keeps_putEnc _ _)

theorem keeps_endRefit (s : State) (op : TileOp) : KeepsStatus s (s.endRefit op) := by
  unfold State.endRefit
  dsimp only
  split
  · exact (keeps_addRefits s _).trans (keeps_putOp _ _)
  · exact .refl s

theorem keeps_endCoding (s : State) (op : TileOp) : KeepsStatus s (s.endCoding op) := by
  unfold State.endCoding
  split
  · exact keeps_commitCheck s _ _
  · exact ((keeps_addRefits s _).trans (keeps_putOp _ _)).trans (keeps_firstRequest _ _ _)

theorem keeps_grantWaiting {s t : State} (h : s.grantWaiting = some t) : KeepsStatus s t := by
  unfold State.grantWaiting at h
  split at h
  · split at h
    · cases h
      have granted := fun n op => (keeps_takeChunks s n).trans (keeps_putOp _ op)
      split
      · exact (granted _ _).trans (keeps_abandon _ _)
      · exact (granted _ _).trans (keeps_startWriting _ _ _)
    · cases h
  · cases h

theorem keeps_expireWait (s : State) (op : TileOp) : KeepsStatus s (s.expireWait op) := by
  unfold State.expireWait
  dsimp only
  split
  · exact (keeps_putPool s _).trans (keeps_degrade _ _)
  · exact (keeps_putPool s _).trans (keeps_putOp _ _)

theorem keeps_endRecode (s : State) (op : TileOp) : KeepsStatus s (s.endRecode op) := by
  unfold State.endRecode
  dsimp only
  split
  · exact keeps_abandon s _
  · split
    · exact (keeps_takeChunks s _).trans (keeps_startWriting _ _ _)
    · exact keeps_degrade s _

theorem keeps_visitEntry (s : State) (w : Walk) : KeepsStatus s (s.visitEntry w) :=
  (KeepsStatus.of_touches (touches_setMap s _)).trans (keeps_release _ _)

/-! ### The ports -/

theorem keeps_actOnClass (s : State) (r : Request) : KeepsStatus s (s.actOnClass r) := by
  unfold State.actOnClass
  split
  · exact ((KeepsStatus.of_touches (touches_setPort s _)).trans (keeps_markStale _)).trans (keeps_raise _ nofun)
  · exact .of_touches (touches_setStore s _)
  · exact .refl s

theorem keeps_takeBus {s t : State} (h : s.takeBus = some t) : KeepsStatus s t := by
  unfold State.takeBus at h
  split at h
  · cases h
  · split at h
    · cases h
    · cases h
      exact ((KeepsStatus.of_touches (touches_setPort s _)).trans
        (.of_marks (touches_putWindow _ _) (marks_putWindow _ _))).trans (keeps_actOnClass _ _)

theorem keeps_putDecode (s : State) (d : Decode) (raises : Bool) : KeepsStatus s (s.putDecode d raises) := by
  have put : KeepsStatus s (s.setRd { s.rd with decoder := some d }) := .of_touches (touches_setRd s _)
  cases raises with
  | true => exact put.trans (keeps_raise _ nofun)
  | false => exact put

theorem keeps_decodeFails (s : State) (e : DecodeEntry) : KeepsStatus s (s.decodeFails e) :=
  .of_marks (touches_decodeFails s e) (marks_decodeFails s e)

theorem keeps_chunkAnswered (s : State) (status : StoreStatus) (data : List Byte) :
    KeepsStatus s (s.chunkAnswered status data) := by
  unfold State.chunkAnswered
  split
  · dsimp only
    split
    · split
      · exact (keeps_putDecode s _ _).trans (.of_marks (touches_leaveDecoder _) (marks_leaveDecoder _))
      · split
        · exact (keeps_putDecode s _ _).trans (keeps_decodeFails _ _)
        · exact keeps_putDecode s _ _
    · exact keeps_putDecode s _ _
  · exact .refl s

theorem keeps_endDecode (s : State) : KeepsStatus s s.endDecode := by
  unfold State.endDecode
  split
  · split
    · split
      · exact .of_marks (touches_decodeSucceeds s _ _) (marks_decodeSucceeds s _ _)
      · exact (keeps_raise s (k := .corrupt) nofun).trans (keeps_decodeFails _ _)
    · exact .refl s
  · exact .refl s

theorem keeps_statusAnswered (s : State) (status : StoreStatus) : KeepsStatus s (s.statusAnswered status) := by
  cases status with
  | okay => exact ⟨rfl, rfl, fun f => f.of_same rfl rfl rfl rfl rfl f.2.2.2⟩
  | error =>
    exact ⟨rfl, rfl, fun f => f.of_same rfl rfl rfl rfl (poolShort_or_mask s.st.faults (k := .store) nofun) (attnOf_iff _ _)⟩

/-! ### What an order's execution comes to

Each order of these is refused, or has the one effect of its acceptance under the checks it has passed (R15, R17, R18, R52, R178,
R179, R186). -/

section
variable (s : State) (o : Order)

theorem runSetStatus_cases (field : BitVec 40) (mask : Byte) :
    (∃ k, s.runSetStatus o field mask = s.orderRefused o k) ∨
    (¬(field.getLsbD 39 && (s.meetsPool (statusAddr field) Config.statusSize ||
        s.meetsAperture (statusAddr field) Config.statusSize)) = true ∧
      s.runSetStatus o field mask =
        (s.orderDone o).setSt ((s.orderDone o).st.configure (statusAddr field) (field.getLsbD 39) mask)) := by
  unfold State.runSetStatus
  dsimp only
  split
  · exact .inl ⟨_, rfl⟩
  · split
    · exact .inl ⟨_, rfl⟩
    · next apart => exact .inr ⟨apart, rfl⟩

theorem runThaw_cases (ap : BitVec 3) (zero : BitVec 5) (b2 : Byte) :
    (∃ k, s.runThaw o ap zero b2 = s.orderRefused o k) ∨
    ((s.ap (apOf ap)).state = .frozen ∧
      s.runThaw o ap zero b2 = (s.putAp (apOf ap) { s.ap (apOf ap) with state := .opened }).orderDone o) := by
  unfold State.runThaw
  dsimp only
  split
  · exact .inl ⟨_, rfl⟩
  · split
    · next frozen => exact .inr ⟨frozen, rfl⟩
    · exact .inl ⟨_, rfl⟩

theorem runProtect_cases (clear : Bool) (ap : BitVec 3) (zero : BitVec 4) (x0 y0 x1 y1 b6 : Byte) :
    (∃ k, s.runProtect o clear ap zero x0 y0 x1 y1 b6 = s.orderRefused o k) ∨
    ∃ rects, s.runProtect o clear ap zero x0 y0 x1 y1 b6 =
      (s.putAp (apOf ap) { s.ap (apOf ap) with rects := rects }).orderDone o := by
  unfold State.runProtect
  dsimp only
  split
  · exact .inl ⟨_, rfl⟩
  · split
    · exact .inl ⟨_, rfl⟩
    · split
      · exact .inr ⟨_, rfl⟩
      · split
        · exact .inl ⟨_, rfl⟩
        · split
          · exact .inl ⟨_, rfl⟩
          · exact .inr ⟨_, rfl⟩

/-- An OPEN is accepted into a CLOSED aperture over addresses of no region, with the extent that first fit takes (R15, R16). -/
theorem runOpen_cases (f : OpenFields) :
    (∃ k, s.runOpen o f = s.orderRefused o k) ∨
    (¬openBadParam f = true ∧ (s.ap (apOf f.ap)).state = .closed ∧ s.pool.count ≠ 0 ∧
      s.meetsAperture f.base.toNat (openSize f) = false ∧ s.meetsPool f.base.toNat (openSize f) = false ∧
      s.meetsStatus f.base.toNat (openSize f) = false ∧
      ∃ first left, takeExtent s.map.freeExtents ((f.width.toNat + 1) * (f.height.toNat + 1)) = some (first, left) ∧
        s.runOpen o f = (((s.setMap { s.map with
          entries := clearEntries s.map.entries first (openedRecord f first).extLen, freeExtents := left }).putAp
            (apOf f.ap) (openedRecord f first)).markStale).orderDone o) := by
  unfold State.runOpen
  dsimp only
  split
  · exact .inl ⟨_, rfl⟩
  · next good =>
    split
    · exact .inl ⟨_, rfl⟩
    · next notLive =>
      split
      · exact .inl ⟨_, rfl⟩
      · next pool =>
        split
        · exact .inl ⟨_, rfl⟩
        · next apart =>
          simp only [Bool.or_eq_true, not_or, Bool.not_eq_true] at apart
          obtain ⟨⟨noAp, noPool⟩, noStatus⟩ := apart
          have closed : (s.ap (apOf f.ap)).state = .closed := by
            by_contra live
            exact notLive ((isLive_iff _).2 live)
          split
          · exact .inl ⟨_, rfl⟩
          · next first left taken => exact .inr ⟨good, closed, pool, noAp, noPool, noStatus, first, left, taken, rfl⟩

theorem runSetPool_cases (f : PoolFields) :
    (∃ k, s.runSetPool o f = s.orderRefused o k) ∨
    (¬poolBadParam f = true ∧ (∀ a, (s.ap a).state = .closed) ∧
      s.meetsStatus f.base.toNat (Config.block * f.count.toNat) = false ∧
      s.runSetPool o f = (s.putPool (poolOf f s.pool)).orderDone o) := by
  unfold State.runSetPool
  split
  · exact .inl ⟨_, rfl⟩
  · next good =>
    split
    · exact .inl ⟨_, rfl⟩
    · next idle =>
      split
      · exact .inl ⟨_, rfl⟩
      · next apart =>
        refine .inr ⟨good, fun a => ?_, Bool.eq_false_iff.2 apart, rfl⟩
        by_contra live
        exact idle (List.any_eq_true.2 ⟨s.ap a, by simp [State.ap, Vector.get], (isLive_iff _).2 live⟩)

theorem runSetCurve_cases (f : CurveFields) :
    (∃ k, s.runSetCurve o f = s.orderRefused o k) ∨
    (¬curveBadParam f = true ∧ s.runSetCurve o f = (s.setCtl (loadCurve f s.ctl)).evalPool.orderDone o) := by
  unfold State.runSetCurve
  split
  · exact .inl ⟨_, rfl⟩
  · next good => exact .inr ⟨good, rfl⟩

/-- A CLOSE starts for an OPEN, FREEZING or FROZEN aperture (R178). -/
theorem runClose_cases (ap : BitVec 3) (zero : BitVec 5) (b2 : Byte) :
    (∃ k, s.runClose o ap zero b2 = s.orderRefused o k) ∨
    ((s.ap (apOf ap)).state ≠ .closed ∧ (s.ap (apOf ap)).state ≠ .retiring ∧
      s.runClose o ap zero b2 = (s.startClose (apOf ap)).orderStarts o) := by
  unfold State.runClose
  dsimp only
  split
  · exact .inl ⟨_, rfl⟩
  · split
    case h_1 => exact .inl ⟨_, rfl⟩
    case h_2 => exact .inl ⟨_, rfl⟩
    case h_3 opened => exact .inr ⟨by rw [opened]; nofun, by rw [opened]; nofun, rfl⟩
    case h_4 freezing => exact .inr ⟨by rw [freezing]; nofun, by rw [freezing]; nofun, rfl⟩
    case h_5 frozen => exact .inr ⟨by rw [frozen]; nofun, by rw [frozen]; nofun, rfl⟩

/-- The state in which a FLUSH of one aperture forces its slots: a FREEZE has made it FREEZING (R78). -/
def State.beforeForce (s : State) (a : ApIx) (freeze : Bool) : State :=
  if freeze then s.putAp a { s.ap a with state := .freezing } else s

/-- A FLUSH is refused, completes at once for a FROZEN aperture, or starts (R76, R78, R179). -/
theorem runFlush_cases (all freeze : Bool) (ap zero : BitVec 3) (b2 : Byte) :
    (∃ k, s.runFlush o all freeze ap zero b2 = s.orderRefused o k) ∨
    (all = false ∧ (s.ap (apOf ap)).state = .frozen ∧ s.runFlush o all freeze ap zero b2 = s.orderDone o) ∨
    (all = true ∧ freeze = false ∧ s.runFlush o all freeze ap zero b2 =
      (s.forceSlots fun b => decide ((s.ap b).state = .opened)).orderStarts o) ∨
    (all = false ∧ (s.ap (apOf ap)).state = .opened ∧ s.runFlush o all freeze ap zero b2 =
      ((s.beforeForce (apOf ap) freeze).forceSlots fun b => decide (b = apOf ap)).orderStarts o) := by
  unfold State.runFlush
  split
  · exact .inl ⟨_, rfl⟩
  · next good =>
    cases all with
    | true =>
      refine .inr (.inr (.inl ⟨rfl, ?_, rfl⟩))
      by_contra freezes
      exact good (.inr (.inr (.inl ⟨Bool.not_eq_false _ ▸ freezes, rfl⟩)))
    | false =>
      rw [if_neg Bool.false_ne_true]
      unfold State.flushOne
      split
      case h_1 => exact .inl ⟨_, rfl⟩
      case h_2 frozen => exact .inr (.inl ⟨rfl, frozen, rfl⟩)
      case h_3 opened => exact .inr (.inr (.inr ⟨rfl, opened, rfl⟩))
      case h_4 => exact .inl ⟨_, rfl⟩
      case h_5 => exact .inl ⟨_, rfl⟩
end

/-! ### The order unit -/

theorem keeps_orderDone (s : State) (o : Order) : KeepsStatus s (s.orderDone o) :=
  .of_marks (touches_orderDone s o) (marks_orderDone s o)

theorem keeps_orderStarts (s : State) (o : Order) : KeepsStatus s (s.orderStarts o) :=
  .of_marks (touches_orderStarts s o) (marks_orderStarts s o)

theorem keeps_orderRefused (s : State) (o : Order) (n : OrderReason) : KeepsStatus s (s.orderRefused o n) :=
  (KeepsStatus.of_marks (touches_concludeOrder s o _ _) ⟨_, rfl⟩).trans (keeps_raise _ nofun)

theorem keeps_putAp (s : State) (a : ApIx) (x : Aperture) : KeepsStatus s (s.putAp a x) :=
  .of_marks (touches_putAp s a x) (marks_putAp s a x)

/-- CLEAR FAULTS leaves POOL_SHORT as it is (R183). -/
theorem keeps_putFaults_clearSticky (s : State) (named : Byte) :
    KeepsStatus s (s.putFaults (clearSticky s.st.faults named)) := by
  refine ⟨rfl, rfl, fun f => f.of_same rfl rfl rfl rfl ?_ (attnOf_iff _ _)⟩
  simp [clearSticky, FaultKind.mask]

theorem keeps_runClearFaults (s : State) (o : Order) (faults b2 : Byte) : KeepsStatus s (s.runClearFaults o faults b2) := by
  unfold State.runClearFaults
  split
  · exact keeps_orderRefused s o _
  · exact (keeps_putFaults_clearSticky s faults).trans (keeps_orderDone _ _)

/-- SET STATUS drives ATTN again with its mask (R186). -/
theorem figures_runSetStatus (s : State) (o : Order) (field : BitVec 40) (mask : Byte) (h : s.FiguresAgree) :
    (s.runSetStatus o field mask).FiguresAgree := by
  rcases runSetStatus_cases s o field mask with ⟨k, refused⟩ | ⟨-, accepted⟩
  · rw [refused]
    exact (keeps_orderRefused s o k).figures h
  · rw [accepted]
    exact h.of_same rfl rfl rfl rfl rfl (attnOf_iff _ _)

theorem keeps_runThaw (s : State) (o : Order) (ap : BitVec 3) (zero : BitVec 5) (b2 : Byte) :
    KeepsStatus s (s.runThaw o ap zero b2) := by
  rcases runThaw_cases s o ap zero b2 with ⟨k, refused⟩ | ⟨-, accepted⟩
  · rw [refused]
    exact keeps_orderRefused s o k
  · rw [accepted]
    exact (keeps_putAp s _ _).trans (keeps_orderDone _ o)

theorem keeps_runProtect (s : State) (o : Order) (clear : Bool) (ap : BitVec 3) (zero : BitVec 4)
    (x0 y0 x1 y1 b6 : Byte) : KeepsStatus s (s.runProtect o clear ap zero x0 y0 x1 y1 b6) := by
  rcases runProtect_cases s o clear ap zero x0 y0 x1 y1 b6 with ⟨k, refused⟩ | ⟨rects, accepted⟩
  · rw [refused]
    exact keeps_orderRefused s o k
  · rw [accepted]
    exact (keeps_putAp s _ _).trans (keeps_orderDone _ o)

theorem keeps_runOpen (s : State) (o : Order) (f : OpenFields) : KeepsStatus s (s.runOpen o f) := by
  rcases runOpen_cases s o f with ⟨k, refused⟩ | ⟨-, -, -, -, -, -, first, left, -, accepted⟩
  · rw [refused]
    exact keeps_orderRefused s o k
  · rw [accepted]
    exact (((KeepsStatus.of_touches (touches_setMap s _)).trans (keeps_putAp _ _ _)).trans (keeps_markStale _)).trans
      (keeps_orderDone _ o)

theorem keeps_runSetPool (s : State) (o : Order) (f : PoolFields) : KeepsStatus s (s.runSetPool o f) := by
  rcases runSetPool_cases s o f with ⟨k, refused⟩ | ⟨-, -, -, accepted⟩
  · rw [refused]
    exact keeps_orderRefused s o k
  · rw [accepted]
    exact (keeps_putPool s _).trans (keeps_orderDone _ o)

theorem keeps_runSetCurve (s : State) (o : Order) (f : CurveFields) : KeepsStatus s (s.runSetCurve o f) := by
  rcases runSetCurve_cases s o f with ⟨k, refused⟩ | ⟨-, accepted⟩
  · rw [refused]
    exact keeps_orderRefused s o k
  · rw [accepted]
    have loaded : KeepsStatus s (s.setCtl (loadCurve f s.ctl)).evalPool := ⟨rfl, rfl, fun _ => figures_evalPool _⟩
    exact loaded.trans (keeps_orderDone _ o)

theorem keeps_startClose (s : State) (a : ApIx) : KeepsStatus s (s.startClose a) :=
  .of_marks (touches_startClose s a) (marks_startClose s a)

theorem keeps_runClose (s : State) (o : Order) (ap : BitVec 3) (zero : BitVec 5) (b2 : Byte) :
    KeepsStatus s (s.runClose o ap zero b2) := by
  rcases runClose_cases s o ap zero b2 with ⟨k, refused⟩ | ⟨-, -, started⟩
  · rw [refused]
    exact keeps_orderRefused s o k
  · rw [started]
    exact (keeps_startClose s _).trans (keeps_orderStarts _ o)

theorem keeps_forceSlots (s : State) (on : ApIx → Bool) : KeepsStatus s (s.forceSlots on) :=
  .of_marks (touches_forceSlots s on) (marks_forceSlots s on)

theorem keeps_beforeForce (s : State) (a : ApIx) (freeze : Bool) : KeepsStatus s (s.beforeForce a freeze) := by
  unfold State.beforeForce
  split
  · exact keeps_putAp s _ _
  · exact .refl s

theorem keeps_runFlush (s : State) (o : Order) (all freeze : Bool) (ap zero : BitVec 3) (b2 : Byte) :
    KeepsStatus s (s.runFlush o all freeze ap zero b2) := by
  rcases runFlush_cases s o all freeze ap zero b2 with ⟨k, refused⟩ | ⟨-, -, done⟩ | ⟨-, -, started⟩ | ⟨-, -, started⟩
  · rw [refused]
    exact keeps_orderRefused s o k
  · rw [done]
    exact keeps_orderDone s o
  · rw [started]
    exact (keeps_forceSlots s _).trans (keeps_orderStarts _ o)
  · rw [started]
    exact ((keeps_beforeForce s _ freeze).trans (keeps_forceSlots _ _)).trans (keeps_orderStarts _ o)

theorem figures_execute (s : State) (o : Order) (h : s.FiguresAgree) : (s.execute o).FiguresAgree := by
  cases o with
  | nop => exact h
  | halt => exact h
  | close ap zero b2 => exact (keeps_runClose s _ ap zero b2).figures h
  | flush all freeze ap zero b2 => exact (keeps_runFlush s _ all freeze ap zero b2).figures h
  | thaw ap zero b2 => exact (keeps_runThaw s _ ap zero b2).figures h
  | clearFaults faults b2 => exact (keeps_runClearFaults s _ faults b2).figures h
  | protect clear ap zero x0 y0 x1 y1 b6 => exact (keeps_runProtect s _ clear ap zero x0 y0 x1 y1 b6).figures h
  | setStatus field mask => exact figures_runSetStatus s _ field mask h
  | openOrder f => exact (keeps_runOpen s _ f).figures h
  | setPool f => exact (keeps_runSetPool s _ f).figures h
  | setCurve f => exact (keeps_runSetCurve s _ f).figures h
  | undefined b => exact (keeps_orderRefused s _ _).figures h

theorem keeps_setOrd (s : State) (x : OrderUnit) : KeepsStatus s (s.setOrd x) := .of_touches (touches_setOrd s x)

theorem figures_takeOrder {s t : State} (h : s.takeOrder = some t) (k : s.FiguresAgree) : t.FiguresAgree := by
  unfold State.takeOrder at h
  split at h
  · cases h
    exact figures_execute _ _ (((keeps_setOrd s _).trans (keeps_markStale _)).figures k)
  · cases h

/-! ### The arrival of an order -/

/-- What an order's arrival comes to: nothing while RESET is asserted and for NOP, HALT's own effect, and else the order queue
or the execution (R173). -/
theorem arrive_cases (s : State) (o : Order) :
    s.arrive o = s ∨ (s.resetLine = false ∧ o = .halt ∧ s.arrive o = s.haltNow) ∨
      (s.resetLine = false ∧ o ≠ .nop ∧ o ≠ .halt ∧ s.arrive o = s.enqueue o) := by
  unfold State.arrive
  cases released : s.resetLine with
  | true => exact .inl rfl
  | false => cases o <;> simp

/-- What queueing an order comes to: OVERRUN at a full queue, the execution by an IDLE unit, else the tail of the queue (R173). -/
theorem enqueue_cases (s : State) (o : Order) :
    (4 ≤ s.ord.queue.length ∧ s.enqueue o = s.raise .overrun) ∨
    (s.ord.executing = none ∧ s.ord.queue = [] ∧ s.enqueue o = s.execute o) ∨
    (s.ord.queue.length < 4 ∧ (s.ord.executing ≠ none ∨ s.ord.queue ≠ []) ∧
      s.enqueue o = (s.setOrd { s.ord with queue := s.ord.queue ++ [o] }).markStale) := by
  unfold State.enqueue
  by_cases full : 4 ≤ s.ord.queue.length
  · exact .inl ⟨full, if_pos full⟩
  · rw [if_neg (show ¬Config.orderQueueSize ≤ s.ord.queue.length from full)]
    by_cases idle : s.ord.executing = none ∧ s.ord.queue = []
    · exact .inr (.inl ⟨idle.1, idle.2, by simp [idle.1, idle.2]⟩)
    · refine .inr (.inr ⟨Nat.lt_of_not_le full, not_and_or.1 idle, if_neg fun both => idle ?_⟩)
      simpa using both

theorem figures_arrive (s : State) (o : Order) (h : s.FiguresAgree) : (s.arrive o).FiguresAgree := by
  rcases arrive_cases s o with same | ⟨-, -, halted⟩ | ⟨-, -, -, queued⟩
  · rwa [same]
  · rw [halted]
    exact (KeepsStatus.of_marks (touches_haltNow s) (marks_haltNow s)).figures h
  · rw [queued]
    rcases enqueue_cases s o with ⟨-, overrun⟩ | ⟨-, -, run⟩ | ⟨-, -, last⟩
    · rw [overrun]
      exact (keeps_raise s (k := .overrun) nofun).figures h
    · rw [run]
      exact figures_execute s o h
    · rw [last]
      exact ((keeps_setOrd s _).trans (keeps_markStale _)).figures h

/-! ### The setup line -/

theorem keeps_putLink (s : State) (l : Receiver) : KeepsStatus s (s.putLink l) :=
  .of_marks (touches_putLink s l) (marks_putLink s l)

theorem keeps_goDeaf (s : State) : KeepsStatus s s.goDeaf := (keeps_putLink s _).trans (keeps_raise _ nofun)

/-- A timeout while TAKING makes the receiver DEAF, and elsewhere changes nothing (R167). -/
theorem bitTimeout_cases (s : State) :
    (s.link.state = .taking ∧ s.bitTimeout = s.goDeaf) ∨ (s.link.state ≠ .taking ∧ s.bitTimeout = s) := by
  unfold State.bitTimeout
  cases s.link.state <;> simp

/-- An illegal class while TAKING, with the class not yet known, makes the receiver DEAF, and elsewhere changes nothing (R169). -/
theorem illegalClass_cases (s : State) :
    (s.link.state = .taking ∧ s.link.cls = none ∧ s.illegalClass = s.goDeaf) ∨
      (¬(s.link.state = .taking ∧ s.link.cls = none) ∧ s.illegalClass = s) := by
  unfold State.illegalClass
  cases s.link.state <;> cases s.link.cls <;> simp

/-- The rising edge of a first bit makes an ARMED receiver TAKING, and elsewhere changes nothing (R165). -/
theorem firstEdge_cases (s : State) :
    (s.link.state = .armed ∧ s.firstEdge = s.putLink (Receiver.fresh .taking)) ∨
      (s.link.state ≠ .armed ∧ s.firstEdge = s) := by
  unfold State.firstEdge
  cases s.link.state <;> simp

theorem figures_endFrame (s : State) (frame : List Byte) (h : s.FiguresAgree) : (s.endFrame frame).FiguresAgree := by
  have passing := (keeps_putLink s (Receiver.fresh .passing)).figures h
  unfold State.endFrame
  dsimp only
  split
  · exact figures_arrive _ _ passing
  · exact (keeps_raise _ (k := .link) nofun).figures passing

/-- The length class that is known once a bit more is taken (R169). -/
def Receiver.classWith (r : Receiver) (b : Bool) : Option (BitVec 3) :=
  if r.bytes.isEmpty && decide ((r.bits ++ [b]).length = 3) then some (classOfBits (r.bits ++ [b])) else r.cls

/-- A bit taken while TAKING, by what it completes: an illegal class, nothing, the order, or a byte of it (R166, R169, R170). -/
theorem takeBit_eq (s : State) (b : Bool) :
    s.takeBit b =
      if (s.link.classWith b).any fun c => (classLength c).isNone then s.goDeaf
      else if (s.link.bits ++ [b]).length < 8 then
        s.putLink ⟨.taking, s.link.bytes, s.link.bits ++ [b], s.link.classWith b⟩
      else if (s.link.classWith b).bind classLength = some (s.link.bytes ++ [byteOfBits (s.link.bits ++ [b])]).length then
        s.endFrame (s.link.bytes ++ [byteOfBits (s.link.bits ++ [b])])
      else s.putLink ⟨.taking, s.link.bytes ++ [byteOfBits (s.link.bits ++ [b])], [], s.link.classWith b⟩ := rfl

theorem figures_takeBit (s : State) (b : Bool) (h : s.FiguresAgree) : (s.takeBit b).FiguresAgree := by
  rw [takeBit_eq]
  split
  · exact (keeps_goDeaf s).figures h
  · split
    · exact (keeps_putLink s _).figures h
    · split
      · exact figures_endFrame s _ h
      · exact (keeps_putLink s _).figures h

/-! ### Power and RESET -/

/-- With no pool and the settings of power-on, the figures agree wherever no fault is present and ATTN is low. -/
theorem figures_of_cleared {s : State} (pool : s.pool = Pool.reset) (ctl : s.ctl = StepControl.reset)
    (faults : s.st.faults = 0) (attn : s.st.attn = false) : s.FiguresAgree := by
  refine ⟨?_, ?_, ?_, ?_⟩ <;> simp [pool, ctl, faults, attn, Pool.reset, StepControl.reset]

theorem figures_commands : KeptByCommands State.FiguresAgree where
  setPending s l := (KeepsStatus.of_touches (touches_setPending s l)).figures
  issueStatus s := (keeps_issueStatus s).figures
  powerOn s _ := figures_of_cleared rfl rfl rfl rfl
  resetAsserted s _ := figures_of_cleared rfl rfl rfl (decide_eq_false (by simp))
  release s := (KeepsStatus.of_touches (touches_setResetLine s _)).figures
  resetLink s := (keeps_putLink s _).figures
  bitTimeout s h := by
    rcases bitTimeout_cases s with ⟨-, deaf⟩ | ⟨-, same⟩
    · rw [deaf]
      exact (keeps_goDeaf s).figures h
    · rwa [same]
  illegalClass s h := by
    rcases illegalClass_cases s with ⟨-, -, deaf⟩ | ⟨-, same⟩
    · rw [deaf]
      exact (keeps_goDeaf s).figures h
    · rwa [same]
  firstEdge s h := by
    rcases firstEdge_cases s with ⟨-, taking⟩ | ⟨-, same⟩
    · rw [taking]
      exact (keeps_putLink s _).figures h
    · rwa [same]
  goDeaf s _ := (keeps_goDeaf s).figures
  takeBit s b _ := figures_takeBit s b
  arrive := figures_arrive
  present s q := (KeepsStatus.of_touches (touches_present s q)).figures
  turn s _ := (KeepsStatus.of_touches (touches_setStore s _)).figures
  ignoreAnswer s _ := (KeepsStatus.of_touches (touches_ignoreAnswer s)).figures
  passRead s _ _ _ _ _ _ _ :=
    ((KeepsStatus.of_touches (touches_popOutstanding s)).trans (.of_touches (touches_passAnswered _ _ _ _))).figures
  passWrite s _ _ _ _ _ _ _ :=
    ((KeepsStatus.of_touches (touches_popOutstanding s)).trans (.of_touches (touches_passAnswered _ _ _ _))).figures
  chunkAnswered s _ _ _ _ _ :=
    ((KeepsStatus.of_touches (touches_popOutstanding s)).trans (keeps_chunkAnswered _ _ _)).figures
  chunkWritten s _ _ _ _ _ _ _ :=
    ((KeepsStatus.of_touches (touches_popOutstanding s)).trans (keeps_chunkWritten _ _ _ _)).figures
  statusAnswered s _ _ _ _ _ :=
    ((KeepsStatus.of_touches (touches_popOutstanding s)).trans (keeps_statusAnswered _ _)).figures
  endDecode s := (keeps_endDecode s).figures
  endRefit s op _ _ := (keeps_endRefit s op).figures
  endCoding s op _ _ := (keeps_endCoding s op).figures
  expireWait s op _ _ := (keeps_expireWait s op).figures
  endRecode s op _ _ := (keeps_endRecode s op).figures
  visitEntry s w _ _ := (keeps_visitEntry s w).figures

theorem figures_rules : KeptByRules State.FiguresAgree where
  grantWaiting _ _ h := (keeps_grantWaiting h).figures
  movePending _ _ h := (KeepsStatus.of_marks (touches_movePending h) (marks_movePending h)).figures
  startDecode _ _ h := (KeepsStatus.of_touches (touches_startDecode h)).figures
  grantHeld _ _ h := (KeepsStatus.of_marks (touches_grantHeld h) (marks_grantHeld h)).figures
  proceedNext _ _ h := (KeepsStatus.of_marks (touches_proceedNext h) (marks_proceedNext h)).figures
  respond _ _ h := (KeepsStatus.of_marks (touches_respond h) (marks_respond h)).figures
  takeBus _ _ h := (keeps_takeBus h).figures
  endLongOrder _ _ h := (KeepsStatus.of_marks (touches_endLongOrder h) (marks_endLongOrder h)).figures
  takeOrder _ _ := figures_takeOrder
  takeSealed _ _ h := (KeepsStatus.of_marks (touches_takeSealed h) (marks_takeSealed h)).figures

/-- Settles O56: each operation of a step keeps the figures in agreement, so every step does. -/
theorem stepKeepsFiguresInAgreement : Obligations.StepKeepsFiguresInAgreement := fun _ _ =>
  step_keeps figures_commands figures_rules

end Sys2Proof.Machine
end

section
/-! PROOFS. How an invariant is shown to be kept by the encoder: each of its operations is a chain of a few shared ones (R113–R127). -/

set_option Elab.async false

namespace Sys2Proof.Machine

/-! ### The answer to a chunk write (R123) -/

/-- The record of the tile in hand once a chunk write of it is answered: an ERROR opens its position. -/
def TileOp.answered (op : TileOp) (position : Nat) (status : StoreStatus) : TileOp :=
  { op with
    unanswered := op.unanswered - 1
    held := match status with
      | .okay => op.held
      | .error => op.held.set position none }

/-- The part with that record: an ERROR withdraws the chunk and raises STORE (R47). -/
def State.writeAnswered (s : State) (op : TileOp) (chunk : Nat) (status : StoreStatus) : State :=
  match status with
  | .okay => s.putEnc { s.enc with op := some op }
  | .error =>
    ((s.putEnc { s.enc with op := some op }).putPool { s.pool with withdrawn := s.pool.withdrawn ++ [chunk] }).raise .store

theorem chunkWritten_idle {s : State} (idle : s.enc.op = none) (i c : Nat) (status : StoreStatus) :
    s.chunkWritten i c status = s := by
  unfold State.chunkWritten
  rw [idle]

/-- An answer reaches the record, and the last one of a round ends it. -/
theorem chunkWritten_of_op {s : State} {op : TileOp} (inHand : s.enc.op = some op) (i c : Nat) (status : StoreStatus) :
    s.chunkWritten i c status =
      if (op.answered i status).unanswered = 0 then
        (s.writeAnswered (op.answered i status) c status).endRound (op.answered i status)
      else s.writeAnswered (op.answered i status) c status := by
  unfold State.chunkWritten
  rw [inHand]
  cases status <;> rfl

/-! ### An invariant through the encoder -/

/-- The operations that the encoder's are made of keep `P`. A pool is replaced by one of the same place and size. -/
structure KeptByEncoder (P : State → Prop) : Prop where
  putEnc : ∀ s e, P s → P (State.putEnc s e)
  putPool : ∀ s (p : Pool), p.base = s.pool.base → p.count = s.pool.count → P s → P (State.putPool s p)
  setStore : ∀ s q, P s → P (State.setStore s q)
  raise : ∀ s, P s → P (State.raise s .store)
  addRefits : ∀ s n, P s → P (State.addRefits s n)
  freeEncoding : ∀ s k, P s → P (State.freeEncoding s k)
  commit : ∀ s op r, P s → P (State.commit s op r)

namespace KeptByEncoder
variable {P : State → Prop} (e : KeptByEncoder P) {s : State} (k : P s)
include e k

theorem release (cs : List Nat) : P (s.release cs) := by
  unfold State.release
  split
  · exact k
  · exact e.putPool s _ rfl rfl k

theorem takeChunks (n : Nat) : P (s.takeChunks n) := e.putPool s _ rfl rfl k

theorem abandon (op : TileOp) : P (s.abandon op) := e.freeEncoding _ _ (e.putEnc _ _ (e.release k _))

theorem commitCheck (op : TileOp) (r : Result) : P (s.commitCheck op r) := by
  unfold State.commitCheck
  split
  · exact e.abandon k op
  · exact e.commit s op r k

theorem degrade (op : TileOp) : P (s.degrade op) := e.commitCheck (e.release k _) _ _

theorem startRound (op : TileOp) (n : Nat) (held : List (Option Nat)) (ts : List (Nat × Nat)) :
    P (s.startRound op n held ts) := e.setStore _ _ (e.putEnc _ _ k)

theorem startWriting (op : TileOp) (cs : List Nat) : P (s.startWriting op cs) := e.startRound k _ _ _ _

theorem endRound (op : TileOp) : P (s.endRound op) := by
  unfold State.endRound
  dsimp only
  split
  · exact e.commitCheck k _ _
  · split
    · split
      · exact e.abandon k _
      · split
        · exact e.startRound (e.takeChunks k _) _ _ _ _
        · exact e.degrade k _
    · exact e.degrade k _

theorem writeAnswered (op : TileOp) (c : Nat) (status : StoreStatus) : P (s.writeAnswered op c status) := by
  cases status with
  | okay => exact e.putEnc _ _ k
  | error => exact e.raise _ (e.putPool (s.putEnc _) _ rfl rfl (e.putEnc _ _ k))

theorem chunkWritten (i c : Nat) (status : StoreStatus) : P (s.chunkWritten i c status) := by
  cases inHand : s.enc.op with
  | none => rwa [chunkWritten_idle inHand]
  | some op =>
    rw [chunkWritten_of_op inHand]
    split
    · exact e.endRound (e.writeAnswered k _ _ _) _
    · exact e.writeAnswered k _ _ _

theorem firstRequest (op : TileOp) (n : Nat) : P (s.firstRequest op n) := by
  unfold State.firstRequest
  split
  · exact e.abandon k _
  · split
    · exact e.startWriting (e.takeChunks k _) _ _
    · exact e.putEnc _ _ (e.putPool _ _ rfl rfl k)

theorem endRefit (op : TileOp) : P (s.endRefit op) := by
  unfold State.endRefit
  dsimp only
  split
  · exact e.putEnc _ _ (e.addRefits _ _ k)
  · exact k

theorem endCoding (op : TileOp) : P (s.endCoding op) := by
  unfold State.endCoding
  split
  · exact e.commitCheck k _ _
  · exact e.firstRequest (e.putEnc _ _ (e.addRefits _ _ k)) _ _

theorem grantWaiting {t : State} (h : s.grantWaiting = some t) : P t := by
  unfold State.grantWaiting at h
  split at h
  · split at h
    · cases h
      split
      · exact e.abandon (e.putEnc _ _ (e.takeChunks k _)) _
      · exact e.startWriting (e.putEnc _ _ (e.takeChunks k _)) _ _
    · cases h
  · cases h

theorem expireWait (op : TileOp) : P (s.expireWait op) := by
  unfold State.expireWait
  dsimp only
  split
  · exact e.degrade (e.putPool s { s.pool with waiting := none } rfl rfl k) _
  · exact e.putEnc _ _ (e.putPool s { s.pool with waiting := none } rfl rfl k)

theorem endRecode (op : TileOp) : P (s.endRecode op) := by
  unfold State.endRecode
  dsimp only
  split
  · exact e.abandon k _
  · split
    · exact e.startWriting (e.takeChunks k _) _ _
    · exact e.degrade k _

end KeptByEncoder

/-- The encoder's operations, as the commands and the rule of the waiting request use them, keep `P`. -/
structure EncoderKeeps (P : State → Prop) : Prop where
  chunkWritten : ∀ s i c addr data rest status, s.store.outstanding = .chunkWrite i c addr data :: rest → P s →
    P (State.chunkWritten (State.popOutstanding s) i c status)
  endRefit : ∀ s op, s.enc.op = some op → op.isCoding = true → P s → P (State.endRefit s op)
  endCoding : ∀ s op, s.enc.op = some op → op.isCoding = true → P s → P (State.endCoding s op)
  expireWait : ∀ s op, s.enc.op = some op → op.stage = .poolWait → P s → P (State.expireWait s op)
  endRecode : ∀ s op, s.enc.op = some op → op.isRecoding = true → P s → P (State.endRecode s op)
  grantWaiting : ∀ s t, State.grantWaiting s = some t → P s → P t

theorem KeptByEncoder.keeps {P : State → Prop} (e : KeptByEncoder P) : EncoderKeeps P where
  chunkWritten s _ _ _ _ _ _ _ k := e.chunkWritten (e.setStore s _ k) _ _ _
  endRefit _ op _ _ k := e.endRefit k op
  endCoding _ op _ _ k := e.endCoding k op
  expireWait _ op _ _ k := e.expireWait k op
  endRecode _ op _ _ k := e.endRecode k op
  grantWaiting _ _ h k := e.grantWaiting k h

/-! ### An invariant that is read from some blocks

An invariant that depends on some blocks alone, and of the status unit on no more than the block's address and enable, is kept by each
operation that leaves those blocks; what is left to show is that the others keep it. -/

/-- No block of the second list is in the first. -/
def apart (D B : List Block) : Bool := B.all fun b => !D.contains b

theorem same_of_apart {D B : List Block} {s t : State} (a : apart D B = true) (h : OnlyTouches B s t) :
    ∀ b ∈ D, SameBlock b s t := fun b inD => h b fun inB => by simpa [inD] using List.all_eq_true.1 a b inB

/-- The events of the setup line keep `P`. -/
structure LineKeeps (P : State → Prop) : Prop where
  resetLink : ∀ s : State, P s → P s.resetLink
  bitTimeout : ∀ s : State, P s → P s.bitTimeout
  illegalClass : ∀ s : State, P s → P s.illegalClass
  firstEdge : ∀ s : State, P s → P s.firstEdge
  goDeaf : ∀ s : State, s.link.state = .taking → P s → P s.goDeaf
  takeBit : ∀ s b, s.link.state = .taking → P s → P (State.takeBit s b)

/-- The orders keep `P`, each at its execution. -/
structure OrdersKeep (D : List Block) (P : State → Prop) : Prop where
  close : apart D [.aps, .map, .asm, .rd, .port, .ord, .st] = true ∨
    ∀ s ap zero b2, P s → P (State.execute s (.close ap zero b2)) := by exact .inl rfl
  flush : apart D [.aps, .asm, .rd, .ord, .st, .draws] = true ∨
    ∀ s all freeze ap zero b2, P s → P (State.execute s (.flush all freeze ap zero b2)) := by exact .inl rfl
  thaw : apart D [.aps, .ord, .st] = true ∨
    ∀ s ap zero b2, P s → P (State.execute s (.thaw ap zero b2)) := by exact .inl rfl
  clearFaults : apart D [.ord, .st] = true ∨
    ∀ s faults b2, P s → P (State.execute s (.clearFaults faults b2)) := by exact .inl rfl
  protect : apart D [.aps, .ord, .st] = true ∨
    ∀ s clear ap zero x0 y0 x1 y1 b6, P s → P (State.execute s (.protect clear ap zero x0 y0 x1 y1 b6)) := by exact .inl rfl
  setStatus : ∀ s field mask, P s → P (State.execute s (.setStatus field mask))
  openOrder : apart D [.aps, .map, .ord, .st] = true ∨
    ∀ s f, P s → P (State.execute s (.openOrder f)) := by exact .inl rfl
  setPool : apart D [.pool, .ctl, .ord, .st] = true ∨
    ∀ s f, P s → P (State.execute s (.setPool f)) := by exact .inl rfl
  setCurve : apart D [.ctl, .ord, .st] = true ∨
    ∀ s f, P s → P (State.execute s (.setCurve f)) := by exact .inl rfl
  undefined : apart D [.ord, .st] = true ∨
    ∀ s b, P s → P (State.execute s (.undefined b)) := by exact .inl rfl
  dequeue : apart D [.ord, .st] = true ∨ ∀ s o rest, s.ord.executing = none → s.ord.queue = o :: rest → P s →
    P (State.markStale (State.setOrd s { s.ord with queue := rest })) := by exact .inl rfl
  enqueue : apart D [.ord, .st] = true ∨ ∀ s o, s.ord.queue.length < 4 → P s →
    P (State.markStale (State.setOrd s { s.ord with queue := s.ord.queue ++ [o] })) := by exact .inl rfl
  haltNow : apart D [.aps, .asm, .ord, .st] = true ∨ ∀ s, P s → P (State.haltNow s) := by exact .inl rfl

/-- `P` is read from the blocks of `D` and the status block's place, and every operation that touches one of them keeps it. -/
structure KeptFrom (D : List Block) (P : State → Prop) : Prop where
  same : ∀ s t, (∀ b ∈ D, SameBlock b s t) → KeepsStatus s t → P s → P t
  powerOn : ∀ s : State, P s → P s.powerOn
  resetAsserted : ∀ s : State, P s → P s.resetAsserted
  encoder : EncoderKeeps P
  orders : OrdersKeep D P
  line : apart D [.link, .st] = true ∨ LineKeeps P := by exact .inl rfl
  setPending : apart D [.pending] = true ∨ ∀ s l, P s → P (State.setPending s l) := by exact .inl rfl
  issueStatus : apart D [.store, .st] = true ∨ ∀ s : State, P s → P s.issueStatus := by exact .inl rfl
  release : apart D [.resetLine] = true ∨ ∀ s, P s → P (State.setResetLine s false) := by exact .inl rfl
  raise : apart D [.st] = true ∨ ∀ s k, P s → P (State.raise s k) := by exact .inl rfl
  present : apart D [.port] = true ∨ ∀ s q, P s → P (State.present s q) := by exact .inl rfl
  turn : apart D [.store] = true ∨ ∀ s : State, P s → P (s.setStore s.store.turn) := by exact .inl rfl
  ignoreAnswer : apart D [.store] = true ∨ ∀ s : State, P s → P s.ignoreAnswer := by exact .inl rfl
  passRead : apart D [.store, .port] = true ∨
    ∀ s id addr n rest status data, s.store.outstanding = .passRead id addr n :: rest → P s →
      P (State.passAnswered (State.popOutstanding s) id status data) := by exact .inl rfl
  passWrite : apart D [.store, .port] = true ∨
    ∀ s id addr bytes rest status data, s.store.outstanding = .passWrite id addr bytes :: rest → P s →
      P (State.passAnswered (State.popOutstanding s) id status data) := by exact .inl rfl
  chunkAnswered : apart D [.store, .rd, .st, .port, .asm] = true ∨
    ∀ s addr rest status data, s.store.outstanding = .chunkRead addr :: rest → P s →
      P (State.chunkAnswered (State.popOutstanding s) status data) := by exact .inl rfl
  statusAnswered : apart D [.store, .st] = true ∨
    ∀ s addr data rest status, s.store.outstanding = .statusWrite addr data :: rest → P s →
      P (State.statusAnswered (State.popOutstanding s) status) := by exact .inl rfl
  endDecode : apart D [.rd, .st, .port, .asm] = true ∨ ∀ s : State, P s → P s.endDecode := by exact .inl rfl
  visitEntry : apart D [.map, .pool, .ctl, .st] = true ∨
    ∀ s w, s.map.walk = some w → w.next < (State.ap s w.ap).extLen → P s → P (State.visitEntry s w) := by exact .inl rfl
  movePending : apart D [.rd, .st] = true ∨ ∀ s t, State.movePending s = some t → P s → P t := by exact .inl rfl
  startDecode : apart D [.rd, .store] = true ∨ ∀ s t, State.startDecode s = some t → P s → P t := by exact .inl rfl
  grantHeld : apart D [.asm, .st, .rd, .port] = true ∨ ∀ s t, State.grantHeld s = some t → P s → P t := by exact .inl rfl
  proceedNext : apart D [.asm, .st, .rd, .port] = true ∨
    ∀ s t, State.proceedNext s = some t → P s → P t := by exact .inl rfl
  respond : apart D [.port, .st] = true ∨ ∀ s t, State.respond s = some t → P s → P t := by exact .inl rfl
  takeBus : apart D [.port, .st, .store] = true ∨ ∀ s t, State.takeBus s = some t → P s → P t := by exact .inl rfl
  endLongOrder : apart D [.map, .aps, .ord, .st] = true ∨
    ∀ s t, State.endLongOrder s = some t → P s → P t := by exact .inl rfl
  takeSealed : apart D [.asm, .st, .enc] = true ∨ ∀ s t, State.takeSealed s = some t → P s → P t := by exact .inl rfl

namespace KeptFrom
variable {D : List Block} {P : State → Prop} (kept : KeptFrom D P)
include kept

/-- What touches no block of `D` keeps `P`. -/
theorem of_apart {B : List Block} {s t : State} (a : apart D B = true) (h : OnlyTouches B s t) (m : KeepsStatus s t)
    (k : P s) : P t := kept.same s t (same_of_apart a h) m k

theorem execute (s : State) (o : Order) (k : P s) : P (s.execute o) := by
  have orders := kept.orders
  cases o with
  | nop => exact k
  | halt => exact k
  | close ap zero b2 =>
    exact orders.close.elim (fun a => kept.of_apart a (touches_runClose s _ ap zero b2) (keeps_runClose s _ ap zero b2) k)
      fun h => h s ap zero b2 k
  | flush all freeze ap zero b2 =>
    exact orders.flush.elim (fun a => kept.of_apart a (touches_runFlush s _ all freeze ap zero b2)
      (keeps_runFlush s _ all freeze ap zero b2) k) fun h => h s all freeze ap zero b2 k
  | thaw ap zero b2 =>
    exact orders.thaw.elim (fun a => kept.of_apart a (touches_runThaw s _ ap zero b2) (keeps_runThaw s _ ap zero b2) k)
      fun h => h s ap zero b2 k
  | clearFaults faults b2 =>
    exact orders.clearFaults.elim (fun a => kept.of_apart a (touches_runClearFaults s _ faults b2)
      (keeps_runClearFaults s _ faults b2) k) fun h => h s faults b2 k
  | protect clear ap zero x0 y0 x1 y1 b6 =>
    exact orders.protect.elim (fun a => kept.of_apart a (touches_runProtect s _ clear ap zero x0 y0 x1 y1 b6)
      (keeps_runProtect s _ clear ap zero x0 y0 x1 y1 b6) k) fun h => h s clear ap zero x0 y0 x1 y1 b6 k
  | setStatus field mask => exact orders.setStatus s field mask k
  | openOrder f =>
    exact orders.openOrder.elim (fun a => kept.of_apart a (touches_runOpen s _ f) (keeps_runOpen s _ f) k)
      fun h => h s f k
  | setPool f =>
    exact orders.setPool.elim (fun a => kept.of_apart a (touches_runSetPool s _ f) (keeps_runSetPool s _ f) k)
      fun h => h s f k
  | setCurve f =>
    exact orders.setCurve.elim (fun a => kept.of_apart a (touches_runSetCurve s _ f) (keeps_runSetCurve s _ f) k)
      fun h => h s f k
  | undefined b =>
    exact orders.undefined.elim (fun a => kept.of_apart a (touches_orderRefused s _ _) (keeps_orderRefused s _ _) k)
      fun h => h s b k

theorem putRaised (s : State) {f : FaultKind} (other : f ≠ .poolShort) (k : P s) : P (s.raise f) :=
  kept.raise.elim (fun a => kept.of_apart a (touches_raise s f) (keeps_raise s other) k) fun h => h s f k

theorem arrive (s : State) (o : Order) (k : P s) : P (s.arrive o) := by
  rcases arrive_cases s o with same | ⟨-, -, halted⟩ | ⟨-, -, -, queued⟩
  · rwa [same]
  · rw [halted]
    exact kept.orders.haltNow.elim
      (fun a => kept.of_apart a (touches_haltNow s) (.of_marks (touches_haltNow s) (marks_haltNow s)) k) fun h => h s k
  · rw [queued]
    rcases enqueue_cases s o with ⟨-, overrun⟩ | ⟨-, -, run⟩ | ⟨room, -, last⟩
    · rw [overrun]
      exact kept.putRaised s nofun k
    · rw [run]
      exact kept.execute s o k
    · rw [last]
      exact kept.orders.enqueue.elim (fun a => kept.of_apart a
        ((touches_setOrd s _).andThen (touches_markStale _)) ((keeps_setOrd s _).trans (keeps_markStale _)) k)
        fun h => h s o room k

theorem takeOrder (s t : State) (h : s.takeOrder = some t) (k : P s) : P t := by
  unfold State.takeOrder at h
  split at h
  · next o rest idle queue =>
    cases h
    refine kept.execute _ o (kept.orders.dequeue.elim (fun a => kept.of_apart a
      ((touches_setOrd s _).andThen (touches_markStale _)) ((keeps_setOrd s _).trans (keeps_markStale _)) k)
      fun h => h s o rest idle queue k)
  · cases h

/-- The events of the line, where `P` is not read from the receiver. -/
theorem lineKeeps : LineKeeps P := by
  rcases kept.line with a | line
  · have putLink : ∀ (s : State) (l : Receiver), P s → P (s.putLink l) := fun s l =>
      kept.of_apart a (touches_putLink s l) (keeps_putLink s l)
    have goDeaf : ∀ s : State, P s → P s.goDeaf := fun s k =>
      kept.putRaised (s.putLink (Receiver.fresh .deaf)) nofun (putLink s _ k)
    refine ⟨fun s => putLink s _, fun s k => ?_, fun s k => ?_, fun s k => ?_, fun s _ => goDeaf s, fun s b _ k => ?_⟩
    · rcases bitTimeout_cases s with ⟨-, deaf⟩ | ⟨-, same⟩
      · exact deaf ▸ goDeaf s k
      · exact same.symm ▸ k
    · rcases illegalClass_cases s with ⟨-, -, deaf⟩ | ⟨-, same⟩
      · exact deaf ▸ goDeaf s k
      · exact same.symm ▸ k
    · rcases firstEdge_cases s with ⟨-, taking⟩ | ⟨-, same⟩
      · exact taking ▸ putLink s _ k
      · exact same.symm ▸ k
    · rw [takeBit_eq]
      split
      · exact goDeaf s k
      · split
        · exact putLink s _ k
        · split
          · unfold State.endFrame
            dsimp only
            split
            · exact kept.arrive _ _ (putLink s _ k)
            · exact kept.putRaised _ nofun (putLink s _ k)
          · exact putLink s _ k
  · exact line

theorem commands : KeptByCommands P where
  setPending s l k := kept.setPending.elim (fun a => kept.of_apart a (touches_setPending s l)
    (.of_touches (touches_setPending s l)) k) fun h => h s l k
  issueStatus s k := kept.issueStatus.elim (fun a => kept.of_apart a (touches_issueStatus s) (keeps_issueStatus s) k)
    fun h => h s k
  powerOn := kept.powerOn
  resetAsserted := kept.resetAsserted
  release s k := kept.release.elim (fun a => kept.of_apart a (touches_setResetLine s false)
    (.of_touches (touches_setResetLine s false)) k) fun h => h s k
  resetLink := kept.lineKeeps.resetLink
  bitTimeout := kept.lineKeeps.bitTimeout
  illegalClass := kept.lineKeeps.illegalClass
  firstEdge := kept.lineKeeps.firstEdge
  goDeaf := kept.lineKeeps.goDeaf
  takeBit := kept.lineKeeps.takeBit
  arrive := kept.arrive
  present s q k := kept.present.elim (fun a => kept.of_apart a (touches_present s q) (.of_touches (touches_present s q)) k)
    fun h => h s q k
  turn s _ k := kept.turn.elim (fun a => kept.of_apart a (touches_setStore s _) (.of_touches (touches_setStore s _)) k)
    fun h => h s k
  ignoreAnswer s _ k := kept.ignoreAnswer.elim (fun a => kept.of_apart a (touches_ignoreAnswer s)
    (.of_touches (touches_ignoreAnswer s)) k) fun h => h s k
  passRead s id addr n rest status data head k := kept.passRead.elim (fun a => kept.of_apart a
    ((touches_popOutstanding s).andThen (touches_passAnswered _ id status data))
    ((KeepsStatus.of_touches (touches_popOutstanding s)).trans (.of_touches (touches_passAnswered _ id status data))) k)
    fun h => h s id addr n rest status data head k
  passWrite s id addr bytes rest status data head k := kept.passWrite.elim (fun a => kept.of_apart a
    ((touches_popOutstanding s).andThen (touches_passAnswered _ id status data))
    ((KeepsStatus.of_touches (touches_popOutstanding s)).trans (.of_touches (touches_passAnswered _ id status data))) k)
    fun h => h s id addr bytes rest status data head k
  chunkAnswered s addr rest status data head k := kept.chunkAnswered.elim (fun a => kept.of_apart a
    ((touches_popOutstanding s).andThen (touches_chunkAnswered _ status data))
    ((KeepsStatus.of_touches (touches_popOutstanding s)).trans (keeps_chunkAnswered _ status data)) k)
    fun h => h s addr rest status data head k
  chunkWritten := kept.encoder.chunkWritten
  statusAnswered s addr data rest status head k := kept.statusAnswered.elim (fun a => kept.of_apart a
    ((touches_popOutstanding s).andThen (touches_statusAnswered _ status))
    ((KeepsStatus.of_touches (touches_popOutstanding s)).trans (keeps_statusAnswered _ status)) k)
    fun h => h s addr data rest status head k
  endDecode s k := kept.endDecode.elim (fun a => kept.of_apart a (touches_endDecode s) (keeps_endDecode s) k) fun h => h s k
  endRefit := kept.encoder.endRefit
  endCoding := kept.encoder.endCoding
  expireWait := kept.encoder.expireWait
  endRecode := kept.encoder.endRecode
  visitEntry s w walk left k := kept.visitEntry.elim (fun a => kept.of_apart a (touches_visitEntry s w)
    (keeps_visitEntry s w) k) fun h => h s w walk left k

theorem rules : KeptByRules P where
  grantWaiting := kept.encoder.grantWaiting
  movePending s t e k := kept.movePending.elim (fun a => kept.of_apart a (touches_movePending e)
    (.of_marks (touches_movePending e) (marks_movePending e)) k) fun h => h s t e k
  startDecode s t e k := kept.startDecode.elim (fun a => kept.of_apart a (touches_startDecode e)
    (.of_touches (touches_startDecode e)) k) fun h => h s t e k
  grantHeld s t e k := kept.grantHeld.elim (fun a => kept.of_apart a (touches_grantHeld e)
    (.of_marks (touches_grantHeld e) (marks_grantHeld e)) k) fun h => h s t e k
  proceedNext s t e k := kept.proceedNext.elim (fun a => kept.of_apart a (touches_proceedNext e)
    (.of_marks (touches_proceedNext e) (marks_proceedNext e)) k) fun h => h s t e k
  respond s t e k := kept.respond.elim (fun a => kept.of_apart a (touches_respond e)
    (.of_marks (touches_respond e) (marks_respond e)) k) fun h => h s t e k
  takeBus s t e k := kept.takeBus.elim (fun a => kept.of_apart a (touches_takeBus e) (keeps_takeBus e) k)
    fun h => h s t e k
  endLongOrder s t e k := kept.endLongOrder.elim (fun a => kept.of_apart a (touches_endLongOrder e)
    (.of_marks (touches_endLongOrder e) (marks_endLongOrder e)) k) fun h => h s t e k
  takeOrder := kept.takeOrder
  takeSealed s t e k := kept.takeSealed.elim (fun a => kept.of_apart a (touches_takeSealed e)
    (.of_marks (touches_takeSealed e) (marks_takeSealed e)) k) fun h => h s t e k

/-- Every step keeps `P`. -/
theorem step {s t : State} (k : P s) (h : step s = .next t) : P t := step_keeps kept.commands kept.rules k h

end KeptFrom

/-! ### The tile map's canonical form (R24) -/

/-- What a CLOSE start does to the blocks but the tile map (R79, R148, R158, R178). -/
def State.closeBlocksOf (s : State) (a : ApIx) : State :=
  (((s.putAp a { s.ap a with state := .retiring }).closeSlots a).closePort a).closeReadPath a

theorem touches_closeBlocksOf (s : State) (a : ApIx) :
    OnlyTouches [.aps, .asm, .port, .rd, .st] s (s.closeBlocksOf a) :=
  (((touches_putAp s a _).andThen (C := [.aps, .asm, .st]) (touches_closeSlots _ a)).andThen
    (C := [.aps, .asm, .port, .st]) (touches_closePort _ a)).andThen (touches_closeReadPath _ a)

/-- A CLOSE start leaves the tile map with its walk at tile 0 (R34). -/
theorem startClose_eq (s : State) (a : ApIx) :
    s.startClose a = (s.closeBlocksOf a).setMap { s.map with walk := some ⟨a, 0⟩ } := by
  have same : (s.closeBlocksOf a).map = s.map := touches_closeBlocksOf s a .map (by decide)
  rw [← same]
  rfl

section
variable {s t : State}

theorem mapOk_of_touches {B : List Block} (h : OnlyTouches B s t) (k : s.MapOk) (untouched : Block.map ∉ B := by decide) :
    t.MapOk := by
  have same : t.map = s.map := h .map untouched
  rwa [State.MapOk, same]

/-- The tile map after a commit (R28, R32). -/
theorem map_commit (s : State) (op : TileOp) (r : Result) :
    (s.commit op r).map = s.map.commit (s.entryIx op.tile) (r.content op.heldChunks) r.isDegraded := by
  have counted (m : TileMap) (cs : List Nat) (t : TileRef) (a : ApIx) (c : Content) :
      OnlyTouches [.aps, .pool, .ctl, .rd, .st] (s.setMap m)
        ((((s.setMap m).markStale.release cs).commitCache t r).countCommitted a c) :=
    (((touches_markStale _).andThen (C := [.pool, .ctl, .st]) (touches_release _ cs)).andThen
      (C := [.pool, .ctl, .rd, .st]) (touches_commitCache _ t r)).andThen (touches_countCommitted _ a c)
  rw [commit_eq_count]
  exact Eq.trans (touches_afterCount _ op r .map (by decide)) (counted _ _ _ _ _ .map (by decide))

theorem mapOk_encoder : KeptByEncoder State.MapOk where
  putEnc _ _ h := h
  putPool _ _ _ _ h := h
  setStore _ _ h := h
  raise _ h := h
  addRefits _ _ h := h
  freeEncoding s k h := mapOk_of_touches (touches_freeEncoding s k) h
  commit s op r h := by
    rw [State.MapOk, map_commit]
    exact putEntry_wf _ _ h

theorem mapOk_close (s : State) (ap : BitVec 3) (zero : BitVec 5) (b2 : Byte) (h : s.MapOk) :
    (s.execute (.close ap zero b2)).MapOk := by
  rcases runClose_cases s (.close ap zero b2) ap zero b2 with ⟨k, refused⟩ | ⟨-, -, started⟩
  · rw [State.execute, refused]
    exact h
  · rw [State.execute, started, startClose_eq]
    exact h

theorem mapOk_openOrder (s : State) (f : OpenFields) (h : s.MapOk) : (s.execute (.openOrder f)).MapOk := by
  rcases runOpen_cases s (.openOrder f) f with ⟨k, refused⟩ | ⟨-, -, -, -, -, -, first, left, -, accepted⟩
  · rw [State.execute, refused]
    exact h
  · rw [State.execute, accepted]
    exact clearEntries_wf _ _ h

theorem mapOk_endLongOrder (h : s.endLongOrder = some t) (k : s.MapOk) : t.MapOk := by
  rcases endLongOrder_cases h with ⟨_, _, _, _, -, -, -, -, rfl⟩ | ⟨_, _, _, _, _, -, -, -, rfl⟩ | ⟨_, _, _, -, -, rfl⟩
  all_goals exact k

theorem mapOk_kept : KeptFrom [.map] State.MapOk where
  same _ _ same _ k := (congrArg (TileMap.wf · = true) (same .map (by decide))).mpr k
  powerOn _ _ := rfl
  resetAsserted _ _ := rfl
  encoder := mapOk_encoder.keeps
  orders :=
    { close := .inr mapOk_close
      openOrder := .inr mapOk_openOrder
      setStatus := fun s field mask => mapOk_of_touches (touches_runSetStatus s _ field mask) }
  visitEntry := .inr fun s w _ _ h => mapOk_of_touches (s := s.setMap _) (touches_release _ _) (putEntry_wf _ _ h)
  endLongOrder := .inr fun _ _ => mapOk_endLongOrder
end

end Sys2Proof.Machine
end

section
/-! PROOFS. Extents and regions (R10, R11, R25, R26, R34, R36): what first fit and a return leave of the free extents, which operations
leave every aperture's range and extent, and that every step keeps the extents and the regions apart. -/

set_option Elab.async false

namespace Sys2Proof.Machine

/-! ### The free extents (R26, R36) -/

/-- First fit takes the first extent that is long enough, whole or from its start on (R26). -/
theorem takeExtent_split {l left : List Extent} {n first : Nat} (taken : takeExtent l n = some (first, left)) :
    ∃ before e after, l = before ++ e :: after ∧ n ≤ e.len ∧ first = e.first ∧
      left = before ++ if e.len = n then after else ⟨e.first + n, e.len - n⟩ :: after := by
  induction l generalizing left with
  | nil => cases taken
  | cons e rest ih =>
    rw [takeExtent] at taken
    split at taken
    · next fits =>
      cases taken
      exact ⟨[], e, rest, rfl, fits, rfl, rfl⟩
    · obtain ⟨⟨f, l'⟩, inRest, eq⟩ := Option.map_eq_some_iff.1 taken
      cases eq
      obtain ⟨before, e', after, rfl, fits, firstEq, rfl⟩ := ih inRest
      exact ⟨e :: before, e', after, rfl, fits, firstEq, rfl⟩

/-- An extent before all others is put in front. -/
theorem returnExtent_in_front {l : List Extent} {x : Extent} (front : ∀ y ∈ l, x.first + x.len < y.first) :
    returnExtent l x = x :: l := by
  cases l with
  | nil => rfl
  | cons e rest => rw [returnExtent, if_pos (front e (List.mem_cons_self ..))]

/-- A returned extent stands at its place, joined to the free extents that end where it begins and begin where it ends (R36). -/
theorem returnExtent_eq (l : List Extent) (x : Extent) (gaps : l.Pairwise fun y z => y.first + y.len < z.first)
    (positive : 0 < x.len) (disjoint : ∀ y ∈ l, 0 < y.len ∧ (y.first + y.len ≤ x.first ∨ x.first + x.len ≤ y.first)) :
    returnExtent l x =
      (l.filter fun y => decide (y.first + y.len < x.first)) ++
        ⟨((l.find? fun y => decide (y.first + y.len = x.first)).map Extent.first).getD x.first,
          ((l.find? fun y => decide (y.first + y.len = x.first)).map Extent.len).getD 0 + x.len +
            ((l.find? fun y => decide (x.first + x.len = y.first)).map Extent.len).getD 0⟩ ::
        l.filter fun y => decide (x.first + x.len < y.first) := by
  induction l generalizing x with
  | nil => simp [returnExtent]
  | cons e rest ih =>
    obtain ⟨later, gapsRest⟩ := List.pairwise_cons.1 gaps
    obtain ⟨ePositive, eApart⟩ := disjoint e (List.mem_cons_self ..)
    have restApart := fun y inRest => disjoint y (List.mem_cons_of_mem _ inRest)
    /- Where everything of the rest lies after `b`, nothing of it ends at or before a place up to `b`. -/
    have noneBefore (b : Nat) (after : ∀ y ∈ rest, b < y.first) :
        (rest.filter fun y => decide (y.first + y.len < b)) = [] ∧
          (rest.find? fun y => decide (y.first + y.len = b)) = none :=
      ⟨List.filter_eq_nil_iff.2 fun y inRest => by have := after y inRest; simp; omega,
        List.find?_eq_none.2 fun y inRest => by have := after y inRest; simp; omega⟩
    have allAfter (b : Nat) (after : ∀ y ∈ rest, b < y.first) :
        (rest.filter fun y => decide (b < y.first)) = rest ∧ (rest.find? fun y => decide (b = y.first)) = none :=
      ⟨List.filter_eq_self.2 fun y inRest => decide_eq_true (after y inRest),
        List.find?_eq_none.2 fun y inRest => by have := after y inRest; simp; omega⟩
    rw [returnExtent]
    split
    · next front =>
      have after : ∀ y ∈ rest, x.first + x.len < y.first := fun y inRest => by have := later y inRest; omega
      obtain ⟨filterBefore, findBefore⟩ := noneBefore x.first fun y inRest => by have := after y inRest; omega
      obtain ⟨filterAfter, findAfter⟩ := allAfter _ after
      have notEnds : ¬e.first + e.len < x.first := by omega
      have notTouches : ¬e.first + e.len = x.first := by omega
      have notTouched : ¬x.first + x.len = e.first := by omega
      simp [notEnds, notTouches, notTouched, front, filterBefore, findBefore, filterAfter, findAfter]
    · split
      · next touched =>
        have after : ∀ y ∈ rest, x.first + x.len < y.first := fun y inRest => by have := later y inRest; omega
        obtain ⟨filterBefore, findBefore⟩ := noneBefore x.first fun y inRest => by have := after y inRest; omega
        obtain ⟨filterAfter, -⟩ := allAfter _ after
        have notEnds : ¬e.first + e.len < x.first := by omega
        have notTouches : ¬e.first + e.len = x.first := by omega
        simp [notEnds, notTouches, touched, filterBefore, findBefore]
        exact (touched ▸ filterAfter).symm
      · split
        · next touches =>
          have fromE : ∀ y ∈ rest, e.first < y.first := fun y inRest => by have := later y inRest; omega
          have fromX : ∀ y ∈ rest, x.first < y.first := fun y inRest => by have := later y inRest; omega
          obtain ⟨filterE, findE⟩ := noneBefore e.first fromE
          obtain ⟨filterX, findX⟩ := noneBefore x.first fromX
          have joined := ih ⟨e.first, e.len + x.len⟩ gapsRest (by dsimp only; omega) fun y inRest =>
            ⟨(restApart y inRest).1, .inr (by
              have := later y inRest
              have := (restApart y inRest).2
              have := (restApart y inRest).1
              dsimp only
              omega)⟩
          have sameEnd : e.first + (e.len + x.len) = x.first + x.len := by omega
          have notEnds : ¬e.first + e.len < x.first := by omega
          have notAfter : ¬x.first + x.len < e.first := by omega
          have notTouched : ¬x.first + x.len = e.first := by omega
          simp only [sameEnd] at joined
          rw [joined]
          simp [notTouched, notAfter, touches, filterE, findE, filterX]
        · next notFront notTouched notTouches =>
          have ends : e.first + e.len < x.first := by omega
          rw [ih x gapsRest positive restApart]
          simp [ends, notFront, notTouched, notTouches]


theorem returnExtent_above {l : List Extent} {x : Extent} {c : Nat} (xAbove : c < x.first) (above : ∀ y ∈ l, c < y.first) :
    ∀ y ∈ returnExtent l x, c < y.first := by
  induction l generalizing x with
  | nil => simpa [returnExtent] using xAbove
  | cons e rest ih =>
    obtain ⟨eAbove, restAbove⟩ := List.forall_mem_cons.1 above
    rw [returnExtent]
    split
    · exact List.forall_mem_cons.2 ⟨xAbove, above⟩
    · split
      · exact List.forall_mem_cons.2 ⟨xAbove, restAbove⟩
      · split
        · exact ih eAbove restAbove
        · exact List.forall_mem_cons.2 ⟨eAbove, ih xAbove restAbove⟩

/-- A return leaves a gap between any two free extents. -/
theorem returnExtent_gaps {l : List Extent} {x : Extent} (gaps : l.Pairwise fun y z => y.first + y.len < z.first)
    (disjoint : ∀ y ∈ l, y.first + y.len ≤ x.first ∨ x.first + x.len ≤ y.first) :
    (returnExtent l x).Pairwise fun y z => y.first + y.len < z.first := by
  induction l generalizing x with
  | nil => exact List.pairwise_singleton ..
  | cons e rest ih =>
    obtain ⟨later, gapsRest⟩ := List.pairwise_cons.1 gaps
    obtain ⟨eApart, restApart⟩ := List.forall_mem_cons.1 disjoint
    rw [returnExtent]
    split
    · refine List.pairwise_cons.2 ⟨List.forall_mem_cons.2 ⟨by omega, fun y inRest => ?_⟩, gaps⟩
      have := later y inRest
      omega
    · split
      · refine List.pairwise_cons.2 ⟨fun y inRest => ?_, gapsRest⟩
        have := later y inRest
        dsimp only
        omega
      · split
        · refine ih gapsRest fun y inRest => ?_
          have := later y inRest
          have := restApart y inRest
          dsimp only
          omega
        · exact List.pairwise_cons.2 ⟨returnExtent_above (by omega) later, ih gapsRest restApart⟩

theorem returnExtent_bounds {l : List Extent} {x : Extent} {n : Nat} (xBound : 0 < x.len ∧ x.first + x.len ≤ n)
    (bounds : ∀ y ∈ l, 0 < y.len ∧ y.first + y.len ≤ n) : ∀ y ∈ returnExtent l x, 0 < y.len ∧ y.first + y.len ≤ n := by
  induction l generalizing x with
  | nil => simpa [returnExtent] using xBound
  | cons e rest ih =>
    obtain ⟨eBound, restBound⟩ := List.forall_mem_cons.1 bounds
    rw [returnExtent]
    split
    · exact List.forall_mem_cons.2 ⟨xBound, bounds⟩
    · split
      · exact List.forall_mem_cons.2 ⟨⟨by dsimp only; omega, by dsimp only; omega⟩, restBound⟩
      · split
        · exact ih ⟨by dsimp only; omega, by dsimp only; omega⟩ restBound
        · exact List.forall_mem_cons.2 ⟨eBound, ih xBound restBound⟩

/-- First fit leaves the gaps and the bounds of the free extents (R26). -/
theorem takeExtent_keeps {l left : List Extent} {k first n : Nat} (taken : takeExtent l k = some (first, left))
    (positive : 0 < k) (gaps : l.Pairwise fun y z => y.first + y.len < z.first)
    (bounds : ∀ y ∈ l, 0 < y.len ∧ y.first + y.len ≤ n) :
    (left.Pairwise fun y z => y.first + y.len < z.first) ∧ (∀ y ∈ left, 0 < y.len ∧ y.first + y.len ≤ n) ∧
      first + k ≤ n ∧ ∀ y ∈ left, y.first + y.len ≤ first ∨ first + k ≤ y.first := by
  obtain ⟨before, e, after, rfl, fits, rfl, rfl⟩ := takeExtent_split taken
  obtain ⟨gapsBefore, gapsRest, cross⟩ := List.pairwise_append.1 gaps
  obtain ⟨later, gapsAfter⟩ := List.pairwise_cons.1 gapsRest
  have eBound := bounds e (by simp)
  have eBefore : ∀ y ∈ before, y.first + y.len < e.first := fun y inBefore => cross y inBefore e (List.mem_cons_self ..)
  have rest : ∀ y ∈ (if e.len = k then after else ⟨e.first + k, e.len - k⟩ :: after), y ∈ after ∨
      (e.len ≠ k ∧ y = ⟨e.first + k, e.len - k⟩) := by
    intro y inRest
    split at inRest
    · exact .inl inRest
    · next other => exact (List.mem_cons.1 inRest).symm.imp_right fun eq => ⟨other, eq⟩
  refine ⟨List.pairwise_append.2 ⟨gapsBefore, ?gaps, ?cross⟩, ?bounds, by omega, ?apart⟩
  case gaps =>
    split
    · exact gapsAfter
    · refine List.pairwise_cons.2 ⟨fun y inAfter => ?_, gapsAfter⟩
      have := later y inAfter
      dsimp only
      omega
  case cross =>
    intro y inBefore z inRest
    have := eBefore y inBefore
    rcases rest z inRest with inAfter | ⟨-, rfl⟩
    · exact cross y inBefore z (List.mem_cons_of_mem _ inAfter)
    · dsimp only
      omega
  case bounds =>
    intro y inLeft
    rcases List.mem_append.1 inLeft with inBefore | inRest
    · exact bounds y (by simp [inBefore])
    · rcases rest y inRest with inAfter | ⟨other, rfl⟩
      · exact bounds y (by simp [inAfter])
      · constructor <;> dsimp only <;> omega
  case apart =>
    intro y inLeft
    rcases List.mem_append.1 inLeft with inBefore | inRest
    · have := eBefore y inBefore
      omega
    · rcases rest y inRest with inAfter | ⟨-, rfl⟩
      · have := later y inAfter
        omega
      · exact .inr (Nat.le_refl _)

/-! ### Apertures keep their place

Most operations leave every aperture open or closed as it is, with its range and its extent (R4, R7). -/

/-- From `s` to `t` no aperture is opened or closed, and each keeps its range and its extent. -/
structure SameShape (x y : Aperture) : Prop where
  closed : y.state = .closed ↔ x.state = .closed
  base : y.base = x.base
  width : y.width = x.width
  height : y.height = x.height
  fmt : y.fmt = x.fmt
  extFirst : y.extFirst = x.extFirst
  extLen : y.extLen = x.extLen

theorem SameShape.refl (x : Aperture) : SameShape x x := ⟨Iff.rfl, rfl, rfl, rfl, rfl, rfl, rfl⟩

theorem SameShape.trans {x y z : Aperture} (h : SameShape x y) (k : SameShape y z) : SameShape x z :=
  ⟨k.closed.trans h.closed, k.base.trans h.base, k.width.trans h.width, k.height.trans h.height, k.fmt.trans h.fmt,
    k.extFirst.trans h.extFirst, k.extLen.trans h.extLen⟩

/-- A record of a live aperture in another live state. -/
theorem sameShape_state {x : Aperture} {st : ApState} (live : x.state ≠ .closed) (stays : st ≠ .closed) :
    SameShape x { x with state := st } :=
  ⟨iff_of_false stays live, rfl, rfl, rfl, rfl, rfl, rfl⟩

/-- A walk is of a RETIRING aperture (R34). -/
def State.WalkRetires (s : State) : Prop := ∀ w, s.map.walk = some w → (s.ap w.ap).state = .retiring

/-- An executing FREEZE is of a FREEZING aperture (R78). -/
def State.FreezeFreezes (s : State) : Prop :=
  ∀ ap zero b2, s.ord.executing = some (.flush false true ap zero b2) → (s.ap (apOf ap)).state = .freezing

/-- From `s` to `t` the apertures keep their shape, the pool its place and size and the free extents stay, and the walk and an
executing FREEZE still find their aperture in its state. -/
structure KeepsGround (s t : State) : Prop where
  shape : ∀ a, SameShape (s.ap a) (t.ap a)
  freeExtents : t.map.freeExtents = s.map.freeExtents
  poolBase : t.pool.base = s.pool.base
  poolCount : t.pool.count = s.pool.count
  walk : s.WalkRetires → t.WalkRetires
  freeze : s.FreezeFreezes → t.FreezeFreezes

theorem KeepsGround.trans {s t u : State} (h : KeepsGround s t) (k : KeepsGround t u) : KeepsGround s u :=
  ⟨fun a => (h.shape a).trans (k.shape a), k.freeExtents.trans h.freeExtents, k.poolBase.trans h.poolBase,
    k.poolCount.trans h.poolCount, k.walk ∘ h.walk, k.freeze ∘ h.freeze⟩

/-- What leaves the aperture records, the free extents, the walk, the pool's place and the executing order. -/
theorem KeepsGround.of_same {s t : State} (aps : t.aps = s.aps) (free : t.map.freeExtents = s.map.freeExtents)
    (walk : t.map.walk = s.map.walk) (base : t.pool.base = s.pool.base) (count : t.pool.count = s.pool.count)
    (executing : t.ord.executing = s.ord.executing) : KeepsGround s t := by
  have ap (a : ApIx) : t.ap a = s.ap a := ap_eq_of_aps_eq aps a
  refine ⟨fun a => ap a ▸ .refl _, free, base, count, fun h w inT => ?_, fun h p zero b2 inT => ?_⟩
  · rw [ap]
    exact h w (walk ▸ inT)
  · rw [ap]
    exact h p zero b2 (executing ▸ inT)

theorem KeepsGround.of_touches {B : List Block} {s t : State} (h : OnlyTouches B s t)
    (aps : Block.aps ∉ B := by decide) (map : Block.map ∉ B := by decide) (pool : Block.pool ∉ B := by decide)
    (ord : Block.ord ∉ B := by decide) : KeepsGround s t :=
  have mapSame : t.map = s.map := h .map map
  have poolSame : t.pool = s.pool := h .pool pool
  have ordSame : t.ord = s.ord := h .ord ord
  .of_same (h .aps aps) (by rw [mapSame]) (by rw [mapSame]) (by rw [poolSame]) (by rw [poolSame]) (by rw [ordSame])

theorem ap_putAp (s : State) (a b : ApIx) (x : Aperture) : (s.putAp a x).ap b = if b = a then x else s.ap b := by
  split
  · next here => rw [here, ap_putAp_same]
  · next other => exact ap_putAp_other s a b x other

/-- One record replaced by one of the same shape, which is RETIRING where the old one was. -/
theorem ground_of_record {s u : State} {a : ApIx} {x : Aperture} (ap : ∀ b, u.ap b = if b = a then x else s.ap b)
    (shape : SameShape (s.ap a) x) (retires : (s.ap a).state = .retiring → x.state = .retiring) (map : u.map = s.map)
    (pool : u.pool = s.pool) (freeze : s.FreezeFreezes → u.FreezeFreezes) : KeepsGround s u := by
  refine ⟨fun b => ?_, by rw [map], by rw [pool], by rw [pool], fun h w walk => ?_, freeze⟩
  · rw [ap b]
    split
    · next here => exact here ▸ shape
    · exact .refl _
  · have retiring := h w (by rwa [map] at walk)
    rw [ap]
    split
    · next here => exact retires (here ▸ retiring)
    · exact retiring

theorem ground_putAp {s : State} {a : ApIx} {x : Aperture} (shape : SameShape (s.ap a) x)
    (retires : (s.ap a).state = .retiring → x.state = .retiring)
    (freezes : (s.ap a).state = .freezing → x.state = .freezing) : KeepsGround s (s.putAp a x) := by
  refine ground_of_record (fun b => ap_putAp s a b x) shape retires rfl rfl fun h p zero b2 executing => ?_
  have freezing := h p zero b2 executing
  rw [ap_putAp]
  split
  · next here => exact freezes (here ▸ freezing)
  · exact freezing

/-- With no order executing no FREEZE is. -/
theorem freezeFreezes_of_idle {s : State} (idle : s.ord.executing = none) : s.FreezeFreezes :=
  fun _ _ _ executing => absurd (idle.symm.trans executing) nofun

/-- The end of an order's execution, and a start of an order that is no FREEZE. -/
theorem ground_setOrd {s : State} {x : OrderUnit}
    (noFreeze : x.executing = s.ord.executing ∨ ∀ ap zero b2, x.executing ≠ some (.flush false true ap zero b2)) :
    KeepsGround s (s.setOrd x) := by
  rcases noFreeze with same | noFreeze
  · exact .of_same rfl rfl rfl rfl rfl same
  · exact ⟨fun a => .refl _, rfl, rfl, rfl, id, fun _ ap zero b2 freeze => absurd freeze (noFreeze ap zero b2)⟩

theorem ground_orderDone (s : State) (o : Order) : KeepsGround s (s.orderDone o) :=
  (ground_setOrd (.inr fun _ _ _ => (Option.some_ne_none _).symm)).trans (.of_touches (touches_markStale _))

theorem ground_orderRefused (s : State) (o : Order) (k : OrderReason) : KeepsGround s (s.orderRefused o k) :=
  ((ground_setOrd (.inr fun _ _ _ => (Option.some_ne_none _).symm)).trans (.of_touches (touches_markStale _))).trans (.of_touches (touches_raise _ _))

theorem ground_orderStarts (s : State) {o : Order} (noFreeze : ∀ ap zero b2, o ≠ .flush false true ap zero b2) :
    KeepsGround s (s.orderStarts o) :=
  (ground_setOrd (.inr fun ap zero b2 eq => noFreeze ap zero b2 (Option.some.inj eq))).trans
    (.of_touches (touches_markStale _))

/-! ### The operations that keep the ground -/

/-- A commit changes of the aperture records a committed-tile count alone (R5, R30). -/
theorem ap_commit_leaves (s : State) (op : TileOp) (r : Result) (b : ApIx) :
    (s.commit op r).ap b = { s.ap b with committed := ((s.commit op r).ap b).committed } := by
  rw [ap_commit]
  unfold State.countCommitted
  split
  · rw [ap_putAp]
    split
    · next here => rw [here, ap_beforeCount]
    · rw [ap_beforeCount]
  · rw [ap_beforeCount]

/-- A record with another committed-tile count. -/
theorem sameShape_committed {x y : Aperture} (eq : y = { x with committed := y.committed }) : SameShape x y := by
  rw [eq]
  exact ⟨Iff.rfl, rfl, rfl, rfl, rfl, rfl, rfl⟩

theorem pool_commit (s : State) (op : TileOp) (r : Result) :
    (s.commit op r).pool = { s.pool with free := s.pool.free ++ (s.entry op.tile).content.chunks } := by
  have counted (u : State) (t : TileRef) (a : ApIx) (c : Content) :
      OnlyTouches [.aps, .rd, .st] u ((u.commitCache t r).countCommitted a c) :=
    (touches_commitCache u t r).andThen (touches_countCommitted _ a c)
  rw [commit_eq_count]
  refine Eq.trans (touches_afterCount _ op r .pool (by decide)) ?_
  refine Eq.trans (counted _ op.tile op.tile.ap _ .pool (by decide)) ?_
  exact release_pool _ _

theorem ground_commit (s : State) (op : TileOp) (r : Result) : KeepsGround s (s.commit op r) := by
  have ap := ap_commit_leaves s op r
  have map := map_commit s op r
  have ord : (s.commit op r).ord = s.ord := touches_commit s op r .ord (by decide)
  refine ⟨fun a => sameShape_committed (ap a), by rw [map]; rfl, by rw [pool_commit], by rw [pool_commit],
    fun h w walk => ?_, fun h p zero b2 executing => ?_⟩
  · rw [ap]
    exact h w (by rwa [map] at walk)
  · rw [ap]
    exact h p zero b2 (by rwa [ord] at executing)

/-- What each of the encoder's operations keeps is kept by them all. -/
theorem ground_encoder {P : State → Prop} (ground : ∀ s t, KeepsGround s t → KeepsStatus s t → P s → P t) :
    KeptByEncoder P where
  putEnc s e := ground s _ (.of_touches (touches_putEnc s e)) (keeps_putEnc s e)
  putPool s p base count := ground s _ (.of_same rfl rfl rfl base count rfl) (keeps_putPool s p)
  setStore s q := ground s _ (.of_touches (touches_setStore s q)) (.of_touches (touches_setStore s q))
  raise s := ground s _ (.of_touches (touches_raise s .store)) (keeps_raise s nofun)
  addRefits s n := ground s _ (.of_touches (touches_addRefits s n)) (keeps_addRefits s n)
  freeEncoding s k := ground s _ (.of_touches (touches_freeEncoding s k)) (keeps_freeEncoding s k)
  commit s op r := ground s _ (ground_commit s op r) (keeps_commit s op r)

/-! ### The orders -/

theorem ground_putAp_orderDone {s : State} {a : ApIx} {x : Aperture} (o : Order) (shape : SameShape (s.ap a) x)
    (retires : (s.ap a).state = .retiring → x.state = .retiring) : KeepsGround s ((s.putAp a x).orderDone o) :=
  ground_of_record (fun b => ap_putAp s a b x) shape retires rfl rfl fun _ => freezeFreezes_of_idle rfl

theorem ground_runThaw (s : State) (o : Order) (ap : BitVec 3) (zero : BitVec 5) (b2 : Byte) :
    KeepsGround s (s.runThaw o ap zero b2) := by
  rcases runThaw_cases s o ap zero b2 with ⟨k, refused⟩ | ⟨frozen, accepted⟩
  · rw [refused]
    exact ground_orderRefused s o k
  · rw [accepted]
    exact ground_putAp_orderDone o (sameShape_state (by rw [frozen]; nofun) nofun) (by rw [frozen]; nofun)

theorem ground_runProtect (s : State) (o : Order) (clear : Bool) (ap : BitVec 3) (zero : BitVec 4)
    (x0 y0 x1 y1 b6 : Byte) : KeepsGround s (s.runProtect o clear ap zero x0 y0 x1 y1 b6) := by
  rcases runProtect_cases s o clear ap zero x0 y0 x1 y1 b6 with ⟨k, refused⟩ | ⟨rects, accepted⟩
  · rw [refused]
    exact ground_orderRefused s o k
  · rw [accepted]
    exact ground_putAp_orderDone o ⟨Iff.rfl, rfl, rfl, rfl, rfl, rfl, rfl⟩ id

theorem ground_runClearFaults (s : State) (o : Order) (faults b2 : Byte) : KeepsGround s (s.runClearFaults o faults b2) := by
  unfold State.runClearFaults
  split
  · exact ground_orderRefused s o _
  · exact (KeepsGround.of_touches (touches_putFaults s _)).trans (ground_orderDone _ o)

theorem ground_runSetCurve (s : State) (o : Order) (f : CurveFields) : KeepsGround s (s.runSetCurve o f) := by
  rcases runSetCurve_cases s o f with ⟨k, refused⟩ | ⟨-, accepted⟩
  · rw [refused]
    exact ground_orderRefused s o k
  · rw [accepted]
    have loaded : KeepsGround s (s.setCtl (loadCurve f s.ctl)).evalPool :=
      (KeepsGround.of_touches (touches_setCtl s _)).trans (.of_touches (touches_evalPool _))
    exact loaded.trans (ground_orderDone _ o)

/-- A FREEZE makes its aperture FREEZING, and a FLUSH leaves the records; then the slots are forced and the order executes. -/
theorem ground_flushStarts {s : State} {ap zero : BitVec 3} (freeze : Bool) (b2 : Byte) (on : ApIx → Bool)
    (opened : (s.ap (apOf ap)).state = .opened) :
    KeepsGround s (((s.beforeForce (apOf ap) freeze).forceSlots on).orderStarts (.flush false freeze ap zero b2)) := by
  have forced (u : State) : KeepsGround u (u.forceSlots on) := .of_touches (touches_forceSlots u on)
  cases freeze with
  | false => exact (forced s).trans (ground_orderStarts _ nofun)
  | true =>
    have aps : ((s.putAp (apOf ap) { s.ap (apOf ap) with state := .freezing }).forceSlots on).aps =
      (s.putAp (apOf ap) { s.ap (apOf ap) with state := .freezing }).aps := touches_forceSlots _ on .aps (by decide)
    have map : ((s.putAp (apOf ap) { s.ap (apOf ap) with state := .freezing }).forceSlots on).map = s.map :=
      touches_forceSlots _ on .map (by decide)
    have pool : ((s.putAp (apOf ap) { s.ap (apOf ap) with state := .freezing }).forceSlots on).pool = s.pool :=
      touches_forceSlots _ on .pool (by decide)
    have record (b : ApIx) : (((s.beforeForce (apOf ap) true).forceSlots on).orderStarts (.flush false true ap zero b2)).ap b
        = if b = apOf ap then { s.ap (apOf ap) with state := .freezing } else s.ap b :=
      (ap_eq_of_aps_eq aps b).trans (ap_putAp s _ b _)
    refine ground_of_record record (sameShape_state (by rw [opened]; nofun) nofun) (by rw [opened]; nofun) map pool ?_
    intro _ p z b executing
    cases executing
    rw [record, if_pos rfl]

theorem ground_executeFlush (s : State) (all freeze : Bool) (ap zero : BitVec 3) (b2 : Byte) :
    KeepsGround s (s.execute (.flush all freeze ap zero b2)) := by
  rw [State.execute]
  rcases runFlush_cases s (.flush all freeze ap zero b2) all freeze ap zero b2 with
    ⟨k, refused⟩ | ⟨-, -, done⟩ | ⟨rfl, rfl, started⟩ | ⟨rfl, opened, started⟩
  · rw [refused]
    exact ground_orderRefused s _ k
  · rw [done]
    exact ground_orderDone s _
  · rw [started]
    exact (KeepsGround.of_touches (touches_forceSlots s _)).trans (ground_orderStarts _ nofun)
  · rw [started]
    exact ground_flushStarts freeze b2 _ opened

theorem ap_startClose (s : State) (a b : ApIx) :
    (s.startClose a).ap b = if b = a then { s.ap a with state := .retiring } else s.ap b := by
  have aps : ((s.putAp a { s.ap a with state := .retiring }).closeSlots a |>.closePort a |>.closeReadPath a).aps =
      (s.putAp a { s.ap a with state := .retiring }).aps :=
    (((touches_closeSlots _ a).andThen (C := [.asm, .port, .st]) (touches_closePort _ a)).andThen
      (C := [.asm, .port, .rd, .st]) (touches_closeReadPath _ a)) .aps (by decide)
  exact (ap_eq_of_aps_eq aps b).trans (ap_putAp s a b _)

theorem ground_executeClose (s : State) (ap : BitVec 3) (zero : BitVec 5) (b2 : Byte) :
    KeepsGround s (s.execute (.close ap zero b2)) := by
  rw [State.execute]
  rcases runClose_cases s (.close ap zero b2) ap zero b2 with ⟨k, refused⟩ | ⟨live, -, started⟩
  · rw [refused]
    exact ground_orderRefused s _ k
  · rw [started]
    have ap_eq := ap_startClose s (apOf ap)
    have pool : (s.startClose (apOf ap)).pool = s.pool := touches_startClose s _ .pool (by decide)
    have free : (s.startClose (apOf ap)).map.freeExtents = s.map.freeExtents := by rw [startClose_eq]; rfl
    refine ⟨fun b => ?shape, free, congrArg Pool.base pool, congrArg Pool.count pool, fun _ w walk => ?walk, ?freeze⟩
    case shape =>
      show SameShape (s.ap b) ((s.startClose (apOf ap)).ap b)
      rw [ap_eq]
      split
      · next here =>
        subst here
        exact sameShape_state live nofun
      · exact .refl _
    case walk =>
      have isNew : some ⟨apOf ap, 0⟩ = some w := by rw [← walk, startClose_eq]; rfl
      cases isNew
      show ((s.startClose (apOf ap)).ap (apOf ap)).state = .retiring
      rw [ap_eq, if_pos rfl]
    case freeze => exact fun _ p z b executing => nomatch executing

/-! ### HALT and the ends of the long orders -/

theorem aps_unfreeze (s : State) (a : ApIx) :
    (s.unfreeze a).aps = if (s.ap a).state = .freezing then s.aps.set a { s.ap a with state := .opened } else s.aps := by
  unfold State.unfreeze
  split <;> rfl

theorem ground_unfreeze_idle {s u : State} {a : ApIx} (aps : u.aps = (s.unfreeze a).aps) (map : u.map = s.map)
    (pool : u.pool = s.pool) (idle : u.ord.executing = none) : KeepsGround s u := by
  unfold State.unfreeze at aps
  split at aps
  · next freezing =>
    exact ground_of_record (fun b => (ap_eq_of_aps_eq aps b).trans (ap_putAp s a b _))
      (sameShape_state (by rw [freezing]; nofun) nofun) (by rw [freezing]; nofun) map pool fun _ => freezeFreezes_of_idle idle
  · refine ground_of_record (a := a) (x := s.ap a) (fun b => ?_) (.refl _) id map pool fun _ => freezeFreezes_of_idle idle
    rw [ap_eq_of_aps_eq aps]
    split
    · next here => rw [here]
    · rfl

theorem ground_haltNow (s : State) : KeepsGround s s.haltNow := by
  have map : s.haltNow.map = s.map := touches_haltNow s .map (by decide)
  have pool : s.haltNow.pool = s.pool := touches_haltNow s .pool (by decide)
  by_cases flush : ∃ all freeze ap zero b2, s.ord.executing = some (.flush all freeze ap zero b2)
  · obtain ⟨all, freeze, ap, zero, b2, flushing⟩ := flush
    have idle : s.haltNow.ord.executing = none := by rw [ord_haltNow, haltExecuting_of_flush flushing]; rfl
    have aps := aps_haltNow_of_flush flushing
    unfold State.stopFlush at aps
    split at aps
    · exact ground_unfreeze_idle (a := apOf ap)
        (aps.trans ((aps_unfreeze s.clearMarks _).trans (aps_unfreeze s _).symm)) map pool idle
    · exact ⟨fun a => ap_eq_of_aps_eq aps a ▸ .refl _, by rw [map], by rw [pool], by rw [pool],
        fun h w walk => (ap_eq_of_aps_eq aps w.ap) ▸ h w (map ▸ walk), fun _ => freezeFreezes_of_idle idle⟩
  · have same := haltExecuting_of_not_flush fun all freeze ap zero b2 flushing => flush ⟨all, freeze, ap, zero, b2, flushing⟩
    exact .of_same (congrArg (·.aps) same : s.haltExecuting.1.aps = s.aps) (by rw [map]) (by rw [map]) (by rw [pool]) (by rw [pool])
      (congrArg (·.ord.executing) same : s.haltExecuting.1.ord.executing = s.ord.executing)

/-- The end of a FREEZE leaves its aperture FROZEN (R78). -/
theorem ground_endFreeze {s : State} (o : Order) {a : ApIx} (freezing : (s.ap a).state = .freezing) :
    KeepsGround s (s.endFreeze o a) :=
  ground_putAp_orderDone o (sameShape_state (by rw [freezing]; nofun) nofun) (by rw [freezing]; nofun)

/-! ### An invariant of the ground -/

/-- What every move that keeps the ground keeps, and the end of a walk, OPEN, SET POOL, SET STATUS, power-on and RESET keep, is kept by
every step. -/
theorem kept_of_ground {P : State → Prop} (freezes : ∀ s : State, P s → s.FreezeFreezes)
    (ground : ∀ s t, KeepsGround s t → KeepsStatus s t → P s → P t)
    (powerOn : ∀ s : State, P s → P s.powerOn) (resetAsserted : ∀ s : State, P s → P s.resetAsserted)
    (endWalk : ∀ s w o, s.map.walk = some w → P s → P (State.orderDone (State.endWalk s w.ap) o))
    (openOrder : ∀ s f, P s → P (State.execute s (.openOrder f)))
    (setPool : ∀ s f, P s → P (State.execute s (.setPool f)))
    (setStatus : ∀ s field mask, P s → P (State.execute s (.setStatus field mask))) :
    KeptFrom [.aps, .map, .pool, .ord] P where
  same s t same m k := by
    have map : t.map = s.map := same .map (by decide)
    have pool : t.pool = s.pool := same .pool (by decide)
    have ord : t.ord = s.ord := same .ord (by decide)
    exact ground s t (.of_same (same .aps (by decide)) (by rw [map]) (by rw [map]) (by rw [pool]) (by rw [pool])
      (by rw [ord])) m k
  powerOn := powerOn
  resetAsserted := resetAsserted
  encoder := (ground_encoder ground).keeps
  orders :=
    { close := .inr fun s ap zero b2 => ground s _ (ground_executeClose s ap zero b2) (keeps_runClose s _ ap zero b2)
      flush := .inr fun s all freeze ap zero b2 =>
        ground s _ (ground_executeFlush s all freeze ap zero b2) (keeps_runFlush s _ all freeze ap zero b2)
      thaw := .inr fun s ap zero b2 => ground s _ (ground_runThaw s _ ap zero b2) (keeps_runThaw s _ ap zero b2)
      clearFaults := .inr fun s faults b2 =>
        ground s _ (ground_runClearFaults s _ faults b2) (keeps_runClearFaults s _ faults b2)
      protect := .inr fun s clear ap zero x0 y0 x1 y1 b6 =>
        ground s _ (ground_runProtect s _ clear ap zero x0 y0 x1 y1 b6) (keeps_runProtect s _ clear ap zero x0 y0 x1 y1 b6)
      setStatus := setStatus
      openOrder := .inr openOrder
      setPool := .inr setPool
      setCurve := .inr fun s f => ground s _ (ground_runSetCurve s _ f) (keeps_runSetCurve s _ f)
      undefined := .inr fun s b => ground s _ (ground_orderRefused s _ _) (keeps_orderRefused s _ _)
      dequeue := .inr fun s _ _ _ _ => ground s _ (.of_same rfl rfl rfl rfl rfl rfl)
        ((keeps_setOrd s _).trans (keeps_markStale _))
      enqueue := .inr fun s _ _ => ground s _ (.of_same rfl rfl rfl rfl rfl rfl)
        ((keeps_setOrd s _).trans (keeps_markStale _))
      haltNow := .inr fun s => ground s _ (ground_haltNow s) (.of_marks (touches_haltNow s) (marks_haltNow s)) }
  visitEntry := .inr fun s w walk _ => by
    have pool : (s.visitEntry w).pool = _ := release_pool _ _
    have map : (s.visitEntry w).map = _ := touches_release (s.setMap _) _ .map (by decide)
    have aps : (s.visitEntry w).aps = s.aps := touches_visitEntry s w .aps (by decide)
    have ord : (s.visitEntry w).ord = s.ord := touches_visitEntry s w .ord (by decide)
    refine ground s _ ⟨fun a => ap_eq_of_aps_eq aps a ▸ .refl _, by rw [map]; rfl, by rw [pool]; rfl, by rw [pool]; rfl,
      fun h v inT => ?_, fun h p z b executing => ?_⟩ (keeps_visitEntry s w)
    · rw [map] at inT
      cases inT
      exact (ap_eq_of_aps_eq aps w.ap) ▸ h w walk
    · exact (ap_eq_of_aps_eq aps (apOf p)) ▸ h p z b (ord ▸ executing)
  endLongOrder := .inr fun s t h k => by
    have marks : KeepsStatus s t := .of_marks (touches_endLongOrder h) (marks_endLongOrder h)
    rcases endLongOrder_cases h with ⟨_, _, _, w, -, walk, -, -, rfl⟩ | ⟨_, _, _, _, _, -, -, -, rfl⟩ |
      ⟨ap, zero, b2, executing, -, rfl⟩
    · exact endWalk s w _ walk k
    · exact ground s _ (ground_orderDone s _) marks k
    · exact ground s _ (ground_endFreeze _ (freezes s k ap zero b2 executing)) marks k

/-! ### The extents (R25) -/

theorem extentsOk_of_ground {s t : State} (g : KeepsGround s t) (h : s.ExtentsOk) : t.ExtentsOk := by
  obtain ⟨gaps, bounds, lens, covered, single, walk, freeze⟩ := h
  have extent (a : ApIx) : t.extent a = s.extent a := by
    rw [State.extent, State.extent, (g.shape a).extFirst, (g.shape a).extLen]
  refine ⟨g.freeExtents ▸ gaps, g.freeExtents ▸ bounds, fun a => ?_, ?_, ?_, g.walk walk, g.freeze freeze⟩
  · have len := lens a
    have shape := g.shape a
    simp only [shape.closed, shape.extFirst, shape.extLen]
    exact len
  · simpa only [extent, g.freeExtents] using covered
  · simpa only [extent, g.freeExtents] using single

/-- With every aperture CLOSED, of no extent, and all entries in one free extent (R4, R38). -/
theorem extentsOk_of_cleared {s : State} (aps : s.aps = Vector.replicate 8 Aperture.reset) (map : s.map = TileMap.reset)
    (idle : s.ord.executing = none) : s.ExtentsOk := by
  have ap (a : ApIx) : s.ap a = Aperture.reset := by
    rw [State.ap, aps]
    exact Vector.getElem_replicate ..
  have none (a : ApIx) (i : Nat) : ¬(s.extent a).Holds i := by
    rw [State.extent, ap]
    simp [Extent.Holds, Aperture.reset]
  rw [State.ExtentsOk, map]
  refine ⟨List.pairwise_singleton .., by simp [TileMap.reset, Config.mapEntries], fun a => by rw [ap]; rfl, fun i bound => ?_,
    fun a i holds => absurd holds (none a i), nofun, freezeFreezes_of_idle idle⟩
  exact .inl ⟨⟨0, 262144⟩, List.mem_singleton.2 rfl, by simpa [Extent.Holds] using bound⟩

/-- The extents of a state in which one aperture's record has been replaced. -/
theorem extent_of_record {s t : State} {a : ApIx} {x : Aperture} (ap : ∀ b, t.ap b = if b = a then x else s.ap b) (b : ApIx) :
    t.extent b = if b = a then ⟨x.extFirst, x.extLen⟩ else s.extent b := by
  rw [State.extent, ap]
  split <;> rfl

/-- Extents that hold no entry in common lie apart. -/
theorem apart_of_holds {x y : Extent} (xPositive : 0 < x.len) (yPositive : 0 < y.len)
    (none : ∀ i, x.Holds i → ¬y.Holds i) : y.first + y.len ≤ x.first ∨ x.first + x.len ≤ y.first := by
  by_contra meet
  refine none (max x.first y.first) ⟨?_, ?_⟩ ⟨?_, ?_⟩ <;> omega

/-- The end of a walk returns the aperture's extent (R36). -/
theorem extentsOk_endWalk {s : State} {w : Walk} (o : Order) (walking : s.map.walk = some w) (h : s.ExtentsOk) :
    ((s.endWalk w.ap).orderDone o).ExtentsOk := by
  obtain ⟨gaps, bounds, lens, covered, single, walk, -⟩ := h
  have live : (s.ap w.ap).state ≠ .closed := by rw [walk w walking]; nofun
  have len := lens w.ap
  rw [if_neg live] at len
  obtain ⟨positive, bound⟩ := len
  have ap (b : ApIx) : ((s.endWalk w.ap).orderDone o).ap b = if b = w.ap then
      { s.ap w.ap with state := .closed, extFirst := 0, extLen := 0, rects := [], committed := 0 } else s.ap b :=
    ap_putAp (s.setMap _) w.ap b _
  have extent := extent_of_record ap
  have disjoint : ∀ y ∈ s.map.freeExtents, y.first + y.len ≤ (s.ap w.ap).extFirst ∨
      (s.ap w.ap).extFirst + (s.ap w.ap).extLen ≤ y.first := fun y free =>
    apart_of_holds (x := s.extent w.ap) positive (bounds y free).1 fun i holds => (single w.ap i holds).1 y free
  have covers := returnExtent_covers s.map.freeExtents (s.extent w.ap)
  refine ⟨returnExtent_gaps gaps disjoint, returnExtent_bounds ⟨positive, bound⟩ bounds, fun a => ?lens, fun i inMap => ?covered,
    fun a i holds => ?single, nofun, freezeFreezes_of_idle rfl⟩
  case lens =>
    rw [ap]
    split
    · rfl
    · exact lens a
  case covered =>
    rcases covered i inMap with free | ⟨a, holds⟩
    · exact .inl ((covers i).2 (.inr free))
    · by_cases here : a = w.ap
      · exact .inl ((covers i).2 (.inl (here ▸ holds)))
      · exact .inr ⟨a, by rwa [extent, if_neg here]⟩
  case single =>
    rw [extent] at holds
    split at holds
    · obtain ⟨lo, hi⟩ := holds
      dsimp only at lo hi
      omega
    · next other =>
      obtain ⟨notFree, notOther⟩ := single a i holds
      refine ⟨fun y free holdsY => ?_, fun b ne holdsB => ?_⟩
      · rcases (covers i).1 ⟨y, free, holdsY⟩ with returned | ⟨z, inL, holdsZ⟩
        · exact notOther w.ap (Ne.symm other) returned
        · exact notFree z inL holdsZ
      · rw [extent] at holdsB
        split at holdsB
        · obtain ⟨lo, hi⟩ := holdsB
          dsimp only at lo hi
          omega
        · exact notOther b ne holdsB

/-- An accepted OPEN takes its extent from the free ones (R16, R26). -/
theorem extentsOk_openOrder (s : State) (f : OpenFields) (h : s.ExtentsOk) : (s.execute (.openOrder f)).ExtentsOk := by
  rw [State.execute]
  rcases runOpen_cases s (.openOrder f) f with ⟨k, refused⟩ | ⟨-, closed, -, -, -, -, first, left, taken, accepted⟩
  · rw [refused]
    exact extentsOk_of_ground (ground_orderRefused s _ k) h
  rw [accepted]
  obtain ⟨gaps, bounds, lens, covered, single, walk, -⟩ := h
  have positive : 0 < (f.width.toNat + 1) * (f.height.toNat + 1) := Nat.mul_pos (Nat.succ_pos _) (Nat.succ_pos _)
  obtain ⟨gapsLeft, boundsLeft, bound, disjoint⟩ := takeExtent_keeps taken positive gaps bounds
  have covers := takeExtent_covers taken
  have noExtent (i : Nat) : ¬(s.extent (apOf f.ap)).Holds i := fun ⟨lo, hi⟩ => by
    have len := lens (apOf f.ap)
    rw [if_pos closed] at len
    rw [State.extent] at lo hi
    dsimp only at lo hi
    omega
  generalize ht : ((State.putAp _ _ _).markStale.orderDone _) = t
  have ap (b : ApIx) : t.ap b = if b = apOf f.ap then openedRecord f first else s.ap b := by
    rw [← ht]
    exact ap_putAp (s.setMap _) (apOf f.ap) b _
  have extent := extent_of_record ap
  have free : t.map.freeExtents = left := by rw [← ht]; rfl
  have walkSame : t.map.walk = s.map.walk := by rw [← ht]; rfl
  refine ⟨free ▸ gapsLeft, free ▸ boundsLeft, fun a => ?lens, fun i inMap => ?covered, fun a i holds => ?single,
    fun w walking => ?walk, freezeFreezes_of_idle (by rw [← ht]; rfl)⟩
  case lens =>
    rw [ap]
    split
    · exact ⟨positive, bound⟩
    · exact lens a
  case covered =>
    rw [free]
    rcases covered i inMap with isFree | ⟨a, holds⟩
    · rcases (covers i).1 isFree with inNew | stays
      · exact .inr ⟨apOf f.ap, by rw [extent, if_pos rfl]; exact inNew⟩
      · exact .inl stays
    · refine .inr ⟨a, ?_⟩
      rw [extent]
      split
      · next here => exact absurd (here ▸ holds) (noExtent i)
      · exact holds
  case single =>
    rw [free]
    rw [extent] at holds
    split at holds
    · next here =>
      subst here
      refine ⟨fun y inLeft holdsY => ?_, fun b ne holdsB => ?_⟩
      · obtain ⟨lo, hi⟩ := holds
        obtain ⟨loY, hiY⟩ := holdsY
        have := disjoint y inLeft
        simp only [openedRecord] at lo hi
        omega
      · rw [extent, if_neg ne] at holdsB
        obtain ⟨y, isFree, holdsY⟩ := (covers i).2 (.inl holds)
        exact (single b i holdsB).1 y isFree holdsY
    · next other =>
      obtain ⟨notFree, notOther⟩ := single a i holds
      refine ⟨fun y inLeft holdsY => ?_, fun b ne holdsB => ?_⟩
      · obtain ⟨z, isFree, holdsZ⟩ := (covers i).2 (.inr ⟨y, inLeft, holdsY⟩)
        exact notFree z isFree holdsZ
      · rw [extent] at holdsB
        split at holdsB
        · obtain ⟨z, isFree, holdsZ⟩ := (covers i).2 (.inl holdsB)
          exact notFree z isFree holdsZ
        · exact notOther b ne holdsB
  case walk =>
    have retiring := walk w (walkSame ▸ walking)
    rw [ap]
    split
    · next here =>
      rw [here, closed] at retiring
      cases retiring
    · exact retiring

theorem extentsOk_setPool (s : State) (f : PoolFields) (h : s.ExtentsOk) : (s.execute (.setPool f)).ExtentsOk := by
  rw [State.execute]
  rcases runSetPool_cases s (.setPool f) f with ⟨k, refused⟩ | ⟨-, -, -, accepted⟩
  · rw [refused]
    exact extentsOk_of_ground (ground_orderRefused s _ k) h
  · rw [accepted]
    obtain ⟨gaps, bounds, lens, covered, single, walk, -⟩ := h
    exact ⟨gaps, bounds, lens, covered, single, walk, freezeFreezes_of_idle rfl⟩

theorem ground_runSetStatus (s : State) (o : Order) (field : BitVec 40) (mask : Byte) :
    KeepsGround s (s.runSetStatus o field mask) := by
  rcases runSetStatus_cases s o field mask with ⟨k, refused⟩ | ⟨-, accepted⟩
  · rw [refused]
    exact ground_orderRefused s o k
  · rw [accepted]
    exact (ground_orderDone s o).trans (.of_touches (touches_setSt _ _))

theorem extentsOk_kept : KeptFrom [.aps, .map, .pool, .ord] State.ExtentsOk :=
  kept_of_ground
    (freezes := fun _ ⟨_, _, _, _, _, _, freeze⟩ => freeze)
    (ground := fun _ _ g _ => extentsOk_of_ground g)
    (powerOn := fun _ _ => extentsOk_of_cleared rfl rfl rfl)
    (resetAsserted := fun _ _ => extentsOk_of_cleared rfl rfl rfl)
    (endWalk := fun _ _ o => extentsOk_endWalk o)
    (openOrder := extentsOk_openOrder)
    (setPool := extentsOk_setPool)
    (setStatus := fun s field mask => extentsOk_of_ground (ground_runSetStatus s _ field mask))

/-! ### The regions (R11) -/

/-- The regions lie apart while the apertures keep their shape and the pool and the status block their place. -/
theorem regionsOk_of_ground {s t : State} (g : KeepsGround s t) (m : KeepsStatus s t) (h : s.RegionsOk) : t.RegionsOk := by
  have inAperture (a : ApIx) (x : Nat) : t.InAperture a x ↔ s.InAperture a x := by
    have shape := g.shape a
    rw [State.InAperture, State.InAperture, shape.base, shape.width, shape.height, shape.fmt, ne_eq, shape.closed]
  have inPool (x : Nat) : t.InPool x ↔ s.InPool x := by rw [State.InPool, State.InPool, g.poolBase, g.poolCount]
  have inStatus (x : Nat) : t.InStatus x ↔ s.InStatus x := by rw [State.InStatus, State.InStatus, m.addr, m.enable]
  obtain ⟨single, notPool, notStatus, poolStatus, freeze⟩ := h
  simp only [State.RegionsOk, inAperture, inPool, inStatus]
  exact ⟨single, notPool, notStatus, poolStatus, g.freeze freeze⟩

/-- With every aperture CLOSED and no pool, only the status block is a region. -/
theorem regionsOk_of_cleared {s : State} (aps : s.aps = Vector.replicate 8 Aperture.reset) (pool : s.pool = Pool.reset)
    (idle : s.ord.executing = none) : s.RegionsOk := by
  have none (a : ApIx) (x : Nat) : ¬s.InAperture a x := fun ⟨live, _⟩ => live (by
    rw [State.ap, aps]
    exact congrArg Aperture.state (Vector.getElem_replicate ..))
  have noPool (x : Nat) : ¬s.InPool x := by
    rw [State.InPool, pool]
    simp [Pool.reset]
  exact ⟨fun x a _ h => absurd h (none a x), fun x a h => absurd h (none a x), fun x a h => absurd h (none a x),
    fun x h => absurd h (noPool x), freezeFreezes_of_idle idle⟩

/-- The regions of a state in which an aperture has been closed, or given a range that meets none. -/
theorem regionsOk_of_record {s t : State} {a : ApIx} {x : Aperture} (ap : ∀ b, t.ap b = if b = a then x else s.ap b)
    (pool : t.pool = s.pool) (m : KeepsStatus s t) (idle : t.ord.executing = none)
    (meets : x.state ≠ .closed → ∀ y, x.base ≤ y → y < x.base + x.size →
      (∀ b, ¬s.InAperture b y) ∧ ¬s.InPool y ∧ ¬s.InStatus y) (h : s.RegionsOk) : t.RegionsOk := by
  have meets (y : Nat) (inNew : t.InAperture a y) : (∀ b, ¬s.InAperture b y) ∧ ¬s.InPool y ∧ ¬s.InStatus y := by
    obtain ⟨live, lo, hi⟩ := inNew
    rw [ap, if_pos rfl] at live lo hi
    exact meets live y lo (by rwa [size_eq])
  have inAperture {b : ApIx} (other : b ≠ a) (y : Nat) : t.InAperture b y ↔ s.InAperture b y := by
    rw [State.InAperture, State.InAperture, ap, if_neg other]
  have inPool (y : Nat) : t.InPool y ↔ s.InPool y := by rw [State.InPool, State.InPool, pool]
  have inStatus (y : Nat) : t.InStatus y ↔ s.InStatus y := by rw [State.InStatus, State.InStatus, m.addr, m.enable]
  obtain ⟨single, notPool, notStatus, poolStatus, -⟩ := h
  refine ⟨fun y b c inB inC => ?_, fun y b inB => ?_, fun y b inB => ?_, fun y => ?_, freezeFreezes_of_idle idle⟩
  · by_cases bHere : b = a
    · by_cases cHere : c = a
      · exact bHere.trans cHere.symm
      · exact absurd ((inAperture cHere y).1 inC) ((meets y (bHere ▸ inB)).1 c)
    · by_cases cHere : c = a
      · exact absurd ((inAperture bHere y).1 inB) ((meets y (cHere ▸ inC)).1 b)
      · exact single y b c ((inAperture bHere y).1 inB) ((inAperture cHere y).1 inC)
  · rw [inPool]
    by_cases here : b = a
    · exact (meets y (here ▸ inB)).2.1
    · exact notPool y b ((inAperture here y).1 inB)
  · rw [inStatus]
    by_cases here : b = a
    · exact (meets y (here ▸ inB)).2.2
    · exact notStatus y b ((inAperture here y).1 inB)
  · rw [inPool, inStatus]
    exact poolStatus y

theorem regionsOk_endWalk {s : State} (w : Walk) (o : Order) (h : s.RegionsOk) :
    ((s.endWalk w.ap).orderDone o).RegionsOk := by
  have ap (b : ApIx) : ((s.endWalk w.ap).orderDone o).ap b = if b = w.ap then
      { s.ap w.ap with state := .closed, extFirst := 0, extLen := 0, rects := [], committed := 0 } else s.ap b :=
    ap_putAp (s.setMap _) w.ap b _
  exact regionsOk_of_record ap rfl
    (.of_marks ((touches_endWalk s w.ap).andThen (C := [.map, .aps, .ord, .st]) (touches_orderDone _ o))
      ((marks_endWalk s w.ap).trans (marks_orderDone _ o))) rfl (fun live => absurd rfl live) h

/-- The range that an accepted OPEN gives its aperture meets no region (R11, R15). -/
theorem regionsOk_openOrder (s : State) (f : OpenFields) (h : s.RegionsOk) : (s.execute (.openOrder f)).RegionsOk := by
  have keeps := keeps_runOpen s (.openOrder f) f
  rw [State.execute]
  rcases runOpen_cases s (.openOrder f) f with ⟨k, refused⟩ | ⟨-, -, -, noAp, noPool, noStatus, first, left, -, accepted⟩
  · rw [refused]
    exact regionsOk_of_ground (ground_orderRefused s _ k) (keeps_orderRefused s _ k) h
  rw [accepted] at keeps ⊢
  generalize ht : ((State.putAp _ _ _).markStale.orderDone _) = t at keeps ⊢
  have ap (b : ApIx) : t.ap b = if b = apOf f.ap then openedRecord f first else s.ap b := by
    rw [← ht]
    exact ap_putAp (s.setMap _) (apOf f.ap) b _
  exact regionsOk_of_record ap (by rw [← ht]; rfl) keeps (by rw [← ht]; rfl)
    (fun _ y lo hi => ⟨not_inAperture noAp lo hi, not_inPool noPool lo hi, not_inStatus noStatus lo hi⟩) h

/-- The pool that an accepted SET POOL defines meets neither an aperture, all being CLOSED, nor the status block (R52). -/
theorem regionsOk_setPool (s : State) (f : PoolFields) (h : s.RegionsOk) : (s.execute (.setPool f)).RegionsOk := by
  rw [State.execute]
  rcases runSetPool_cases s (.setPool f) f with ⟨k, refused⟩ | ⟨-, closed, apartStatus, accepted⟩
  · rw [refused]
    exact regionsOk_of_ground (ground_orderRefused s _ k) (keeps_orderRefused s _ k) h
  · rw [accepted]
    have none (a : ApIx) (x : Nat) : ¬s.InAperture a x := fun ⟨live, _⟩ => live (closed a)
    exact ⟨fun x a _ inA => absurd inA (none a x), fun x a inA => absurd inA (none a x),
      fun x a inA => absurd inA (none a x), fun x ⟨lo, hi⟩ => not_inStatus apartStatus lo hi, freezeFreezes_of_idle rfl⟩

/-- The enabled status block that an accepted SET STATUS places meets neither the pool region nor an aperture (R186). -/
theorem regionsOk_setStatus (s : State) (field : BitVec 40) (mask : Byte) (h : s.RegionsOk) :
    (s.execute (.setStatus field mask)).RegionsOk := by
  rw [State.execute]
  rcases runSetStatus_cases s (.setStatus field mask) field mask with ⟨k, refused⟩ | ⟨apartAll, accepted⟩
  · rw [refused]
    exact regionsOk_of_ground (ground_orderRefused s _ k) (keeps_orderRefused s _ k) h
  · rw [accepted]
    obtain ⟨single, notPool, -, -, -⟩ := h
    simp only [Bool.and_eq_true, Bool.or_eq_true, not_and, not_or, Bool.not_eq_true] at apartAll
    refine ⟨single, notPool, fun x a inA ⟨enable, lo, hi⟩ => ?_, fun x inPool ⟨enable, lo, hi⟩ => ?_,
      freezeFreezes_of_idle rfl⟩
    · exact not_inAperture (apartAll enable).2 lo hi a inA
    · exact not_inPool (apartAll enable).1 lo hi inPool

theorem regionsOk_kept : KeptFrom [.aps, .map, .pool, .ord] State.RegionsOk :=
  kept_of_ground
    (freezes := fun _ ⟨_, _, _, _, freeze⟩ => freeze)
    (ground := fun _ _ => regionsOk_of_ground)
    (powerOn := fun _ _ => regionsOk_of_cleared rfl rfl rfl)
    (resetAsserted := fun _ _ => regionsOk_of_cleared rfl rfl rfl)
    (endWalk := fun _ w o _ => regionsOk_endWalk w o)
    (openOrder := regionsOk_openOrder)
    (setPool := regionsOk_setPool)
    (setStatus := regionsOk_setStatus)

/-- Settles O57: the operations of a step keep the map's canonical form, the extents and the regions, so every step does. -/
theorem stepKeepsTheMapCanonical : Obligations.StepKeepsTheMapCanonical :=
  ⟨fun _ _ => mapOk_kept.step, fun _ _ => extentsOk_kept.step, fun _ _ => regionsOk_kept.step⟩

end Sys2Proof.Machine
end

section
/-! PROOFS. The end of an event comes to rest (assumption log 10): each of the ten rules lowers the bound on the work that is left. -/

set_option Elab.async false

namespace Sys2Proof.Machine

/-! ### What is left to do, block by block -/

/-- What the requests in the window leave to do. -/
def windowWork (l : List Request) : Nat := (l.map fun r => 4 * r.waitingParts + 1).sum

/-- What the blocks leave to do but the order queue, the bus and the encoder: the parts, the held writes and the pending records. -/
def State.pieces (s : State) : Nat := windowWork s.port.window + 2 * s.asm.held.length + s.rd.pendingList.length

theorem work_eq (s : State) : s.work =
    320 * s.ord.queue.length + s.ord.executing.isSome.toNat + 330 * s.port.busHeld.length + s.pieces +
      4 * s.pool.waiting.isSome.toNat + s.enc.op.isNone.toNat + s.rd.decoder.isNone.toNat := by
  simp only [State.work, State.pieces, windowWork]
  omega

/-- From `s` to `t` the pieces grow by at most `n`, and the rest of the work stays. -/
structure Grows (n : Nat) (s t : State) : Prop where
  ord : t.ord = s.ord
  bus : t.port.busHeld = s.port.busHeld
  waiting : t.pool.waiting = s.pool.waiting
  op : t.enc.op = s.enc.op
  decoder : t.rd.decoder = s.rd.decoder
  pieces : t.pieces ≤ s.pieces + n

theorem Grows.trans {m n : Nat} {s t u : State} (h : Grows m s t) (k : Grows n t u) : Grows (m + n) s u :=
  ⟨k.ord.trans h.ord, k.bus.trans h.bus, k.waiting.trans h.waiting, k.op.trans h.op, k.decoder.trans h.decoder, by
    have := h.pieces
    have := k.pieces
    omega⟩

theorem Grows.refl (s : State) : Grows 0 s s := ⟨rfl, rfl, rfl, rfl, rfl, Nat.le_refl _⟩

theorem Grows.mono {m n : Nat} {s t : State} (h : Grows m s t) (k : m ≤ n) : Grows n s t :=
  { h with pieces := Nat.le_trans h.pieces (Nat.add_le_add_left k _) }

theorem Grows.foldl {α : Type} {f : State → α → State} {n : Nat} (h : ∀ s x, Grows n s (f s x)) (l : List α) (s : State) :
    Grows (n * l.length) s (l.foldl f s) := by
  induction l generalizing s with
  | nil => exact .refl s
  | cons x xs ih => exact ((h s x).trans (ih _)).mono (by rw [List.length_cons, Nat.mul_succ]; omega)

/-- The work of a state whose pieces have grown by at most `n`. -/
theorem Grows.work {n : Nat} {s t : State} (h : Grows n s t) : t.work ≤ s.work + n := by
  have := h.pieces
  rw [work_eq, work_eq, h.ord, h.bus, h.waiting, h.op, h.decoder]
  omega

/-! ### The window -/

theorem waitingParts_conclude (r : Request) : r.conclude.waitingParts = r.waitingParts := by
  unfold Request.conclude
  split <;> rfl

theorem windowWork_cons (r : Request) (l : List Request) : windowWork (r :: l) = 4 * r.waitingParts + 1 + windowWork l := rfl

theorem windowWork_append (l m : List Request) : windowWork (l ++ m) = windowWork l + windowWork m := by
  simp [windowWork]

theorem windowWork_map_le (l : List Request) {f : Request → Request} (h : ∀ r, (f r).waitingParts ≤ r.waitingParts) :
    windowWork (l.map f) ≤ windowWork l := by
  induction l with
  | nil => exact Nat.le_refl _
  | cons r rest ih =>
    have := h r
    rw [List.map_cons, windowWork_cons, windowWork_cons]
    omega

theorem countP_modify_le {α : Type} (p : α → Bool) (f : α → α) (h : ∀ x, p (f x) = true → p x = true) (l : List α) (i : Nat) :
    (l.modify i f).countP p ≤ l.countP p := by
  induction l generalizing i with
  | nil => simp
  | cons x xs ih =>
    cases i with
    | zero =>
      rw [List.modify_zero_cons, List.countP_cons, List.countP_cons]
      by_cases stays : p (f x) = true
      · simp [stays, h x stays]
      · simp [stays]
    | succ i =>
      have := ih i
      rw [List.modify_succ_cons, List.countP_cons, List.countP_cons]
      omega

/-- A part that begins, ends or fails adds no waiting part. -/
theorem waitingParts_modify_le (r : Request) (i : Nat) {f : Part → Part} (h : ∀ p, (f p).progress ≠ .waiting) :
    ({ r with parts := r.parts.modify i f } : Request).waitingParts ≤ r.waitingParts :=
  countP_modify_le (fun p : Part => decide (p.progress = .waiting)) f
    (fun p waits => absurd (of_decide_eq_true waits) (h p)) r.parts i

theorem waitingParts_updated_le (r : Request) (ref : PartRef) {f : Part → Part} (h : ∀ p, (f p).progress ≠ .waiting) :
    (if r.id = ref.req then { r with parts := r.parts.modify ref.part f }.conclude else r).waitingParts ≤
      r.waitingParts := by
  split
  · rw [waitingParts_conclude]
    exact waitingParts_modify_le r _ h
  · exact Nat.le_refl _

theorem grows_updPart {n : Nat} (s : State) (ref : PartRef) {f : Part → Part} (h : ∀ p, (f p).progress ≠ .waiting) :
    Grows n s (s.updPart ref f) :=
  ⟨rfl, rfl, rfl, rfl, rfl, Nat.le_trans
    (Nat.add_le_add_right (Nat.add_le_add_right (windowWork_map_le _ fun r => waitingParts_updated_le r ref h) _) _)
    (Nat.le_add_right _ n)⟩

/-! ### The read path and the assembly buffer -/

theorem grows_useMapTile (s : State) (t : TileRef) : Grows 0 s (s.useMapTile t) := by
  unfold State.useMapTile State.touchCache
  split
  · split <;> exact ⟨rfl, rfl, rfl, rfl, rfl, Nat.le_refl _⟩
  · exact .refl s

/-- A waiter that joins no entry makes at most one pending record (R137). -/
theorem grows_joinDecode (s : State) (t : TileRef) (add : DecodeEntry → DecodeEntry) : Grows 1 s (s.joinDecode t add) := by
  have length (p : DecodeEntry → Bool) (l : List DecodeEntry) : (modifyFirst p add l).length = l.length := by
    induction l with
    | nil => rfl
    | cons x xs ih =>
      rw [modifyFirst]
      split
      · rfl
      · rw [List.length_cons, ih, List.length_cons]
  have pieces (n : Nat) (l : List DecodeEntry) (h : l.length ≤ s.rd.pendingList.length + n) :
      Grows n s (s.setRd { s.rd with pendingList := l }) := ⟨rfl, rfl, rfl, rfl, rfl, by
    show windowWork s.port.window + 2 * s.asm.held.length + l.length ≤
      windowWork s.port.window + 2 * s.asm.held.length + s.rd.pendingList.length + n
    omega⟩
  unfold State.joinDecode
  split
  · exact ⟨rfl, rfl, rfl, rfl, rfl, Nat.le_add_right _ _⟩
  · split
    · exact (pieces 0 _ (Nat.le_of_eq (length _ _))).mono (Nat.zero_le 1)
    · split
      · exact ⟨rfl, rfl, rfl, rfl, rfl, Nat.le_add_right _ _⟩
      · exact pieces 1 _ (by simp)

theorem grows_startGather (s : State) (k : SlotIx) (t : TileRef) : Grows 1 s (s.startGather k t) := by
  unfold State.startGather
  split
  · exact (grows_useMapTile s t).trans (n := 1) ⟨rfl, rfl, rfl, rfl, rfl, Nat.le_add_right _ _⟩
  · exact grows_joinDecode s t _

theorem grows_sealNow (s : State) (k : SlotIx) : Grows 1 s (s.sealNow k) := by
  have queued (l : List SlotIx) (x : Slot) (m : List SlotIx) :
      Grows 0 s (((s.putOpenList l).putSlot k x).putSealQueue m) := ⟨rfl, rfl, rfl, rfl, rfl, Nat.le_refl _⟩
  unfold State.sealNow
  dsimp only
  split
  · exact (queued _ _ _).trans (grows_startGather _ _ _)
  · exact (queued _ _ _).mono (Nat.zero_le 1)

theorem grows_sealCall (s : State) (k : SlotIx) : Grows 1 s (s.sealCall k) := by
  have none : Grows 1 s s := (Grows.refl s).mono (Nat.zero_le 1)
  unfold State.sealCall
  dsimp only
  split
  · exact none
  · split
    · exact grows_sealNow s k
    · split
      · exact none
      · exact ⟨rfl, rfl, rfl, rfl, rfl, none.pieces⟩

theorem grows_openSlot (s : State) (k : SlotIx) (t : TileRef) : Grows 0 s (s.openSlot k t) :=
  ⟨rfl, rfl, rfl, rfl, rfl, Nat.le_refl _⟩

theorem grows_land (s : State) (k : SlotIx) (ref : PartRef) (part : Part) : Grows 1 s (s.land k ref part) := by
  have landed (x : Slot) (l : List SlotIx) :
      Grows 0 s (((s.putSlot k x).putOpenList l).updPart ref fun q => { q with progress := .complete }) :=
    (show Grows 0 s ((s.putSlot k x).putOpenList l) from ⟨rfl, rfl, rfl, rfl, rfl, Nat.le_refl _⟩).trans
      (n := 0) (grows_updPart _ ref (by intro _; nofun))
  unfold State.land
  dsimp only
  split
  · exact (landed _ _).trans (grows_sealCall _ _)
  · exact (landed _ _).mono (Nat.zero_le 1)

/-- A held write and the record that its eviction may make (R63). -/
theorem grows_hold (s : State) (ref : PartRef) (part : Part) : Grows 3 s (s.hold ref part) := by
  have held (l : List HeldWrite) (h : l.length = s.asm.held.length + 1) :
      Grows 2 s ((s.putHeld l).updPart ref fun q => { q with progress := .proceeding }) :=
    (show Grows 2 s (s.putHeld l) from ⟨rfl, rfl, rfl, rfl, rfl, by
      show windowWork s.port.window + 2 * l.length + s.rd.pendingList.length ≤
        windowWork s.port.window + 2 * s.asm.held.length + s.rd.pendingList.length + 2
      omega⟩).trans (n := 0) (grows_updPart _ ref (by intro _; nofun))
  unfold State.hold
  dsimp only
  split
  · exact (held _ (by simp)).mono (by decide)
  · exact (held _ (by simp)).trans (grows_sealCall _ _)

theorem grows_takeWrite (s : State) (ref : PartRef) : Grows 3 s (s.takeWrite ref) := by
  unfold State.takeWrite
  split
  · exact (Grows.refl s).mono (Nat.zero_le 3)
  · split
    · exact grows_updPart s ref (by intro _; nofun)
    · split
      · exact (grows_land s _ _ _).mono (by decide)
      · split
        · exact ((grows_openSlot s _ _).trans (grows_land _ _ _ _)).mono (by decide)
        · exact grows_hold s _ _

theorem grows_takeRead (s : State) (ref : PartRef) : Grows 1 s (s.takeRead ref) := by
  unfold State.takeRead
  split
  · exact (Grows.refl s).mono (Nat.zero_le 1)
  · dsimp only
    split
    · exact grows_updPart s ref (by intro _; nofun)
    · split
      · exact (grows_useMapTile s _).trans (n := 1) (grows_updPart _ ref (by intro _; nofun))
      · exact (grows_joinDecode s _ _).trans (n := 0) (grows_updPart _ ref (by intro _; nofun))

theorem grows_freeEncoding (s : State) (k : SlotIx) : Grows 1 s (s.freeEncoding k) := by
  have put (j : SlotIx) (u : State) (x : Slot) : Grows 0 u (u.putSlot j x) := ⟨rfl, rfl, rfl, rfl, rfl, Nat.le_refl _⟩
  refine (put k s (s.slot k).freed).trans (n := 1) ?_
  unfold State.freeEncoding State.unlinkSuccessor
  split
  · exact (Grows.refl _).mono (Nat.zero_le 1)
  · dsimp only
    split
    · exact (put _ _ _).trans (grows_sealNow _ _)
    · exact (put _ _ _).mono (Nat.zero_le 1)

/-! ### The slots that a FLUSH forces -/

theorem sortByKey_length (key : SlotIx → Nat) (l : List SlotIx) : (sortByKey key l).length = l.length := by
  have insert (k : SlotIx) (l : List SlotIx) : (insertByKey key k l).length = l.length + 1 := by
    induction l with
    | nil => rfl
    | cons x xs ih =>
      rw [insertByKey]
      split
      · rfl
      · rw [List.length_cons, ih, List.length_cons]
  induction l with
  | nil => rfl
  | cons k rest ih => rw [sortByKey, insert, ih, List.length_cons]

theorem slotsWith_length_le (s : State) (p : Slot → Bool) : (s.slotsWith p).length ≤ 256 := by
  refine Nat.le_trans (List.length_filterMap_le _ _) ?_
  rw [mapFrom_length]
  simp

theorem grows_forceSlots (s : State) (on : ApIx → Bool) : Grows 256 s (s.forceSlots on) := by
  have marked := Grows.foldl (f := State.markSlot) (n := 0)
    (fun u k => ⟨rfl, rfl, rfl, rfl, rfl, Nat.le_refl _⟩)
    (s.slotsWith fun sl => decide (sl.state = .filling) && (sl.tile.elim false fun t => on t.ap)) (s.setDraws (s.draws + 1))
  have drawn : Grows 0 s (s.setDraws (s.draws + 1)) := ⟨rfl, rfl, rfl, rfl, rfl, Nat.le_refl _⟩
  refine ((drawn.trans marked).trans (Grows.foldl grows_sealCall _ _)).mono ?_
  rw [sortByKey_length]
  have := slotsWith_length_le s fun sl => decide (sl.state = .filling) && (sl.tile.elim false fun t => on t.ap)
  omega

/-! ### What an order makes due (R174) -/

/-- The blocks that the bound is read from. -/
abbrev workBlocks : List Block := [.ord, .port, .pool, .asm, .enc, .rd]

theorem work_of_touches {B : List Block} {s t : State} (h : OnlyTouches B s t) (k : ∀ b ∈ workBlocks, b ∉ B := by decide) :
    t.work = s.work := by
  have ord : t.ord = s.ord := h .ord (k .ord (by decide))
  have port : t.port = s.port := h .port (k .port (by decide))
  have pool : t.pool = s.pool := h .pool (k .pool (by decide))
  have asm : t.asm = s.asm := h .asm (k .asm (by decide))
  have enc : t.enc = s.enc := h .enc (k .enc (by decide))
  have rd : t.rd = s.rd := h .rd (k .rd (by decide))
  simp only [State.work, ord, port, pool, asm, enc, rd]

theorem work_setOrd (s : State) (x : OrderUnit) :
    (s.setOrd x).work + 320 * s.ord.queue.length + s.ord.executing.isSome.toNat =
      s.work + 320 * x.queue.length + x.executing.isSome.toNat := by
  have now : (s.setOrd x).work = 320 * x.queue.length + x.executing.isSome.toNat + 330 * s.port.busHeld.length + s.pieces +
    4 * s.pool.waiting.isSome.toNat + s.enc.op.isNone.toNat + s.rd.decoder.isNone.toNat := work_eq (s.setOrd x)
  have was := work_eq s
  omega

theorem work_putEnc (s : State) (x : Encoder) :
    (s.putEnc x).work + s.enc.op.isNone.toNat = s.work + x.op.isNone.toNat := by
  have now : (s.putEnc x).work = 320 * s.ord.queue.length + s.ord.executing.isSome.toNat + 330 * s.port.busHeld.length +
    s.pieces + 4 * s.pool.waiting.isSome.toNat + x.op.isNone.toNat + s.rd.decoder.isNone.toNat := work_eq (s.putEnc x)
  have was := work_eq s
  omega

theorem work_putPool (s : State) (x : Pool) :
    (s.putPool x).work + 4 * s.pool.waiting.isSome.toNat = s.work + 4 * x.waiting.isSome.toNat := by
  have now : (s.putPool x).work = 320 * s.ord.queue.length + s.ord.executing.isSome.toNat + 330 * s.port.busHeld.length +
    s.pieces + 4 * x.waiting.isSome.toNat + s.enc.op.isNone.toNat + s.rd.decoder.isNone.toNat := work_eq (s.putPool x)
  have was := work_eq s
  omega

theorem work_concludeOrder (s : State) (o : Order) (x : OrderResult) (reason : Option OrderReason) :
    (s.concludeOrder o x reason).work + s.ord.executing.isSome.toNat = s.work := by
  have ended : (s.concludeOrder o x reason).work + 320 * s.ord.queue.length + s.ord.executing.isSome.toNat =
      s.work + 320 * s.ord.queue.length + 0 :=
    work_setOrd s { s.ord with
      executing := none, record := ⟨o.byte0, o.recordAp, x, reason, 0⟩, completed := s.ord.completed + 1 }
  omega

theorem work_orderDone_le (s : State) (o : Order) : (s.orderDone o).work ≤ s.work := by
  have := work_concludeOrder s o .done none
  rw [State.orderDone]
  omega

theorem work_orderRefused_le (s : State) (o : Order) (k : OrderReason) : (s.orderRefused o k).work ≤ s.work := by
  have := work_concludeOrder s o .refused (some k)
  rw [State.orderRefused, work_of_touches (touches_raise _ _)]
  omega

theorem work_orderStarts_le (s : State) (o : Order) : (s.orderStarts o).work ≤ s.work + 1 := by
  have started : (s.orderStarts o).work + 320 * s.ord.queue.length + s.ord.executing.isSome.toNat =
      s.work + 320 * s.ord.queue.length + 1 := work_setOrd s { s.ord with executing := some o }
  omega

theorem waitingParts_retire_le (a : ApIx) (r : Request) : (r.retire a).waitingParts ≤ r.waitingParts := by
  unfold Request.retire
  split
  · exact List.Sublist.countP_le List.filter_sublist
  · exact Nat.le_refl _

/-- A CLOSE start drops work; the decode that it ends lets another start (R149). -/
theorem work_closeBlocksOf_le (s : State) (a : ApIx) : (s.closeBlocksOf a).work ≤ s.work + 1 := by
  have retired := windowWork_map_le s.port.window (waitingParts_retire_le a)
  have held := List.length_filter_le (fun h : HeldWrite => decide (h.tile.ap ≠ a)) s.asm.held
  have records := List.length_filter_le (fun e : DecodeEntry => decide (e.tile.ap ≠ a)) s.rd.pendingList
  have before := work_eq s
  have pieces : s.pieces = windowWork s.port.window + 2 * s.asm.held.length + s.rd.pendingList.length := rfl
  let u := ((s.putAp a { s.ap a with state := .retiring }).closeSlots a).closePort a
  have queues : (u.closeQueues a).work = 320 * s.ord.queue.length + s.ord.executing.isSome.toNat +
      330 * s.port.busHeld.length + (windowWork (s.port.window.map (Request.retire a)) +
      2 * (s.asm.held.filter fun h => decide (h.tile.ap ≠ a)).length +
      (s.rd.pendingList.filter fun e => decide (e.tile.ap ≠ a)).length) +
      4 * s.pool.waiting.isSome.toNat + s.enc.op.isNone.toNat + s.rd.decoder.isNone.toNat := work_eq (u.closeQueues a)
  have left : (u.closeQueues a).leaveDecoder.work ≤ (u.closeQueues a).work + 1 := by
    have now : (u.closeQueues a).leaveDecoder.work = 320 * s.ord.queue.length + s.ord.executing.isSome.toNat +
      330 * s.port.busHeld.length + (u.closeQueues a).pieces + 4 * s.pool.waiting.isSome.toNat + s.enc.op.isNone.toNat + 1 :=
      work_eq (u.closeQueues a).leaveDecoder
    have was : (u.closeQueues a).work = 320 * s.ord.queue.length + s.ord.executing.isSome.toNat +
      330 * s.port.busHeld.length + (u.closeQueues a).pieces + 4 * s.pool.waiting.isSome.toNat + s.enc.op.isNone.toNat +
      s.rd.decoder.isNone.toNat := work_eq (u.closeQueues a)
    omega
  rcases closeReadPath_cases u a with ⟨ends, -⟩ | ⟨goes, -⟩
  · have same : (s.closeBlocksOf a).work = (u.closeQueues a).leaveDecoder.work := congrArg State.work ends
    omega
  · have same : (s.closeBlocksOf a).work = (u.closeQueues a).work := congrArg State.work goes
    omega

theorem work_startClose_le (s : State) (a : ApIx) : (s.startClose a).work ≤ s.work + 1 := by
  rw [startClose_eq, work_of_touches (touches_setMap _ _)]
  exact work_closeBlocksOf_le s a

/-- An order makes at most 256 slots and itself due (R76, R174). -/
theorem work_execute_le (s : State) (o : Order) : (s.execute o).work ≤ s.work + 257 := by
  have refused (t : State) (k : OrderReason) (h : t = s.orderRefused o k) : t.work ≤ s.work + 257 := by
    rw [h]
    exact Nat.le_add_right_of_le (work_orderRefused_le s o k)
  have done (t u : State) (h : t = u.orderDone o) (same : u.work = s.work) : t.work ≤ s.work + 257 := by
    rw [h, ← same]
    exact Nat.le_add_right_of_le (work_orderDone_le u o)
  have starts (t u : State) (h : t = u.orderStarts o) (le : u.work ≤ s.work + 256) : t.work ≤ s.work + 257 := by
    rw [h]
    exact Nat.le_trans (work_orderStarts_le u o) (Nat.add_le_add_right le 1)
  cases o with
  | nop => exact Nat.le_add_right _ _
  | halt => exact Nat.le_add_right _ _
  | close ap zero b2 =>
    rcases runClose_cases s _ ap zero b2 with ⟨k, h⟩ | ⟨-, -, h⟩
    · exact refused _ k h
    · exact starts _ _ h (Nat.le_trans (work_startClose_le s _) (by omega))
  | flush all freeze ap zero b2 =>
    rcases runFlush_cases s _ all freeze ap zero b2 with ⟨k, h⟩ | ⟨-, -, h⟩ | ⟨-, -, h⟩ | ⟨-, -, h⟩
    · exact refused _ k h
    · exact done _ _ h rfl
    · exact starts _ _ h (grows_forceSlots s _).work
    · refine starts _ _ h (Nat.le_trans (grows_forceSlots _ _).work (Nat.add_le_add_right (Nat.le_of_eq ?_) _))
      unfold State.beforeForce
      split
      · exact work_of_touches (touches_putAp s _ _)
      · rfl
  | thaw ap zero b2 =>
    rcases runThaw_cases s _ ap zero b2 with ⟨k, h⟩ | ⟨-, h⟩
    · exact refused _ k h
    · exact done _ _ h (work_of_touches (touches_putAp s _ _))
  | clearFaults faults b2 =>
    change (s.runClearFaults _ faults b2).work ≤ _
    unfold State.runClearFaults
    split
    · exact refused _ _ rfl
    · exact done _ _ rfl (work_of_touches (touches_putFaults s _))
  | protect clear ap zero x0 y0 x1 y1 b6 =>
    rcases runProtect_cases s _ clear ap zero x0 y0 x1 y1 b6 with ⟨k, h⟩ | ⟨rects, h⟩
    · exact refused _ k h
    · exact done _ _ h (work_of_touches (touches_putAp s _ _))
  | setStatus field mask =>
    rcases runSetStatus_cases s _ field mask with ⟨k, h⟩ | ⟨-, h⟩
    · exact refused _ k h
    · change (s.runSetStatus _ field mask).work ≤ _
      rw [h, work_of_touches (touches_setSt _ _)]
      exact done _ s rfl rfl
  | openOrder f =>
    rcases runOpen_cases s _ f with ⟨k, h⟩ | ⟨-, -, -, -, -, -, first, left, -, h⟩
    · exact refused _ k h
    · exact done _ _ h (work_of_touches (((touches_setMap s _).andThen (C := [.map, .aps, .st]) (touches_putAp _ _ _)).andThen
        (C := [.map, .aps, .st]) (touches_markStale _)))
  | setPool f =>
    rcases runSetPool_cases s _ f with ⟨k, h⟩ | ⟨-, -, -, h⟩
    · exact refused _ k h
    · exact done _ _ h (Nat.add_right_cancel (work_putPool s (poolOf f s.pool)))
  | setCurve f =>
    rcases runSetCurve_cases s _ f with ⟨k, h⟩ | ⟨-, h⟩
    · exact refused _ k h
    · exact done _ _ h (work_of_touches ((touches_setCtl s _).andThen (C := [.ctl, .st]) (touches_evalPool _)))
  | undefined b => exact refused _ _ rfl

/-! ### Each rule lowers the bound -/

theorem work_putEnc_le (s : State) (x : Encoder) : (s.putEnc x).work ≤ s.work + 1 := by
  have := work_putEnc s x
  have := Bool.toNat_le x.op.isNone
  omega

theorem work_release (s : State) (chunks : List Nat) : (s.release chunks).work = s.work := by
  unfold State.release
  split
  · rfl
  · exact Nat.add_right_cancel (work_putPool s { s.pool with free := s.pool.free ++ chunks })

/-- A grant starts the writes of the tile in hand or, where its aperture retires, abandons it (R120). -/
theorem work_granted_le (s : State) (op : TileOp) (chunks : List Nat) :
    (if s.isRetiring op then s.abandon op else s.startWriting op chunks).work ≤ s.work + 2 := by
  split
  · have emptied := work_putEnc_le (s.release op.heldChunks) Encoder.reset
    have freed := (grows_freeEncoding ((s.release op.heldChunks).putEnc Encoder.reset) op.slot).work
    rw [work_release] at emptied
    exact freed.trans (by omega)
  · exact (Nat.le_of_eq (work_of_touches (touches_setStore _ _))).trans
      ((work_putEnc_le s _).trans (Nat.add_le_add_left (by decide) _))

theorem countP_modify_add_one {α : Type} {p : α → Bool} {f : α → α} {x : α} (counts : p x = true) (ends : p (f x) = false) {l : List α}
    {i : Nat} (at_i : l[i]? = some x) : (l.modify i f).countP p + 1 = l.countP p := by
  induction l generalizing i with
  | nil => cases at_i
  | cons y ys ih =>
    cases i with
    | zero =>
      cases at_i
      simp [counts, ends]
    | succ i =>
      have := ih at_i
      rw [List.modify_succ_cons, List.countP_cons, List.countP_cons]
      omega

theorem windowWork_map_lt {l : List Request} {f : Request → Request} (h : ∀ r, (f r).waitingParts ≤ r.waitingParts) {r : Request}
    (mem : r ∈ l) (fewer : (f r).waitingParts + 1 ≤ r.waitingParts) : windowWork (l.map f) + 4 ≤ windowWork l := by
  induction l with
  | nil => cases mem
  | cons q rest ih =>
    rw [List.map_cons, windowWork_cons, windowWork_cons]
    rcases List.mem_cons.1 mem with rfl | mem
    · have := windowWork_map_le rest h
      omega
    · have := ih mem
      have := h q
      omega

/-- The part that goes forward next is a WAITING part of a request in the window (R157). -/
theorem waiting_of_nextPart {earlier l : List Request} {ref : PartRef} {w : Bool} (h : nextPart earlier l = some (ref, w)) :
    ∃ r ∈ l, ∃ p, r.id = ref.req ∧ r.parts[ref.part]? = some p ∧ p.progress = .waiting := by
  induction l generalizing earlier with
  | nil => cases h
  | cons r rest ih =>
    rw [nextPart] at h
    split at h
    · next i found =>
      cases h
      obtain ⟨inside, met, -⟩ := List.findIdx?_eq_some_iff_getElem.1 found
      simp only [Bool.and_eq_true, decide_eq_true_eq] at met
      exact ⟨r, List.mem_cons_self, r.parts[i], rfl, List.getElem?_eq_getElem inside, met.1.2⟩
    · obtain ⟨q, mem, isNext⟩ := ih h
      exact ⟨q, List.mem_cons_of_mem _ mem, isNext⟩

theorem windowWork_proceeding (s : State) {ref : PartRef} {w : Bool} (h : nextPart [] s.port.window = some (ref, w)) :
    windowWork (s.updPart ref fun p => { p with progress := .proceeding }).port.window + 4 ≤ windowWork s.port.window := by
  obtain ⟨r, mem, p, named, isPart, waits⟩ := waiting_of_nextPart h
  refine windowWork_map_lt (fun q => waitingParts_updated_le q ref (by intro _; nofun)) mem ?_
  rw [if_pos named, waitingParts_conclude]
  exact Nat.le_of_eq (countP_modify_add_one (p := fun p : Part => decide (p.progress = .waiting))
    (f := fun p => { p with progress := .proceeding }) (decide_eq_true waits) rfl isPart)

theorem addPixel_length_le (fmt : Format) (ps : List Part) (t : TileRef) (p : PartPixel) :
    (addPixel fmt ps t p).length ≤ ps.length + 1 := by
  induction ps with
  | nil => exact Nat.le_refl _
  | cons q rest ih =>
    rw [addPixel]
    split
    · exact Nat.le_succ _
    · exact Nat.succ_le_succ ih

/-- A request has no more tile parts than pixels (R153). -/
theorem partsOf_length_le (a : ApIx) (x : Aperture) (kind : ReqKind) (addr : Nat) :
    (partsOf a x kind addr).length ≤ kind.length / 4 := by
  have folded (g : Nat → TileRef) (v : Nat → PartPixel) (l : List Nat) (ps : List Part) :
      (l.foldl (fun ps i => addPixel x.fmt ps (g i) (v i)) ps).length ≤ ps.length + l.length := by
    induction l generalizing ps with
    | nil => exact Nat.le_refl _
    | cons i l ih =>
      have := ih (addPixel x.fmt ps (g i) (v i))
      have := addPixel_length_le x.fmt ps (g i) (v i)
      rw [List.foldl_cons, List.length_cons]
      omega
  refine (folded _ _ _ _).trans ?_
  rw [List.length_nil, List.length_range, Nat.zero_add]
  cases x.fmt with
  | rgb8 => exact Nat.le_refl _
  | rgb16 => exact Nat.div_le_div_left (by decide : 4 ≤ 8) (by decide)

/-- A request taken for an aperture has at most 64 tile parts, for it lies in one 256-byte block (R151). -/
theorem waitingParts_takenRequest_le (s : State) (q : BusRequest) : (s.takenRequest q).waitingParts ≤ 64 := by
  refine Nat.le_trans List.countP_le_length ?_
  unfold State.takenRequest
  dsimp only
  split
  · next a cls =>
    have inBlock : crossesBlock q.addr.toNat q.kind.length = false := by
      unfold State.classify at cls
      split at cls
      · cases cls
      · next inside => exact Bool.eq_false_iff.2 inside
    have ends : q.addr.toNat / 256 = (q.addr.toNat + q.kind.length - 1) / 256 := of_not_not (of_decide_eq_false inBlock)
    have := partsOf_length_le a (s.ap a) q.kind q.addr.toNat
    omega
  · exact Nat.zero_le _
  · exact Nat.zero_le _

theorem work_actOnClass (s : State) (r : Request) : (s.actOnClass r).work = s.work := by
  unfold State.actOnClass
  split
  · next reason _ =>
    exact (work_of_touches (touches_raise ((s.setPort { s.port with
      lastReason := some reason, lastAddr := r.addr }).markStale) .request)).trans rfl
  · rfl
  · rfl

section
variable {s t : State}

theorem grantWaiting_lowers (h : s.grantWaiting = some t) : t.work < s.work := by
  unfold State.grantWaiting at h
  split at h
  · next n op waiting inHand =>
    split at h
    · cases h
      have granted : (s.takeChunks n).work + 4 * s.pool.waiting.isSome.toNat = s.work := work_putPool s _
      rw [waiting, Option.isSome_some, Bool.toNat_true] at granted
      exact Nat.lt_of_le_of_lt ((work_granted_le _ _ _).trans (Nat.add_le_add_right (work_putEnc_le _ _) 2)) (by omega)
    · cases h
  · cases h

theorem movePending_lowers (h : s.movePending = some t) : t.work < s.work := by
  unfold State.movePending at h
  split at h
  · cases h
  · next e rest records =>
    split at h
    · cases h
      have now : ((s.setRd { s.rd with pendingList := rest }).putQueue (s.rd.queue ++ [e])).work =
        320 * s.ord.queue.length + s.ord.executing.isSome.toNat + 330 * s.port.busHeld.length +
        (windowWork s.port.window + 2 * s.asm.held.length + rest.length) + 4 * s.pool.waiting.isSome.toNat +
        s.enc.op.isNone.toNat + s.rd.decoder.isNone.toNat := work_eq _
      have was := work_eq s
      rw [State.pieces, records, List.length_cons] at was
      omega
    · cases h

theorem startDecode_lowers (h : s.startDecode = some t) : t.work < s.work := by
  unfold State.startDecode at h
  split at h
  · next e rest idle queue =>
    cases h
    have was := work_eq s
    rw [idle, Option.isNone_none, Bool.toNat_true] at was
    refine Nat.lt_of_le_of_lt (m := 320 * s.ord.queue.length + s.ord.executing.isSome.toNat +
      330 * s.port.busHeld.length + s.pieces + 4 * s.pool.waiting.isSome.toNat + s.enc.op.isNone.toNat + 0) ?_ (by omega)
    exact Nat.le_of_eq (work_eq _)
  · cases h

theorem grantHeld_lowers (h : s.grantHeld = some t) : t.work < s.work := by
  unfold State.grantHeld at h
  split at h
  · next w rest k held free =>
    cases h
    have was := work_eq s
    rw [State.pieces, held, List.length_cons] at was
    have opened : ((s.putHeld rest).openSlot k w.tile).work = 320 * s.ord.queue.length + s.ord.executing.isSome.toNat +
      330 * s.port.busHeld.length + (windowWork s.port.window + 2 * rest.length + s.rd.pendingList.length) +
      4 * s.pool.waiting.isSome.toNat + s.enc.op.isNone.toNat + s.rd.decoder.isNone.toNat := work_eq _
    cases ((s.putHeld rest).openSlot k w.tile).part w.ref with
    | none => exact Nat.lt_of_le_of_lt (Nat.le_of_eq opened) (by omega)
    | some part =>
      have lands := (grows_land ((s.putHeld rest).openSlot k w.tile) k w.ref part).work
      exact Nat.lt_of_le_of_lt lands (by omega)
  · cases h

theorem proceedNext_lowers (h : s.proceedNext = some t) : t.work < s.work := by
  obtain ⟨⟨ref, isWrite⟩, found, rfl⟩ := Option.map_eq_some_iff.1 h
  have begins : (s.updPart ref fun p => { p with progress := .proceeding }).work + 4 ≤ s.work := by
    have was := work_eq s
    rw [State.pieces] at was
    have now : (s.updPart ref fun p => { p with progress := .proceeding }).work = 320 * s.ord.queue.length +
      s.ord.executing.isSome.toNat + 330 * s.port.busHeld.length +
      (windowWork (s.updPart ref fun p => { p with progress := .proceeding }).port.window + 2 * s.asm.held.length +
        s.rd.pendingList.length) + 4 * s.pool.waiting.isSome.toNat + s.enc.op.isNone.toNat + s.rd.decoder.isNone.toNat :=
      work_eq _
    have lowered := windowWork_proceeding s found
    omega
  dsimp only
  split
  · exact Nat.lt_of_le_of_lt (grows_takeWrite _ ref).work (by omega)
  · exact Nat.lt_of_le_of_lt (grows_takeRead _ ref).work (by omega)

theorem respond_lowers (h : s.respond = some t) : t.work < s.work := by
  unfold State.respond at h
  split at h
  · cases h
  · next r rest window =>
    split at h
    · cases h
      have was := work_eq s
      rw [State.pieces, window, windowWork_cons] at was
      refine Nat.lt_of_le_of_lt (m := 320 * s.ord.queue.length + s.ord.executing.isSome.toNat +
        330 * s.port.busHeld.length + (windowWork rest + 2 * s.asm.held.length + s.rd.pendingList.length) +
        4 * s.pool.waiting.isSome.toNat + s.enc.op.isNone.toNat + s.rd.decoder.isNone.toNat) ?_ (by omega)
      exact Nat.le_of_eq (work_eq _)
    · cases h

theorem takeBus_lowers (h : s.takeBus = some t) : t.work < s.work := by
  unfold State.takeBus at h
  split at h
  · cases h
  · next q rest presented =>
    split at h
    · cases h
    · cases h
      have was := work_eq s
      rw [State.pieces, presented, List.length_cons] at was
      have few := waitingParts_takenRequest_le s q
      have windowed := windowWork_append s.port.window [s.takenRequest q]
      rw [windowWork_cons, show windowWork [] = 0 from rfl] at windowed
      refine Nat.lt_of_le_of_lt (m := 320 * s.ord.queue.length + s.ord.executing.isSome.toNat + 330 * rest.length +
        (windowWork (s.port.window ++ [s.takenRequest q]) + 2 * s.asm.held.length + s.rd.pendingList.length) +
        4 * s.pool.waiting.isSome.toNat + s.enc.op.isNone.toNat + s.rd.decoder.isNone.toNat) ?_ (by omega)
      exact Nat.le_of_eq ((work_actOnClass _ _).trans (work_eq _))

theorem endLongOrder_lowers (h : s.endLongOrder = some t) : t.work < s.work := by
  have ends (u : State) (o p : Order) (executing : s.ord.executing = some p) (same : u.work = s.work) (ord : u.ord = s.ord) :
      (u.orderDone o).work < s.work := by
    have done := work_concludeOrder u o .done none
    rw [ord, executing, Option.isSome_some, Bool.toNat_true, same] at done
    rw [State.orderDone]
    omega
  rcases endLongOrder_cases h with ⟨ap, zero, b2, w, executing, -, -, -, rfl⟩ | ⟨all, freeze, ap, zero, b2, executing, -, -, rfl⟩ |
    ⟨ap, zero, b2, executing, -, rfl⟩
  · exact ends _ _ _ executing (work_of_touches (touches_endWalk s _)) rfl
  · exact ends _ _ _ executing rfl rfl
  · exact ends _ _ _ executing (work_of_touches (touches_putAp s _ _)) rfl

theorem takeOrder_lowers (h : s.takeOrder = some t) : t.work < s.work := by
  unfold State.takeOrder at h
  split at h
  · next o rest idle queue =>
    cases h
    have executed := work_execute_le ((s.setOrd { s.ord with queue := rest }).markStale) o
    have taken : ((s.setOrd { s.ord with queue := rest }).markStale).work + 320 * s.ord.queue.length +
        s.ord.executing.isSome.toNat = s.work + 320 * rest.length + s.ord.executing.isSome.toNat :=
      work_setOrd s { s.ord with queue := rest }
    rw [queue, List.length_cons] at taken
    omega
  · cases h

theorem takeSealed_lowers (h : s.takeSealed = some t) : t.work < s.work := by
  unfold State.takeSealed at h
  split at h
  · next k rest free queue =>
    split at h
    · next tile isSealed ofTile =>
      cases h
      have was := work_eq s
      rw [free, Option.isNone_none, Bool.toNat_true] at was
      refine Nat.lt_of_le_of_lt (m := 320 * s.ord.queue.length + s.ord.executing.isSome.toNat +
        330 * s.port.busHeld.length + s.pieces + 4 * s.pool.waiting.isSome.toNat + 0 + s.rd.decoder.isNone.toNat) ?_ (by omega)
      exact Nat.le_of_eq (work_eq _)
    · cases h
  · cases h

theorem micro_lowers (h : s.micro = some t) : t.work < s.work := by
  rcases micro_cases h with h | h | h | h | h | h | h | h | h | h
  · exact grantWaiting_lowers h
  · exact movePending_lowers h
  · exact startDecode_lowers h
  · exact grantHeld_lowers h
  · exact proceedNext_lowers h
  · exact respond_lowers h
  · exact takeBus_lowers h
  · exact endLongOrder_lowers h
  · exact takeOrder_lowers h
  · exact takeSealed_lowers h

end

/-- As many effects as the bound allows leave none. -/
theorem quiet_settle (n : Nat) (s : State) (h : s.work ≤ n) : (settle n s).micro = none := by
  induction n generalizing s with
  | zero =>
    cases due : s.micro with
    | none => exact due
    | some t => exact absurd (micro_lowers due) (by omega)
  | succ n ih =>
    rw [settle]
    split
    · assumption
    · next t due =>
      have := micro_lowers due
      exact ih t (by omega)

theorem quiet_finish (s : State) : s.finish.Quiet :=
  quiet_of_touches (touches_issueStatus _) (by decide) (quiet_settle s.work s (Nat.le_refl _))

/-- Settles O3: each rule lowers `State.work`, so that many of them leave none; the status write makes none due. -/
theorem settleReachesQuiet : Obligations.SettleReachesQuiet :=
  ⟨quiet_finish, quiet_iff⟩

end Sys2Proof.Machine
end

section
/-! PROOFS. The machine and the line's power: what a command answers (assumption logs 7 and 22), the end of an event (R187), and RESET. -/

set_option Elab.async false

namespace Sys2Proof.Machine

/-- Settles O1: the definition of a step, at a queue that is not empty. -/
theorem stepRunsTheFrontCommand : Obligations.StepRunsTheFrontCommand := by
  intro c rest s queue
  rw [step, queue]

/-! ### What the line's events touch (R165–R171) -/

/-- The blocks that an event can touch: all but the RESET line and the waiting commands. -/
abbrev eventBlocks : List Block :=
  [.aps, .map, .pool, .asm, .ctl, .enc, .rd, .port, .store, .link, .ord, .st, .draws]

theorem touches_goDeaf (s : State) : OnlyTouches [.link, .st] s s.goDeaf :=
  (touches_putLink s _).andThen (touches_raise _ _)

theorem touches_resetLink (s : State) : OnlyTouches [.link, .st] s s.resetLink := (touches_putLink s _).mono

theorem touches_firstEdge (s : State) : OnlyTouches [.link, .st] s s.firstEdge := by
  unfold State.firstEdge
  split
  · exact (touches_putLink s _).mono
  all_goals exact .refl _ s

theorem touches_bitTimeout (s : State) : OnlyTouches [.link, .st] s s.bitTimeout := by
  unfold State.bitTimeout
  split
  · exact touches_goDeaf s
  all_goals exact .refl _ s

theorem touches_illegalClass (s : State) : OnlyTouches [.link, .st] s s.illegalClass := by
  unfold State.illegalClass
  split
  · exact touches_goDeaf s
  · exact .refl _ s

theorem touches_endFrame (s : State) (frame : List Byte) : OnlyTouches eventBlocks s (s.endFrame frame) := by
  unfold State.endFrame
  dsimp only
  split
  · exact (touches_putLink s _).andThen (touches_arrive _ _)
  · exact (touches_putLink s _).andThen (touches_raise _ _)

theorem touches_takeBit (s : State) (b : Bool) : OnlyTouches eventBlocks s (s.takeBit b) := by
  rw [takeBit_eq]
  split
  · exact (touches_goDeaf s).mono
  · split
    · exact (touches_putLink s _).mono
    · split
      · exact touches_endFrame s _
      · exact (touches_putLink s _).mono

theorem touches_endBit (s : State) : OnlyTouches eventBlocks s s.endBit := by
  unfold State.endBit
  split
  · exact (touches_finish s).mono
  all_goals exact (touches_issueStatus s).mono

theorem touches_takeHigh (s : State) (h : Nat) : OnlyTouches eventBlocks s (s.takeHigh h) := by
  unfold State.takeHigh
  split
  · split
    · exact (touches_goDeaf s).andThen (touches_issueStatus _)
    · exact (touches_takeBit s _).andThen (touches_endBit _)
  all_goals exact .refl _ s

theorem touches_takePulse (s : State) (h : Nat) : OnlyTouches eventBlocks s (s.takePulse h) := by
  have taken : OnlyTouches eventBlocks s (s.firstEdge.issueStatus.takeHigh h) :=
    ((touches_firstEdge s).andThen (C := eventBlocks) (touches_issueStatus _)).andThen (touches_takeHigh _ h)
  unfold State.takePulse
  dsimp only
  split
  · exact (taken.andThen (C := eventBlocks) (touches_resetLink _)).andThen (touches_issueStatus _)
  · exact taken

theorem touches_takePulses (hs : List Nat) (s : State) : OnlyTouches eventBlocks s (s.takePulses hs) := by
  induction hs generalizing s with
  | nil => exact .refl _ s
  | cons h hs ih => exact (touches_takePulse s h).andThen (ih _)

/-! ### What a command answers -/

/-- The command answers a next state with the same commands waiting. -/
def AnswersNext (c : Instr) (s : State) : Prop := ∃ t, exec c s = .next t ∧ t.pending = s.pending

theorem AnswersNext.of_touches {B : List Block} {c : Instr} {s t : State} (h : exec c s = .next t) (touches : OnlyTouches B s t)
    (untouched : Block.pending ∉ B := by decide) : AnswersNext c s := ⟨t, h, touches .pending untouched⟩

theorem AnswersNext.of_finish {B : List Block} {c : Instr} {s t : State} (h : exec c s = .next t.finish)
    (touches : OnlyTouches B s t) (untouched : Block.pending ∉ B := by decide) : AnswersNext c s :=
  ⟨t.finish, h, Eq.trans (touches_finish t .pending (by decide)) (touches .pending untouched)⟩

theorem AnswersNext.of_order {c : Instr} {o : Order} (s : State) (brings : broughtOrder c = some o) (w : c.wf = true)
    (n : c ≠ .nop) : AnswersNext c s := .of_finish (exec_order brings w n s) (touches_arrive s o)

/-- A command that changes nothing where its work is not in progress (assumption log 6). -/
theorem AnswersNext.idle {c : Instr} {s : State} (h : exec c s = .next s) : AnswersNext c s := ⟨s, h, rfl⟩

/-- An answer while answers are ignored (R164). -/
theorem AnswersNext.ignored {c : Instr} {s : State} (h : exec c s = .next s.ignoreAnswer) : AnswersNext c s :=
  .of_touches h (touches_setStore s _)

/-- The source of the request at the head of the outstanding list (R162). -/
def State.answeredSource (s : State) : Option Source := s.store.outstanding.head?.map StoreReq.source

/-- A chunk read answered OKAY brings 256 bytes. -/
theorem bytes_of_wf {x : StoreStatus} {d : List Byte} (w : (Instr.chunkReadAnswer x d).wf = true) :
    ¬(x = .okay ∧ d.length ≠ Config.block) := fun ⟨okay, other⟩ => by
  rcases (Bool.or_eq_true _ _).mp w with h | h
  · exact absurd (okay.symm.trans (of_decide_eq_true h)) nofun
  · exact other (of_decide_eq_true h)

theorem exec_answer_ignored {s : State} {c : Instr} (ignore : 0 < s.store.ignore) (w : c.wf = true)
    (isAnswer : (∃ x d, c = .passThroughAnswer x d ∨ c = .chunkReadAnswer x d) ∨
      ∃ x, c = .chunkWriteAnswer x ∨ c = .statusWriteAnswer x ∨ c = .ignoredAnswer x) : exec c s = .next s.ignoreAnswer := by
  rcases isAnswer with ⟨x, d, rfl | rfl⟩ | ⟨x, rfl | rfl | rfl⟩
  · exact (if_neg (Nat.not_lt.2 (of_decide_eq_true w))).trans (if_pos ignore)
  · exact (if_neg (bytes_of_wf w)).trans (if_pos ignore)
  all_goals exact if_pos ignore

/-- What the outstanding list holds first, by its source (R160). -/
theorem outstanding_of_answeredSource {s : State} {src : Source} (h : s.answeredSource = some src) :
    ∃ q rest, s.store.outstanding = q :: rest ∧ q.source = src := by
  unfold State.answeredSource at h
  cases out : s.store.outstanding with
  | nil => rw [out] at h; cases h
  | cons q rest =>
    rw [out] at h
    exact ⟨q, rest, rfl, Option.some.inj h⟩

section
variable {s : State} (ignore : s.store.ignore = 0) {rest : List StoreReq}
include ignore

theorem exec_passThroughAnswer {x : StoreStatus} {d : List Byte} (short : d.length ≤ 256) {q : StoreReq} {id : Nat}
    (head : s.store.outstanding = q :: rest)
    (passes : (∃ addr n, q = .passRead id addr n) ∨ ∃ addr bytes, q = .passWrite id addr bytes) :
    exec (.passThroughAnswer x d) s = .next (s.popOutstanding.passAnswered id x d).finish := by
  have short : ¬Config.block < d.length := Nat.not_lt.2 short
  rcases passes with ⟨addr, n, rfl⟩ | ⟨addr, bytes, rfl⟩ <;> simp [exec, execPassThroughAnswer, short, ignore, head]

theorem exec_chunkReadAnswer {x : StoreStatus} {d : List Byte} (whole : ¬(x = .okay ∧ d.length ≠ Config.block)) {addr : Nat}
    (head : s.store.outstanding = .chunkRead addr :: rest) :
    exec (.chunkReadAnswer x d) s = .next (s.popOutstanding.chunkAnswered x d).finish := by
  simp only [exec, execChunkReadAnswer, if_neg whole, ignore, head, Nat.lt_irrefl, if_false]

theorem exec_chunkWriteAnswer (x : StoreStatus) {i c addr : Nat} {d : List Byte}
    (head : s.store.outstanding = .chunkWrite i c addr d :: rest) :
    exec (.chunkWriteAnswer x) s = .next (s.popOutstanding.chunkWritten i c x).finish := by
  simp [exec, execChunkWriteAnswer, ignore, head]

theorem exec_statusWriteAnswer (x : StoreStatus) {addr : Nat} {d : List Byte}
    (head : s.store.outstanding = .statusWrite addr d :: rest) :
    exec (.statusWriteAnswer x) s = .next (s.popOutstanding.statusAnswered x).finish := by
  simp [exec, execStatusWriteAnswer, ignore, head]

theorem exec_unsolicited_passThrough {x : StoreStatus} {d : List Byte} (w : (Instr.passThroughAnswer x d).wf = true)
    (other : s.answeredSource ≠ some .composer) : exec (.passThroughAnswer x d) s = .fault .unsolicitedAnswer := by
  have short : ¬Config.block < d.length := Nat.not_lt.2 (of_decide_eq_true w)
  simp only [exec, execPassThroughAnswer, if_neg short, ignore, Nat.lt_irrefl, if_false]
  split
  · next head => exact absurd (by rw [State.answeredSource, head]; rfl) other
  · next head => exact absurd (by rw [State.answeredSource, head]; rfl) other
  · rfl

theorem exec_unsolicited_chunkRead {x : StoreStatus} {d : List Byte} (w : (Instr.chunkReadAnswer x d).wf = true)
    (other : s.answeredSource ≠ some .decoder) : exec (.chunkReadAnswer x d) s = .fault .unsolicitedAnswer := by
  simp only [exec, execChunkReadAnswer, if_neg (bytes_of_wf w), ignore, Nat.lt_irrefl, if_false]
  split
  · next head => exact absurd (by rw [State.answeredSource, head]; rfl) other
  · rfl

theorem exec_unsolicited_chunkWrite {x : StoreStatus} (other : s.answeredSource ≠ some .encoder) :
    exec (.chunkWriteAnswer x) s = .fault .unsolicitedAnswer := by
  simp only [exec, execChunkWriteAnswer, ignore, Nat.lt_irrefl, if_false]
  split
  · next head => exact absurd (by rw [State.answeredSource, head]; rfl) other
  · rfl

theorem exec_unsolicited_statusWrite {x : StoreStatus} (other : s.answeredSource ≠ some .status) :
    exec (.statusWriteAnswer x) s = .fault .unsolicitedAnswer := by
  simp only [exec, execStatusWriteAnswer, ignore, Nat.lt_irrefl, if_false]
  split
  · next head => exact absurd (by rw [State.answeredSource, head]; rfl) other
  · rfl

theorem answersNext_passThrough {x : StoreStatus} {d : List Byte} (w : (Instr.passThroughAnswer x d).wf = true)
    (calls : s.answeredSource = some .composer) : AnswersNext (.passThroughAnswer x d) s := by
  have short : d.length ≤ 256 := of_decide_eq_true w
  have pops (id : Nat) : OnlyTouches [.store, .port] s (s.popOutstanding.passAnswered id x d) :=
    (touches_setStore s _).andThen (touches_passAnswered _ _ _ _)
  obtain ⟨q, rest, head, source⟩ := outstanding_of_answeredSource calls
  cases q with
  | passRead id addr n => exact .of_finish (exec_passThroughAnswer ignore short head (.inl ⟨_, _, rfl⟩)) (pops id)
  | passWrite id addr bytes => exact .of_finish (exec_passThroughAnswer ignore short head (.inr ⟨_, _, rfl⟩)) (pops id)
  | chunkRead _ => cases source
  | chunkWrite _ _ _ _ => cases source
  | statusWrite _ _ => cases source

theorem answersNext_chunkRead {x : StoreStatus} {d : List Byte} (w : (Instr.chunkReadAnswer x d).wf = true)
    (calls : s.answeredSource = some .decoder) : AnswersNext (.chunkReadAnswer x d) s := by
  obtain ⟨q, rest, head, source⟩ := outstanding_of_answeredSource calls
  cases q with
  | chunkRead addr =>
    exact .of_finish (exec_chunkReadAnswer ignore (bytes_of_wf w) head)
      ((touches_setStore s _).andThen (C := eventBlocks) (touches_chunkAnswered _ _ _))
  | passRead _ _ _ => cases source
  | passWrite _ _ _ => cases source
  | chunkWrite _ _ _ _ => cases source
  | statusWrite _ _ => cases source

theorem answersNext_chunkWrite (x : StoreStatus) (calls : s.answeredSource = some .encoder) :
    AnswersNext (.chunkWriteAnswer x) s := by
  obtain ⟨q, rest, head, source⟩ := outstanding_of_answeredSource calls
  cases q with
  | chunkWrite i c addr d =>
    exact .of_finish (exec_chunkWriteAnswer ignore x head)
      ((touches_setStore s _).andThen (C := eventBlocks) (touches_chunkWritten _ _ _ _))
  | passRead _ _ _ => cases source
  | passWrite _ _ _ => cases source
  | chunkRead _ => cases source
  | statusWrite _ _ => cases source

theorem answersNext_statusWrite (x : StoreStatus) (calls : s.answeredSource = some .status) :
    AnswersNext (.statusWriteAnswer x) s := by
  obtain ⟨q, rest, head, source⟩ := outstanding_of_answeredSource calls
  cases q with
  | statusWrite addr d =>
    exact .of_finish (exec_statusWriteAnswer ignore x head)
      ((touches_setStore s _).andThen (C := eventBlocks) (touches_statusAnswered _ _))
  | passRead _ _ _ => cases source
  | passWrite _ _ _ => cases source
  | chunkRead _ => cases source
  | chunkWrite _ _ _ _ => cases source

end

/-- An answer is taken or ignored, unless no request calls for it (R162, R164). -/
theorem answersNext_answer {c : Instr} {s : State} (w : c.wf = true) (called : ¬Unsolicited c s)
    (isAnswer : (∃ x d, c = .passThroughAnswer x d ∨ c = .chunkReadAnswer x d) ∨
      ∃ x, c = .chunkWriteAnswer x ∨ c = .statusWriteAnswer x ∨ c = .ignoredAnswer x) : AnswersNext c s := by
  rcases Nat.eq_zero_or_pos s.store.ignore with ignore | ignore
  · have calls {p : Prop} (h : p → Unsolicited c s) : ¬p := fun k => called (h k)
    rcases isAnswer with ⟨x, d, rfl | rfl⟩ | ⟨x, rfl | rfl | rfl⟩
    · exact answersNext_passThrough ignore w (not_not.1 (calls fun k => ⟨ignore, k⟩))
    · exact answersNext_chunkRead ignore w (not_not.1 (calls fun k => ⟨ignore, k⟩))
    · exact answersNext_chunkWrite ignore x (not_not.1 (calls fun k => ⟨ignore, k⟩))
    · exact answersNext_statusWrite ignore x (not_not.1 (calls fun k => ⟨ignore, k⟩))
    · exact absurd ⟨ignore, trivial⟩ called
  · exact .ignored (exec_answer_ignored ignore w isAnswer)

theorem exec_unsolicited {c : Instr} {s : State} (w : c.wf = true) (uncalled : Unsolicited c s) :
    exec c s = .fault .unsolicitedAnswer := by
  obtain ⟨ignore, other⟩ := uncalled
  cases c
  case passThroughAnswer x d => exact exec_unsolicited_passThrough ignore w other
  case chunkReadAnswer x d => exact exec_unsolicited_chunkRead ignore w other
  case chunkWriteAnswer x => exact exec_unsolicited_chunkWrite ignore other
  case statusWriteAnswer x => exact exec_unsolicited_statusWrite ignore other
  case ignoredAnswer x => exact if_neg (Nat.not_lt.2 (Nat.le_of_eq ignore))
  all_goals exact other.elim

/-! ### The ends of the part's own timed work -/

section
variable {s : State}

theorem exec_decodeEnd {d : Decode} (busy : s.rd.decoder = some d) :
    exec .decodeEnd s = if d.isChecking then .next s.endDecode.finish else .next s := by
  simp only [exec, execDecodeEnd, busy]

theorem exec_retireWalkVisit {w : Walk} (walk : s.map.walk = some w) : exec .retireWalkVisit s =
    if w.next < (s.ap w.ap).extLen then .next (s.visitEntry w).finish else .next s := by
  simp only [exec, execRetireWalkVisit, walk]

variable {op : TileOp} (inHand : s.enc.op = some op)
include inHand

theorem exec_refitEnd : exec .refitEnd s = if op.isCoding then .next (s.endRefit op).finish else .next s := by
  simp only [exec, execRefitEnd, inHand]

theorem exec_codingEnd : exec .codingEnd s = if op.isCoding then .next (s.endCoding op).finish else .next s := by
  simp only [exec, execCodingEnd, inHand]

theorem exec_poolWaitExpiry :
    exec .poolWaitExpiry s = if op.stage = .poolWait then .next (s.expireWait op).finish else .next s := by
  simp only [exec, execPoolWaitExpiry, inHand]

theorem exec_recodeEnd : exec .recodeEnd s = if op.isRecoding then .next (s.endRecode op).finish else .next s := by
  simp only [exec, execRecodeEnd, inHand]

end

/-- The timed work's ends change nothing where the work is not in progress, and end an event where it is. -/
theorem answersNext_work {c : Instr} {s : State}
    (isWork : c = .decodeEnd ∨ c = .refitEnd ∨ c = .codingEnd ∨ c = .poolWaitExpiry ∨ c = .recodeEnd ∨ c = .retireWalkVisit) :
    AnswersNext c s := by
  have ends {B : List Block} {c : Instr} {p : Prop} [Decidable p] {t : State}
      (h : exec c s = if p then .next t.finish else .next s) (touches : OnlyTouches B s t)
      (untouched : Block.pending ∉ B := by decide) : AnswersNext c s := by
    split at h
    · exact .of_finish h touches untouched
    · exact .idle h
  rcases isWork with rfl | rfl | rfl | rfl | rfl | rfl
  · cases d : s.rd.decoder with
    | none => exact .idle (by simp only [exec, execDecodeEnd, d])
    | some d => exact ends (exec_decodeEnd d) (touches_endDecode s)
  · cases inHand : s.enc.op with
    | none => exact .idle (by simp only [exec, execRefitEnd, inHand])
    | some op => exact ends (exec_refitEnd inHand) (touches_endRefit s op)
  · cases inHand : s.enc.op with
    | none => exact .idle (by simp only [exec, execCodingEnd, inHand])
    | some op => exact ends (exec_codingEnd inHand) (touches_endCoding s op)
  · cases inHand : s.enc.op with
    | none => exact .idle (by simp only [exec, execPoolWaitExpiry, inHand])
    | some op => exact ends (exec_poolWaitExpiry inHand) (touches_expireWait s op)
  · cases inHand : s.enc.op with
    | none => exact .idle (by simp only [exec, execRecodeEnd, inHand])
    | some op => exact ends (exec_recodeEnd inHand) (touches_endRecode s op)
  · cases walk : s.map.walk with
    | none => exact .idle (by simp only [exec, execRetireWalkVisit, walk])
    | some w => exact ends (exec_retireWalkVisit walk) (touches_visitEntry s w)

/-- The commands of the line's power and of the setup line below whole orders. -/
theorem answersNext_line {c : Instr} {s : State} (w : c.wf = true)
    (isLine : c = .powerOn ∨ c = .reset ∨ c = .resetRelease ∨ c = .lineReset ∨ c = .bitError ∨ c = .firstBitEdge ∨
      (∃ cls, c = .illegalLengthClass cls) ∨ ∃ hs, c = .orderFrame hs) : AnswersNext c s := by
  have issued {c : Instr} {t : State} (h : exec c s = .next t.issueStatus) (touches : OnlyTouches [.link, .st] s t) :
      AnswersNext c s := .of_touches h (touches.andThen (C := eventBlocks) (touches_issueStatus t))
  rcases isLine with rfl | rfl | rfl | rfl | rfl | rfl | ⟨cls, rfl⟩ | ⟨hs, rfl⟩
  · exact ⟨_, rfl, rfl⟩
  · exact ⟨_, rfl, touches_issueStatus s.resetAsserted .pending (by decide)⟩
  · rcases Bool.eq_false_or_eq_true s.resetLine with asserted | released
    · exact .of_finish (if_pos asserted) (touches_setResetLine s false)
    · exact .idle (if_neg (Bool.eq_false_iff.1 released))
  · exact issued rfl (touches_resetLink s)
  · exact issued rfl (touches_bitTimeout s)
  · exact issued rfl (touches_firstEdge s)
  · exact issued (if_pos w) (touches_illegalClass s)
  · exact .of_touches rfl (touches_takePulses hs s)

theorem answersNext_port {c : Instr} {s : State} (w : c.wf = true)
    (isPort : c = .storeTurn ∨ (∃ addr n, c = .composerRead addr n) ∨ ∃ addr bytes, c = .composerWrite addr bytes) :
    AnswersNext c s := by
  rcases isPort with rfl | ⟨addr, n, rfl⟩ | ⟨addr, bytes, rfl⟩
  · rcases Bool.eq_false_or_eq_true s.resetLine with asserted | released
    · exact .idle (if_pos asserted)
    · exact .of_touches (if_neg (Bool.eq_false_iff.1 released)) (touches_setStore s _)
  · exact .of_finish (if_pos w) (touches_present s _)
  · exact .of_finish (if_pos w) (touches_present s _)

theorem answersNext_of_wf {c : Instr} {s : State} (w : c.wf = true) (called : ¬Unsolicited c s) : AnswersNext c s := by
  cases c
  case powerOn => exact answersNext_line w (by simp)
  case reset => exact answersNext_line w (by simp)
  case resetRelease => exact answersNext_line w (by simp)
  case lineReset => exact answersNext_line w (by simp)
  case bitError => exact answersNext_line w (by simp)
  case firstBitEdge => exact answersNext_line w (by simp)
  case illegalLengthClass => exact answersNext_line w (by simp)
  case orderFrame => exact answersNext_line w (by simp)
  case nop => exact .of_touches rfl (touches_arrive s .nop)
  case composerRead => exact answersNext_port w (by simp)
  case composerWrite => exact answersNext_port w (by simp)
  case storeTurn => exact answersNext_port w (by simp)
  case passThroughAnswer => exact answersNext_answer w called (by simp)
  case chunkReadAnswer => exact answersNext_answer w called (by simp)
  case chunkWriteAnswer => exact answersNext_answer w called (by simp)
  case statusWriteAnswer => exact answersNext_answer w called (by simp)
  case ignoredAnswer => exact answersNext_answer w called (by simp)
  case decodeEnd => exact answersNext_work (by simp)
  case refitEnd => exact answersNext_work (by simp)
  case codingEnd => exact answersNext_work (by simp)
  case poolWaitExpiry => exact answersNext_work (by simp)
  case recodeEnd => exact answersNext_work (by simp)
  case retireWalkVisit => exact answersNext_work (by simp)
  all_goals exact .of_order s rfl w nofun

/-- A command whose operands its row does not allow is refused (assumption log 22). -/
theorem exec_illFormed {c : Instr} {s : State} (w : c.wf = false) : exec c s = .refused .illFormed := by
  cases c
  case illegalLengthClass cls => exact if_neg (Bool.eq_false_iff.1 w)
  case undefinedOrder b => exact if_neg (Bool.eq_false_iff.1 w)
  case composerRead addr n => exact if_neg (Bool.eq_false_iff.1 w)
  case composerWrite addr bytes => exact if_neg (Bool.eq_false_iff.1 w)
  case passThroughAnswer x d => exact if_pos (Nat.lt_of_not_le (of_decide_eq_false w))
  case chunkReadAnswer x d =>
    obtain ⟨okay, other⟩ := (Bool.or_eq_false_iff).1 w
    have okay : x = .okay := by
      cases x with
      | okay => rfl
      | error => exact absurd okay (by decide)
    exact if_pos ⟨okay, of_decide_eq_false other⟩
  all_goals cases w

/-- Settles O2: by the kinds of command; the waiting commands are a block that no event touches. -/
theorem wellFormedCommandsComplete : Obligations.WellFormedCommandsComplete :=
  fun _ _ => ⟨answersNext_of_wf, exec_unsolicited, exec_illFormed⟩

/-! ### Power-on and RESET -/

theorem ap_clearBlocks (s : State) (a : ApIx) : s.clearBlocks.ap a = Aperture.reset := by
  change (Vector.replicate 8 Aperture.reset).get a = Aperture.reset
  rw [Vector.get_eq_getElem, Vector.getElem_replicate]

theorem slot_clearBlocks (s : State) (k : SlotIx) : s.clearBlocks.slot k = (s.slot k).freed :=
  vecMap_get (fun _ (sl : Slot) => sl.freed) s.asm.slots k

/-- Settles O5: field by field; the records and the slots by the vectors' entries. -/
theorem powerOnGivesEveryBlockItsValue : Obligations.PowerOnGivesEveryBlockItsValue := by
  intro s
  refine ⟨s.powerOn, rfl, ap_clearBlocks s, rfl, rfl, slot_clearBlocks s, ?_⟩
  repeat' constructor

/-- The status block is not made of the store port, nor of what the status unit changes at an issue (R185, R187). -/
theorem statusBlock_issueStatus (s : State) : s.issueStatus.statusBlock = s.statusBlock := by
  unfold State.issueStatus
  split <;> rfl

/-- An enabled, stale block with no write in flight is written (R187). -/
theorem issueStatus_of_due {s : State} (due : s.WriteDue) : s.issueStatus =
    (s.setStore { s.store with status := s.store.status ++ [.statusWrite s.st.addr s.statusBlock] }).setSt
      { s.st with stale := false, inFlight := true, reissue := false } := by
  obtain ⟨enabled, stale, idle⟩ := due
  rw [State.issueStatus, if_pos (by rw [enabled, stale, idle]; rfl)]

theorem issueStatus_of_not_due {s : State} (due : ¬s.WriteDue) : s.issueStatus = s := by
  rw [State.issueStatus, if_neg]
  intro h
  simp only [Bool.and_eq_true, Bool.not_eq_true'] at h
  exact due ⟨h.1.1, h.1.2, h.2⟩

theorem attnOf_zero (mask : Byte) : attnOf 0 mask = false := by
  exact decide_eq_false fun other => other BitVec.zero_and

/-- Settles O6: the assertion of RESET field by field; its status write is issued with the block enabled, and with no other. -/
theorem resetLineKeepsReceiverAndStatusSettings : Obligations.ResetLineKeepsReceiverAndStatusSettings := by
  intro s
  have noAttn : attnOf 0 s.st.mask = false := attnOf_zero _
  have written : s.st.enable = true → s.resetAsserted.issueStatus =
      (s.resetAsserted.setStore { s.resetAsserted.store with
        status := s.resetAsserted.store.status ++ [.statusWrite s.st.addr s.resetAsserted.statusBlock] }).setSt
        { s.resetAsserted.st with stale := false, inFlight := true, reissue := false } :=
    fun enabled => issueStatus_of_due ⟨enabled, rfl, rfl⟩
  have kept : s.st.enable = false → s.resetAsserted.issueStatus = s.resetAsserted :=
    fun disabled => issueStatus_of_not_due fun due => absurd (disabled.symm.trans due.1) nofun
  refine ⟨s.resetAsserted.issueStatus, rfl, ?_⟩
  rcases Bool.eq_false_or_eq_true s.st.enable with enabled | disabled
  · have block : s.resetAsserted.issueStatus.statusBlock = s.resetAsserted.statusBlock := statusBlock_issueStatus _
    rw [written enabled] at block ⊢
    refine ⟨ap_clearBlocks s, rfl, rfl, slot_clearBlocks s, rfl, rfl, rfl, rfl, rfl, rfl, rfl, rfl, rfl, rfl, rfl, rfl, rfl,
      rfl, rfl, rfl, rfl, rfl, rfl, noAttn, rfl, rfl, rfl, fun _ => ⟨?_, rfl, rfl⟩, fun disabled => ?_⟩
    · rw [block]
      rfl
    · exact absurd (enabled.symm.trans disabled) nofun
  · rw [kept disabled]
    exact ⟨ap_clearBlocks s, rfl, rfl, slot_clearBlocks s, rfl, rfl, rfl, rfl, rfl, rfl, rfl, rfl, rfl, rfl, rfl, rfl, rfl,
      rfl, rfl, rfl, rfl, rfl, rfl, noAttn, rfl, rfl, rfl, fun enabled => absurd (disabled.symm.trans enabled) nofun,
      fun _ => ⟨rfl, rfl, rfl⟩⟩

/-! ### The release of RESET, and what is not taken -/

theorem takeBus_of_present {s : State} {q : BusRequest} {rest : List BusRequest} (presented : s.port.busHeld = q :: rest)
    (free : s.holdsBus = false) : s.takeBus =
      some (((s.setPort { s.port with busHeld := rest, nextId := s.port.nextId + 1 }).putWindow
        (s.port.window ++ [s.takenRequest q])).actOnClass (s.takenRequest q)) := by
  rw [State.takeBus, presented]
  dsimp only
  rw [free]
  rfl

theorem actOnClass_window (s : State) (r : Request) : (s.actOnClass r).port.window = s.port.window := by
  unfold State.actOnClass
  split <;> rfl

theorem actOnClass_busHeld (s : State) (r : Request) : (s.actOnClass r).port.busHeld = s.port.busHeld := by
  unfold State.actOnClass
  split <;> rfl

/-- Settles O7: a release wakes no rule but the take from the bus. -/
theorem resetReleaseLetsRequestsIn : Obligations.ResetReleaseLetsRequestsIn := by
  intro s asserted
  have exec_eq : exec .resetRelease s = .next (s.setResetLine false).finish := if_pos asserted
  refine ⟨exec_eq, fun quiet empty => ?_, fun q rest presented alone => ?_⟩
  · have rests : (s.setResetLine false).Quiet :=
      quiet_of_same (fun b mem => touches_setResetLine s false b (by revert b; decide)) (.inl empty) quiet
    rw [exec_eq, finish_of_quiet rests]
  · have free : (s.setResetLine false).holdsBus = false := by
      change (false || decide (Config.windowSize ≤ s.port.window.length)) = false
      rw [alone]
      rfl
    refine ⟨_, takeBus_of_present presented free, ?_, (s.setResetLine false).takenRequest q, ?_, rfl, rfl⟩
    · rw [actOnClass_busHeld]
      rfl
    · rw [actOnClass_window]
      exact congrArg (· ++ [(s.setResetLine false).takenRequest q]) alone

/-- Of the rules, the take from the bus alone sees what the bus presents. -/
theorem micro_of_presented {s t : State} (h : ∀ b ∈ ruleBlocks, b ≠ .port → SameBlock b s t)
    (window : t.port.window = s.port.window) (quiet : s.Quiet) : t.micro = t.takeBus := by
  let u := (t.setPort s.port).setResetLine s.resetLine
  have same : ∀ b ∈ ruleBlocks, SameBlock b s u := by
    intro b mem
    rcases Decidable.em (b = .port) with rfl | other
    · rfl
    · have same := h b mem other
      cases b
      case port => exact absurd rfl other
      case resetLine => exact absurd mem (by decide)
      all_goals exact same
  have rests : u.Quiet := quiet_of_same same (.inr rfl) quiet
  obtain ⟨q1, q2, q3, q4, q5, q6, -, q8, q9, q10⟩ := (quiet_iff u).1 rests
  have window : u.port.window = t.port.window := window.symm
  have wait : t.grantWaiting = none := (grantWaiting_none_iff t).2 ((grantWaiting_none_iff u).1 q1)
  have record : t.movePending = none := (movePending_none_iff t).2 ((movePending_none_iff u).1 q2)
  have decode : t.startDecode = none := (startDecode_none_iff t).2 ((startDecode_none_iff u).1 q3)
  have held : t.grantHeld = none := (grantHeld_none_iff t).2 ((grantHeld_none_iff u).1 q4)
  have part : t.proceedNext = none := by rwa [proceedNext_none_iff, window, ← proceedNext_none_iff] at q5
  have response : t.respond = none := by rwa [respond_none_iff, window, ← respond_none_iff] at q6
  have met (a : ApIx) : u.freezeMet a = t.freezeMet a := by
    rw [State.freezeMet, State.freezeMet, window]
    rfl
  have long : t.endLongOrder = none := by
    rw [endLongOrder_none_iff] at q8 ⊢
    simp only [met] at q8
    exact q8
  have order : t.takeOrder = none := (takeOrder_none_iff t).2 ((takeOrder_none_iff u).1 q9)
  have tile : t.takeSealed = none := (takeSealed_none_iff t).2 ((takeSealed_none_iff u).1 q10)
  simp only [State.micro, rules, List.findSome?_cons, List.findSome?_nil, wait, record, decode, held, part, response, long,
    order, tile]
  cases t.takeBus <;> rfl

/-- A held bus gives nothing to take (R152, R163; assumption log 11). -/
theorem exec_request_held {s : State} (kind : ReqKind) (addr : Addr) (quiet : s.Quiet)
    (held : s.resetLine = true ∨ 32 ≤ s.port.window.length) (lo : 1 ≤ kind.length) (hi : kind.length ≤ 256) :
    exec (requestCommand kind addr) s = .next (s.present ⟨kind, addr⟩).issueStatus := by
  have rests : (s.present ⟨kind, addr⟩).Quiet := by
    have touches := touches_present s ⟨kind, addr⟩
    exact (micro_of_presented (fun b _ other => touches b (by simpa using other)) rfl quiet).trans
      ((takeBus_none_iff _).2 (.inr held))
  rw [exec_request kind addr s lo hi, finish_of_quiet rests]

/-- Settles O8: RESET drops an arriving order, and the bus that is held keeps its request. -/
theorem assertedResetTakesNothing : Obligations.AssertedResetTakesNothing := by
  intro s
  refine ⟨fun asserted => ⟨?_, if_pos asserted, fun c o brings w n => ?_⟩, fun held => ⟨?_, fun kind addr quiet lo hi => ?_⟩⟩
  · have dropped : s.arrive .nop = s := if_pos asserted
    exact congrArg Host.Outcome.next dropped
  · have dropped : s.arrive o = s := if_pos asserted
    rw [exec_order brings w n, dropped]
  · exact (takeBus_none_iff s).2 (.inr held)
  · exact ⟨_, exec_request_held kind addr quiet held lo hi, rfl, touches_present s _⟩

end Sys2Proof.Machine
end

section
/-! PROOFS. The status block field by field (R185), and the end of an event with no effect due (R187). -/

set_option Elab.async false

namespace Sys2Proof.Machine

theorem ofLeBytes_leBytes (n v : Nat) : ofLeBytes (leBytes n v) = v % 256 ^ n := by
  induction n generalizing v with
  | zero => rw [Nat.pow_zero, Nat.mod_one]; rfl
  | succ n ih =>
    rw [leBytes, ofLeBytes, ih, Nat.pow_succ', Nat.mod_mul, BitVec.toNat_ofNat]

section
variable {s : State}

theorem statusField_byte {i : Nat} {b : Byte} (h : (s.statusBlock.drop i).take 1 = [b]) : s.statusField i 1 = b.toNat := by
  rw [State.statusField, h]
  rfl

theorem statusField_code {i c : Nat} (h : (s.statusBlock.drop i).take 1 = [BitVec.ofNat 8 c]) :
    s.statusField i 1 = c % 256 := by
  rw [statusField_byte h, BitVec.toNat_ofNat]

theorem statusField_bytes {i n v : Nat} (h : (s.statusBlock.drop i).take n = leBytes n v) :
    s.statusField i n = v % 256 ^ n := by
  rw [State.statusField, h, ofLeBytes_leBytes]

theorem statusField_number {i n v : Nat} (h : (s.statusBlock.drop i).take n = leBytes n v) (small : v < 256 ^ n) :
    s.statusField i n = v := by
  rw [statusField_bytes h, Nat.mod_eq_of_lt small]

end

/-- The fields of the status block, in order, with those of an aperture as one (R185). -/
def State.statusParts (s : State) : List (List Byte) :=
  [[0x01], [s.st.faults], [s.st.mask], [BitVec.ofNat 8 s.link.state.code],
    [BitVec.ofNat 8 s.ord.executing.isSome.toNat], [s.ord.executingByte],
    [BitVec.ofNat 8 s.ord.queue.length], [s.ord.record.byte0], [s.ord.record.aperture],
    [BitVec.ofNat 8 s.ord.record.result.code], [BitVec.ofNat 8 (orderReasonCode s.ord.record.reason)],
    [BitVec.ofNat 8 s.ord.record.discarded], leBytes 2 s.ord.completed.toNat, [BitVec.ofNat 8 s.ctl.applied],
    [BitVec.ofNat 8 s.ctl.demanded], [BitVec.ofNat 8 s.ctl.band.val],
    [BitVec.ofNat 8 (stageCode s.enc.stage)], leBytes 2 s.fillingCount, leBytes 2 s.asm.sealQueue.length,
    leBytes 2 s.asm.held.length, leBytes 2 s.rd.queue.length, [BitVec.ofNat 8 s.rd.cache.length],
    [BitVec.ofNat 8 s.port.window.length], leBytes 4 s.pool.count, leBytes 4 s.pool.free.length,
    leBytes 4 s.pool.withdrawn.length, leBytes 4 s.pool.low, leBytes 4 s.map.degradedTotal.toNat,
    leBytes 4 s.ctl.refits.toNat, leBytes 4 s.map.tilesTotal.toNat,
    [BitVec.ofNat 8 (refuseCode s.port.lastReason)], leBytes 5 s.port.lastAddr.toNat, [0, 0], s.statusOfAp 0, s.statusOfAp 1,
    s.statusOfAp 2, s.statusOfAp 3, s.statusOfAp 4, s.statusOfAp 5, s.statusOfAp 6, s.statusOfAp 7]

theorem statusBlock_eq (s : State) : s.statusBlock = s.statusParts.flatten := by
  unfold State.statusBlock State.statusParts
  simp only [List.flatten_cons, List.flatten_nil, List.append_nil, List.append_assoc, List.cons_append, List.nil_append]

/-- A list of a flattened list stands behind those before it. -/
theorem take_drop_flatten {α : Type} {l : List (List α)} {x : List α} {k : Nat} (nth : l[k]? = some x) :
    (l.flatten.drop (l.take k).flatten.length).take x.length = x := by
  induction l generalizing k with
  | nil => cases nth
  | cons y l ih =>
    cases k with
    | zero =>
      cases nth
      exact List.take_left
    | succ k =>
      rw [List.take_succ_cons, List.flatten_cons, List.flatten_cons, List.length_append, ← List.drop_drop, List.drop_left]
      exact ih nth

theorem statusBlock_part (s : State) {x : List Byte} {k i n : Nat} (nth : s.statusParts[k]? = some x)
    (behind : (s.statusParts.take k).flatten.length = i) (long : x.length = n) : (s.statusBlock.drop i).take n = x := by
  rw [statusBlock_eq, ← behind, ← long]
  exact take_drop_flatten nth

theorem headD_frame (o : Order) : o.frame.headD 0 = o.byte0 := by
  unfold Order.frame
  split <;> cases o <;> rfl

theorem fillingCount_eq (s : State) :
    s.fillingCount = (List.finRange 256).countP fun k => decide ((s.slot k).state = .filling) := by
  have slots : s.asm.slots.toList = (List.finRange 256).map s.slot := by
    refine List.ext_getElem (by simp) fun i hi _ => ?_
    simp [State.slot, Vector.get_eq_getElem]
  rw [State.fillingCount, slots, List.filter_map, List.length_map, List.countP_eq_length_filter]
  rfl

/-- The eight bytes of an aperture stand at offset 64 and its number (R185). -/
theorem statusBlock_of_ap (s : State) (a : ApIx) : (s.statusBlock.drop (64 + 8 * a.val)).take 8 = s.statusOfAp a := by
  match a with
  | 0 => exact statusBlock_part s (k := 33) rfl rfl rfl
  | 1 => exact statusBlock_part s (k := 34) rfl rfl rfl
  | 2 => exact statusBlock_part s (k := 35) rfl rfl rfl
  | 3 => exact statusBlock_part s (k := 36) rfl rfl rfl
  | 4 => exact statusBlock_part s (k := 37) rfl rfl rfl
  | 5 => exact statusBlock_part s (k := 38) rfl rfl rfl
  | 6 => exact statusBlock_part s (k := 39) rfl rfl rfl
  | 7 => exact statusBlock_part s (k := 40) rfl rfl rfl

theorem statusBlock_in_ap (s : State) (a : ApIx) {j n : Nat} (inside : j + n ≤ 8) :
    (s.statusBlock.drop (64 + j + 8 * a.val)).take n = ((s.statusOfAp a).drop j).take n := by
  rw [← statusBlock_of_ap, List.drop_take, List.drop_drop, List.take_take, Nat.min_eq_left (by omega)]
  congr 2
  omega

theorem ofAp_iff (sl : Slot) (a : ApIx) : sl.ofAp a = true ↔ ∃ t, sl.tile = some t ∧ t.ap = a := by
  unfold Slot.ofAp
  cases sl.tile <;> simp

theorem flushPending_iff (s : State) (a : ApIx) : s.flushPending a = true ↔
    (s.ap a).state = .freezing ∨ ∃ k t, (s.slot k).mark = true ∧ (s.slot k).tile = some t ∧ t.ap = a := by
  have marked : (s.asm.slots.toList.any fun sl => sl.mark && sl.ofAp a) = true ↔
      ∃ k t, (s.slot k).mark = true ∧ (s.slot k).tile = some t ∧ t.ap = a := by
    rw [List.any_eq_true]
    constructor
    · rintro ⟨sl, mem, met⟩
      obtain ⟨k, rfl⟩ := exists_slot_of_mem mem
      obtain ⟨mark, of_a⟩ := (Bool.and_eq_true _ _).mp met
      obtain ⟨t, tile, ap⟩ := (ofAp_iff _ a).1 of_a
      exact ⟨k, t, mark, tile, ap⟩
    · rintro ⟨k, t, mark, tile, ap⟩
      exact ⟨s.slot k, List.mem_of_getElem? (slot_toList s k), (Bool.and_eq_true _ _).mpr ⟨mark, (ofAp_iff _ a).2 ⟨t, tile, ap⟩⟩⟩
  rw [State.flushPending, Bool.or_eq_true, decide_eq_true_eq, marked]

/-- The fields of an aperture (R185). -/
theorem statusField_ap (s : State) (a : ApIx) :
    s.statusField (64 + 8 * a.val) 1 = (match (s.ap a).state with
      | .closed => 0 | .opened => 1 | .freezing => 2 | .frozen => 3 | .retiring => 4) ∧
    s.statusField (65 + 8 * a.val) 1 =
      (if (s.ap a).fmt = .rgb8 then 0 else 1) + (if (s.ap a).mode = .fixed then 0 else 16) ∧
    s.statusField (66 + 8 * a.val) 1 = (s.ap a).rects.length % 256 ∧
    s.statusField (67 + 8 * a.val) 1 = (s.flushPending a).toNat ∧
    s.statusField (68 + 8 * a.val) 4 = (s.ap a).committed % 2 ^ 32 := by
  refine ⟨?_, ?_, statusField_code (statusBlock_in_ap s a (j := 2) (n := 1) (by decide)), ?_,
    statusField_bytes (statusBlock_in_ap s a (j := 4) (n := 4) (by decide))⟩
  · rw [statusField_code (statusBlock_in_ap s a (j := 0) (n := 1) (by decide))]
    cases (s.ap a).state <;> rfl
  · rw [statusField_code (statusBlock_in_ap s a (j := 1) (n := 1) (by decide))]
    cases (s.ap a).fmt <;> cases (s.ap a).mode <;> rfl
  · rw [statusField_code (statusBlock_in_ap s a (j := 3) (n := 1) (by decide))]
    cases s.flushPending a <;> rfl

/-- The fields before those of the apertures (R185). -/
theorem statusField_part (s : State) :
    let f := s.statusField
    f 0 1 = 1 ∧ f 1 1 = s.st.faults.toNat ∧ f 2 1 = s.st.mask.toNat ∧ f 3 1 = s.link.state.code % 256 ∧
    f 4 1 = s.ord.executing.isSome.toNat % 256 ∧ f 5 1 = s.ord.executingByte.toNat ∧
    f 6 1 = s.ord.queue.length % 256 ∧ f 7 1 = s.ord.record.byte0.toNat ∧ f 8 1 = s.ord.record.aperture.toNat ∧
    f 9 1 = s.ord.record.result.code % 256 ∧ f 10 1 = orderReasonCode s.ord.record.reason % 256 ∧
    f 11 1 = s.ord.record.discarded % 256 ∧ f 12 2 = s.ord.completed.toNat ∧ f 14 1 = s.ctl.applied % 256 ∧
    f 15 1 = s.ctl.demanded % 256 ∧ f 16 1 = s.ctl.band.val % 256 ∧ f 17 1 = stageCode s.enc.stage % 256 ∧
    f 18 2 = s.fillingCount % 65536 ∧
    f 20 2 = s.asm.sealQueue.length % 65536 ∧ f 22 2 = s.asm.held.length % 65536 ∧
    f 24 2 = s.rd.queue.length % 65536 ∧ f 26 1 = s.rd.cache.length % 256 ∧ f 27 1 = s.port.window.length % 256 ∧
    f 28 4 = s.pool.count % 2 ^ 32 ∧ f 32 4 = s.pool.free.length % 2 ^ 32 ∧
    f 36 4 = s.pool.withdrawn.length % 2 ^ 32 ∧ f 40 4 = s.pool.low % 2 ^ 32 ∧ f 44 4 = s.map.degradedTotal.toNat ∧
    f 48 4 = s.ctl.refits.toNat ∧ f 52 4 = s.map.tilesTotal.toNat ∧
    f 56 1 = refuseCode s.port.lastReason % 256 ∧ f 57 5 = s.port.lastAddr.toNat ∧ f 62 2 = 0 := by
  have addr : s.port.lastAddr.toNat < 256 ^ 5 := Nat.lt_trans s.port.lastAddr.isLt (by decide)
  have part (k : Nat) {x : List Byte} {i n : Nat} (nth : s.statusParts[k]? = some x)
      (behind : (s.statusParts.take k).flatten.length = i) (long : x.length = n) := statusBlock_part s nth behind long
  exact ⟨statusField_byte (part 0 rfl rfl rfl), statusField_byte (part 1 rfl rfl rfl),
    statusField_byte (part 2 rfl rfl rfl), statusField_code (part 3 rfl rfl rfl),
    statusField_code (part 4 rfl rfl rfl), statusField_byte (part 5 rfl rfl rfl),
    statusField_code (part 6 rfl rfl rfl), statusField_byte (part 7 rfl rfl rfl),
    statusField_byte (part 8 rfl rfl rfl), statusField_code (part 9 rfl rfl rfl),
    statusField_code (part 10 rfl rfl rfl), statusField_code (part 11 rfl rfl rfl),
    statusField_number (part 12 rfl rfl rfl) s.ord.completed.isLt, statusField_code (part 13 rfl rfl rfl),
    statusField_code (part 14 rfl rfl rfl), statusField_code (part 15 rfl rfl rfl),
    statusField_code (part 16 rfl rfl rfl), statusField_bytes (part 17 rfl rfl rfl),
    statusField_bytes (part 18 rfl rfl rfl), statusField_bytes (part 19 rfl rfl rfl),
    statusField_bytes (part 20 rfl rfl rfl), statusField_code (part 21 rfl rfl rfl),
    statusField_code (part 22 rfl rfl rfl), statusField_bytes (part 23 rfl rfl rfl),
    statusField_bytes (part 24 rfl rfl rfl), statusField_bytes (part 25 rfl rfl rfl),
    statusField_bytes (part 26 rfl rfl rfl), statusField_number (part 27 rfl rfl rfl) s.map.degradedTotal.isLt,
    statusField_number (part 28 rfl rfl rfl) s.ctl.refits.isLt,
    statusField_number (part 29 rfl rfl rfl) s.map.tilesTotal.isLt, statusField_code (part 30 rfl rfl rfl),
    statusField_number (part 31 rfl rfl rfl) addr, statusField_number (v := 0) (part 32 rfl rfl rfl) (by decide)⟩

/-- Settles O4: the rules' last lemma `finish_of_quiet`, the two sides of an issue, and the fields with their codes. -/
theorem finishIsTheStatusWriteWhenQuiet : Obligations.FinishIsTheStatusWriteWhenQuiet := by
  refine ⟨fun s quiet => ⟨finish_of_quiet quiet, fun due => ?_, issueStatus_of_not_due, touches_issueStatus s⟩, fun s => ?_⟩
  · rw [issueStatus_of_due due]
    exact ⟨rfl, rfl, statusBlock_length s⟩
  · obtain ⟨f0, f1, f2, f3, f4, f5, f6, f7, f8, f9, f10, f11, f12, f14, f15, f16, f17, f18, f20, f22, f24, f26, f27, f28, f32,
      f36, f40, f44, f48, f52, f56, f57, f62⟩ := statusField_part s
    have filling : s.fillingCount < 65536 := by
      rw [fillingCount_eq]
      exact Nat.lt_of_le_of_lt List.countP_le_length (by simp)
    refine ⟨f0, f1, f2, f3.trans ?_, f4.trans ?_, f5.trans ?_, f6, f7, f8, f9.trans ?_, f10.trans ?_, f11, f12, f14, f15,
      f16.trans ?_, f17.trans ?_, f18.trans ?_, f20, f22, f24, f26, f27, f28, f32, f36, f40, f44, f48, f52, f56.trans ?_,
      f57, f62, fun a => ?_⟩
    case refine_1 => cases s.link.state <;> rfl
    case refine_2 => cases s.ord.executing <;> rfl
    case refine_3 =>
      unfold OrderUnit.executingByte
      cases s.ord.executing with
      | none => rfl
      | some o => exact congrArg BitVec.toNat (headD_frame o).symm
    case refine_4 => cases s.ord.record.result <;> rfl
    case refine_5 =>
      cases s.ord.record.reason with
      | none => rfl
      | some reason => cases reason <;> rfl
    case refine_6 => exact Nat.mod_eq_of_lt (Nat.lt_trans s.ctl.band.isLt (by decide))
    case refine_7 =>
      change stageCode (s.enc.op.map TileOp.stage) % 256 = _
      cases s.enc.op.map TileOp.stage with
      | none => rfl
      | some stage => cases stage <;> rfl
    case refine_8 => rw [Nat.mod_eq_of_lt filling, fillingCount_eq]
    case refine_9 =>
      cases s.port.lastReason with
      | none => rfl
      | some reason => cases reason <;> rfl
    case refine_10 =>
      obtain ⟨state, format, rects, pending, committed⟩ := statusField_ap s a
      refine ⟨state, format, rects, fun h => ?_, fun notFreezing unmarked => ?_, committed⟩
      · exact pending.trans (congrArg Bool.toNat ((flushPending_iff s a).2 h))
      · refine pending.trans (congrArg Bool.toNat (Bool.eq_false_iff.2 fun flagged => ?_))
        rcases (flushPending_iff s a).1 flagged with freezing | ⟨k, t, mark, tile, ap⟩
        · exact notFreezing freezing
        · exact unmarked k t mark tile ap

end Sys2Proof.Machine
end

section
/-! PROOFS. The setup line's events (R165–R169), the arrival of orders (R173) and their refusal (R174). -/

set_option Elab.async false

namespace Sys2Proof.Machine

/-! ### The events of the line -/

theorem putLink_st (s : State) (l : Receiver) :
    (s.putLink l).st = { s.st with stale := s.st.stale || decide (l.state ≠ s.link.state) } := rfl

theorem putLink_of_same_state {s : State} {l : Receiver} (same : l.state = s.link.state) : s.putLink l = s.setLink l := by
  have st : { s.st with stale := s.st.stale || decide (l.state ≠ s.link.state) } = s.st := by
    rw [same, decide_eq_false (fun other => other rfl), Bool.or_false]
  exact congrArg (fun x => (s.setLink l).setSt x) st

section
variable {s : State}

theorem firstEdge_of_armed (armed : s.link.state = .armed) : s.firstEdge = s.putLink (Receiver.fresh .taking) := by
  rw [State.firstEdge, armed]

theorem firstEdge_of_not_armed (other : s.link.state ≠ .armed) : s.firstEdge = s := by
  unfold State.firstEdge
  split
  · contradiction
  all_goals rfl

theorem bitTimeout_of_taking (taking : s.link.state = .taking) : s.bitTimeout = s.goDeaf := by
  rw [State.bitTimeout, taking]

theorem illegalClass_of_taking (taking : s.link.state = .taking) (unknown : s.link.cls = none) :
    s.illegalClass = s.goDeaf := by
  rw [State.illegalClass, taking, unknown]

theorem exec_illegalLengthClass {cls : BitVec 3} (illegal : classLength cls = none) :
    exec (.illegalLengthClass cls) s = .next s.illegalClass.issueStatus :=
  if_pos (Option.isNone_iff_eq_none.2 illegal)

end

/-- A receiver that gives an order up from TAKING makes the block stale (R167, R187). -/
theorem goDeaf_stale {s : State} (taking : s.link.state = .taking) : s.goDeaf.st.stale = true := by
  change ((s.st.stale || decide (LinkState.deaf ≠ s.link.state)) || _) = true
  rw [taking]
  simp

/-- Settles O9: one equation for each event of the line. -/
theorem lineEventsMoveTheReceiver : Obligations.LineEventsMoveTheReceiver := by
  intro s
  refine ⟨fun armed => ?_, fun other => ?_, fun taking => ?_, s.resetLink, rfl, rfl, ?_, touches_resetLink s, rfl,
    decide_eq_true_iff⟩
  · refine ⟨s.firstEdge, rfl, ?_, ?_, touches_firstEdge s⟩
    · rw [firstEdge_of_armed armed]
      rfl
    · rw [firstEdge_of_armed armed, putLink_st, armed]
      exact congrArg (fun b => { s.st with stale := b }) (Bool.or_true _)
  · exact congrArg (fun t : State => Host.Outcome.next t.issueStatus) (firstEdge_of_not_armed other)
  · refine ⟨s.goDeaf, congrArg (fun t : State => Host.Outcome.next t.issueStatus) (bitTimeout_of_taking taking),
      fun cls illegal unknown => ?_, rfl, rfl, rfl, goDeaf_stale taking, rfl, rfl, rfl, touches_goDeaf s⟩
    rw [exec_illegalLengthClass illegal, illegalClass_of_taking taking unknown]
  · have known : ∀ l : LinkState, decide (LinkState.armed ≠ l) = decide (l ≠ .armed) := fun l => by cases l <;> rfl
    exact congrArg (fun b => { s.st with stale := s.st.stale || b }) (known s.link.state)

/-! ### The arrival of orders -/

/-- Settles O13: the record's fields order by order, the undefined codes by their bytes, and the refusal by its definition. -/
theorem refusedOrderChangesNothingElse : Obligations.RefusedOrderChangesNothingElse := by
  refine ⟨fun o => ⟨by cases o <;> rfl, by cases o <;> rfl⟩, fun ap => ?_, by decide +kernel, fun s o reason =>
    ⟨orderRefused_concluded s o reason, orderRefused_st s o reason, touches_orderRefused s o reason, fun b code ready => ?_⟩⟩
  · rfl
  · exact exec_ready (c := .undefinedOrder b) (o := .undefined b) ready rfl nofun nofun code

/-- The state with other orders queued. -/
def State.withQueue (q : List Order) (s : State) : State := s.setOrd { s.ord with queue := q }

/-- A choice that does not look at the queue. -/
theorem ite_withQueue (q : List Order) (p : Prop) [Decidable p] (t u : State) :
    (if p then t else u).withQueue q = if p then t.withQueue q else u.withQueue q := apply_ite (State.withQueue q) p t u

section
variable (s : State) (q : List Order) (o : Order)

theorem startClose_withQueue (a : ApIx) : (s.withQueue q).startClose a = (s.startClose a).withQueue q := by
  have ord : (s.startClose a).ord = s.ord := touches_startClose s a .ord (by decide)
  rw [State.withQueue, State.withQueue, startClose_setOrd, ord]

theorem forceSlots_withQueue (on : ApIx → Bool) : (s.withQueue q).forceSlots on = (s.forceSlots on).withQueue q := by
  have ord : (s.forceSlots on).ord = s.ord := touches_forceSlots s on .ord (by decide)
  rw [State.withQueue, State.withQueue, forceSlots_setOrd, ord]

theorem runClose_withQueue (ap : BitVec 3) (zero : BitVec 5) (b2 : Byte) :
    (s.withQueue q).runClose o ap zero b2 = (s.runClose o ap zero b2).withQueue q := by
  unfold State.runClose
  dsimp only
  rw [ite_withQueue, startClose_withQueue]
  change (if _ then _ else match (s.ap (apOf ap)).state with
    | .closed => _ | .retiring => _ | .opened => _ | .freezing => _ | .frozen => _) = _
  cases (s.ap (apOf ap)).state <;> rfl

theorem flushOne_withQueue (a : ApIx) (freeze : Bool) :
    (s.withQueue q).flushOne o a freeze = (s.flushOne o a freeze).withQueue q := by
  have starts (t : State) (on : ApIx → Bool) :
      ((t.withQueue q).forceSlots on).orderStarts o = ((t.forceSlots on).orderStarts o).withQueue q := by
    rw [forceSlots_withQueue]
    rfl
  unfold State.flushOne
  change (match (s.ap a).state with
    | .closed => _ | .frozen => _ | .opened => _ | .freezing => _ | .retiring => _) = _
  cases (s.ap a).state with
  | opened =>
    cases freeze with
    | true => exact starts (s.putAp a { s.ap a with state := .freezing }) _
    | false => exact starts s _
  | closed => rfl
  | freezing => rfl
  | frozen => rfl
  | retiring => rfl

theorem runFlush_withQueue (all freeze : Bool) (ap zero : BitVec 3) (b2 : Byte) :
    (s.withQueue q).runFlush o all freeze ap zero b2 = (s.runFlush o all freeze ap zero b2).withQueue q := by
  unfold State.runFlush
  rw [ite_withQueue, ite_withQueue, forceSlots_withQueue, flushOne_withQueue]
  rfl

theorem runThaw_withQueue (ap : BitVec 3) (zero : BitVec 5) (b2 : Byte) :
    (s.withQueue q).runThaw o ap zero b2 = (s.runThaw o ap zero b2).withQueue q := by
  unfold State.runThaw
  dsimp only
  rw [ite_withQueue, ite_withQueue]
  rfl

theorem runClearFaults_withQueue (faults b2 : Byte) :
    (s.withQueue q).runClearFaults o faults b2 = (s.runClearFaults o faults b2).withQueue q := by
  unfold State.runClearFaults
  rw [ite_withQueue]
  rfl

theorem runProtect_withQueue (clear : Bool) (ap : BitVec 3) (zero : BitVec 4) (x0 y0 x1 y1 b6 : Byte) :
    (s.withQueue q).runProtect o clear ap zero x0 y0 x1 y1 b6 = (s.runProtect o clear ap zero x0 y0 x1 y1 b6).withQueue q := by
  unfold State.runProtect
  dsimp only
  rw [ite_withQueue, ite_withQueue, ite_withQueue, ite_withQueue, ite_withQueue]
  rfl

theorem runSetStatus_withQueue (field : BitVec 40) (mask : Byte) :
    (s.withQueue q).runSetStatus o field mask = (s.runSetStatus o field mask).withQueue q := by
  unfold State.runSetStatus
  dsimp only
  rw [ite_withQueue, ite_withQueue]
  rfl

theorem runOpen_withQueue (f : OpenFields) : (s.withQueue q).runOpen o f = (s.runOpen o f).withQueue q := by
  unfold State.runOpen
  dsimp only
  rw [ite_withQueue, ite_withQueue, ite_withQueue, ite_withQueue]
  change (if _ then _ else if _ then _ else if _ then _ else if _ then _ else
    match takeExtent s.map.freeExtents ((f.width.toNat + 1) * (f.height.toNat + 1)) with
    | none => _ | some (_, _) => _) = _
  cases takeExtent s.map.freeExtents ((f.width.toNat + 1) * (f.height.toNat + 1)) <;> rfl

theorem runSetPool_withQueue (f : PoolFields) : (s.withQueue q).runSetPool o f = (s.runSetPool o f).withQueue q := by
  unfold State.runSetPool
  rw [ite_withQueue, ite_withQueue, ite_withQueue]
  rfl

theorem runSetCurve_withQueue (f : CurveFields) : (s.withQueue q).runSetCurve o f = (s.runSetCurve o f).withQueue q := by
  unfold State.runSetCurve
  rw [ite_withQueue]
  rfl

/-- The execution of an order depends on none behind it, and moves none. -/
theorem execute_withQueue : (s.withQueue q).execute o = (s.execute o).withQueue q := by
  cases o with
  | nop => rfl
  | halt => rfl
  | close ap zero b2 => exact runClose_withQueue s q _ ap zero b2
  | flush all freeze ap zero b2 => exact runFlush_withQueue s q _ all freeze ap zero b2
  | thaw ap zero b2 => exact runThaw_withQueue s q _ ap zero b2
  | clearFaults faults b2 => exact runClearFaults_withQueue s q _ faults b2
  | protect clear ap zero x0 y0 x1 y1 b6 => exact runProtect_withQueue s q _ clear ap zero x0 y0 x1 y1 b6
  | setStatus field mask => exact runSetStatus_withQueue s q _ field mask
  | openOrder f => exact runOpen_withQueue s q _ f
  | setPool f => exact runSetPool_withQueue s q _ f
  | setCurve f => exact runSetCurve_withQueue s q _ f
  | undefined b => rfl

end

section
variable {c : Instr} {o : Order} (brings : broughtOrder c = some o) (w : c.wf = true) (notNop : c ≠ .nop) (notHalt : c ≠ .halt)
  {s : State} (released : s.resetLine = false)
include brings w notNop notHalt released

theorem exec_enqueue : exec c s = .next (s.enqueue o).finish := by
  rw [exec_order brings w notNop, arrive_enqueue brings notNop notHalt s released]

/-- A full queue discards the order (R173). -/
theorem exec_overrun (full : Config.orderQueueSize ≤ s.ord.queue.length) : exec c s = .next (s.raise .overrun).finish := by
  rw [exec_enqueue brings w notNop notHalt released, State.enqueue, if_pos full]

/-- A busy order unit queues the order (R173). -/
theorem exec_queued (room : s.ord.queue.length < Config.orderQueueSize) (busy : s.ord.executing ≠ none ∨ s.ord.queue ≠ []) :
    exec c s = .next ((s.setOrd { s.ord with queue := s.ord.queue ++ [o] }).markStale).finish := by
  have notIdle : ¬(s.ord.executing.isNone && s.ord.queue.isEmpty) = true := by
    intro idle
    obtain ⟨none, empty⟩ := (Bool.and_eq_true _ _).mp idle
    exact busy.elim (fun h => h (Option.isNone_iff_eq_none.1 none)) fun h => h (List.isEmpty_iff.1 empty)
  rw [exec_enqueue brings w notNop notHalt released, State.enqueue, if_neg (Nat.not_le.2 room), if_neg notIdle]

end

/-- Settles O12: the cases of an arrival and of a take. -/
theorem arrivingOrdersAreQueuedOrTaken : Obligations.ArrivingOrdersAreQueuedOrTaken := by
  refine ⟨fun s released => ⟨?_, ?_, fun c o brings w notNop notHalt => ⟨fun full => ?_, fun room busy => ?_,
    fun idle empty => exec_ready ⟨released, idle, empty⟩ brings notNop notHalt w⟩⟩, fun s => ⟨fun none => ?_,
    fun o rest idle queue => ⟨(s.setOrd { s.ord with queue := rest }).markStale, rfl, ?_, ?_, takeOrder_eq idle queue⟩⟩,
    fun s o q => execute_withQueue s q o⟩
  · have dropped : s.arrive .nop = s := if_neg (Bool.eq_false_iff.1 released)
    exact congrArg Host.Outcome.next dropped
  · have halted : s.arrive .halt = s.haltNow := if_neg (Bool.eq_false_iff.1 released)
    exact congrArg (fun t : State => Host.Outcome.next t.finish) halted
  · exact ⟨s.raise .overrun, exec_overrun brings w notNop notHalt released full, rfl, rfl, rfl, rfl, rfl, rfl, rfl,
      touches_raise s _⟩
  · refine ⟨(s.setOrd { s.ord with queue := s.ord.queue ++ [o] }).markStale,
      exec_queued brings w notNop notHalt released room busy, rfl, ?_, (touches_setOrd s _).andThen (touches_markStale _)⟩
    exact congrArg (fun b => { s.st with stale := b }) (Bool.or_true _)
  · rw [takeOrder_none_iff]
    exact none.imp Option.isSome_iff_ne_none.2 id
  · exact congrArg (fun b => { s.st with stale := b }) (Bool.or_true _)
  · exact (touches_setOrd s _).andThen (touches_markStale _)

end Sys2Proof.Machine
end

section
/-! PROOFS. The bits of an order: what a pulse does to the receiver, and a whole frame of a legal class (R165–R170). -/

set_option Elab.async false

namespace Sys2Proof.Machine

/-! ### One pulse -/

theorem exec_orderFrame (hs : List Nat) (s : State) : exec (.orderFrame hs) s = .next (s.takePulses hs) := rfl

/-- A pulse that is no line reset (R168). -/
theorem takePulse_of_short (s : State) {h : Nat} (short : h < 50000) :
    s.takePulse h = s.firstEdge.issueStatus.takeHigh h := if_neg (Nat.not_le.2 short)

/-- A pulse that is a line reset once it has been high for 50 µs (R168). -/
theorem takePulse_of_long (s : State) {h : Nat} (long : 50000 ≤ h) :
    s.takePulse h = (s.firstEdge.issueStatus.takeHigh h).resetLink.issueStatus := if_pos long

/-- The bit that a pulse gives is the order's last (R167). -/
def State.AtLastBit (s : State) : Prop :=
  s.link.bits.length = 7 ∧ s.link.cls.bind classLength = some (s.link.bytes.length + 1)

/-- The bit ends in time (R167). -/
def State.InTime (s : State) (h : Nat) : Prop := (s.AtLastBit → h ≤ 3000) ∧ (¬s.AtLastBit → h < 3000)

theorem isLate_iff_not_inTime (s : State) (h : Nat) : s.link.isLate h = true ↔ ¬s.InTime h := by
  rw [isLate_iff]
  unfold State.InTime State.AtLastBit
  split
  · next last => simp [last]
  · next last => simp [last]

theorem State.InTime.short {s : State} {h : Nat} (inTime : s.InTime h) : h < 50000 := by
  by_cases last : s.AtLastBit
  · exact Nat.lt_of_le_of_lt (inTime.1 last) (by decide)
  · exact Nat.lt_trans (inTime.2 last) (by decide)

/-- A late bit is a bit error at its timeout (R167). -/
theorem takeHigh_of_late {s : State} {h : Nat} (taking : s.link.state = .taking) (late : ¬s.InTime h) :
    s.takeHigh h = s.bitTimeout.issueStatus := by
  rw [State.takeHigh, taking, bitTimeout_of_taking taking]
  exact if_pos ((isLate_iff_not_inTime s h).2 late)

theorem firstEdge_not_armed (s : State) : s.firstEdge.link.state ≠ .armed := by
  by_cases armed : s.link.state = .armed
  · rw [firstEdge_of_armed armed]
    nofun
  · rwa [firstEdge_of_not_armed armed]

theorem not_due_issueStatus (s : State) : ¬s.issueStatus.WriteDue := by
  by_cases due : s.WriteDue
  · rw [issueStatus_of_due due]
    exact fun again => absurd again.2.1 nofun
  · rwa [issueStatus_of_not_due due]

theorem link_issueStatus (s : State) : s.issueStatus.link = s.link := touches_issueStatus s .link (by decide)

/-- The rising edge is the first thing of an ARMED receiver's pulse (R165). -/
theorem takePulse_issueStatus_firstEdge (s : State) (h : Nat) :
    s.firstEdge.issueStatus.takePulse h = s.takePulse h := by
  have edge : s.firstEdge.issueStatus.firstEdge = s.firstEdge.issueStatus :=
    firstEdge_of_not_armed (by rw [link_issueStatus]; exact firstEdge_not_armed s)
  rw [State.takePulse, edge, issueStatus_of_not_due (not_due_issueStatus _)]
  rfl

section
variable {s : State} {h : Nat} (notDue : ¬s.WriteDue)
include notDue

theorem takePulse_eq (notArmed : s.link.state ≠ .armed) :
    s.takePulse h = if h < 50000 then s.takeHigh h else (s.takeHigh h).resetLink.issueStatus := by
  have edge : s.firstEdge.issueStatus = s := by rw [firstEdge_of_not_armed notArmed, issueStatus_of_not_due notDue]
  split
  · next short => rw [takePulse_of_short s short, edge]
  · next long => rw [takePulse_of_long s (Nat.le_of_not_lt long), edge]

/-- A bit in time is taken (R166). -/
theorem takePulse_of_inTime (taking : s.link.state = .taking) (inTime : s.InTime h) :
    s.takePulse h = (s.takeBit (decide (500 ≤ h))).endBit := by
  have notLate : ¬s.link.isLate h = true := fun late => (isLate_iff_not_inTime s h).1 late inTime
  rw [takePulse_eq notDue (by rw [taking]; nofun), if_pos inTime.short, State.takeHigh, taking]
  exact if_neg notLate

end

/-! ### One bit -/

/-- The receiver goes on TAKING, and nothing else changes. -/
theorem endBit_putLink_taking {s : State} (notDue : ¬s.WriteDue) (taking : s.link.state = .taking) {l : Receiver}
    (still : l.state = .taking) : (s.putLink l).endBit = s.setLink l := by
  have same : s.putLink l = s.setLink l := putLink_of_same_state (still.trans taking.symm)
  have rests : (s.setLink l).issueStatus = s.setLink l := issueStatus_of_not_due notDue
  rw [same, State.endBit, show (s.setLink l).link.state = .taking from still]
  exact rests

theorem classWith_of_not_third {r : Receiver} {b : Bool} (other : r.bytes ≠ [] ∨ r.bits.length ≠ 2) :
    r.classWith b = r.cls := by
  refine if_neg fun third => ?_
  obtain ⟨first, three⟩ := (Bool.and_eq_true _ _).mp third
  have three := of_decide_eq_true three
  rw [List.length_append, List.length_singleton] at three
  exact other.elim (fun h => h (List.isEmpty_iff.1 first)) fun h => h (Nat.succ.inj three)

theorem classWith_of_third {r : Receiver} {b0 b1 b : Bool} (first : r.bytes = []) (two : r.bits = [b0, b1]) :
    r.classWith b = some (BitVec.ofBool b0 ++ BitVec.ofBool b1 ++ BitVec.ofBool b) := by
  rw [Receiver.classWith, first, two]
  have given : ∀ b0 b1 b : Bool, classOfBits [b0, b1, b] = BitVec.ofBool b0 ++ BitVec.ofBool b1 ++ BitVec.ofBool b := by decide
  exact congrArg some (given b0 b1 b)

theorem packBits_of_length_eight {bits : List Bool} (eight : bits.length = 8) : packBits bits = [byteOfBits bits] := by
  match bits, eight with
  | [a, b, c, d, e, f, g, h], _ => rfl

section
variable {s : State} {b : Bool} (known : ∀ c, s.link.classWith b = some c → classLength c ≠ none)
include known

theorem legal_classWith : ¬((s.link.classWith b).any fun c => (classLength c).isNone) = true := by
  intro illegal
  obtain ⟨c, isC, none⟩ := (Option.any_eq_true _ _).1 illegal
  exact known c isC (Option.isNone_iff_eq_none.1 none)

theorem takeBit_within (within : s.link.bits.length < 7) :
    s.takeBit b = s.putLink ⟨.taking, s.link.bytes, s.link.bits ++ [b], s.link.classWith b⟩ := by
  have short : (s.link.bits ++ [b]).length < 8 := by
    rw [List.length_append, List.length_singleton]
    omega
  rw [takeBit_eq, if_neg (legal_classWith known), if_pos short]

theorem takeBit_of_eighth (eighth : s.link.bits.length = 7) : s.takeBit b =
    if s.link.cls.bind classLength = some (s.link.bytes.length + 1) then
      s.endFrame (s.link.bytes ++ packBits (s.link.bits ++ [b]))
    else s.putLink ⟨.taking, s.link.bytes ++ packBits (s.link.bits ++ [b]), [], s.link.cls⟩ := by
  have eight : (s.link.bits ++ [b]).length = 8 := by rw [List.length_append, List.length_singleton, eighth]
  have cls : s.link.classWith b = s.link.cls := classWith_of_not_third (.inr (by rw [eighth]; decide))
  rw [takeBit_eq, if_neg (legal_classWith known), if_neg (by rw [eight]; decide), cls, packBits_of_length_eight eight,
    List.length_append, List.length_singleton]

end

theorem endFrame_passing (s : State) (frame : List Byte) : (s.endFrame frame).link.state = .passing := by
  have arrives : ((s.putLink (Receiver.fresh .passing)).arrive (orderOfFrame frame)).link = _ :=
    touches_arrive _ _ .link (by decide)
  unfold State.endFrame
  dsimp only
  split
  · rw [arrives]
    rfl
  · rfl

/-- The check looks at the frame and not at what the receiver holds (R170). -/
theorem endFrame_setLink {s : State} (taking : s.link.state = .taking) {l : Receiver} (still : l.state = .taking)
    (frame : List Byte) : (s.setLink l).endFrame frame = s.endFrame frame := by
  have same : (s.setLink l).putLink (Receiver.fresh .passing) = s.putLink (Receiver.fresh .passing) := by
    unfold State.putLink
    rw [show (s.setLink l).link.state = s.link.state from still.trans taking.symm]
    rfl
  unfold State.endFrame
  rw [same]

section
variable {s : State} {h : Nat} (notDue : ¬s.WriteDue) (taking : s.link.state = .taking) (inTime : s.InTime h)
include notDue taking inTime

/-- An illegal class gives the order up (R169). -/
theorem takePulse_of_illegal {c : BitVec 3} (cls : s.link.classWith (decide (500 ≤ h)) = some c)
    (illegal : classLength c = none) : s.takePulse h = s.goDeaf.issueStatus := by
  have gives : s.takeBit (decide (500 ≤ h)) = s.goDeaf := by
    rw [takeBit_eq, cls]
    exact if_pos (Option.isNone_iff_eq_none.2 illegal)
  rw [takePulse_of_inTime notDue taking inTime, gives]
  rfl

variable (known : ∀ c, s.link.classWith (decide (500 ≤ h)) = some c → classLength c ≠ none)
include known

/-- A bit within a byte (R166). -/
theorem takePulse_within (within : s.link.bits.length < 7) : s.takePulse h =
    s.setLink ⟨.taking, s.link.bytes, s.link.bits ++ [decide (500 ≤ h)], s.link.classWith (decide (500 ≤ h))⟩ := by
  rw [takePulse_of_inTime notDue taking inTime, takeBit_within known within]
  exact endBit_putLink_taking notDue taking rfl

/-- A byte that is not the order's last (R166). -/
theorem takePulse_of_byte (eighth : s.link.bits.length = 7) (goesOn : ¬s.AtLastBit) : s.takePulse h =
    s.setLink ⟨.taking, s.link.bytes ++ packBits (s.link.bits ++ [decide (500 ≤ h)]), [], s.link.cls⟩ := by
  rw [takePulse_of_inTime notDue taking inTime, takeBit_of_eighth known eighth, if_neg (fun last => goesOn ⟨eighth, last⟩)]
  exact endBit_putLink_taking notDue taking rfl

/-- The order's last bit brings the frame to its check (R170). -/
theorem takePulse_of_last (last : s.AtLastBit) :
    s.takePulse h = (s.endFrame (s.link.bytes ++ packBits (s.link.bits ++ [decide (500 ≤ h)]))).finish := by
  rw [takePulse_of_inTime notDue taking inTime, takeBit_of_eighth known last.1, if_pos last.2, State.endBit,
    endFrame_passing]

end

/-! ### A whole frame -/

theorem takePulses_append (hs ks : List Nat) (s : State) : s.takePulses (hs ++ ks) = (s.takePulses hs).takePulses ks := by
  induction hs generalizing s with
  | nil => rfl
  | cons h hs ih => exact ih _

/-- The bit that a pulse in time gives (R166). -/
def bitOf (h : Nat) : Bool := decide (500 ≤ h)

/-- The state with a receiver that is TAKING. -/
def State.takingAt (s : State) (bytes : List Byte) (bits : List Bool) (cls : Option (BitVec 3)) : State :=
  s.setLink ⟨.taking, bytes, bits, cls⟩

section
variable {s : State} (notDue : ¬s.WriteDue) {bytes : List Byte} {cls : Option (BitVec 3)}
include notDue

/-- The bits within a byte whose class is not decided among them (R166). -/
theorem takePulses_within (legal : ∀ c, cls = some c → classLength c ≠ none) (hs : List Nat) (bits : List Bool)
    (inTime : ∀ h ∈ hs, h < 3000) (within : bits.length + hs.length ≤ 7)
    (noThird : bytes ≠ [] ∨ 3 ≤ bits.length ∨ bits.length + hs.length ≤ 2) :
    (s.takingAt bytes bits cls).takePulses hs = s.takingAt bytes (bits ++ hs.map bitOf) cls := by
  induction hs generalizing bits with
  | nil => rw [List.map_nil, List.append_nil]; rfl
  | cons h hs ih =>
    rw [List.length_cons] at within noThird
    have grown : (bits ++ [bitOf h]).length = bits.length + 1 := by rw [List.length_append, List.length_singleton]
    have same : (s.takingAt bytes bits cls).link.classWith (bitOf h) = cls := 
      classWith_of_not_third (noThird.imp_right fun few => show bits.length ≠ 2 by omega)
    have small := inTime h List.mem_cons_self
    have taken : (s.takingAt bytes bits cls).takePulse h =
        s.takingAt bytes (bits ++ [bitOf h]) ((s.takingAt bytes bits cls).link.classWith (bitOf h)) :=
      takePulse_within (s := s.takingAt bytes bits cls) notDue rfl ⟨fun _ => Nat.le_of_lt small, fun _ => small⟩
        (fun c isC => legal c (same.symm.trans isC)) (show bits.length < 7 by omega)
    rw [State.takePulses, taken, same, ih _ (fun k mem => inTime k (List.mem_cons_of_mem _ mem)) (by omega)
      (noThird.imp_right fun few => by omega), List.map_cons, List.append_assoc]
    rfl

/-- The third bit decides the class (R169). -/
theorem takePulse_third {b0 b1 : Bool} {h : Nat} (inTime : h < 3000)
    (legal : classLength (BitVec.ofBool b0 ++ BitVec.ofBool b1 ++ BitVec.ofBool (bitOf h)) ≠ none) :
    (s.takingAt [] [b0, b1] none).takePulse h =
      s.takingAt [] [b0, b1, bitOf h] (some (BitVec.ofBool b0 ++ BitVec.ofBool b1 ++ BitVec.ofBool (bitOf h))) := by
  have cls : (s.takingAt [] [b0, b1] none).link.classWith (bitOf h) =
      some (BitVec.ofBool b0 ++ BitVec.ofBool b1 ++ BitVec.ofBool (bitOf h)) := classWith_of_third rfl rfl
  have taken : (s.takingAt [] [b0, b1] none).takePulse h =
      s.takingAt [] [b0, b1, bitOf h] ((s.takingAt [] [b0, b1] none).link.classWith (bitOf h)) :=
    takePulse_within (s := s.takingAt [] [b0, b1] none) notDue rfl ⟨fun _ => Nat.le_of_lt inTime, fun _ => inTime⟩
      (fun c isC => Option.some.inj (cls.symm.trans isC) ▸ legal) (by decide : 2 < 7)
  rw [taken, cls]

section
variable {c : BitVec 3} {bits : List Bool} {h : Nat} (seven : bits.length = 7)
include seven

/-- The eighth bit of a byte that is not the order's last (R166). -/
theorem takePulse_goes_on (goesOn : classLength c ≠ some (bytes.length + 1)) (legal : classLength c ≠ none)
    (inTime : h < 3000) : (s.takingAt bytes bits (some c)).takePulse h =
      s.takingAt (bytes ++ packBits (bits ++ [bitOf h])) [] (some c) :=
  takePulse_of_byte (s := s.takingAt bytes bits (some c)) notDue rfl ⟨fun _ => Nat.le_of_lt inTime, fun _ => inTime⟩
    (fun d isD => by
      rw [classWith_of_not_third (.inr (by rw [show (s.takingAt bytes bits (some c)).link.bits.length = 7 from seven]; decide))]
        at isD
      exact Option.some.inj isD ▸ legal) seven (fun last => goesOn last.2)

/-- The eighth bit of the order's last byte (R170). -/
theorem takePulse_ends (taking : s.link.state = .taking) (last : classLength c = some (bytes.length + 1)) (inTime : h ≤ 3000) :
    (s.takingAt bytes bits (some c)).takePulse h = (s.endFrame (bytes ++ packBits (bits ++ [bitOf h]))).finish := by
  have isLast : (s.takingAt bytes bits (some c)).AtLastBit := ⟨seven, last⟩
  have ends := takePulse_of_last (s := s.takingAt bytes bits (some c)) (h := h) notDue rfl
    ⟨fun _ => inTime, fun other => absurd isLast other⟩ (fun d isD => by
      rw [classWith_of_not_third (.inr (by rw [show (s.takingAt bytes bits (some c)).link.bits.length = 7 from seven]; decide))]
        at isD
      rw [← Option.some.inj isD, last]
      nofun) isLast
  rw [ends]
  exact congrArg State.finish (endFrame_setLink taking rfl _)

end

end

theorem packBits_append {bits rest : List Bool} (eight : bits.length = 8) :
    packBits (bits ++ rest) = packBits bits ++ packBits rest := by
  match bits, eight with
  | [a, b, c, d, e, f, g, h], _ => rfl

theorem split_eight {α : Type} {l : List α} {m : Nat} (long : l.length = 8 * (m + 1)) :
    ∃ seven x rest, l = seven ++ x :: rest ∧ seven.length = 7 ∧ rest.length = 8 * m := by
  refine ⟨l.take 7, l[7]'(by omega), l.drop 8, ?_, by rw [List.length_take]; omega, by rw [List.length_drop]; omega⟩
  rw [← List.drop_eq_getElem_cons, List.take_append_drop]

/-- The pulses of an order's bytes are in time: all but the last before 3 µs, and that by then (R167). -/
def InTimes (hs : List Nat) : Prop := (∀ h ∈ hs.dropLast, h < 3000) ∧ ∀ h ∈ hs, h ≤ 3000

theorem InTimes.before {hs ks : List Nat} (inTime : InTimes (hs ++ ks)) (more : ks ≠ []) : ∀ h ∈ hs, h < 3000 := by
  intro h mem
  refine inTime.1 h ?_
  rw [List.dropLast_append_of_ne_nil more]
  exact List.mem_append_left _ mem

theorem InTimes.after {hs ks : List Nat} (inTime : InTimes (hs ++ ks)) (more : ks ≠ []) : InTimes ks := by
  refine ⟨fun h mem => inTime.1 h ?_, fun h mem => inTime.2 h (List.mem_append_right _ mem)⟩
  rw [List.dropLast_append_of_ne_nil more]
  exact List.mem_append_right _ mem

/-- The bytes of an order from one whose first seven bits are given: the rest are taken and the frame is checked. -/
theorem takePulses_from_seven {s : State} (notDue : ¬s.WriteDue) (taking : s.link.state = .taking) {c : BitVec 3} (m : Nat)
    {bytes : List Byte} {bits : List Bool} {h : Nat} {rest : List Nat} (seven : bits.length = 7) (long : rest.length = 8 * m)
    (length : classLength c = some (bytes.length + 1 + m)) (inTime : InTimes (h :: rest)) :
    (s.takingAt bytes bits (some c)).takePulses (h :: rest) =
      (s.endFrame (bytes ++ packBits (bits ++ (h :: rest).map bitOf))).finish := by
  induction m generalizing bytes bits h rest with
  | zero =>
    have none : rest = [] := List.eq_nil_of_length_eq_zero long
    subst none
    exact takePulse_ends notDue seven taking length (inTime.2 h List.mem_cons_self)
  | succ m ih =>
    obtain ⟨seven', h', rest', rfl, isSeven, long'⟩ := split_eight long
    have eight : (bits ++ [bitOf h]).length = 8 := by rw [List.length_append, List.length_singleton, seven]
    have small := InTimes.before (hs := h :: seven') (ks := h' :: rest') inTime nofun
    have taken := takePulse_goes_on notDue (bytes := bytes) (c := c) seven
      (by rw [length]; exact fun same => absurd (Option.some.inj same) (by omega)) (by rw [length]; nofun)
      (small h List.mem_cons_self)
    have grown : (bytes ++ packBits (bits ++ [bitOf h])).length = bytes.length + 1 := by
      rw [packBits_of_length_eight eight, List.length_append, List.length_singleton]
    have within := takePulses_within notDue (bytes := bytes ++ packBits (bits ++ [bitOf h])) (cls := some c)
      (fun d isD => by rw [← Option.some.inj isD, length]; nofun) seven' [] (fun k mem => small k (List.mem_cons_of_mem _ mem))
      (by rw [isSeven]; decide) (.inl (List.ne_nil_of_length_eq_add_one grown))
    rw [State.takePulses, taken, takePulses_append, within, List.nil_append]
    rw [ih (by rw [List.length_map, isSeven]) long' (by rw [length, grown]; congr 1; omega)
      (InTimes.after (hs := h :: seven') inTime nofun)]
    rw [List.append_assoc bytes, ← List.map_append, ← packBits_append eight, List.append_assoc, List.map_cons]
    rfl

theorem lengthClass_byteOfBits (b0 b1 b2 b3 b4 b5 b6 b7 : Bool) : lengthClass (byteOfBits [b0, b1, b2, b3, b4, b5, b6, b7]) =
    BitVec.ofBool b0 ++ BitVec.ofBool b1 ++ BitVec.ofBool b2 := by
  revert b0 b1 b2 b3 b4 b5 b6 b7
  decide +kernel

/-- The pulses of a whole frame of a legal class bring it to its check (R166, R169, R170). -/
theorem takePulses_frame {s : State} (notDue : ¬s.WriteDue) (fresh : s.link = Receiver.fresh .taking) {hs : List Nat}
    {frame : List Byte} (packed : packBits (hs.map bitOf) = frame) (long : hs.length = 8 * frame.length)
    (length : classLength (lengthClass (frame.headD 0)) = some frame.length) (inTime : InTimes hs) :
    s.takePulses hs = (s.endFrame frame).finish := by
  have some_byte : ∀ c, classLength c ≠ some 0 := by decide
  obtain ⟨m, bytes⟩ : ∃ m, frame.length = m + 1 :=
    Nat.exists_eq_succ_of_ne_zero fun none => some_byte _ (length.trans (congrArg some none))
  obtain ⟨seven, h, rest, rfl, isSeven, long'⟩ := split_eight (long.trans (congrArg (8 * ·) bytes))
  match seven, isSeven with
  | [a1, a2, a3, a4, a5, a6, a7], _ =>
    have cls : lengthClass (frame.headD 0) =
        BitVec.ofBool (bitOf a1) ++ BitVec.ofBool (bitOf a2) ++ BitVec.ofBool (bitOf a3) := by
      rw [← packed]
      exact lengthClass_byteOfBits _ _ _ _ _ _ _ _
    rw [cls] at length
    have legal : classLength (BitVec.ofBool (bitOf a1) ++ BitVec.ofBool (bitOf a2) ++ BitVec.ofBool (bitOf a3)) ≠ none := by
      rw [length]
      nofun
    have small := InTimes.before (hs := [a1, a2, a3, a4, a5, a6, a7]) inTime (List.cons_ne_nil h rest)
    have starts : s = s.takingAt [] [] none := congrArg s.setLink fresh
    have two := takePulses_within notDue (bytes := []) (cls := none) nofun [a1, a2] []
      (fun k mem => small k (by simp only [List.mem_cons, List.not_mem_nil, or_false] at mem ⊢; omega)) (by simp) (by simp)
    have third := takePulse_third notDue (b0 := bitOf a1) (b1 := bitOf a2) (small a3 (by simp)) legal
    have four := takePulses_within notDue (bytes := []) (fun c isC => Option.some.inj isC ▸ legal) [a4, a5, a6, a7]
      [bitOf a1, bitOf a2, bitOf a3]
      (fun k mem => small k (by simp only [List.mem_cons, List.not_mem_nil, or_false] at mem ⊢; omega)) (by simp)
      (.inr (.inl (Nat.le_refl 3)))
    have rest := takePulses_from_seven notDue (show s.link.state = .taking by rw [fresh]; rfl) m (bytes := [])
      (bits := [a1, a2, a3, a4, a5, a6, a7].map bitOf) rfl long' (by rw [length, bytes, Nat.add_comm]; rfl)
      (InTimes.after (hs := [a1, a2, a3, a4, a5, a6, a7]) inTime (List.cons_ne_nil h rest))
    rw [← packed]
    conv_lhs => rw [starts]
    rw [show ∀ l, [a1, a2, a3, a4, a5, a6, a7] ++ l = [a1, a2] ++ a3 :: ([a4, a5, a6, a7] ++ l) from fun _ => rfl,
      takePulses_append, two, State.takePulses]
    rw [show ([] : List Bool) ++ [a1, a2].map bitOf = [bitOf a1, bitOf a2] from rfl, third, takePulses_append, four]
    exact rest

theorem exec_pulse (s : State) (h : Nat) : exec (.orderFrame [h]) s = .next (s.takePulse h) := rfl

/-- A pulse that moves the receiver and nothing else. -/
theorem becomes {s : State} {h : Nat} {l : Receiver} (taken : s.takePulse h = s.setLink l) :
    ∃ u : State, exec (.orderFrame [h]) s = .next u ∧ u.link = l ∧ OnlyTouches [.link] s u :=
  ⟨s.setLink l, congrArg Host.Outcome.next taken, rfl, touches_setLink s l⟩

/-- Settles O10: one bit by what it completes, and a frame as its bits. -/
theorem wholeFrameIsCheckedAndHandedOver : Obligations.WholeFrameIsCheckedAndHandedOver := by
  refine ⟨fun s hs frame armed before upTo packed long length => ?_, fun s => rfl,
    fun s l => ⟨rfl, (touches_putLink s l), rfl, touches_raise s _, rfl⟩, fun s h rest => ⟨s.takePulse h, rfl, rfl⟩,
    fun s h _ => ⟨s.firstEdge.issueStatus, rfl, ?_⟩, fun s h notDue => ⟨fun idle => ?_, fun taking late => ?_,
    fun taking inTime => ⟨fun b0 b1 first two unknown => ⟨fun illegal => ?_, fun legal => ?_⟩, fun known noThird within => ?_,
      fun known eighth goesOn => ?_, fun last => ?_⟩⟩⟩
  · have fresh : s.firstEdge.issueStatus.link = Receiver.fresh .taking := by
      rw [link_issueStatus, firstEdge_of_armed armed]
      rfl
    have taken : s.takePulses hs = (s.firstEdge.issueStatus.endFrame frame).finish := by
      rw [← takePulses_frame (not_due_issueStatus _) fresh packed long length ⟨before, upTo⟩]
      cases hs with
      | nil =>
        have some_byte : ∀ c, classLength c ≠ some 0 := by decide
        have none : frame.length = 0 := by rw [List.length_nil] at long; omega
        exact absurd (length.trans (congrArg some none)) (some_byte _)
      | cons h hs => exact congrArg (State.takePulses · hs) (takePulse_issueStatus_firstEdge s h).symm
    rw [exec_orderFrame, taken]
    unfold State.endFrame
    refine ⟨fun holds => ?_, fun fails => ?_⟩
    · rw [if_pos holds]
      rfl
    · rw [if_neg (Bool.eq_false_iff.1 fails)]
      rfl
  · exact congrArg Host.Outcome.next (takePulse_issueStatus_firstEdge s h).symm
  · have notTaking : s.link.state ≠ .taking := by rcases idle with idle | idle <;> rw [idle] <;> nofun
    have notArmed : s.link.state ≠ .armed := by rcases idle with idle | idle <;> rw [idle] <;> nofun
    rw [exec_pulse, takePulse_eq notDue notArmed, takeHigh_idle s h notTaking]
    exact apply_ite Host.Outcome.next _ _ _
  · refine ⟨s.bitTimeout.issueStatus, rfl, ?_⟩
    rw [exec_pulse, takePulse_eq notDue (by rw [taking]; nofun), takeHigh_of_late taking late]
    exact apply_ite Host.Outcome.next _ _ _
  · rw [exec_pulse, takePulse_of_illegal notDue taking inTime (classWith_of_third first two) illegal,
      exec_illegalLengthClass illegal, illegalClass_of_taking taking unknown]
  · refine becomes ((takePulse_within notDue taking inTime (fun c isC => ?_) (by simp [two])).trans ?_)
    · rw [classWith_of_third first two] at isC
      exact Option.some.inj isC ▸ legal
    · rw [classWith_of_third first two, first]
  · have cls := classWith_of_not_third (b := decide (500 ≤ h)) noThird
    refine becomes ((takePulse_within notDue taking inTime (fun c isC => known c (cls ▸ isC)) within).trans ?_)
    rw [cls]
  · have cls := classWith_of_not_third (b := decide (500 ≤ h)) (r := s.link) (.inr (by rw [eighth]; decide))
    exact becomes (takePulse_of_byte notDue taking inTime (fun c isC => known c (cls ▸ isC)) eighth goesOn)
  · have cls := classWith_of_not_third (b := decide (500 ≤ h)) (r := s.link) (.inr (by rw [last.1]; decide))
    have known (c : BitVec 3) (isC : s.link.classWith (decide (500 ≤ h)) = some c) : classLength c ≠ none := by
      intro none
      have length := last.2
      rw [← cls, isC] at length
      exact absurd (none.symm.trans length) nofun
    rw [exec_pulse, takePulse_of_last notDue taking inTime known last]
    rfl

end Sys2Proof.Machine
end

section
/-! PROOFS. The frames of orders: their layout, their check byte, and what they read back as (R169, R170, R176). -/

set_option Elab.async false

namespace Sys2Proof.Machine

/-! ### Bits and the check byte -/

theorem crc8Bit_eq (reg : Byte) (b : Bool) : crc8Bit reg b = crcStep 0x07 reg b := rfl

theorem crc8_eq (bs : List Byte) : crc8 bs = (bitsOfBytes bs).foldl (crcStep 0x07) 0 := by
  have from_reg (reg : Byte) : bs.foldl crc8Byte reg = (bitsOfBytes bs).foldl (crcStep 0x07) reg := by
    induction bs generalizing reg with
    | nil => rfl
    | cons x bs ih =>
      rw [List.foldl_cons, ih, show bitsOfBytes (x :: bs) = msbBits 8 x.toNat ++ bitsOfBytes bs from rfl, List.foldl_append,
        crc8Byte, bitsOf_eq]
      rfl
  exact from_reg 0

theorem byteOfBits_msbBits : ∀ x : Byte, byteOfBits (msbBits 8 x.toNat) = x := by decide +kernel

theorem packBits_bitsOfBytes (bs : List Byte) : packBits (bitsOfBytes bs) = bs := by
  induction bs with
  | nil => rfl
  | cons x bs ih =>
    have eight : (msbBits 8 x.toNat).length = 8 := by rw [msbBits, List.length_map, List.length_range]
    rw [show bitsOfBytes (x :: bs) = msbBits 8 x.toNat ++ bitsOfBytes bs from rfl, packBits_append eight,
      packBits_of_length_eight eight, ih, byteOfBits_msbBits]
    rfl

theorem frameHolds_iff (bs : List Byte) :
    frameHolds bs = true ↔ lengthClass (bs.headD 0) = 0 ∨ crc8 bs.dropLast = bs.getLastD 0 := by
  rw [frameHolds, Bool.or_eq_true, decide_eq_true_eq, decide_eq_true_eq]

/-! ### The layout of a frame -/

theorem content_eq_cons (o : Order) : ∃ rest, o.content = o.byte0 :: rest := by
  cases o <;> exact ⟨_, rfl⟩

section
variable {o : Order} {b : Byte} (first : o.byte0 = b)
include first

theorem frame_of_class0 (class0 : lengthClass b = 0) : o.frame = o.content := if_pos (first ▸ class0)

theorem frame_of_class (other : lengthClass b ≠ 0) : o.frame = o.content ++ [crc8 o.content] := if_neg (first ▸ other)

end

/-- The check byte of a frame is the one its content calls for (R170). -/
theorem frameHolds_frame (o : Order) : frameHolds o.frame = true := by
  rw [frameHolds_iff, headD_frame]
  by_cases class0 : lengthClass o.byte0 = 0
  · exact .inl class0
  · rw [frame_of_class rfl class0, List.dropLast_concat, List.getLastD_eq_getLast?, List.getLast?_concat]
    exact .inr rfl

/-- The frame of an order whose class and content are given has its class's length (R169). -/
theorem frame_length {o : Order} {b : Byte} {n : Nat} (first : o.byte0 = b) (other : lengthClass b ≠ 0)
    (length : classLength (lengthClass b) = some (n + 1)) (content : o.content.length = n) :
    classLength (lengthClass o.byte0) = some o.frame.length := by
  rw [frame_of_class first other, List.length_append, List.length_singleton, content, first, length]

/-- An undefined order's frame is filled up to its class's length (R174). -/
theorem frame_length_undefined {b : Byte} (code : undefinedCode b = true) :
    classLength (lengthClass b) = some (Order.undefined b).frame.length := by
  obtain ⟨n, length⟩ := Option.isSome_iff_exists.1 ((Bool.and_eq_true _ _).mp code).1
  have content : (Order.undefined b).content.length = n - 2 + 1 := by
    rw [Order.content, length, List.length_cons, List.length_replicate]
    rfl
  by_cases class0 : lengthClass b = 0
  · have one : n = 1 := by
      rw [class0] at length
      exact (Option.some.inj length).symm
    rw [frame_of_class0 (o := .undefined b) rfl class0, content, length, one]
  · have four : ∀ c n, c ≠ 0 → classLength c = some n → 2 ≤ n := by
      intro c n other length
      have all : ∀ c, c ≠ 0 → (classLength c).all (fun n => decide (2 ≤ n)) = true := by decide
      have := all c other
      rw [length] at this
      exact of_decide_eq_true this
    have two := four _ _ class0 length
    rw [frame_of_class (o := .undefined b) rfl class0, List.length_append, content, length, List.length_singleton]
    congr 1
    omega

theorem classLength_frame (o : Order) (code : ∀ b, o = .undefined b → undefinedCode b = true) :
    classLength (lengthClass o.byte0) = some o.frame.length := by
  cases o with
  | nop => rfl
  | halt => rfl
  | undefined b => exact frame_length_undefined (code b rfl)
  | close ap zero b2 => exact frame_length (b := 0x21) (n := 3) rfl (by decide) (by decide) rfl
  | flush all freeze ap zero b2 => exact frame_length (b := 0x22) (n := 3) rfl (by decide) (by decide) rfl
  | thaw ap zero b2 => exact frame_length (b := 0x23) (n := 3) rfl (by decide) (by decide) rfl
  | clearFaults faults b2 => exact frame_length (b := 0x24) (n := 3) rfl (by decide) (by decide) rfl
  | protect clear ap zero x0 y0 x1 y1 b6 => exact frame_length (b := 0x41) (n := 7) rfl (by decide) (by decide) rfl
  | setStatus field mask => exact frame_length (b := 0x42) (n := 7) rfl (by decide) (by decide) rfl
  | openOrder f => exact frame_length (b := 0x61) (n := 15) rfl (by decide) (by decide) rfl
  | setPool f => exact frame_length (b := 0x62) (n := 15) rfl (by decide) (by decide) rfl
  | setCurve f =>
    exact frame_length (b := 0x63) (n := 15) rfl (by decide) (by decide) (by simp [Order.content])

theorem extractLsb'_eq_ofNat {w : Nat} (f : BitVec w) (i : Nat) : f.extractLsb' i 8 = BitVec.ofNat 8 (f.toNat / 2 ^ i) := by
  rw [BitVec.extractLsb', Nat.shiftRight_eq_div_pow]

theorem leBytes_five (f : BitVec 40) : leBytes 5 f.toNat =
    [f.extractLsb' 0 8, f.extractLsb' 8 8, f.extractLsb' 16 8, f.extractLsb' 24 8, f.extractLsb' 32 8] := by
  simp only [extractLsb'_eq_ofNat, leBytes, Nat.div_div_eq_div_mul, Nat.reducePow, Nat.reduceMul, Nat.div_one]

theorem leBytes_three (f : BitVec 24) : leBytes 3 f.toNat =
    [f.extractLsb' 0 8, f.extractLsb' 8 8, f.extractLsb' 16 8] := by
  simp only [extractLsb'_eq_ofNat, leBytes, Nat.div_div_eq_div_mul, Nat.reducePow, Nat.reduceMul, Nat.div_one]

theorem fieldAt_of_leBytes {w n i : Nat} {frame : List Byte} {v : BitVec w} (small : w ≤ 8 * n)
    (field : (frame.drop i).take n = leBytes n v.toNat) : fieldAt w n i frame = v := by
  have fits : v.toNat < 256 ^ n := by
    rw [show 256 = 2 ^ 8 from rfl, ← Nat.pow_mul]
    exact Nat.lt_of_lt_of_le v.isLt (Nat.pow_le_pow_right (by decide) small)
  rw [fieldAt, field, ofLeBytes_leBytes, Nat.mod_eq_of_lt fits, BitVec.ofNat_toNat, BitVec.setWidth_eq]

/-! ### What a frame reads back as -/

theorem slices_of_close : ∀ (zero : BitVec 5) (ap : BitVec 3),
    (zero ++ ap).extractLsb' 0 3 = ap ∧ (zero ++ ap).extractLsb' 3 5 = zero := by decide +kernel

theorem slices_of_flush : ∀ (all freeze : Bool) (zero ap : BitVec 3),
    let b : Byte := BitVec.ofBool all ++ BitVec.ofBool freeze ++ zero ++ ap
    b.getLsbD 7 = all ∧ b.getLsbD 6 = freeze ∧ b.extractLsb' 0 3 = ap ∧ b.extractLsb' 3 3 = zero := by decide +kernel

theorem slices_of_protect : ∀ (clear : Bool) (zero : BitVec 4) (ap : BitVec 3),
    let b : Byte := BitVec.ofBool clear ++ zero ++ ap
    b.getLsbD 7 = clear ∧ b.extractLsb' 0 3 = ap ∧ b.extractLsb' 3 4 = zero := by decide +kernel

theorem slices_of_open : ∀ (zero1 mode : BitVec 2) (fmt : BitVec 1) (ap : BitVec 3),
    let b : Byte := zero1 ++ mode ++ fmt ++ ap
    b.extractLsb' 0 3 = ap ∧ b.extractLsb' 3 1 = fmt ∧ b.extractLsb' 4 2 = mode ∧ b.extractLsb' 6 2 = zero1 := by decide +kernel

theorem slices_of_floor : ∀ (zero2 floorStep : BitVec 4),
    (zero2 ++ floorStep).extractLsb' 0 4 = floorStep ∧ (zero2 ++ floorStep).extractLsb' 4 4 = zero2 := by decide +kernel

theorem vecOfList_toList {n : Nat} (v : Vector Byte n) : vecOfList n 0 v.toList = v := by
  obtain ⟨⟨l⟩, rfl⟩ := v
  simp [vecOfList, List.takeD_eq_take]

/-- An order without the codes of R176 is undefined (R174). -/
theorem orderOfFrame_undefined {b : Byte} (rest : List Byte) (code : b ∉ definedCodes) :
    orderOfFrame (b :: rest) = .undefined b := by
  simp only [definedCodes, List.mem_cons, List.not_mem_nil, or_false, not_or] at code
  obtain ⟨c0, c1, c2, c3, c4, c5, c6, c7, c8, c9, c10⟩ := code
  rw [orderOfFrame]
  simp only [List.getD_cons_zero, if_neg c0, if_neg c1, if_neg c2, if_neg c3, if_neg c4, if_neg c5, if_neg c6, if_neg c7,
    if_neg c8, if_neg c9, if_neg c10]

theorem orderOfFrame_frame (o : Order) (code : ∀ b, o = .undefined b → undefinedCode b = true) : orderOfFrame o.frame = o := by
  cases o with
  | nop => rfl
  | halt => rfl
  | undefined b =>
    have other : b ∉ definedCodes := by
      have given := ((Bool.and_eq_true _ _).mp (code b rfl)).2
      intro mem
      rw [List.contains_iff_mem.2 mem] at given
      cases given
    by_cases class0 : lengthClass b = 0
    · rw [frame_of_class0 (o := .undefined b) rfl class0]
      exact orderOfFrame_undefined _ other
    · rw [frame_of_class (o := .undefined b) rfl class0]
      exact orderOfFrame_undefined _ other
  | close ap zero b2 =>
    rw [frame_of_class (b := 0x21) rfl (by decide)]
    generalize crc8 _ = x
    have reads : orderOfFrame ([0x21, zero ++ ap, b2] ++ [x]) =
      .close ((zero ++ ap).extractLsb' 0 3) ((zero ++ ap).extractLsb' 3 5) b2 := rfl
    rw [(slices_of_close zero ap).1, (slices_of_close zero ap).2] at reads
    exact reads
  | flush all freeze ap zero b2 =>
    rw [frame_of_class (b := 0x22) rfl (by decide)]
    generalize crc8 _ = x
    obtain ⟨isAll, isFreeze, isAp, isZero⟩ := slices_of_flush all freeze zero ap
    have reads (b : Byte) : orderOfFrame ([0x22, b, b2] ++ [x]) =
      .flush (b.getLsbD 7) (b.getLsbD 6) (b.extractLsb' 0 3) (b.extractLsb' 3 3) b2 := rfl
    refine (reads _).trans ?_
    rw [isAll, isFreeze, isAp, isZero]
  | thaw ap zero b2 =>
    rw [frame_of_class (b := 0x23) rfl (by decide)]
    generalize crc8 _ = x
    have reads : orderOfFrame ([0x23, zero ++ ap, b2] ++ [x]) =
      .thaw ((zero ++ ap).extractLsb' 0 3) ((zero ++ ap).extractLsb' 3 5) b2 := rfl
    rw [(slices_of_close zero ap).1, (slices_of_close zero ap).2] at reads
    exact reads
  | clearFaults faults b2 =>
    rw [frame_of_class (b := 0x24) rfl (by decide)]
    rfl
  | protect clear ap zero x0 y0 x1 y1 b6 =>
    rw [frame_of_class (b := 0x41) rfl (by decide)]
    generalize crc8 _ = x
    obtain ⟨isClear, isAp, isZero⟩ := slices_of_protect clear zero ap
    have reads (b : Byte) : orderOfFrame ([0x41, b, x0, y0, x1, y1, b6] ++ [x]) =
      .protect (b.getLsbD 7) (b.extractLsb' 0 3) (b.extractLsb' 3 4) x0 y0 x1 y1 b6 := rfl
    refine (reads _).trans ?_
    rw [isClear, isAp, isZero]
  | setStatus field mask =>
    rw [frame_of_class (b := 0x42) rfl (by decide)]
    generalize crc8 _ = x
    have reads : orderOfFrame (Order.content (.setStatus field mask) ++ [x]) =
      .setStatus (fieldAt 40 5 1 (Order.content (.setStatus field mask) ++ [x])) mask := rfl
    rw [reads, fieldAt_of_leBytes (by decide) rfl]
  | openOrder f =>
    rw [frame_of_class (b := 0x61) rfl (by decide)]
    generalize crc8 _ = x
    obtain ⟨isAp, isFmt, isMode, isZero1⟩ := slices_of_open f.zero1 f.mode f.fmt f.ap
    obtain ⟨isFloor, isZero2⟩ := slices_of_floor f.zero2 f.floorStep
    have base : fieldAt 40 5 4 (Order.content (.openOrder f) ++ [x]) = f.base := fieldAt_of_leBytes (by decide) rfl
    have reads : orderOfFrame (Order.content (.openOrder f) ++ [x]) =
      .openOrder ⟨(f.zero1 ++ f.mode ++ f.fmt ++ f.ap).extractLsb' 0 3, (f.zero1 ++ f.mode ++ f.fmt ++ f.ap).extractLsb' 3 1,
        (f.zero1 ++ f.mode ++ f.fmt ++ f.ap).extractLsb' 4 2, (f.zero1 ++ f.mode ++ f.fmt ++ f.ap).extractLsb' 6 2,
        (f.zero2 ++ f.floorStep).extractLsb' 0 4, (f.zero2 ++ f.floorStep).extractLsb' 4 4, f.budget,
        fieldAt 40 5 4 (Order.content (.openOrder f) ++ [x]), f.width, f.height, f.fillR, f.fillG, f.fillB, f.zero14⟩ := rfl
    rw [reads, base, isAp, isFmt, isMode, isZero1, isFloor, isZero2]
  | setPool f =>
    rw [frame_of_class (b := 0x62) rfl (by decide)]
    generalize crc8 _ = x
    have base : fieldAt 40 5 1 (Order.content (.setPool f) ++ [x]) = f.base := fieldAt_of_leBytes (by decide) rfl
    have count : fieldAt 24 3 6 (Order.content (.setPool f) ++ [x]) = f.count := fieldAt_of_leBytes (by decide) rfl
    have low : fieldAt 24 3 9 (Order.content (.setPool f) ++ [x]) = f.low := fieldAt_of_leBytes (by decide) rfl
    have reads : orderOfFrame (Order.content (.setPool f) ++ [x]) =
      .setPool ⟨fieldAt 40 5 1 (Order.content (.setPool f) ++ [x]), fieldAt 24 3 6 (Order.content (.setPool f) ++ [x]),
        fieldAt 24 3 9 (Order.content (.setPool f) ++ [x]), f.limit, f.zero13, f.zero14⟩ := rfl
    rw [reads, base, count, low]
  | setCurve f =>
    rw [frame_of_class (b := 0x63) rfl (by decide)]
    generalize crc8 _ = x
    have reads (steps : List Byte) (eight : steps.length = 8) :
        orderOfFrame (0x63 :: steps ++ [f.up, f.down, f.refit, f.zero12, f.zero13, f.zero14] ++ [x]) =
          .setCurve ⟨vecOfList 8 0 steps, f.up, f.down, f.refit, f.zero12, f.zero13, f.zero14⟩ := by
      match steps, eight with
      | [a, b, c, d, e, g, h, i], _ => rfl
    refine (reads f.steps.toList (by simp)).trans ?_
    rw [vecOfList_toList]

/-- The content of an undefined order is what stands before the check byte of its frame. -/
theorem undefined_content (b : Byte) :
    b :: (Order.undefined b).frame.tail.take ((Order.undefined b).frame.length - 2) = (Order.undefined b).content := by
  by_cases class0 : lengthClass b = 0
  · have content : (Order.undefined b).content = [b] := by
      rw [Order.content, class0]
      rfl
    rw [frame_of_class0 (o := .undefined b) rfl class0, content]
    rfl
  · rw [frame_of_class (o := .undefined b) rfl class0, Order.content]
    simp

/-- Settles O11: each order's frame read back, and the check byte bit by bit. -/
theorem ordersReadBackFromTheirFrames : Obligations.OrdersReadBackFromTheirFrames := by
  refine ⟨fun o code => ⟨orderOfFrame_frame o code, frameHolds_frame o, ?_⟩, fun o => ?_, by decide +kernel, by decide,
    fun bs => ⟨crc8_eq bs, packBits_bitsOfBytes bs, frameHolds_iff bs⟩⟩
  · rw [headD_frame, classLength_frame o code]
  · have laidOut (content : List Byte) (same : content = o.content) :
        o.frame = if lengthClass (content.headD 0) = 0 then content else content ++ [crc8 content] := by
      obtain ⟨rest, first⟩ := content_eq_cons o
      rw [same, Order.frame, first]
      rfl
    refine laidOut _ ?_
    cases o with
    | undefined b => exact undefined_content b
    | setStatus field mask => exact congrArg (fun l => 0x42 :: l ++ [mask]) (leBytes_five field).symm
    | openOrder f =>
      exact congrArg (fun l => [0x61, f.zero1 ++ f.mode ++ f.fmt ++ f.ap, f.zero2 ++ f.floorStep, f.budget] ++ l ++
        [f.width, f.height, f.fillR, f.fillG, f.fillB, f.zero14]) (leBytes_five f.base).symm
    | setPool f =>
      rw [Order.content, leBytes_five, leBytes_three, leBytes_three]
      rfl
    | _ => rfl

end Sys2Proof.Machine
end

section
/-! PROOFS. The orders that end where they start: their refusals in order, and what an accepted one changes (R15–R18, R52, R109, R177–R186). -/

set_option Elab.async false

namespace Sys2Proof.Machine

/-! ### An order that is taken at once -/

/-- What an order's command answers, from what the order's execution gives (R173, R174). -/
theorem exec_executed {c : Instr} {o : Order} {s t : State} (ready : s.ReadyForOrder) (brings : broughtOrder c = some o)
    (gives : s.execute o = t) (notNop : c ≠ .nop := by nofun) (notHalt : c ≠ .halt := by nofun) (w : c.wf = true := by rfl) :
    exec c s = .next t.finish := by
  rw [exec_ready ready brings notNop notHalt w, gives]

theorem exec_refused {c : Instr} {o : Order} {s : State} {k : OrderReason} (ready : s.ReadyForOrder)
    (brings : broughtOrder c = some o) (gives : s.execute o = s.orderRefused o k) (notNop : c ≠ .nop := by nofun)
    (notHalt : c ≠ .halt := by nofun) (w : c.wf = true := by rfl) : exec c s = .next (s.orderRefused o k).finish :=
  exec_executed ready brings gives notNop notHalt w

/-- A change of an aperture's record that completes an order (R174). -/
theorem orderDone_putAp (s : State) (o : Order) (a : ApIx) (x : Aperture) :
    Concluded o s ((s.putAp a x).orderDone o) .done none ∧ ((s.putAp a x).orderDone o).ap a = x ∧
      (∀ b, b ≠ a → ((s.putAp a x).orderDone o).ap b = s.ap b) ∧
      ((s.putAp a x).orderDone o).st = { s.st with stale := true } ∧
      OnlyTouches [.aps, .ord, .st] s ((s.putAp a x).orderDone o) :=
  ⟨orderDone_concluded s (s.putAp a x) o rfl, ap_putAp_same s a x, fun b other => ap_putAp_other s a b x other,
    orderDone_st (s.putAp a x) o, (touches_putAp s a x).andThen (touches_orderDone _ o)⟩

/-! ### CLOSE and FLUSH -/

section
variable {s : State} {o : Order} {ap : BitVec 3}

theorem runClose_badParam {zero : BitVec 5} {b2 : Byte} (bad : zero ≠ 0 ∨ b2 ≠ 0) :
    s.runClose o ap zero b2 = s.orderRefused o .badParam := if_pos bad

theorem runClose_closed (closed : (s.ap (apOf ap)).state = .closed) : s.runClose o ap 0 0 = s.orderRefused o .state := by
  rw [State.runClose, if_neg (by simp), closed]

theorem runClose_starts (state : (s.ap (apOf ap)).state = .opened ∨ (s.ap (apOf ap)).state = .freezing ∨
    (s.ap (apOf ap)).state = .frozen) : s.runClose o ap 0 0 = (s.startClose (apOf ap)).orderStarts o := by
  rw [State.runClose, if_neg (by simp)]
  rcases state with state | state | state <;> rw [state]

theorem runFlush_badParam {all freeze : Bool} {zero : BitVec 3} {b2 : Byte}
    (bad : zero ≠ 0 ∨ b2 ≠ 0 ∨ (freeze = true ∧ all = true) ∨ (all = true ∧ ap ≠ 0)) :
    s.runFlush o all freeze ap zero b2 = s.orderRefused o .badParam := if_pos bad

theorem runFlush_one (freeze : Bool) : s.runFlush o false freeze ap 0 0 = s.flushOne o (apOf ap) freeze := by
  rw [State.runFlush, if_neg (by simp), if_neg Bool.false_ne_true]

theorem runFlush_all : s.runFlush o true false 0 0 0 =
    (s.forceSlots fun b => decide ((s.ap b).state = .opened)).orderStarts o := by
  rw [State.runFlush, if_neg (by simp), if_pos rfl]

variable {a : ApIx} {freeze : Bool}

theorem flushOne_closed (closed : (s.ap a).state = .closed) : s.flushOne o a freeze = s.orderRefused o .state := by
  rw [State.flushOne, closed]

theorem flushOne_frozen (frozen : (s.ap a).state = .frozen) : s.flushOne o a freeze = s.orderDone o := by
  rw [State.flushOne, frozen]

theorem flushOne_opened (opened : (s.ap a).state = .opened) : s.flushOne o a freeze =
    ((s.beforeForce a freeze).forceSlots fun b => decide (b = a)).orderStarts o := by
  rw [State.flushOne, opened]
  rfl

end

/-- Settles O15: each refusal is the branch that its check picks. -/
theorem closeAndFlushRefusals : Obligations.CloseAndFlushRefusals := by
  intro s ready
  refine ⟨fun ap zero b2 bad => exec_refused ready rfl (runClose_badParam bad),
    fun ap closed => exec_refused ready rfl (runClose_closed closed), fun ap zero b2 bad => ?_,
    fun freeze ap zero b2 bad => exec_refused ready rfl (runFlush_badParam ?_), fun ap closed => ?_,
    fun ap freeze frozen => ⟨s.orderDone (.flush false freeze ap 0 0), orderDone_concluded s s _ rfl,
      touches_orderDone s _, rfl, ?_⟩⟩
  · exact ⟨exec_refused ready rfl (runFlush_badParam (bad.imp_right .inl)),
      exec_refused ready rfl (runFlush_badParam (bad.imp_right .inl))⟩
  · rcases bad with frozen | named | zeros | zeros
    · exact .inr (.inr (.inl ⟨frozen, rfl⟩))
    · exact .inr (.inr (.inr ⟨rfl, named⟩))
    · exact .inl zeros
    · exact .inr (.inl zeros)
  · have closed (o : Order) (freeze : Bool) := (runFlush_one (s := s) (o := o) (ap := ap) freeze).trans (flushOne_closed closed)
    exact ⟨exec_refused ready rfl (closed _ _), exec_refused ready rfl (closed _ _)⟩
  · have done (o : Order) (freeze : Bool) := (runFlush_one (s := s) (o := o) (ap := ap) freeze).trans (flushOne_frozen frozen)
    cases freeze with
    | true => exact exec_executed (c := .flushFreeze ap 0 0) ready rfl (done _ _)
    | false => exact exec_executed (c := .flush ap 0 0) ready rfl (done _ _)

/-! ### THAW and CLEAR FAULTS -/

section
variable {s : State} {o : Order}

theorem runThaw_other {ap : BitVec 3} (other : (s.ap (apOf ap)).state ≠ .frozen) :
    s.runThaw o ap 0 0 = s.orderRefused o .state := by
  rw [State.runThaw, if_neg (by simp), if_neg other]

theorem runThaw_frozen {ap : BitVec 3} (frozen : (s.ap (apOf ap)).state = .frozen) :
    s.runThaw o ap 0 0 = (s.putAp (apOf ap) { s.ap (apOf ap) with state := .opened }).orderDone o := by
  rw [State.runThaw, if_neg (by simp), if_pos frozen]

theorem runClearFaults_done (faults : Byte) :
    s.runClearFaults o faults 0 = (s.putFaults (clearSticky s.st.faults faults)).orderDone o := by
  rw [State.runClearFaults, if_neg (by simp)]

end

/-- Settles O20. -/
theorem thawOpensOnlyAFrozenAperture : Obligations.ThawOpensOnlyAFrozenAperture := by
  intro s ready
  exact ⟨fun ap zero b2 bad => exec_refused ready rfl (if_pos bad),
    fun ap other => exec_refused ready rfl (runThaw_other other),
    fun ap frozen => ⟨_, exec_executed ready rfl (runThaw_frozen frozen), orderDone_putAp s _ _ _⟩⟩

/-- The bits that CLEAR FAULTS leaves (R183). -/
theorem clearSticky_getLsbD (faults named : Byte) (i : Nat) (inside : i < 8) :
    (clearSticky faults named).getLsbD i = (faults.getLsbD i && (decide (i = 3) || !named.getLsbD i)) := by
  have bits : ∀ i < 8, (FaultKind.poolShort.mask).getLsbD i = decide (i = 3) := by decide
  simp only [clearSticky, BitVec.getLsbD_and, BitVec.getLsbD_not, bits i inside, decide_eq_true inside, Bool.true_and]
  cases decide (i = 3) <;> cases named.getLsbD i <;> rfl

/-- Settles O21. -/
theorem clearFaultsRemovesNamedStickyFaults : Obligations.ClearFaultsRemovesNamedStickyFaults := by
  intro s ready
  refine ⟨fun faults b2 bad => exec_refused ready rfl (if_pos bad), fun faults =>
    ⟨(s.putFaults (clearSticky s.st.faults faults)).orderDone (.clearFaults faults 0), exec_executed ready rfl
      (runClearFaults_done faults), orderDone_concluded s (s.putFaults (clearSticky s.st.faults faults)) _ rfl, fun i other => ?_, ?_, rfl,
      ?_, rfl, rfl, rfl, rfl, (touches_putFaults s _).andThen (touches_orderDone _ _)⟩⟩
  · refine (clearSticky_getLsbD s.st.faults faults i i.isLt).trans ?_
    rw [decide_eq_false other, Bool.false_or]
  · refine (clearSticky_getLsbD s.st.faults faults 3 (by decide)).trans ?_
    exact Bool.and_true _
  · exact congrArg StatusUnit.stale (orderDone_st _ _)

/-! ### PROTECT -/

theorem protectable_iff (x : ApState) : x.protectable = true ↔ x = .opened ∨ x = .freezing ∨ x = .frozen := by
  cases x <;> decide

theorem holdsRect_iff (x : Aperture) (q : Rect) :
    x.holdsRect q = true ↔ q.x0 ≤ q.x1 ∧ q.x1 < x.width ∧ q.y0 ≤ q.y1 ∧ q.y1 < x.height := by
  simp only [Aperture.holdsRect, Bool.and_eq_true, decide_eq_true_eq, and_assoc]

section
variable {s : State} {o : Order} {clear : Bool} {ap : BitVec 3} {zero : BitVec 4} {x0 y0 x1 y1 b6 : Byte}

theorem runProtect_badParam (bad : zero ≠ 0 ∨ b6 ≠ 0 ∨ (clear = true ∧ (x0 ≠ 0 ∨ y0 ≠ 0 ∨ x1 ≠ 0 ∨ y1 ≠ 0))) :
    s.runProtect o clear ap zero x0 y0 x1 y1 b6 = s.orderRefused o .badParam := if_pos bad

section
variable (good : ¬(zero ≠ 0 ∨ b6 ≠ 0 ∨ (clear = true ∧ (x0 ≠ 0 ∨ y0 ≠ 0 ∨ x1 ≠ 0 ∨ y1 ≠ 0))))
include good

theorem runProtect_state (state : ¬(s.ap (apOf ap)).state.protectable = true) :
    s.runProtect o clear ap zero x0 y0 x1 y1 b6 = s.orderRefused o .state := by
  rw [State.runProtect, if_neg good, if_pos (Bool.eq_false_iff.2 state)]

theorem runProtect_clear (state : (s.ap (apOf ap)).state.protectable = true) (clears : clear = true) :
    s.runProtect o clear ap zero x0 y0 x1 y1 b6 = (s.putAp (apOf ap) { s.ap (apOf ap) with rects := [] }).orderDone o := by
  rw [State.runProtect, if_neg good, if_neg (by rw [state]; nofun), if_pos clears]

end

variable (zero0 : zero = 0) (b60 : b6 = 0) (state : (s.ap (apOf ap)).state.protectable = true)
include zero0 b60 state

/-- The third check of an ADD, and what comes after it (R18). -/
theorem runProtect_add : s.runProtect o false ap zero x0 y0 x1 y1 b6 =
    if (s.ap (apOf ap)).holdsRect ⟨x0.toNat, y0.toNat, x1.toNat, y1.toNat⟩ = false then s.orderRefused o .badParam
    else if 8 ≤ (s.ap (apOf ap)).rects.length then s.orderRefused o .full
    else (s.putAp (apOf ap) { s.ap (apOf ap) with
      rects := (s.ap (apOf ap)).rects ++ [⟨x0.toNat, y0.toNat, x1.toNat, y1.toNat⟩] }).orderDone o := by
  rw [State.runProtect, if_neg (by simp [zero0, b60]), if_neg (by rw [state]; nofun), if_neg Bool.false_ne_true]
  rfl

end

/-- Settles O22: the four checks in their order. -/
theorem protectChangesOnlyTheList : Obligations.ProtectChangesOnlyTheList := by
  intro s ap zero x0 y0 x1 y1 b6 ready x add clear fits takes becomes addCmd clearCmd
  have takes_iff : takes ↔ x.state.protectable = true := (protectable_iff _).symm
  have fits_iff : fits ↔ x.holdsRect ⟨x0.toNat, y0.toNat, x1.toNat, y1.toNat⟩ = true :=
    (holdsRect_iff x ⟨x0.toNat, y0.toNat, x1.toNat, y1.toNat⟩).symm
  rw [takes_iff, fits_iff]
  refine ⟨fun bad => exec_refused ready rfl (runProtect_badParam (bad.imp_right .inl)),
    fun zero0 b60 state => exec_refused ready rfl (runProtect_state (by simp [zero0, b60]) state),
    fun zero0 b60 state outside => exec_refused ready rfl ((runProtect_add zero0 b60 state).trans
      (if_pos (Bool.eq_false_iff.2 outside))),
    fun zero0 b60 state inside full => exec_refused ready rfl ((runProtect_add zero0 b60 state).trans
      ((if_neg (by rw [inside]; nofun)).trans (if_pos full))),
    fun zero0 b60 state inside room => ⟨_, exec_executed ready rfl ((runProtect_add zero0 b60 state).trans
      ((if_neg (by rw [inside]; nofun)).trans (if_neg (Nat.not_le.2 room)))), orderDone_putAp s _ _ _⟩,
    fun bad => exec_refused ready rfl (runProtect_badParam (bad.imp_right (Or.imp_right fun h => ⟨rfl, h⟩))),
    fun zero0 b60 h0 h1 h2 h3 state => exec_refused ready rfl (runProtect_state (by simp [zero0, b60, h0, h1, h2, h3]) state),
    fun zero0 b60 h0 h1 h2 h3 state => ⟨_, exec_executed ready rfl
      (runProtect_clear (by simp [zero0, b60, h0, h1, h2, h3]) state rfl), orderDone_putAp s _ _ _⟩⟩

/-! ### SET STATUS -/

section
variable (enable : Bool) (zero : BitVec 3) (addr : BitVec 36)

/-- The word of a SET STATUS (R186). -/
def statusWord : BitVec 40 := BitVec.ofBool enable ++ zero ++ addr

theorem statusAddr_statusWord : statusAddr (statusWord enable zero addr) = addr.toNat := by
  refine congrArg BitVec.toNat (BitVec.eq_of_getLsbD_eq fun i hi => ?_)
  rw [BitVec.getLsbD_setWidth, statusWord, BitVec.getLsbD_append]
  simp [hi]

theorem enable_statusWord : (statusWord enable zero addr).getLsbD 39 = enable := by
  rw [statusWord, BitVec.getLsbD_append, BitVec.getLsbD_append]
  simp

theorem zero_statusWord : (statusWord enable zero addr).extractLsb' 36 3 = zero := by
  refine BitVec.eq_of_getLsbD_eq fun i hi => ?_
  rw [BitVec.getLsbD_extractLsb', statusWord, BitVec.getLsbD_append, BitVec.getLsbD_append]
  simp [hi]

theorem aligned_statusWord : (statusWord enable zero addr).extractLsb' 0 7 = 0 ↔ addr.toNat % 128 = 0 := by
  have low : (statusWord enable zero addr).extractLsb' 0 7 = addr.extractLsb' 0 7 := by
    refine BitVec.eq_of_getLsbD_eq fun i hi => ?_
    rw [BitVec.getLsbD_extractLsb', BitVec.getLsbD_extractLsb', statusWord, BitVec.getLsbD_append]
    simp [show i < 36 by omega]
  rw [low, ← BitVec.toNat_inj]
  simp

end

section
variable {s : State} {o : Order} {field : BitVec 40} {mask : Byte}

theorem runSetStatus_badParam (bad : field.extractLsb' 36 3 ≠ 0 ∨ field.extractLsb' 0 7 ≠ 0) :
    s.runSetStatus o field mask = s.orderRefused o .badParam := if_pos bad

/-- The block that an enabled SET STATUS asks for meets the pool region or an aperture (R11, R186). -/
def State.statusMeets (s : State) (field : BitVec 40) : Bool :=
  field.getLsbD 39 && (s.meetsPool (statusAddr field) Config.statusSize || s.meetsAperture (statusAddr field) Config.statusSize)

variable (good : ¬(field.extractLsb' 36 3 ≠ 0 ∨ field.extractLsb' 0 7 ≠ 0))
include good

theorem runSetStatus_overlap (meets : s.statusMeets field = true) :
    s.runSetStatus o field mask = s.orderRefused o .overlap := (if_neg good).trans (if_pos meets)

theorem runSetStatus_done (apart : ¬s.statusMeets field = true) : s.runSetStatus o field mask =
    (s.orderDone o).setSt ((s.orderDone o).st.configure (statusAddr field) (field.getLsbD 39) mask) :=
  (if_neg good).trans (if_neg apart)

end

/-- Settles O23: the word's fields, then the two checks in their order. -/
theorem setStatusSetsAddressEnableAndMask : Obligations.SetStatusSetsAddressEnableAndMask := by
  intro s addr zero enable mask ready field o meets
  have isAddr : statusAddr field = addr.toNat := statusAddr_statusWord enable zero addr
  have isEnable : field.getLsbD 39 = enable := enable_statusWord enable zero addr
  have isZero : field.extractLsb' 36 3 = zero := zero_statusWord enable zero addr
  have aligned : field.extractLsb' 0 7 = 0 ↔ addr.toNat % 128 = 0 := aligned_statusWord enable zero addr
  have meets_iff : s.statusMeets field = true ↔ meets := by
    rw [State.statusMeets, Bool.and_eq_true, Bool.or_eq_true, meetsPool_iff, meetsAperture_iff, isAddr, isEnable]
    exact Iff.rfl
  have good (zero0 : zero = 0) (low : addr.toNat % 128 = 0) :
      ¬(field.extractLsb' 36 3 ≠ 0 ∨ field.extractLsb' 0 7 ≠ 0) := by
    rw [isZero, zero0]
    exact fun bad => bad.elim (fun h => h rfl) fun h => h (aligned.2 low)
  refine ⟨fun bad => exec_refused ready rfl (runSetStatus_badParam ?_), fun zero0 low meets =>
    exec_refused ready rfl (runSetStatus_overlap (good zero0 low) (meets_iff.2 meets)), fun zero0 low apart =>
    ⟨_, exec_executed ready rfl (runSetStatus_done (good zero0 low) fun h => apart (meets_iff.1 h)),
      orderDone_concluded s s o rfl, isAddr, isEnable, rfl, rfl, rfl, isEnable, rfl, ?_,
      (touches_orderDone s o).andThen (touches_setSt _ _)⟩⟩
  · rw [isZero]
    exact bad.imp_right fun low h => low (aligned.1 h)
  · exact congrArg (s.st.reissue || ·) isEnable

/-! ### OPEN, SET POOL and SET CURVE -/

/-- A refusal's record, fault and blocks (R174). -/
theorem orderRefused_effect (s : State) (o : Order) (k : OrderReason) :
    Concluded o s (s.orderRefused o k) .refused (some k) ∧ (s.orderRefused o k).st.faults = s.st.faults ||| 0x02 ∧
      OnlyTouches [.ord, .st] s (s.orderRefused o k) :=
  ⟨orderRefused_concluded s o k, congrArg StatusUnit.faults (orderRefused_st s o k), touches_orderRefused s o k⟩

/-- The state that an accepted OPEN leaves (R16). -/
def State.opened (s : State) (o : Order) (f : OpenFields) (first : Nat) (left : List Extent) : State :=
  (((s.setMap { s.map with
    entries := clearEntries s.map.entries first (openedRecord f first).extLen, freeExtents := left }).putAp
      (apOf f.ap) (openedRecord f first)).markStale).orderDone o

theorem runOpen_accepted {s : State} {o : Order} {f : OpenFields} (good : ¬openBadParam f = true)
    (closed : (s.ap (apOf f.ap)).state = .closed) (pool : s.pool.count ≠ 0)
    (apart : ¬s.meetsRegion f.base.toNat (openSize f) = true) {first : Nat} {left : List Extent}
    (takes : takeExtent s.map.freeExtents ((f.width.toNat + 1) * (f.height.toNat + 1)) = some (first, left)) :
    s.runOpen o f = s.opened o f first left := by
  refine (if_neg good).trans <| (if_neg (not_isLive closed)).trans <| (if_neg pool).trans <| (if_neg apart).trans ?_
  rw [takes]
  rfl

/-- Settles O25: no check fails, and first fit takes the first extent that is long enough. -/
theorem openLoadsTheRecordByFirstFit : Obligations.OpenLoadsTheRecordByFirstFit := by
  intro s f before after e ready w h size z1 z2 mode low high align fits z14 closed pool aps poolApart status extents short enough
  have isSize : openSize f = size := openSize_eq f
  have good : ¬openBadParam f = true := by
    rw [openBadParam_iff, isSize]
    have end_of_store : 2 ^ 36 = 68719476736 := rfl
    rintro (h | h | h | h | h | h | h | h)
    · exact h z1
    · exact h z2
    · omega
    · omega
    · omega
    · omega
    · omega
    · exact h z14
  have apart : ¬s.meetsRegion f.base.toNat (openSize f) = true := by
    rw [meetsRegion_iff, isSize]
    rintro (⟨b, live, lo, hi⟩ | ⟨-, hi, lo⟩ | ⟨enabled, hi, lo⟩)
    · have := aps b live
      omega
    · omega
    · have := status enabled
      omega
  have takes := takeExtent_append (after := after) short enough
  rw [← extents] at takes
  refine ⟨_, exec_executed ready rfl (runOpen_accepted good closed pool apart takes), ⟨rfl, rfl, rfl, rfl⟩,
    ap_putAp_same (s.setMap _) (apOf f.ap) _, fun b other => ap_putAp_other (s.setMap _) (apOf f.ap) b _ other, rfl,
    fun i lo hi => entryAt_clearEntries_in _ lo hi, fun i out => entryAt_clearEntries_out _ out, rfl, rfl, rfl,
    orderDone_st _ _, ?_⟩
  exact (((touches_setMap s _).andThen (C := [.aps, .map, .ord, .st]) (touches_putAp _ _ _)).andThen
    (C := [.aps, .map, .ord, .st]) (touches_markStale _)).andThen (touches_orderDone _ _)

theorem poolBadParam_iff (f : PoolFields) : poolBadParam f = true ↔
    f.count.toNat = 0 ∨ 4194304 < f.count.toNat ∨ f.count.toNat < f.low.toNat ∨ f.limit = 0 ∨
      f.base.toNat % 256 ≠ 0 ∨ 2 ^ 36 < f.base.toNat + 256 * f.count.toNat ∨ f.zero13 ≠ 0 ∨ f.zero14 ≠ 0 := by
  simp only [poolBadParam, Bool.or_eq_true, decide_eq_true_eq, or_assoc]
  rfl

theorem any_isLive_iff (s : State) : s.aps.toList.any Aperture.isLive = true ↔ ∃ a, (s.ap a).state ≠ .closed := by
  rw [List.any_eq_true]
  constructor
  · rintro ⟨x, mem, live⟩
    obtain ⟨i, inside, rfl⟩ := List.mem_iff_getElem.1 mem
    rw [Vector.length_toList] at inside
    exact ⟨⟨i, inside⟩, (isLive_iff _).1 live⟩
  · rintro ⟨a, live⟩
    exact ⟨s.ap a, by simp [State.ap, Vector.get], (isLive_iff _).2 live⟩

theorem bandOf_all_free (count : Nat) : bandOf count count = 0 := by
  apply Fin.ext
  change min (8 * (count - count) / count) 7 = 0
  rw [Nat.sub_self, Nat.mul_zero, Nat.zero_div]
  rfl

/-- Settles O26: the three checks in their order, then the pool with every chunk free. -/
theorem setPoolDefinesAFreePool : Obligations.SetPoolDefinesAFreePool := by
  intro s f ready o bad busy meets
  have bad_iff : poolBadParam f = true ↔ bad := poolBadParam_iff f
  have busy_iff : s.aps.toList.any Aperture.isLive = true ↔ busy := any_isLive_iff s
  have meets_iff : s.meetsStatus f.base.toNat (Config.block * f.count.toNat) = true ↔ meets := meetsStatus_iff s _ _
  rw [← bad_iff, ← busy_iff, ← meets_iff]
  refine ⟨fun bad => exec_refused ready rfl (if_pos bad),
    fun good busy => exec_refused ready rfl ((if_neg good).trans (if_pos busy)),
    fun good idle meets => exec_refused ready rfl ((if_neg good).trans ((if_neg idle).trans (if_pos meets))),
    fun good idle apart => ⟨(s.putPool (poolOf f s.pool)).orderDone o, exec_executed ready rfl
      ((if_neg good).trans ((if_neg idle).trans (if_neg apart))), orderDone_concluded s (s.putPool _) o rfl, rfl, ?_, ?_, rfl,
      Bool.or_true _, rfl, (touches_putPool s _).andThen (touches_orderDone _ o)⟩, orderRefused_effect s o⟩
  · have band : bandOf f.count.toNat (List.range f.count.toNat).length = 0 := by rw [List.length_range, bandOf_all_free]
    exact congrArg (fun b => { s.ctl with band := b, demanded := s.ctl.curve.get b }) band
  · have enough : f.low.toNat ≤ f.count.toNat := Nat.le_of_not_lt fun lt => good (bad_iff.2 (.inr (.inr (.inl lt))))
    have notShort : (poolOf f s.pool).isShort = false := by
      refine decide_eq_false ?_
      change ¬(List.range f.count.toNat).length < f.low.toNat
      rw [List.length_range]
      exact Nat.not_lt.2 enough
    exact congrArg (withPoolShort s.st.faults) notShort

theorem curveBadParam_iff (f : CurveFields) : curveBadParam f = true ↔
    (∃ i : Fin 8, 15 < (f.steps.get i).toNat) ∨ f.up = 0 ∨ f.down = 0 ∨ 3 < f.refit.toNat ∨
      f.zero12 ≠ 0 ∨ f.zero13 ≠ 0 ∨ f.zero14 ≠ 0 := by
  have steps : (f.steps.toList.any fun b => decide (15 < b.toNat)) = true ↔ ∃ i : Fin 8, 15 < (f.steps.get i).toNat := by
    rw [List.any_eq_true]
    constructor
    · rintro ⟨b, mem, above⟩
      obtain ⟨i, inside, rfl⟩ := List.mem_iff_getElem.1 mem
      rw [Vector.length_toList] at inside
      exact ⟨⟨i, inside⟩, of_decide_eq_true above⟩
    · rintro ⟨i, above⟩
      exact ⟨f.steps.get i, by simp [Vector.get], decide_eq_true above⟩
  simp only [curveBadParam, Bool.or_eq_true, decide_eq_true_eq, or_assoc, steps]

/-- POOL_SHORT evaluated where it is as its condition says changes nothing (R50). -/
theorem withPoolShort_self : ∀ faults : Byte, withPoolShort faults (faults.getLsbD 3) = faults := by decide +kernel

theorem withPoolShort_of_agree {s : State} (agree : s.FiguresAgree) :
    withPoolShort s.st.faults s.pool.isShort = s.st.faults := by
  obtain ⟨-, -, short, -⟩ := agree
  have same : s.pool.isShort = s.st.faults.getLsbD 3 := Bool.eq_iff_iff.2 (decide_eq_true_iff.trans short.symm)
  rw [same, withPoolShort_self]

/-- Settles O27: the check, then the settings with the figures evaluated again. -/
theorem setCurveLoadsTheSettings : Obligations.SetCurveLoadsTheSettings := by
  intro s f ready o bad
  have bad_iff : curveBadParam f = true ↔ bad := curveBadParam_iff f
  rw [← bad_iff]
  have curve (i : Fin 8) : (loadCurve f s.ctl).curve.get i = (f.steps.get i).toNat :=
    vecMap_get (fun _ (b : Byte) => b.toNat) f.steps i
  refine ⟨fun bad => exec_refused ready rfl (if_pos bad), fun good =>
    ⟨(s.setCtl (loadCurve f s.ctl)).evalPool.orderDone o, exec_executed ready rfl (if_neg good),
      orderDone_concluded s (s.setCtl (loadCurve f s.ctl)).evalPool o rfl, curve, rfl, rfl, rfl, rfl, rfl, rfl, rfl, curve _,
      ((touches_setCtl s _).andThen (C := [.ctl, .ord, .st]) (touches_evalPool _)).andThen (touches_orderDone _ o),
      fun agree => ⟨?_, ?_⟩⟩, orderRefused_effect s o⟩
  · exact Fin.ext agree.1.symm
  · have faults := withPoolShort_of_agree agree
    have attn : attnOf s.st.faults s.st.mask = s.st.attn := Bool.eq_iff_iff.2 ((attnOf_iff _ _).trans agree.2.2.2.symm)
    have st : ((s.setCtl (loadCurve f s.ctl)).evalPool.orderDone o).st = { s.st with
        faults := withPoolShort s.st.faults s.pool.isShort
        attn := attnOf (withPoolShort s.st.faults s.pool.isShort) s.st.mask, stale := true } := orderDone_st _ o
    rw [st, faults, attn]

end Sys2Proof.Machine
end

section
/-! PROOFS. The assembly buffer: what a seal comes to (R66, R69), and the forcing of the slots of a FLUSH (R76, R78). -/

set_option Elab.async false

namespace Sys2Proof.Machine

/-! ### Joining the decode queue -/

/-- What a waiter's joining does to the read path, it does whatever the rest of the state is (R136). -/
theorem joinDecode_of_same_rd {s u : State} (same : u.rd = s.rd) (t : TileRef) (add : DecodeEntry → DecodeEntry) :
    (u.joinDecode t add).rd = (s.joinDecode t add).rd := by
  unfold State.joinDecode
  rw [same]
  split
  · exact congrArg (fun rd : ReadPath => { rd with queue := modifyFirst (fun e => e.joinable t) add s.rd.queue }) same
  · split
    · rfl
    · split
      · exact congrArg (fun rd : ReadPath => { rd with queue := s.rd.queue ++ [add ⟨t, [], none, .queued, false⟩] }) same
      · rfl

theorem modifyFirst_mem {α : Type} {p : α → Bool} (f : α → α) {l : List α} (found : l.any p = true) :
    ∃ x, p x = true ∧ f x ∈ modifyFirst p f l := by
  induction l with
  | nil => cases found
  | cons y l ih =>
    rw [modifyFirst]
    by_cases first : p y = true
    · exact ⟨y, first, by rw [if_pos first]; exact List.mem_cons_self⟩
    · rw [List.any_cons, Bool.eq_false_iff.2 first, Bool.false_or] at found
      obtain ⟨x, isP, mem⟩ := ih found
      exact ⟨x, isP, by rw [if_neg first]; exact List.mem_cons_of_mem _ mem⟩

/-- A waiter stands at an entry or a record of its tile afterwards (R136, R137). -/
theorem joinDecode_mem (s : State) (t : TileRef) (add : DecodeEntry → DecodeEntry) :
    ∃ x, (x.tile = t ∧ x.discard = false) ∧ (add x ∈ (s.joinDecode t add).rd.queue ∨ add x ∈ (s.joinDecode t add).rd.pendingList) := by
  unfold State.joinDecode
  split
  · next found =>
    obtain ⟨x, isP, mem⟩ := modifyFirst_mem add found
    exact ⟨x, (joinable_iff x t).1 isP, .inl mem⟩
  · split
    · next found =>
      obtain ⟨x, isP, mem⟩ := modifyFirst_mem add found
      exact ⟨x, (joinable_iff x t).1 isP, .inr mem⟩
    · split
      · exact ⟨_, ⟨rfl, rfl⟩, .inl (List.mem_append_right _ List.mem_cons_self)⟩
      · exact ⟨_, ⟨rfl, rfl⟩, .inr (List.mem_append_right _ List.mem_cons_self)⟩

theorem joinDecode_cache (s : State) (t : TileRef) (add : DecodeEntry → DecodeEntry) :
    (s.joinDecode t add).rd.cache = s.rd.cache := by
  unfold State.joinDecode
  split
  · rfl
  · split
    · rfl
    · split <;> rfl

theorem joinDecode_decoder (s : State) (t : TileRef) (add : DecodeEntry → DecodeEntry) :
    (s.joinDecode t add).rd.decoder = s.rd.decoder := by
  unfold State.joinDecode
  split
  · rfl
  · split
    · rfl
    · split <;> rfl

/-! ### A seal -/

/-- A slot that has left the open list for the tail of the seal queue (R66). -/
def State.queueSeal (s : State) (k : SlotIx) (state : SlotState) : State :=
  ((s.putOpenList (s.asm.openList.erase k)).putSlot k { s.slot k with due := false, state := state }).putSealQueue
    (s.asm.sealQueue ++ [k])

section
variable {s : State} {k : SlotIx}

theorem slot_queueSeal_same (state : SlotState) : (s.queueSeal k state).slot k = { s.slot k with due := false, state := state } :=
  slot_putSlot_same _ k _

theorem rd_queueSeal (state : SlotState) : (s.queueSeal k state).rd = s.rd := rfl

theorem sealNow_of_full (full : (s.slot k).isFull = true) : s.sealNow k = s.queueSeal k .sealed := by
  unfold State.sealNow
  dsimp only
  rw [full]
  rfl

theorem sealNow_of_no_tile (lacks : (s.slot k).isFull = false) (noTile : (s.slot k).tile = none) :
    s.sealNow k = s.queueSeal k .gathering := by
  unfold State.sealNow
  dsimp only
  split
  · next ofTile => rw [noTile] at ofTile; cases ofTile
  · rw [lacks]
    rfl

theorem sealNow_of_lacking {t : TileRef} (lacks : (s.slot k).isFull = false) (ofTile : (s.slot k).tile = some t) :
    s.sealNow k = (s.queueSeal k .gathering).startGather k t := by
  unfold State.sealNow
  dsimp only
  split
  · next known =>
    rw [lacks]
    rw [ofTile] at known
    cases known
    rfl
  · next others => exact absurd ofTile (others t lacks)

/-- A slot that lacks pixels gathers them at once where no decode is needed (R69). -/
theorem sealNow_of_base {t : TileRef} {base : Tile} (lacks : (s.slot k).isFull = false) (ofTile : (s.slot k).tile = some t)
    (known : s.mapTile t = some base) : s.sealNow k = ((s.queueSeal k .gathering).useMapTile t).putSlot k
      { ({ s.slot k with due := false, state := .gathering } : Slot).gatherFrom base with state := .sealed } := by
  have known : (s.queueSeal k .gathering).mapTile t = some base := known
  rw [sealNow_of_lacking lacks ofTile, State.startGather, known, ← slot_queueSeal_same (s := s)]

/-- It waits at the decode queue where one is (R69, R136). -/
theorem sealNow_of_decode {t : TileRef} (lacks : (s.slot k).isFull = false) (ofTile : (s.slot k).tile = some t)
    (unknown : s.mapTile t = none) :
    s.sealNow k = (s.queueSeal k .gathering).joinDecode t fun e => { e with gather := some k } := by
  have unknown : (s.queueSeal k .gathering).mapTile t = none := unknown
  rw [sealNow_of_lacking lacks ofTile, State.startGather, unknown]

/-- The sealed slot keeps all but its state, its due flag, and the pixels that it gathers (R66). -/
theorem slot_sealNow (s : State) (k : SlotIx) : ∃ px present state, (state = .gathering ∨ state = .sealed) ∧
    (s.sealNow k).slot k = { s.slot k with px := px, present := present, state := state, due := false } := by
  cases full : (s.slot k).isFull with
  | true =>
    refine ⟨(s.slot k).px, (s.slot k).present, .sealed, .inr rfl, ?_⟩
    rw [sealNow_of_full full]
    exact slot_queueSeal_same _
  | false =>
    cases ofTile : (s.slot k).tile with
    | none =>
      refine ⟨(s.slot k).px, (s.slot k).present, .gathering, .inl rfl, ?_⟩
      rw [sealNow_of_no_tile full ofTile]
      exact slot_queueSeal_same _
    | some t =>
      cases known : s.mapTile t with
      | some base =>
        refine ⟨((s.slot k).gatherFrom base).px, ((s.slot k).gatherFrom base).present, .sealed, .inr rfl, ?_⟩
        rw [sealNow_of_base full ofTile known]
        exact slot_putSlot_same _ k _
      | none =>
        refine ⟨(s.slot k).px, (s.slot k).present, .gathering, .inl rfl, ?_⟩
        rw [sealNow_of_decode full ofTile known]
        have same : ((s.queueSeal k .gathering).joinDecode t fun e => { e with gather := some k }).asm = _ :=
          touches_joinDecode _ t _ .asm (by decide)
        rw [State.slot, same]
        exact slot_queueSeal_same _

end

section
variable {s : State} {t : TileRef}

/-- The cache hit that a seal's gather makes (R134). -/
theorem rd_useMapTile_of_stream {base : Tile} (stream : (s.entry t).content.hasStream = true) (hit : s.cached t = some base) :
    (s.useMapTile t).rd = { s.rd with cache := dropTile s.rd.cache t ++ [⟨t, base⟩] } := by
  unfold State.useMapTile State.touchCache
  rw [if_pos stream, hit]
  rfl

theorem useMapTile_of_flat (flat : (s.entry t).content.hasStream = false) : s.useMapTile t = s := by
  unfold State.useMapTile
  rw [flat]
  rfl

theorem mapTile_of_stream (stream : (s.entry t).content.hasStream = true) : s.mapTile t = s.cached t := by
  unfold State.mapTile
  cases content : (s.entry t).content with
  | unwritten => rw [content] at stream; cases stream
  | uniform colour d => rw [content] at stream; cases stream
  | coded step chunks n => rfl
  | plain chunks n => rfl

theorem hasStream_of_coded_or_plain {c : Content}
    (stream : (∃ step chunks n, c = .coded step chunks n) ∨ ∃ chunks n, c = .plain chunks n) : c.hasStream = true := by
  obtain ⟨step, chunks, n, rfl⟩ | ⟨chunks, n, rfl⟩ := stream <;> rfl

theorem hasStream_of_flat {c : Content} (flat : c = .unwritten ∨ ∃ colour d, c = .uniform colour d) :
    c.hasStream = false := by
  obtain rfl | ⟨colour, d, rfl⟩ := flat <;> rfl

end

/-- Settles O34: a seal by what its slot lacks and where the map's value comes from. -/
theorem sealQueuesTheSlotAndGathers : Obligations.SealQueuesTheSlotAndGathers := by
  intro s k t ofTile
  obtain ⟨openList, queue, held, -, -, others⟩ := sealNow_lists s k
  refine ⟨openList, queue, others, held, fun full => ?_, fun base lacks known => ?_, fun lacks unknown => ?_, ?_⟩
  · rw [sealNow_of_full full]
    exact ⟨slot_queueSeal_same _, rfl⟩
  · rw [sealNow_of_base lacks ofTile known, slot_putSlot_same]
    refine ⟨rfl, rfl, gatherFrom_isFull (s.slot k) base, fun i hi => gatherFrom_pixel (s.slot k) base hi, fun stream => ?_, fun flat => ?_⟩
    · have stream : (s.entry t).content.hasStream = true := hasStream_of_coded_or_plain stream
      rw [mapTile_of_stream stream] at known
      exact rd_useMapTile_of_stream (s := s.queueSeal k .gathering) stream known
    · rw [useMapTile_of_flat (s := s.queueSeal k .gathering) (hasStream_of_flat flat)]
      rfl
  · rw [sealNow_of_decode lacks ofTile unknown]
    have same : ((s.queueSeal k .gathering).joinDecode t fun e => { e with gather := some k }).asm = _ :=
      touches_joinDecode _ t _ .asm (by decide)
    obtain ⟨x, ⟨ofTile, -⟩, mem⟩ := joinDecode_mem (s.queueSeal k .gathering) t fun e => { e with gather := some k }
    refine ⟨?_, ?_, joinDecode_of_same_rd (rd_queueSeal _) t _, { x with gather := some k }, mem, ofTile, rfl⟩
    · rw [State.slot, same]
      exact slot_queueSeal_same _
    · rw [joinDecode_cache, rd_queueSeal]
  · exact (touches_sealNow s k).mono (by decide)

/-! ### The slots that pass a test, and their order -/

/-- The numbers of the slots that pass a test, each once and in rising order. -/
theorem slotsWith_eq (s : State) (p : Slot → Bool) : s.slotsWith p = (List.finRange 256).filter fun k => p (s.slot k) := by
  have listed : mapFrom (fun i sl => (i, sl)) 0 s.asm.slots.toList =
      (List.finRange 256).map fun k => (k.val, s.slot k) := by
    refine List.ext_getElem? fun i => ?_
    rw [mapFrom_getElem?, List.getElem?_map, Nat.zero_add]
    by_cases inside : i < 256
    · have at_i : s.asm.slots.toList[i]? = some (s.slot ⟨i, inside⟩) := slot_toList s ⟨i, inside⟩
      rw [at_i, List.getElem?_eq_getElem (by simpa using inside)]
      simp
    · rw [List.getElem?_eq_none (by simpa using inside), List.getElem?_eq_none (by simpa using inside)]
      rfl
  have same (k : SlotIx) : Fin.ofNat 256 k.val = k := Fin.ext (Nat.mod_eq_of_lt k.isLt)
  rw [State.slotsWith, listed, List.filterMap_map, ← List.filterMap_eq_filter]
  refine List.filterMap_congr fun k _ => ?_
  show (if p (s.slot k) = true then some (Fin.ofNat 256 k.val) else none) = _
  rw [same]
  rfl

theorem mem_slotsWith {s : State} {p : Slot → Bool} {k : SlotIx} : k ∈ s.slotsWith p ↔ p (s.slot k) = true := by
  rw [slotsWith_eq, List.mem_filter]
  exact and_iff_right (List.mem_finRange k)

theorem nodup_slotsWith (s : State) (p : Slot → Bool) : (s.slotsWith p).Nodup := by
  rw [slotsWith_eq]
  exact (List.nodup_finRange 256).filter _

theorem insertByKey_perm (key : SlotIx → Nat) (k : SlotIx) (l : List SlotIx) : (insertByKey key k l).Perm (k :: l) := by
  induction l with
  | nil => exact .refl _
  | cons x l ih =>
    rw [insertByKey]
    split
    · exact .refl _
    · exact (ih.cons x).trans (.swap k x l)

theorem sortByKey_perm (key : SlotIx → Nat) (l : List SlotIx) : (sortByKey key l).Perm l := by
  induction l with
  | nil => exact .refl _
  | cons k l ih => exact (insertByKey_perm key k _).trans (ih.cons k)

/-! ### The seal calls of a FLUSH (R78) -/

/-- What one seal call after the other does to FILLING slots, each called once. -/
structure SealsCalled (ks : List SlotIx) (s u : State) : Prop where
  others : ∀ j, j ∉ ks → u.slot j = s.slot j
  kept : ∀ k ∈ ks, (u.slot k).mark = (s.slot k).mark ∧ (u.slot k).tile = (s.slot k).tile
  made : ∀ k ∈ ks, (s.slot k).pred = none →
    ((u.slot k).state = .gathering ∨ (u.slot k).state = .sealed) ∧ (u.slot k).due = false
  heldOver : ∀ k ∈ ks, (s.slot k).pred ≠ none → (u.slot k).state = .filling ∧ (u.slot k).due = true
  openList : u.asm.openList.Sublist s.asm.openList
  left : s.asm.openList.Nodup → ∀ k ∈ ks, (s.slot k).due = false → k ∉ u.asm.openList
  sealQueue : u.asm.sealQueue = s.asm.sealQueue ++ ks.filter fun k => decide ((s.slot k).pred = none)
  held : u.asm.held = s.asm.held

theorem sealsCalled_sealCall {s : State} {k : SlotIx} (filling : (s.slot k).state = .filling) :
    SealsCalled [k] s (s.sealCall k) := by
  have only {j : SlotIx} (mem : j ∈ [k]) : j = k := List.mem_singleton.1 mem
  by_cases noPred : (s.slot k).pred = none
  · obtain ⟨openList, queue, held, -, -, others⟩ := sealNow_lists s k
    obtain ⟨px, present, state, after, slot⟩ := slot_sealNow s k
    rw [sealCall_of_no_pred filling noPred]
    exact {
      others := fun j other => others j fun same => other (List.mem_singleton.2 same)
      kept := fun j mem => by rw [only mem, slot]; exact ⟨rfl, rfl⟩
      made := fun j mem _ => by rw [only mem, slot]; exact ⟨after, rfl⟩
      heldOver := fun j mem pred => absurd noPred (only mem ▸ pred)
      openList := openList ▸ List.erase_sublist
      left := fun nodup j mem _ => by rw [only mem, openList]; exact nodup.not_mem_erase
      sealQueue := by rw [queue, List.filter_singleton, noPred]; rfl
      held := held }
  · have queued : [k].filter (fun j => decide ((s.slot j).pred = none)) = [] := by simp [noPred]
    rw [sealCall_of_pred filling noPred]
    by_cases due : (s.slot k).due = true
    · rw [if_pos due]
      exact {
        others := fun _ _ => rfl
        kept := fun _ _ => ⟨rfl, rfl⟩
        made := fun j mem pred => absurd (only mem ▸ pred) noPred
        heldOver := fun j mem _ => only mem ▸ ⟨filling, due⟩
        openList := .refl _
        left := fun _ j mem notDue => absurd due (by rw [← only mem, notDue]; decide)
        sealQueue := by rw [queued, List.append_nil]
        held := rfl }
    · rw [if_neg due]
      exact {
        others := fun j other => slot_makeSealDue_other s fun same => other (List.mem_singleton.2 same)
        kept := fun j mem => by rw [only mem, slot_makeSealDue_same]; exact ⟨rfl, rfl⟩
        made := fun j mem pred => absurd (only mem ▸ pred) noPred
        heldOver := fun j mem _ => by rw [only mem, slot_makeSealDue_same]; exact ⟨filling, rfl⟩
        openList := List.erase_sublist
        left := fun nodup j mem _ => by rw [only mem]; exact nodup.not_mem_erase
        sealQueue := by rw [queued, List.append_nil]; rfl
        held := rfl }

theorem SealsCalled.cons {k : SlotIx} {ks : List SlotIx} {s v u : State} (new : k ∉ ks) (first : SealsCalled [k] s v)
    (rest : SealsCalled ks v u) : SealsCalled (k :: ks) s u := by
  have before {j : SlotIx} (mem : j ∈ ks) : v.slot j = s.slot j :=
    first.others j fun same => new (List.mem_singleton.1 same ▸ mem)
  have after : u.slot k = v.slot k := rest.others k new
  have self : k ∈ [k] := List.mem_singleton.2 rfl
  exact {
    others := fun j other => by
      rw [List.mem_cons, not_or] at other
      rw [rest.others j other.2, first.others j (by simpa using other.1)]
    kept := fun j mem => by
      rcases List.mem_cons.1 mem with rfl | mem
      · rw [after]; exact first.kept j self
      · rw [← before mem]; exact rest.kept j mem
    made := fun j mem => by
      rcases List.mem_cons.1 mem with rfl | mem
      · rw [after]; exact first.made j self
      · rw [← before mem]; exact rest.made j mem
    heldOver := fun j mem => by
      rcases List.mem_cons.1 mem with rfl | mem
      · rw [after]; exact first.heldOver j self
      · rw [← before mem]; exact rest.heldOver j mem
    openList := rest.openList.trans first.openList
    left := fun nodup j mem => by
      rcases List.mem_cons.1 mem with rfl | mem
      · exact fun notDue stays => first.left nodup j self notDue (rest.openList.subset stays)
      · rw [← before mem]; exact rest.left (nodup.sublist first.openList) j mem
    sealQueue := by
      have same : (ks.filter fun j => decide ((v.slot j).pred = none)) = ks.filter fun j => decide ((s.slot j).pred = none) :=
        List.filter_congr fun j mem => by rw [before mem]
      rw [rest.sealQueue, first.sealQueue, same, List.append_assoc, ← List.filter_append]
      rfl
    held := rest.held.trans first.held }

theorem sealsCalled_foldl {ks : List SlotIx} : ∀ {s : State}, ks.Nodup → (∀ k ∈ ks, (s.slot k).state = .filling) →
    SealsCalled ks s (ks.foldl State.sealCall s) := by
  induction ks with
  | nil =>
    intro s _ _
    exact ⟨fun _ _ => rfl, nofun, nofun, nofun, .refl _, nofun, (List.append_nil _).symm, rfl⟩
  | cons k ks ih =>
    intro s nodup filling
    obtain ⟨new, nodup⟩ := List.nodup_cons.1 nodup
    have first := sealsCalled_sealCall (filling k List.mem_cons_self)
    refine first.cons new (ih nodup fun j mem => ?_)
    rw [first.others j fun same => new (List.mem_singleton.1 same ▸ mem)]
    exact filling j (List.mem_cons_of_mem k mem)

/-- The flush marks leave all else of the slots, and the lists, as they were (R76). -/
theorem slot_foldl_markSlot {ks : List SlotIx} (j : SlotIx) : ∀ {s : State},
    (ks.foldl State.markSlot s).slot j = if j ∈ ks then { s.slot j with mark := true } else s.slot j := by
  induction ks with
  | nil => exact fun {_} => rfl
  | cons k ks ih =>
    intro s
    rw [List.foldl_cons, ih, State.markSlot]
    by_cases same : j = k
    · rw [same, slot_putSlot_same, if_pos List.mem_cons_self]
      split <;> rfl
    · rw [slot_putSlot_other s k j _ same]
      exact if_congr (by rw [List.mem_cons, or_iff_right same]) rfl rfl

theorem asm_foldl_markSlot {ks : List SlotIx} : ∀ {s : State}, (ks.foldl State.markSlot s).asm.openList = s.asm.openList ∧
    (ks.foldl State.markSlot s).asm.sealQueue = s.asm.sealQueue ∧ (ks.foldl State.markSlot s).asm.held = s.asm.held := by
  induction ks with
  | nil => exact fun {_} => ⟨rfl, rfl, rfl⟩
  | cons k ks ih => exact fun {s} => ih (s := s.markSlot k)

/-- The slots that a FLUSH forces: FILLING, of a picked aperture. -/
def Slot.isForced (sl : Slot) (on : ApIx → Bool) : Bool :=
  decide (sl.state = .filling) && (sl.tile.elim false fun t => on t.ap)

theorem Slot.isForced_iff (sl : Slot) (on : ApIx → Bool) :
    sl.isForced on = true ↔ sl.state = .filling ∧ ∃ t, sl.tile = some t ∧ on t.ap = true := by
  rw [Slot.isForced, Bool.and_eq_true, decide_eq_true_eq]
  refine and_congr_right fun _ => ?_
  cases sl.tile with
  | none => exact ⟨nofun, fun ⟨_, eq, _⟩ => nomatch eq⟩
  | some t => exact ⟨fun picked => ⟨t, rfl, picked⟩, fun ⟨_, eq, picked⟩ => by cases eq; exact picked⟩

/-- Settles O17: the marks come first and the seal calls after them, one for each forced slot. -/
theorem forcingMarksAndSealsFillingSlots : Obligations.ForcingMarksAndSealsFillingSlots := by
  intro s on forced u
  let marked := (s.slotsWith fun sl => sl.isForced on).foldl State.markSlot (s.setDraws (s.draws + 1))
  let order := sortByKey (fun k => Config.flushSealKey s.draws k.val) (s.slotsWith fun sl => sl.isForced on)
  have perm : order.Perm _ := sortByKey_perm _ _
  have mem_iff {k : SlotIx} : k ∈ s.slotsWith (fun sl => sl.isForced on) ↔ forced k :=
    mem_slotsWith.trans (Slot.isForced_iff _ on)
  have inOrder {k : SlotIx} : k ∈ order ↔ forced k := perm.mem_iff.trans mem_iff
  have before (k : SlotIx) : marked.slot k = if _ then _ else _ := slot_foldl_markSlot k
  have isMarked {k : SlotIx} (is : forced k) : marked.slot k = { s.slot k with mark := true } :=
    (before k).trans (if_pos (mem_iff.2 is))
  obtain ⟨openList, sealQueue, held⟩ :=
    asm_foldl_markSlot (ks := s.slotsWith fun sl => sl.isForced on) (s := s.setDraws (s.draws + 1))
  have called : SealsCalled order marked u := sealsCalled_foldl (perm.nodup_iff.2 (nodup_slotsWith s _)) fun k mem => by
    rw [isMarked (inOrder.1 mem)]
    exact (inOrder.1 mem).1
  refine ⟨fun k other => ?_, fun k is => ?_, fun k is => ?_, fun nodup k is => ?_, fun k is => ?_,
    ⟨order.filter fun k => decide ((marked.slot k).pred = none), ?_, ?_, fun k => ?_⟩, called.held.trans held, (touches_forceSlots s on).mono (by decide)⟩
  · rw [called.others k fun mem => other (inOrder.1 mem), before k, if_neg fun mem => other (mem_iff.1 mem)]
    rfl
  · have kept := called.kept k (inOrder.2 is)
    rwa [isMarked is] at kept
  · have made := called.made k (inOrder.2 is)
    rwa [isMarked is] at made
  · have left := called.left (openList ▸ nodup) k (inOrder.2 is)
    rwa [isMarked is] at left
  · have heldOver := called.heldOver k (inOrder.2 is)
    rwa [isMarked is] at heldOver
  · exact called.sealQueue.trans (congrArg (· ++ _) sealQueue)
  · exact (perm.nodup_iff.2 (nodup_slotsWith s _)).filter _
  · rw [List.mem_filter, inOrder, decide_eq_true_eq]
    refine and_congr_right fun is => ?_
    rw [isMarked is]

/-- A FLUSH that starts forces its slots and leaves the order unit executing (R76, R174). -/
theorem forceSlots_orderStarts (s : State) (on : ApIx → Bool) (o : Order) :
    ((s.forceSlots on).orderStarts o).asm = (s.forceSlots on).asm ∧
    ((s.forceSlots on).orderStarts o).ord = { s.ord with executing := some o } ∧
    ((s.forceSlots on).orderStarts o).st.faults = s.st.faults ∧
    OnlyTouches [.asm, .rd, .ord, .st, .draws] s ((s.forceSlots on).orderStarts o) := by
  have same : (s.forceSlots on).ord = s.ord := touches_forceSlots s on .ord (by decide)
  refine ⟨rfl, congrArg (fun x : OrderUnit => { x with executing := some o }) same, (marks_forceSlots s on).faults,
    (touches_forceSlots s on).andThen (touches_orderStarts _ o)⟩

/-- Settles O18: each form runs the forcing of its apertures and then holds the order unit. -/
theorem flushFormsForceTheirApertures : Obligations.FlushFormsForceTheirApertures := by
  intro s ready
  refine ⟨fun ap opened => ⟨⟨_, exec_executed ready rfl ?_, forceSlots_orderStarts s _ _⟩,
    _, s.beforeForce (apOf ap) true, exec_executed ready rfl ?_, ap_putAp_same s _ _, fun b other => ap_putAp_other s _ b _ other,
    touches_putAp s _ _, forceSlots_orderStarts (s.beforeForce (apOf ap) true) (fun b => decide (b = apOf ap)) _⟩,
    _, exec_executed ready rfl runFlush_all, forceSlots_orderStarts s _ _⟩
  · exact (runFlush_one false).trans (flushOne_opened opened)
  · exact (runFlush_one true).trans (flushOne_opened opened)

end Sys2Proof.Machine
end

section
/-! PROOFS. The start of a CLOSE (R79, R148, R149, R158) and the ends of the long orders (R76, R78, R83). -/

set_option Elab.async false

namespace Sys2Proof.Machine

/-! ### The slots of a CLOSE start -/

theorem Slot.closable_iff (sl : Slot) (a : ApIx) : sl.closable a = true ↔
    (sl.state = .filling ∨ sl.state = .gathering ∨ sl.state = .sealed) ∧ ∃ t, sl.tile = some t ∧ t.ap = a := by
  rw [Slot.closable, Slot.occupiedBy, Bool.and_eq_true, Bool.and_eq_true, decide_eq_true_eq, decide_eq_true_eq, ofAp_iff,
    and_right_comm]
  refine and_congr_left fun _ => ?_
  cases sl.state <;> simp

theorem slot_closeSlots (s : State) (a : ApIx) (k : SlotIx) :
    (s.closeSlots a).slot k = if (s.slot k).closable a then (s.slot k).freed else s.slot k := vecMap_get _ _ k

/-! ### The read path of a CLOSE start -/

/-- The entries of the other apertures. -/
def entriesApartFrom (a : ApIx) (l : List DecodeEntry) : List DecodeEntry := l.filter fun e => decide (e.tile.ap ≠ a)

/-- No QUEUED entry of the aperture stays (R148). -/
theorem filterMap_closed_of_queued (a : ApIx) {l : List DecodeEntry} (queued : ∀ e ∈ l, e.phase = .queued) :
    l.filterMap (DecodeEntry.closed a) = entriesApartFrom a l := by
  rw [entriesApartFrom, ← List.filterMap_eq_filter]
  refine List.filterMap_congr fun e mem => ?_
  by_cases ofAp : e.tile.ap = a
  · simp [DecodeEntry.closed, ofAp, queued e mem, Option.guard]
  · simp [DecodeEntry.closed, ofAp, Option.guard]

theorem closed_of_other {a : ApIx} {e : DecodeEntry} (other : e.tile.ap ≠ a) : e.closed a = some e := if_pos other

theorem closed_of_decoding {a : ApIx} {e : DecodeEntry} (ofAp : e.tile.ap = a) (decoding : e.phase = .decoding) :
    e.closed a = some { e with readers := [], gather := none, discard := true } := by
  rw [DecodeEntry.closed, if_neg (not_not.2 ofAp), decoding]

section
variable {s : State} {a : ApIx}

theorem closeReadPath_of_idle (idle : s.rd.decoder = none) : s.closeReadPath a = s.closeQueues a := by
  rcases closeReadPath_cases s a with ⟨-, d, busy, -⟩ | ⟨left, -⟩
  · cases idle.symm.trans busy
  · exact left

/-- A decode of another aperture goes on. -/
theorem closeReadPath_of_other {d : Decode} (busy : s.rd.decoder = some d) (other : d.tile.ap ≠ a) :
    s.closeReadPath a = s.closeQueues a := by
  rcases closeReadPath_cases s a with ⟨-, e, isE, ofAp, -⟩ | ⟨left, -⟩
  · cases busy.symm.trans isE
    exact absurd ofAp other
  · exact left

/-- A decode with answers to come goes on (R149). -/
theorem closeReadPath_of_unanswered {d : Decode} (busy : s.rd.decoder = some d) (more : 0 < d.unanswered) :
    s.closeReadPath a = s.closeQueues a := by
  rcases closeReadPath_cases s a with ⟨-, e, isE, -, none_left⟩ | ⟨left, -⟩
  · cases busy.symm.trans isE
    exact absurd none_left (Nat.ne_of_gt more)
  · exact left

/-- A decode of the aperture whose checks are running ends (R149). -/
theorem closeReadPath_of_checking {d : Decode} (busy : s.rd.decoder = some d) (ofAp : d.tile.ap = a)
    (none_left : d.unanswered = 0) : s.closeReadPath a = (s.closeQueues a).leaveDecoder := by
  rcases closeReadPath_cases s a with ⟨ended, -⟩ | ⟨-, others⟩
  · exact ended
  · exact absurd none_left (others d busy ofAp)

theorem rd_closeReadPath_cache (s : State) (a : ApIx) :
    (s.closeReadPath a).rd.cache = s.rd.cache.filter (fun e => decide (e.tile.ap ≠ a)) ∧
      (s.closeReadPath a).rd.pendingList = entriesApartFrom a s.rd.pendingList := by
  rcases closeReadPath_cases s a with ⟨ended, -⟩ | ⟨left, -⟩
  · rw [ended]; exact ⟨rfl, rfl⟩
  · rw [left]; exact ⟨rfl, rfl⟩

theorem rd_closeReadPath_of_idle (idle : s.rd.decoder = none) (queued : ∀ e ∈ s.rd.queue, e.phase = .queued) :
    (s.closeReadPath a).rd.decoder = none ∧ (s.closeReadPath a).rd.queue = entriesApartFrom a s.rd.queue := by
  rw [closeReadPath_of_idle idle]
  exact ⟨idle, filterMap_closed_of_queued a queued⟩

/-- The DECODING head of the queue at a CLOSE start, with the QUEUED entries after it (R148, R149). -/
theorem rd_closeReadPath_of_busy {d : Decode} {e : DecodeEntry} {q : List DecodeEntry} (busy : s.rd.decoder = some d)
    (queue : s.rd.queue = e :: q) (decoding : e.phase = .decoding) (same : e.tile = d.tile)
    (queued : ∀ x ∈ q, x.phase = .queued) :
    (d.tile.ap ≠ a → (s.closeReadPath a).rd.decoder = some d ∧ (s.closeReadPath a).rd.queue = e :: entriesApartFrom a q) ∧
    (d.tile.ap = a → 0 < d.unanswered → (s.closeReadPath a).rd.decoder = some d ∧ (s.closeReadPath a).rd.queue =
      { e with readers := [], gather := none, discard := true } :: entriesApartFrom a q) ∧
    (d.tile.ap = a → d.unanswered = 0 → (s.closeReadPath a).rd.decoder = none ∧
      (s.closeReadPath a).rd.queue = entriesApartFrom a q) := by
  have left : (s.closeQueues a).rd.queue = (e :: q).filterMap (DecodeEntry.closed a) := by rw [← queue]; rfl
  have rest := filterMap_closed_of_queued a queued
  refine ⟨fun other => ?_, fun ofAp more => ?_, fun ofAp none_left => ?_⟩
  · rw [closeReadPath_of_other busy other]
    exact ⟨busy, by rw [left, List.filterMap_cons_some (closed_of_other (same ▸ other)), rest]⟩
  · rw [closeReadPath_of_unanswered busy more]
    exact ⟨busy, by rw [left, List.filterMap_cons_some (closed_of_decoding (same ▸ ofAp) decoding), rest]⟩
  · rw [closeReadPath_of_checking busy ofAp none_left]
    refine ⟨rfl, ?_⟩
    show (s.closeQueues a).rd.queue.tail = _
    rw [left, List.filterMap_cons_some (closed_of_decoding (same ▸ ofAp) decoding), rest]
    rfl

end

/-! ### The blocks of a CLOSE start -/

section
variable (s : State) (a : ApIx)

theorem asm_startClose : (s.startClose a).asm = (s.closeSlots a).asm :=
  (touches_closeReadPath (((s.putAp a { s.ap a with state := .retiring }).closeSlots a).closePort a) a) .asm (by decide)

theorem port_startClose : (s.startClose a).port = (s.closePort a).port :=
  (touches_closeReadPath (((s.putAp a { s.ap a with state := .retiring }).closeSlots a).closePort a) a) .port (by decide)

theorem st_orderStarts_startClose (o : Order) : ((s.startClose a).orderStarts o).st = { s.st with stale := true } := by
  obtain ⟨b, marks⟩ := marks_startClose s a
  have same : ((s.startClose a).orderStarts o).st = { (s.startClose a).st with stale := true } :=
    congrArg (fun b => { (s.startClose a).st with stale := b }) (Bool.or_true _)
  rw [same, marks]

end

/-- Settles O16: the start of a CLOSE, block by block. -/
theorem closeStartsRetiring : Obligations.CloseStartsRetiring := by
  intro s ap ready state a leaves others
  have closable (k : SlotIx) : (s.slot k).closable a = true ↔ leaves k := (s.slot k).closable_iff a
  have slot (k : SlotIx) : ((s.startClose a).orderStarts (.close ap 0 0)).slot k =
      if (s.slot k).closable a then (s.slot k).freed else s.slot k := by
    refine Eq.trans ?_ (slot_closeSlots s a k)
    exact congrArg (fun asm : Assembly => asm.slots.get k) (asm_startClose s a)
  have asm : ((s.startClose a).orderStarts (.close ap 0 0)).asm = (s.closeSlots a).asm := asm_startClose s a
  have blocks := touches_startClose s a
  refine ⟨(s.startClose a).orderStarts (.close ap 0 0), exec_executed ready rfl (runClose_starts state), ?ord, ?ap, ?otherAps,
    ?map, fun k is => ?_, fun k stays => ?_, closable, congrArg Assembly.openList asm, congrArg Assembly.sealQueue asm,
    congrArg Assembly.held asm, ?cache, ?pending, fun idle queued => ?_, fun d e q busy queue decoding same queued => ?_, ?port,
    st_orderStarts_startClose s a _, blocks.andThen (touches_orderStarts _ _)⟩
  case ord =>
    have same : (s.startClose a).ord = s.ord := blocks .ord (by decide)
    exact congrArg (fun x : OrderUnit => { x with executing := some (.close ap 0 0) }) same
  case ap => exact (ap_startClose s a a).trans (if_pos rfl)
  case otherAps => exact fun b other => (ap_startClose s a b).trans (if_neg other)
  case map => exact congrArg State.map (startClose_eq s a)
  case cache => exact (rd_closeReadPath_cache _ a).1
  case pending => exact (rd_closeReadPath_cache _ a).2
  case port =>
    have same : ((s.startClose a).orderStarts (.close ap 0 0)).port = (s.closePort a).port := port_startClose s a
    rw [same]
    refine congrArg (fun w => { s.port with window := w }) (List.map_congr_left fun r _ => ?_)
    have finished : Part.isFinished = fun p => decide (p.progress = .complete ∨ p.progress = .failed) :=
      funext fun p => Bool.eq_iff_iff.2 ((isFinished_iff p).trans decide_eq_true_iff.symm)
    rw [Request.retire, finished]
  · rw [slot, if_pos ((closable k).2 is)]
    rfl
  · rw [slot, if_neg fun is => stays ((closable k).1 is)]
  · exact rd_closeReadPath_of_idle (s := ((s.putAp a { s.ap a with state := .retiring }).closeSlots a).closePort a) idle queued
  · exact rd_closeReadPath_of_busy (s := ((s.putAp a { s.ap a with state := .retiring }).closeSlots a).closePort a)
      busy queue decoding same queued

/-! ### The ends of the long orders -/

section
variable {s : State}

theorem endLongOrder_of_flush {all freeze : Bool} {ap zero : BitVec 3} {b2 : Byte}
    (executing : s.ord.executing = some (.flush all freeze ap zero b2)) (noFreeze : (freeze && !all) = false) :
    s.endLongOrder = if s.anyMark then none else some (s.orderDone (.flush all freeze ap zero b2)) := by
  rw [State.endLongOrder, executing]
  exact if_neg (Bool.eq_false_iff.1 noFreeze)

theorem endLongOrder_of_freeze {ap zero : BitVec 3} {b2 : Byte}
    (executing : s.ord.executing = some (.flush false true ap zero b2)) : s.endLongOrder =
      if s.freezeMet (apOf ap) then some (s.endFreeze (.flush false true ap zero b2) (apOf ap)) else none := by
  rw [State.endLongOrder, executing]
  rfl

theorem endLongOrder_of_close {ap : BitVec 3} {zero : BitVec 5} {b2 : Byte} {w : Walk}
    (executing : s.ord.executing = some (.close ap zero b2)) (walk : s.map.walk = some w) : s.endLongOrder =
      if (s.ap w.ap).extLen ≤ w.next ∧ s.encoderHolds w.ap = false then
        some ((s.endWalk w.ap).orderDone (.close ap zero b2)) else none := by
  have done : s.walkDone = if (s.ap w.ap).extLen ≤ w.next ∧ s.encoderHolds w.ap = false then some w.ap else none := by
    rw [State.walkDone, walk]
    rfl
  rw [State.endLongOrder, executing]
  show (s.walkDone.map fun a => _) = _
  rw [done]
  split <;> rfl

theorem anyMark_iff (s : State) : s.anyMark = true ↔ ∃ k, (s.slot k).mark = true := by
  rw [State.anyMark, List.any_eq_true]
  constructor
  · intro ⟨sl, mem, marked⟩
    obtain ⟨k, rfl⟩ := exists_slot_of_mem mem
    exact ⟨k, marked⟩
  · exact fun ⟨k, marked⟩ => ⟨s.slot k, List.mem_of_getElem? (slot_toList s k), marked⟩

theorem encoderHolds_iff (s : State) (a : ApIx) :
    s.encoderHolds a = true ↔ ∃ op, s.enc.op = some op ∧ op.tile.ap = a := by
  rw [State.encoderHolds]
  cases s.enc.op with
  | none => exact ⟨nofun, fun ⟨_, eq, _⟩ => nomatch eq⟩
  | some op => exact ⟨fun is => ⟨op, rfl, of_decide_eq_true is⟩, fun ⟨_, eq, is⟩ => by cases eq; exact decide_eq_true is⟩

theorem no_occupied_iff (s : State) (a : ApIx) : (s.asm.slots.toList.any fun sl => sl.occupiedBy a) = false ↔
    ∀ k t, (s.slot k).state ≠ .free → (s.slot k).tile = some t → t.ap ≠ a := by
  rw [List.any_eq_false]
  constructor
  · intro none_is k t occupied tile ofAp
    refine none_is _ (List.mem_of_getElem? (slot_toList s k)) ?_
    rw [Slot.occupiedBy, decide_eq_true occupied, (ofAp_iff _ a).2 ⟨t, tile, ofAp⟩]
    rfl
  · intro none_is sl mem is
    obtain ⟨k, rfl⟩ := exists_slot_of_mem mem
    rw [Slot.occupiedBy, Bool.and_eq_true, decide_eq_true_eq, ofAp_iff] at is
    obtain ⟨occupied, t, tile, ofAp⟩ := is
    exact none_is k t occupied tile ofAp

theorem no_unlanded_iff (s : State) (a : ApIx) : (s.port.window.any fun r =>
      r.isWrite && !r.isComplete && r.parts.any fun p => decide (p.tile.ap = a) && !p.isFinished) = false ↔
    ∀ r ∈ s.port.window, r.isWrite = true → r.outcome = .undetermined →
      ∀ p ∈ r.parts, p.tile.ap = a → p.progress = .complete ∨ p.progress = .failed := by
  rw [List.any_eq_false]
  refine forall₂_congr fun r _ => ?_
  rw [Bool.and_eq_true, Bool.and_eq_true, Bool.not_eq_true', List.any_eq_true, Request.isComplete, decide_eq_false_iff_not,
    not_not]
  constructor
  · intro none_is write undetermined p mem ofAp
    refine (isFinished_iff p).1 (Bool.not_eq_false _ ▸ fun goesOn => none_is ⟨⟨write, undetermined⟩, p, mem, ?_⟩)
    rw [decide_eq_true ofAp, goesOn]
    rfl
  · intro finished ⟨⟨write, undetermined⟩, p, mem, is⟩
    rw [Bool.and_eq_true, decide_eq_true_eq, Bool.not_eq_true'] at is
    have ends := (isFinished_iff p).2 (finished write undetermined p mem is.1)
    cases ends.symm.trans is.2

theorem freezeMet_iff (s : State) (a : ApIx) : s.freezeMet a = true ↔
    (∀ k t, (s.slot k).state ≠ .free → (s.slot k).tile = some t → t.ap ≠ a) ∧
    (∀ h ∈ s.asm.held, h.tile.ap ≠ a) ∧
    ∀ r ∈ s.port.window, r.isWrite = true → r.outcome = .undetermined →
      ∀ p ∈ r.parts, p.tile.ap = a → p.progress = .complete ∨ p.progress = .failed := by
  rw [State.freezeMet, Bool.and_eq_true, Bool.and_eq_true, Bool.not_eq_true', Bool.not_eq_true', Bool.not_eq_true',
    no_occupied_iff, no_unlanded_iff, and_assoc]
  refine and_congr_right fun _ => and_congr_left fun _ => ?_
  simp

end

/-- Settles O19: the ends of a FLUSH, of a FREEZE and of a CLOSE, the tests that they wait for, and the extent that the last
one returns. -/
theorem longOrdersEndAtTheirCondition : Obligations.LongOrdersEndAtTheirCondition := by
  refine ⟨fun s => ⟨fun ap freeze all executing noFreeze => ?flush, fun ap executing => ?freeze,
    fun ap w executing walk => ?close⟩,
    fun s => ⟨anyMark_iff s, fun a => ⟨encoderHolds_iff s a, freezeMet_iff s a⟩⟩, returnExtent_eq⟩
  case flush =>
    rw [endLongOrder_of_flush executing noFreeze]
    exact ⟨fun marked => if_pos marked, fun unmarked =>
      ⟨_, if_neg (Bool.eq_false_iff.1 unmarked), orderDone_concluded s s _ rfl, touches_orderDone s _⟩⟩
  case freeze =>
    rw [endLongOrder_of_freeze executing]
    refine ⟨fun waits => if_neg (Bool.eq_false_iff.1 waits), fun met => ⟨_, if_pos met, ?_⟩⟩
    obtain ⟨concluded, same, others, -, touches⟩ := orderDone_putAp s (.flush false true ap 0 0) (apOf ap)
      { s.ap (apOf ap) with state := .frozen }
    exact ⟨concluded, same, others, touches⟩
  case close =>
    rw [endLongOrder_of_close executing walk]
    refine ⟨fun waits => if_neg ?_, fun ended apart => ⟨_, if_pos ⟨ended, apart⟩, orderDone_concluded _ _ _ rfl,
      ap_putAp_same _ _ _, fun b other => ap_putAp_other _ _ b _ other, rfl,
      (touches_endWalk s _).andThen (touches_orderDone _ _)⟩⟩
    rintro ⟨ended, apart⟩
    rcases waits with more | holds
    · exact Nat.not_lt.2 ended more
    · exact Bool.false_ne_true (apart.symm.trans holds)

end Sys2Proof.Machine
end

section
/-! PROOFS. The composer port: the checks of a request (R153), its tile parts (R8, R9, R13), the take, the refusals, the pass-through
(R154, R159), and the responses (R155). -/

set_option Elab.async false

namespace Sys2Proof.Machine

/-! ### The checks (R10–R13, R151, R153) -/

theorem Format.pixelSize_eq (fmt : Format) : fmt.pixelSize = if fmt = .rgb8 then 4 else 8 := by
  cases fmt <;> rfl

theorem Aperture.covers_iff (x : Aperture) (addr : Nat) : x.covers addr = true ↔ x.state ≠ .closed ∧ x.base ≤ addr ∧
    addr < x.base + x.width * 32 * (if x.fmt = .rgb8 then 4 else 8) * x.height * 32 := by
  rw [Aperture.covers, Aperture.isLive, Bool.and_eq_true, Bool.and_eq_true, decide_eq_true_eq, decide_eq_true_eq,
    decide_eq_true_eq, and_assoc, Aperture.size, byteSize, pitchOf, Format.pixelSize_eq]

section
variable {s : State} {kind : ReqKind} {addr : Nat}

/-- The address lies in no aperture. -/
theorem apertureAt_of_none (outside : ∀ a, (s.ap a).covers addr = false) : s.apertureAt addr = none := by
  rw [State.apertureAt, List.findIdx?_eq_none_iff.2, Option.map_none]
  intro x mem
  obtain ⟨i, bound, rfl⟩ := List.mem_iff_getElem.1 mem
  exact outside ⟨i, by simpa using bound⟩

/-- The address lies in one aperture. -/
theorem apertureAt_of_only {a : ApIx} (inside : (s.ap a).covers addr = true)
    (others : ∀ b, b ≠ a → (s.ap b).covers addr = false) : s.apertureAt addr = some a := by
  have found : s.aps.toList.findIdx? (fun x => x.covers addr) = some a.val := by
    refine List.findIdx?_eq_some_iff_getElem.2 ⟨by simp, inside, fun j before => ?_⟩
    have other : (⟨j, by omega⟩ : ApIx) ≠ a := fun same => by rw [← same] at before; exact Nat.lt_irrefl _ before
    exact Bool.eq_false_iff.1 (others ⟨j, by omega⟩ other)
  rw [State.apertureAt, found]
  exact congrArg some (Fin.ext (Nat.mod_eq_of_lt a.isLt))

/-- An OPEN aperture takes every request, a FREEZING or FROZEN one a READ (R12). -/
theorem stateRefusal_of_taken {state : ApState}
    (taken : state = .opened ∨ ((state = .freezing ∨ state = .frozen) ∧ ∃ n, kind = .read n)) :
    stateRefusal state kind.isWrite = none := by
  rcases taken with rfl | ⟨rfl | rfl, n, rfl⟩ <;> rfl

theorem classify_of_crossing (crosses : crossesBlock addr kind.length = true) : s.classify kind addr = .refused .boundary :=
  if_pos crosses

theorem classify_of_pooled (within : crossesBlock addr kind.length = false) (pooled : s.inPool addr = true) :
    s.classify kind addr = .refused .guarded := by
  rw [State.classify, within, pooled]
  rfl

theorem classify_of_outside (within : crossesBlock addr kind.length = false) (unpooled : s.inPool addr = false)
    (outside : s.apertureAt addr = none) : s.classify kind addr = .passThrough := by
  rw [State.classify, within, unpooled, outside]
  rfl

/-- Inside an aperture the checks of state and of whole pixels are left (R12, R13). -/
theorem classify_of_inside {a : ApIx} (within : crossesBlock addr kind.length = false) (unpooled : s.inPool addr = false)
    (inside : s.apertureAt addr = some a) : s.classify kind addr =
      match stateRefusal (s.ap a).state kind.isWrite with
      | some reason => .refused reason
      | none => if passesPixelCheck (s.ap a) kind addr then .aperture a else .refused .pixel := by
  rw [State.classify, within, unpooled, inside]
  rfl

end

theorem crossesBlock_eq_false_iff (addr len : Nat) :
    crossesBlock addr len = false ↔ addr / 256 = (addr + len - 1) / 256 := by
  rw [crossesBlock, decide_eq_false_iff_not, not_not]
  exact Iff.rfl

theorem inPool_iff (s : State) (addr : Nat) :
    s.inPool addr = true ↔ s.pool.base ≤ addr ∧ addr < s.pool.base + 256 * s.pool.count := by
  rw [State.inPool, Bool.and_eq_true, decide_eq_true_eq, decide_eq_true_eq]
  exact Iff.rfl

/-- The enables of one pixel, all of them present, read one by one. -/
theorem runAt_all_iff {n i : Nat} {bytes : List (Byte × Bool)} (inside : i < bytes.length / n) (b : Bool) :
    (runAt n i bytes).all (fun x => x.2 == b) = true ↔ ∀ j < n, (bytes[i * n + j]?).map Prod.snd = some b := by
  have fits (j : Nat) (lt : j < n) : i * n + j < bytes.length := by
    have := (Nat.le_div_iff_mul_le (by omega)).1 inside
    rw [Nat.succ_mul] at this
    omega
  have place (j : Nat) : (runAt n i bytes)[j]? = if j < n then bytes[i * n + j]? else none := runAt_getElem? n i j bytes
  rw [List.all_eq_true]
  constructor
  · intro all j lt
    have at_j := place j
    rw [if_pos lt, List.getElem?_eq_getElem (fits j lt)] at at_j
    rw [List.getElem?_eq_getElem (fits j lt)]
    exact congrArg some (eq_of_beq (all _ (List.mem_of_getElem? at_j)))
  · intro each x mem
    obtain ⟨j, at_j⟩ := List.getElem?_of_mem mem
    rw [place] at at_j
    by_cases lt : j < n
    · rw [if_pos lt] at at_j
      have := each j lt
      rw [at_j] at this
      exact beq_iff_eq.2 (Option.some.inj this)
    · rw [if_neg lt] at at_j
      cases at_j

theorem enablesWhole_iff (fmt : Format) (bytes : List (Byte × Bool)) : enablesWhole fmt bytes = true ↔
    ∀ i < bytes.length / fmt.pixelSize,
      (∀ j < fmt.pixelSize, (bytes[i * fmt.pixelSize + j]?).map Prod.snd = some true) ∨
        ∀ j < fmt.pixelSize, (bytes[i * fmt.pixelSize + j]?).map Prod.snd = some false := by
  rw [enablesWhole, List.all_eq_true]
  refine forall_congr' fun i => ?_
  rw [List.mem_range]
  refine forall_congr' fun inside => ?_
  have on : (runAt fmt.pixelSize i bytes).all Prod.snd = (runAt fmt.pixelSize i bytes).all (fun x => x.2 == true) :=
    congrArg _ (funext fun x => (beq_true x.2).symm)
  have off : ((runAt fmt.pixelSize i bytes).all fun b => !b.2) = (runAt fmt.pixelSize i bytes).all (fun x => x.2 == false) :=
    congrArg _ (funext fun x => (beq_false x.2).symm)
  rw [Bool.or_eq_true, on, off, runAt_all_iff inside, runAt_all_iff inside]

theorem passesPixelCheck_iff (x : Aperture) (kind : ReqKind) (addr : Nat) : passesPixelCheck x kind addr = true ↔
    (addr - x.base) % x.fmt.pixelSize = 0 ∧ kind.length % x.fmt.pixelSize = 0 ∧
      ∀ bytes, kind = .write bytes → ∀ i < kind.length / x.fmt.pixelSize,
        (∀ j < x.fmt.pixelSize, (bytes[i * x.fmt.pixelSize + j]?).map Prod.snd = some true) ∨
          ∀ j < x.fmt.pixelSize, (bytes[i * x.fmt.pixelSize + j]?).map Prod.snd = some false := by
  rw [passesPixelCheck.eq_def, Bool.and_eq_true, Bool.and_eq_true, decide_eq_true_eq, decide_eq_true_eq, and_assoc]
  refine and_congr_right fun _ => and_congr_right fun _ => ?_
  cases kind with
  | read n => exact iff_of_true rfl nofun
  | write bytes =>
    refine (enablesWhole_iff _ _).trans ⟨fun whole b eq => ?_, fun whole => whole bytes rfl⟩
    cases eq
    exact whole

/-! ### The tile parts (R8, R9, R13) -/

theorem partsOf_eq (a : ApIx) (x : Aperture) (kind : ReqKind) (addr : Nat) :
    let px := if x.fmt = .rgb8 then 4 else 8
    let pitch := x.width * 32 * px
    let offset := fun i => addr - x.base + i * px
    let line := fun i => offset i / pitch
    let column := fun i => offset i % pitch / px
    let tile : Nat → TileRef := fun i => ⟨a, line i / 32 * x.width + column i / 32⟩
    let pixel : Nat → PartPixel := fun i => ⟨line i % 32 * 32 + column i % 32, match kind with
      | .read _ => none
      | .write bytes => writePixel x.fmt bytes i⟩
    partsOf a x kind addr = (((List.range (kind.length / px)).map tile).eraseDups).map fun t =>
      ⟨t, x.fmt, ((List.range (kind.length / px)).filter fun i => decide (tile i = t)).map pixel, .waiting⟩ := by
  intro px pitch offset line column tile pixel
  have size : x.fmt.pixelSize = px := x.fmt.pixelSize_eq
  rw [← partsFold_eq x.fmt tile pixel, partsOf, size]
  refine congrArg (fun f => (List.range (kind.length / px)).foldl f []) (funext₂ fun ps i => ?_)
  simp only [Aperture.tileIx, Aperture.pixelIx, Aperture.pitch, pitchOf, size]
  rfl

/-! ### The take (R152, R153) -/

theorem holdsBus_eq_false_iff (s : State) : s.holdsBus = false ↔ s.resetLine = false ∧ s.port.window.length < 32 := by
  rw [State.holdsBus, Bool.or_eq_false_iff, decide_eq_false_iff_not, Nat.not_le]
  exact Iff.rfl

section
variable {s : State} {q : BusRequest}

theorem takenRequest_of_aperture {a : ApIx} (isAperture : s.classify q.kind q.addr.toNat = .aperture a) :
    s.takenRequest q = ⟨s.port.nextId, q.kind, q.addr, .aperture a, partsOf a (s.ap a) q.kind q.addr.toNat, [],
      .undetermined⟩ := by
  rw [State.takenRequest, isAperture]

theorem takenRequest_of_passThrough (passes : s.classify q.kind q.addr.toNat = .passThrough) :
    s.takenRequest q = ⟨s.port.nextId, q.kind, q.addr, .passThrough, [], [], .undetermined⟩ := by
  rw [State.takenRequest, passes]

theorem takenRequest_of_refused {reason : RefuseReason} (refused : s.classify q.kind q.addr.toNat = .refused reason) :
    s.takenRequest q = ⟨s.port.nextId, q.kind, q.addr, .refused reason, [], [], .error⟩ := by
  rw [State.takenRequest, refused]

end

/-- The state with a request of the bus in the window (R152). -/
def State.withTaken (s : State) (rest : List BusRequest) (r : Request) : State :=
  (s.setPort { s.port with busHeld := rest, nextId := s.port.nextId + 1 }).putWindow (s.port.window ++ [r])

section
variable (s : State) (rest : List BusRequest) (r : Request)

theorem port_withTaken : (s.withTaken rest r).port =
    { s.port with busHeld := rest, nextId := s.port.nextId + 1, window := s.port.window ++ [r] } := rfl

theorem touches_withTaken : OnlyTouches [.port, .st] s (s.withTaken rest r) :=
  (touches_setPort s _).andThen (touches_putWindow _ _)

theorem st_withTaken : (s.withTaken rest r).st = { s.st with stale := true } := by
  have longer : decide ((s.port.window ++ [r]).length ≠ s.port.window.length) = true := by simp
  exact congrArg (fun b => { s.st with stale := b }) ((congrArg (s.st.stale || ·) longer).trans (Bool.or_true _))
end

/-- Settles O28: the checks in their order, the tile parts, and the take of an aperture request. -/
theorem requestClassFollowsTheChecks : Obligations.RequestClassFollowsTheChecks := by
  refine ⟨fun s kind addr => ?classes, fun a x kind addr => ?parts, fun s q rest a presented free space isAperture => ?take⟩
  case classes =>
    intro n oneBlock pooled inside
    have length : kind.length = n := by cases kind <;> rfl
    have within (one : oneBlock) : crossesBlock addr kind.length = false := by
      rw [length]; exact (crossesBlock_eq_false_iff addr n).2 one
    have unpooled (not : ¬pooled) : s.inPool addr = false := Bool.eq_false_iff.2 fun is => not ((inPool_iff s addr).1 is)
    have covers (a : ApIx) : (s.ap a).covers addr = true ↔ inside a := (s.ap a).covers_iff addr
    have uncovered {a : ApIx} (not : ¬inside a) : (s.ap a).covers addr = false :=
      Bool.eq_false_iff.2 fun is => not ((covers a).1 is)
    refine ⟨fun crosses => classify_of_crossing ?_, fun one is => classify_of_pooled (within one) ((inPool_iff s addr).2 is),
      fun one not outside => classify_of_outside (within one) (unpooled not) (apertureAt_of_none fun a => uncovered (outside a)),
      fun a one not is others => ?_⟩
    · rw [length]
      exact Bool.not_eq_false _ ▸ fun not => crosses ((crossesBlock_eq_false_iff addr n).1 not)
    · intro px whole taken
      rw [classify_of_inside (within one) (unpooled not) (apertureAt_of_only ((covers a).2 is) fun b other =>
        uncovered (others b other))]
      have passes : passesPixelCheck (s.ap a) kind addr = true ↔ whole := by
        rw [passesPixelCheck_iff, Format.pixelSize_eq, length]
      refine ⟨fun retiring => by rw [retiring]; rfl, fun frozen ⟨bytes, write⟩ => ?_, fun isTaken part => ?_,
        fun isTaken isWhole => ?_⟩
      · rw [write]
        rcases frozen with state | state <;> rw [state] <;> rfl
      · rw [stateRefusal_of_taken isTaken]
        exact if_neg fun is => part (passes.1 is)
      · rw [stateRefusal_of_taken isTaken]
        exact if_pos (passes.2 isWhole)
  case parts =>
    rw [partsOf_eq]
    cases kind with
    | read n => rfl
    | write bytes =>
      refine List.map_congr_left fun t _ => ?_
      refine congrArg (fun l => (⟨t, x.fmt, l, .waiting⟩ : Part)) (List.map_congr_left fun i mem => ?_)
      have inside : i < bytes.length / if x.fmt = .rgb8 then 4 else 8 := List.mem_range.1 (List.mem_filter.1 mem).1
      exact congrArg (PartPixel.mk _) (writePixel_eq x.fmt bytes i inside)
  case take =>
    refine ⟨_, takeBus_of_present presented ((holdsBus_eq_false_iff s).2 ⟨free, space⟩), ?_⟩
    rw [takenRequest_of_aperture isAperture]
    exact ⟨touches_withTaken s rest _, st_withTaken s rest _, port_withTaken s rest _⟩

end Sys2Proof.Machine
end

section
/-! PROOFS. The effects of one event in their order (assumption log 10): what each rule needs to wait, and the requests that are
refused or forwarded (R154, R155, R159). -/

set_option Elab.async false

namespace Sys2Proof.Machine

/-! ### One effect after another -/

/-- More effects than the bound allows are not due. -/
theorem settle_of_le {n m : Nat} : ∀ {s : State}, s.work ≤ n → n ≤ m → settle m s = settle n s := by
  induction n generalizing m with
  | zero =>
    intro s bound _
    have rests : s.micro = none := quiet_settle 0 s bound
    cases m with
    | zero => rfl
    | succ m => simp only [settle, rests]
  | succ n ih =>
    intro s bound le
    obtain ⟨m, rfl⟩ : ∃ k, m = k + 1 := ⟨m - 1, by omega⟩
    rw [settle, settle]
    split
    · rfl
    · next t due =>
      have := micro_lowers due
      exact ih (by omega) (by omega)

theorem finish_step {s t : State} (due : s.micro = some t) : s.finish = t.finish := by
  have lower := micro_lowers due
  obtain ⟨n, work⟩ : ∃ n, s.work = n + 1 := ⟨s.work - 1, by omega⟩
  have step : settle s.work s = settle n t := by rw [work, settle, due]
  rw [State.finish, State.finish, step, settle_of_le (Nat.le_refl _) (by omega)]

/-- The rules that do not look at the composer port, but for the end of the long orders, have nothing to do. -/
structure State.Calm (s : State) : Prop where
  grantWaiting : s.grantWaiting = none
  movePending : s.movePending = none
  startDecode : s.startDecode = none
  grantHeld : s.grantHeld = none
  takeOrder : s.takeOrder = none
  takeSealed : s.takeSealed = none

theorem calm_of_quiet {s : State} (quiet : s.Quiet) : s.Calm := by
  obtain ⟨q1, q2, q3, q4, -, -, -, -, q9, q10⟩ := (quiet_iff s).1 quiet
  exact ⟨q1, q2, q3, q4, q9, q10⟩

/-- Those rules look at the pool, the slots, the encoder, the order unit and the queues of the read path. -/
theorem calm_of_same_queues {s t : State} (h : ∀ b ∈ [Block.pool, .asm, .enc, .ord], SameBlock b s t)
    (queue : t.rd.queue = s.rd.queue) (pending : t.rd.pendingList = s.rd.pendingList)
    (decoder : t.rd.decoder = s.rd.decoder) (calm : s.Calm) : t.Calm := by
  have pool : t.pool = s.pool := h .pool (by decide)
  have asm : t.asm = s.asm := h .asm (by decide)
  have enc : t.enc = s.enc := h .enc (by decide)
  have ord : t.ord = s.ord := h .ord (by decide)
  have free : t.freeSlot? = s.freeSlot? := by rw [State.freeSlot?, State.firstSlot, asm]; rfl
  have slot (k : SlotIx) : t.slot k = s.slot k := by rw [State.slot, asm]; rfl
  exact {
    grantWaiting := by rw [grantWaiting_none_iff, pool, enc, ← grantWaiting_none_iff]; exact calm.grantWaiting
    movePending := by rw [movePending_none_iff, queue, pending, ← movePending_none_iff]; exact calm.movePending
    startDecode := by rw [startDecode_none_iff, queue, decoder, ← startDecode_none_iff]; exact calm.startDecode
    grantHeld := by rw [grantHeld_none_iff, asm, free, ← grantHeld_none_iff]; exact calm.grantHeld
    takeOrder := by rw [takeOrder_none_iff, ord, ← takeOrder_none_iff]; exact calm.takeOrder
    takeSealed := by simp only [takeSealed_none_iff, enc, asm, slot]; exact (takeSealed_none_iff s).1 calm.takeSealed }

/-- The blocks that those rules look at. -/
abbrev calmBlocks : List Block := [.pool, .asm, .enc, .rd, .ord]

theorem calm_of_same {s t : State} (h : ∀ b ∈ calmBlocks, SameBlock b s t) (calm : s.Calm) : t.Calm := by
  have rd : t.rd = s.rd := h .rd (by decide)
  exact calm_of_same_queues (fun b mem => h b (by revert b; decide)) (by rw [rd]) (by rw [rd]) (by rw [rd]) calm

/-- A long order that waits goes on waiting where its condition has not come nearer. -/
theorem endLongOrder_none_of {s t : State} (waits : s.endLongOrder = none) (ord : t.ord = s.ord) (walk : t.walkDone = s.walkDone)
    (marks : s.anyMark = true → t.anyMark = true) (freeze : ∀ a, t.freezeMet a = true → s.freezeMet a = true) :
    t.endLongOrder = none := by
  obtain ⟨closes, flushes⟩ := (endLongOrder_none_iff s).1 waits
  refine (endLongOrder_none_iff t).2 ⟨fun ap zero b2 executing => ?_, fun all isFreeze ap zero b2 executing => ?_⟩
  · rw [walk]
    exact closes ap zero b2 (ord ▸ executing)
  · have before := flushes all isFreeze ap zero b2 (ord ▸ executing)
    split
    · next is =>
      rw [if_pos is] at before
      exact Bool.eq_false_iff.2 fun met => Bool.false_ne_true (before.symm.trans (freeze _ met))
    · next is =>
      rw [if_neg is] at before
      exact marks before

section
variable {s t : State}

theorem micro_of_proceedNext (calm : s.Calm) (due : s.proceedNext = some t) : s.micro = some t := by
  simp only [State.micro, rules, List.findSome?_cons, calm.grantWaiting, calm.movePending, calm.startDecode, calm.grantHeld, due]

theorem micro_of_respond (calm : s.Calm) (noPart : s.proceedNext = none) (due : s.respond = some t) : s.micro = some t := by
  simp only [State.micro, rules, List.findSome?_cons, calm.grantWaiting, calm.movePending, calm.startDecode, calm.grantHeld,
    noPart, due]

theorem quiet_of_calm (calm : s.Calm) (noPart : s.proceedNext = none) (noResponse : s.respond = none)
    (noRequest : s.takeBus = none) (noEnd : s.endLongOrder = none) : s.Quiet :=
  (quiet_iff s).2 ⟨calm.grantWaiting, calm.movePending, calm.startDecode, calm.grantHeld, noPart, noResponse, noRequest,
    noEnd, calm.takeOrder, calm.takeSealed⟩

end

/-! ### Requests without tile parts -/

theorem nextPart_append (l : List Request) (r : Request) : ∀ earlier : List Request,
    nextPart earlier (l ++ [r]) = (nextPart earlier l).or (nextPart (earlier ++ l) [r]) := by
  induction l with
  | nil => intro earlier; rw [List.nil_append, List.append_nil]; rfl
  | cons q l ih =>
    intro earlier
    rw [List.cons_append, nextPart, nextPart]
    split
    · rfl
    · rw [ih, List.append_assoc]
      rfl

theorem nextPart_of_no_parts {r : Request} (none_of : r.parts = []) (earlier : List Request) : nextPart earlier [r] = none := by
  rw [nextPart, none_of]
  rfl

/-- A request without tile parts gives the part rule nothing (R157). -/
theorem nextPart_append_of_no_parts {w : List Request} {r : Request} (none_of : r.parts = [])
    (waits : nextPart [] w = none) : nextPart [] (w ++ [r]) = none := by
  rw [nextPart_append, waits, nextPart_of_no_parts none_of]
  rfl

/-- Nor does it let a FREEZE end (R78). -/
theorem freezeMet_of_no_parts {s t : State} {r : Request} (asm : t.asm = s.asm) (window : t.port.window = s.port.window ++ [r])
    (none_of : r.parts = []) (a : ApIx) : t.freezeMet a = s.freezeMet a := by
  rw [State.freezeMet, State.freezeMet, asm, window, List.any_append]
  simp [none_of]

/-! ### Responses (R155) -/

theorem respond_of_empty {s : State} (empty : s.port.window = []) : s.respond = none := by
  rw [State.respond, empty]

section
variable {s : State} {r : Request} {rest : List Request}

theorem respond_of_undetermined (head : s.port.window = r :: rest) (undetermined : r.outcome = .undetermined) :
    s.respond = none := by
  refine (respond_none_iff s).2 fun q isHead => ?_
  rw [head] at isHead
  cases isHead
  exact decide_eq_false (not_not.2 undetermined)

/-- The state after the response of the window's head (R155). -/
def State.afterResponse (s : State) (r : Request) (rest : List Request) : State :=
  (s.setPort { s.port with sent := s.port.sent ++ [r.response] }).putWindow rest

theorem respond_of_complete (head : s.port.window = r :: rest) (complete : r.outcome ≠ .undetermined) :
    s.respond = some (s.afterResponse r rest) := by
  rw [State.respond, head]
  exact if_pos (decide_eq_true complete)

theorem st_afterResponse (head : s.port.window = r :: rest) : (s.afterResponse r rest).st = { s.st with stale := true } := by
  have shorter : decide (rest.length ≠ s.port.window.length) = true := by simp [head]
  exact congrArg (fun b => { s.st with stale := b }) ((congrArg (s.st.stale || ·) shorter).trans (Bool.or_true _))

theorem touches_afterResponse : OnlyTouches [.port, .st] s (s.afterResponse r rest) :=
  (touches_setPort s _).andThen (touches_putWindow _ _)

end

theorem responseData_of_error_or_write {r : Request} (no_data : r.outcome = .error ∨ r.isWrite = true) :
    r.responseData = [] := by
  rw [Request.responseData]
  rcases no_data with error | write
  · rw [error]
    rfl
  · rw [Request.isWrite.eq_def] at write
    cases kind : r.kind with
    | read n => rw [kind] at write; cases write
    | write bytes => exact ite_self _

theorem responseData_of_passThrough {r : Request} {n : Nat} (okay : r.outcome = .okay) (read : r.kind = .read n)
    (passes : r.cls = .passThrough) : r.responseData = r.storeData := by
  rw [Request.responseData, if_pos okay, read, passes]

theorem responseData_of_aperture {r : Request} {n : Nat} {a : ApIx} (okay : r.outcome = .okay) (read : r.kind = .read n)
    (isAperture : r.cls = .aperture a) : r.responseData = r.pixelData := by
  rw [Request.responseData, if_pos okay, read, isAperture]

theorem isWrite_iff (r : Request) : r.isWrite = true ↔ ∃ bytes, r.kind = .write bytes := by
  rw [Request.isWrite.eq_def]
  cases r.kind with
  | read n => exact iff_of_false nofun (fun ⟨_, eq⟩ => nomatch eq)
  | write bytes => exact iff_of_true rfl ⟨bytes, rfl⟩

theorem bytesOfColour_rgb8 (c : Colour) : (bytesOfColour .rgb8 c).map BitVec.toNat =
    [c.r.toNat % 256, c.g.toNat % 256, c.b.toNat % 256, 0] := by
  simp [bytesOfColour]

theorem bytesOfColour_rgb16 (c : Colour) : (bytesOfColour .rgb16 c).map BitVec.toNat = [c.r.toNat % 256, c.r.toNat / 256,
    c.g.toNat % 256, c.g.toNat / 256, c.b.toNat % 256, c.b.toNat / 256, 0, 0] := by
  have high (v : Sample) : (v.extractLsb' 8 8).toNat = v.toNat / 256 := by
    rw [BitVec.extractLsb'_toNat, Nat.shiftRight_eq_div_pow]
    omega
  simp [bytesOfColour, high]

/-! ### A request presented to a part that is quiet -/

/-- The blocks that the rules look at, but for the composer port. -/
abbrev apartFromPort : List Block := [.aps, .map, .pool, .asm, .enc, .rd, .ord]

section
variable {s t : State}

theorem calm_of_apart (same : ∀ b ∈ apartFromPort, SameBlock b s t) (quiet : s.Quiet) : t.Calm :=
  calm_of_same (fun b mem => same b (by revert b; decide)) (calm_of_quiet quiet)

/-- No long order ends by a change of the composer port that lets no FREEZE end. -/
theorem endLongOrder_none_of_apart (same : ∀ b ∈ [Block.aps, .map, .asm, .enc, .ord], SameBlock b s t) (quiet : s.Quiet)
    (freeze : ∀ a, t.freezeMet a = true → s.freezeMet a = true) : t.endLongOrder = none := by
  have aps : t.aps = s.aps := same .aps (by decide)
  have map : t.map = s.map := same .map (by decide)
  have asm : t.asm = s.asm := same .asm (by decide)
  have enc : t.enc = s.enc := same .enc (by decide)
  obtain ⟨-, -, -, -, -, -, -, waits, -, -⟩ := (quiet_iff s).1 quiet
  refine endLongOrder_none_of waits (same .ord (by decide)) ?_ (fun marked => ?_) freeze
  · unfold State.walkDone State.encoderHolds State.ap
    rw [map, aps, enc]
  · rw [State.anyMark, asm]
    exact marked

theorem freezeMet_of_same_window (asm : t.asm = s.asm) (window : t.port.window = s.port.window) (a : ApIx) :
    t.freezeMet a = s.freezeMet a := by
  rw [State.freezeMet, State.freezeMet, asm, window]

/-- The take of a request that is presented to an empty bus (R152). -/
def State.taken (s : State) (r : Request) : State := (s.withTaken [] r).actOnClass r

theorem touches_taken (s : State) (r : Request) : OnlyTouches [.port, .store, .st] s (s.taken r) :=
  (touches_withTaken s [] r).andThen (touches_actOnClass _ r)

theorem window_taken (s : State) (r : Request) : (s.taken r).port.window = s.port.window ++ [r] :=
  actOnClass_window _ r

theorem busHeld_taken (s : State) (r : Request) : (s.taken r).port.busHeld = [] := actOnClass_busHeld _ r

theorem takeBus_taken (s : State) (r : Request) : (s.taken r).takeBus = none :=
  (takeBus_none_iff _).2 (.inl (busHeld_taken s r))

/-- A presented request is taken first of all. -/
theorem exec_request_taken {kind : ReqKind} {addr : Addr} (quiet : s.Quiet) (released : s.resetLine = false)
    (empty : s.port.busHeld = []) (space : s.port.window.length < 32) (lo : 1 ≤ kind.length) (hi : kind.length ≤ 256) :
    exec (requestCommand kind addr) s = .next (s.taken (s.takenRequest ⟨kind, addr⟩)).finish := by
  have touches := touches_present s ⟨kind, addr⟩
  have presented : (s.present ⟨kind, addr⟩).port.busHeld = [⟨kind, addr⟩] := congrArg (· ++ _) empty
  have free : (s.present ⟨kind, addr⟩).holdsBus = false := (holdsBus_eq_false_iff _).2 ⟨released, space⟩
  have due := (micro_of_presented (fun b _ other => touches b (by simpa using other)) rfl quiet).trans
    (takeBus_of_present presented free)
  rw [exec_request kind addr s lo hi, finish_step due]
  rfl

end

/-- The state after the refusal of a request (R154). -/
theorem taken_of_refused (s : State) {r : Request} {reason : RefuseReason} (refused : r.cls = .refused reason) :
    s.taken r = ((((s.withTaken [] r).setPort
      { (s.withTaken [] r).port with lastReason := some reason, lastAddr := r.addr }).markStale).raise .request) := by
  rw [State.taken, State.actOnClass, refused]

/-- A pass-through request goes to the store port (R159). -/
theorem taken_of_passThrough (s : State) {r : Request} (passes : r.cls = .passThrough) :
    s.taken r = (s.withTaken [] r).setStore { s.store with composer := s.store.composer ++ [r.forward] } := by
  rw [State.taken, State.actOnClass, passes]
  rfl

theorem touches_taken_of_refused (s : State) {r : Request} {reason : RefuseReason} (refused : r.cls = .refused reason) :
    OnlyTouches [.port, .st] s (s.taken r) := by
  rw [taken_of_refused s refused]
  exact (((touches_withTaken s [] r).andThen (C := [.port, .st]) (touches_setPort _ _)).andThen (C := [.port, .st])
    (touches_markStale _)).andThen (touches_raise _ _)

theorem port_taken_of_refused (s : State) {r : Request} {reason : RefuseReason} (refused : r.cls = .refused reason) :
    (s.taken r).port = { s.port with
      busHeld := [], nextId := s.port.nextId + 1, window := s.port.window ++ [r], lastReason := some reason
      lastAddr := r.addr } := by
  rw [taken_of_refused s refused]
  rfl

theorem st_taken_of_refused (s : State) {r : Request} {reason : RefuseReason} (refused : r.cls = .refused reason) :
    (s.taken r).st.faults = s.st.faults ||| 0x80 ∧ (s.taken r).st.stale = true := by
  rw [taken_of_refused s refused]
  refine ⟨rfl, ?_⟩
  show (((s.withTaken [] r).st.stale || true) || _) = true
  rw [Bool.or_true, Bool.true_or]

/-- A request without tile parts that waits, or that stands behind another, makes no effect due. -/
theorem quiet_taken {s : State} {r : Request} (quiet : s.Quiet) (none_of : r.parts = [])
    (waits : s.port.window ≠ [] ∨ r.outcome = .undetermined) : (s.taken r).Quiet := by
  have touches := touches_taken s r
  have same (b : Block) (mem : b ∈ apartFromPort) : SameBlock b s (s.taken r) := touches b (by revert b; decide)
  obtain ⟨-, -, -, -, noPart, noResponse, -, -, -, -⟩ := (quiet_iff s).1 quiet
  refine quiet_of_calm (calm_of_apart same quiet) ?_ ?_ (takeBus_taken s r)
    (endLongOrder_none_of_apart (fun b mem => same b (by revert b; decide)) quiet fun a => ?_)
  · rw [proceedNext_none_iff, window_taken]
    exact nextPart_append_of_no_parts none_of ((proceedNext_none_iff s).1 noPart)
  · cases window : s.port.window with
    | nil =>
      have undetermined := waits.resolve_left (not_not.2 window)
      exact respond_of_undetermined (r := r) (rest := []) (by rw [window_taken, window]; rfl) undetermined
    | cons q l =>
      refine respond_of_undetermined (r := q) (rest := l ++ [r]) (by rw [window_taken, window]; rfl) ?_
      have incomplete := (respond_none_iff s).1 noResponse q (by rw [window]; rfl)
      exact not_not.1 (of_decide_eq_false incomplete)
  · rw [freezeMet_of_no_parts (touches .asm (by decide)) (window_taken s r) none_of]
    exact id

/-- Settles O29: a refused request is answered at once from an empty window and joins one that is not; the responses in their
order. -/
theorem refusedRequestIsAnsweredError : Obligations.RefusedRequestIsAnsweredError := by
  refine ⟨fun s kind addr reason ⟨quiet, released, empty, idle⟩ lo hi refused => ?alone,
    fun s kind addr reason quiet released idle busy space lo hi refused => ?behind, fun s => ⟨respond_of_empty, ?responses⟩,
    fun c => ⟨bytesOfColour_rgb8 c, bytesOfColour_rgb16 c, isWrite_iff⟩⟩
  case alone =>
    let r : Request := ⟨s.port.nextId, kind, addr, .refused reason, [], [], .error⟩
    have isR : s.takenRequest ⟨kind, addr⟩ = r := takenRequest_of_refused refused
    have touches := touches_taken s r
    have window : (s.taken r).port.window = [r] := by rw [window_taken, empty]; rfl
    have noPart : (s.taken r).proceedNext = none := by
      rw [proceedNext_none_iff, window]
      exact nextPart_of_no_parts rfl []
    have calm : (s.taken r).Calm := calm_of_apart (fun b mem => touches b (by revert b; decide)) quiet
    have due := micro_of_respond calm noPart (respond_of_complete window nofun)
    have answered := touches.andThen (C := [.port, .store, .st]) (touches_afterResponse (r := r) (rest := []))
    have rests : ((s.taken r).afterResponse r []).Quiet := by
      refine quiet_of_calm (calm_of_apart (fun b mem => answered b (by revert b; decide)) quiet) ?_
        (respond_of_empty rfl) ((takeBus_none_iff _).2 (.inl (busHeld_taken s r))) ?_
      · exact (proceedNext_none_iff _).2 rfl
      · refine endLongOrder_none_of_apart (fun b mem => answered b (by revert b; decide)) quiet fun a => ?_
        rw [freezeMet_of_same_window (answered .asm (by decide)) empty.symm]
        exact id
    obtain ⟨faults, stale⟩ := st_taken_of_refused s (r := r) rfl
    have st := st_afterResponse window
    refine ⟨(s.taken r).afterResponse r [], ?_, ?_, ?_, ?_, ?_⟩
    · rw [exec_request_taken quiet released idle (by rw [empty]; decide) lo hi, isR, finish_step due, finish_of_quiet rests]
    · have port : ((s.taken r).afterResponse r []).port = { (s.taken r).port with
          window := [], sent := (s.taken r).port.sent ++ [⟨s.port.nextId, false, []⟩] } := rfl
      rw [port, port_taken_of_refused s rfl]
      exact congrArg₂ (fun (w : List Request) (b : List BusRequest) => { s.port with
        window := w, busHeld := b, sent := s.port.sent ++ [(⟨s.port.nextId, false, []⟩ : Response)], nextId := s.port.nextId + 1
        lastReason := some reason, lastAddr := addr }) empty.symm idle.symm
    · rw [st]; exact faults
    · rw [st]
    · exact (touches_taken_of_refused s rfl).andThen touches_afterResponse
  case behind =>
    let r : Request := ⟨s.port.nextId, kind, addr, .refused reason, [], [], .error⟩
    have isR : s.takenRequest ⟨kind, addr⟩ = r := takenRequest_of_refused refused
    obtain ⟨faults, stale⟩ := st_taken_of_refused s (r := r) rfl
    refine ⟨s.taken r, ?_, ?_, faults, stale, touches_taken_of_refused s rfl⟩
    · rw [exec_request_taken quiet released idle space lo hi, isR, finish_of_quiet (quiet_taken quiet rfl (.inl busy))]
    · rw [port_taken_of_refused s rfl]
      exact congrArg (fun b => { s.port with
        window := s.port.window ++ [r], busHeld := b, nextId := s.port.nextId + 1, lastReason := some reason
        lastAddr := addr }) idle.symm
  case responses =>
    intro r rest head
    refine ⟨fun quiet => ?_, respond_of_undetermined head, fun complete => ⟨_, r.responseData, respond_of_complete head complete, rfl,
      st_afterResponse head, touches_afterResponse, responseData_of_error_or_write, fun n okay read =>
        ⟨responseData_of_passThrough okay read, fun a => responseData_of_aperture okay read⟩⟩⟩
    obtain ⟨-, -, -, -, -, waits, -, -, -, -⟩ := (quiet_iff s).1 quiet
    refine Classical.byContradiction fun complete => ?_
    rw [respond_of_complete head complete] at waits
    cases waits

/-- Settles O30: the forwarded request waits in the window for its answer. -/
theorem passThroughRequestIsForwarded : Obligations.PassThroughRequestIsForwarded := by
  intro s kind addr quiet released idle space lo hi passes
  let r : Request := ⟨s.port.nextId, kind, addr, .passThrough, [], [], .undetermined⟩
  have isR : s.takenRequest ⟨kind, addr⟩ = r := takenRequest_of_passThrough passes
  have isTaken := taken_of_passThrough s (r := r) rfl
  refine ⟨s.taken r, ?_, ?_, ?_, ?_, touches_taken s r⟩
  · rw [exec_request_taken quiet released idle space lo hi, isR, finish_of_quiet (quiet_taken quiet rfl (.inr rfl))]
  · rw [isTaken]
    exact congrArg (fun b => { s.port with
      window := s.port.window ++ [r], busHeld := b, nextId := s.port.nextId + 1 }) idle.symm
  · rw [isTaken]
    cases kind <;> rfl
  · rw [isTaken]
    exact st_withTaken s [] r

end Sys2Proof.Machine
end

section
/-! PROOFS. The landing of write tile parts (R59–R64): the slot that a landing writes, the slot that is opened, the held writes,
and the part that the part rule picks (R156, R157). -/

set_option Elab.async false

namespace Sys2Proof.Machine

/-! ### What a landing writes -/

/-- The presence bits of enabled pixels, one after another. -/
theorem getLsbD_foldl_presence (ps : List PartPixel) (i : Nat) (lt : i < 1024) : ∀ acc : BitVec 1024,
    (ps.foldl (fun acc p => if p.value.isSome then acc ||| BitVec.twoPow 1024 p.index else acc) acc).getLsbD i = true ↔
      acc.getLsbD i = true ∨ ∃ q ∈ ps, q.value.isSome = true ∧ q.index = i := by
  induction ps with
  | nil => intro acc; simp
  | cons p ps ih =>
    intro acc
    rw [List.foldl_cons, ih, List.exists_mem_cons_iff, ← or_assoc]
    refine or_congr_left ?_
    split
    · next on => simp [lt, on, eq_comm (a := i)]
    · next off => simp [off]

theorem getLsbD_presenceOf (ps : List PartPixel) {i : Nat} (lt : i < 1024) :
    (presenceOf ps).getLsbD i = true ↔ ∃ q ∈ ps, q.value.isSome = true ∧ q.index = i := by
  rw [presenceOf, getLsbD_foldl_presence ps i lt]
  simp

section
variable {ps : List PartPixel} {i : Nat}

theorem pixelValue_of_none (off : ∀ q ∈ ps, q.index = i → q.value = none) : pixelValue ps i = none := by
  rw [pixelValue, List.find?_eq_none.2, Option.bind_none]
  intro q mem
  simp only [Bool.and_eq_true, decide_eq_true_eq, not_and]
  intro at_i
  simp [off q mem at_i]

/-- With each index once, an enabled pixel's value is the one that its index is given. -/
theorem pixelValue_of_mem (once : (ps.map PartPixel.index).Nodup) {q : PartPixel} (mem : q ∈ ps) {c : Colour}
    (on : q.value = some c) : pixelValue ps q.index = some c := by
  cases found : ps.find? fun p => decide (p.index = q.index) && p.value.isSome with
  | none =>
    have no := List.find?_eq_none.1 found q mem
    simp [on] at no
  | some x =>
    have same := List.find?_some found
    simp only [Bool.and_eq_true, decide_eq_true_eq] at same
    have isQ : x = q := List.inj_on_of_nodup_map once (List.mem_of_find?_eq_some found) mem same.1
    rw [pixelValue, found, isQ]
    exact on

end

section
variable (sl : Slot) (ps : List PartPixel)

theorem write_eq : sl.write ps = { sl with px := (sl.write ps).px, present := (sl.write ps).present } := rfl

theorem isFull_iff : sl.isFull = true ↔ ∀ i < 1024, sl.present.getLsbD i = true := by
  rw [Slot.isFull, decide_eq_true_eq]
  constructor
  · intro full i lt
    rw [full, BitVec.getLsbD_allOnes]
    exact decide_eq_true lt
  · intro all
    exact BitVec.eq_of_getLsbD_eq fun i lt => by
      rw [all i lt, BitVec.getLsbD_allOnes]
      exact (decide_eq_true lt).symm

variable {sl ps}

/-- An enabled pixel is written and present. -/
theorem write_of_mem (once : (ps.map PartPixel.index).Nodup) {q : PartPixel} (mem : q ∈ ps) {c : Colour}
    (on : q.value = some c) (inside : q.index < 1024) :
    pixelOf (sl.write ps).px q.index = c ∧ (sl.write ps).present.getLsbD q.index = true := by
  refine ⟨?_, ?_⟩
  · rw [write_pixel sl ps inside, pixelValue_of_mem once mem on]
    rfl
  · show (sl.present ||| presenceOf ps).getLsbD q.index = true
    rw [BitVec.getLsbD_or, Bool.or_eq_true]
    exact .inr ((getLsbD_presenceOf ps inside).2 ⟨q, mem, by rw [on]; rfl, rfl⟩)

/-- A pixel that no enabled pixel names stays as it was. -/
theorem write_of_none {i : Nat} (inside : i < 1024) (off : ∀ q ∈ ps, q.index = i → q.value = none) :
    pixelOf (sl.write ps).px i = pixelOf sl.px i ∧ (sl.write ps).present.getLsbD i = sl.present.getLsbD i := by
  refine ⟨?_, ?_⟩
  · rw [write_pixel sl ps inside, pixelValue_of_none off]
    rfl
  · show (sl.present ||| presenceOf ps).getLsbD i = _
    have absent : (presenceOf ps).getLsbD i = false := by
      refine Bool.eq_false_iff.2 fun is => ?_
      obtain ⟨q, mem, on, at_i⟩ := (getLsbD_presenceOf ps inside).1 is
      rw [off q mem at_i] at on
      cases on
    rw [BitVec.getLsbD_or, absent, Bool.or_false]

end

/-! ### A landing (R59, R60, R62) -/

/-- The slot, the open list and the part after a landing, before a seal that it calls for. -/
def State.landed (s : State) (k : SlotIx) (ref : PartRef) (ps : List PartPixel) : State :=
  ((s.putSlot k ((s.slot k).write ps)).putOpenList (moveToTail s.asm.openList k)).updPart ref fun q =>
    { q with progress := .complete }

section
variable (s : State) (k : SlotIx) (ref : PartRef)

theorem land_eq (part : Part) : s.land k ref part =
    if ((s.slot k).write part.pixels).isFull = true ∨ (s.ap part.tile.ap).state = .freezing then
      (s.landed k ref part.pixels).sealCall k else s.landed k ref part.pixels := by
  rw [State.land]
  exact if_congr (by rw [Bool.or_eq_true, decide_eq_true_eq]) rfl rfl

theorem port_landed (ps : List PartPixel) : (s.landed k ref ps).port = { s.port with
    window := windowWith s.port.window [ref] fun q => { q with progress := .complete } } := updPart_window _ _ _

theorem asm_landed (ps : List PartPixel) : (s.landed k ref ps).asm = { s.asm with
    slots := s.asm.slots.set k ((s.slot k).write ps)
    openList := if k ∈ s.asm.openList then s.asm.openList.erase k ++ [k] else s.asm.openList } := by
  have tail : moveToTail s.asm.openList k = if k ∈ s.asm.openList then s.asm.openList.erase k ++ [k] else s.asm.openList :=
    if_congr List.contains_iff_mem rfl rfl
  rw [← tail]
  rfl

theorem marks_landed (ps : List PartPixel) : OnlyMarks s (s.landed k ref ps) := marks_putSlot s k _

theorem touches_landed (ps : List PartPixel) : OnlyTouches [.asm, .port, .st] s (s.landed k ref ps) :=
  (((touches_putSlot s k _).andThen (C := [.asm, .port, .st]) (touches_putOpenList _ _))).andThen (touches_updPart _ _ _)

/-- A slot at its opening (R60). -/
def State.openedSlot (s : State) (k : SlotIx) (t : TileRef) : Slot :=
  ⟨.filling, some t, (s.slot k).px, 0, s.otherSlot t, false, false⟩

theorem slot_openSlot (t : TileRef) : (s.openSlot k t).slot k = s.openedSlot k t := slot_putSlot_same s k _

/-- An opening and the landing for which it was made. -/
theorem asm_landed_openSlot (t : TileRef) (ps : List PartPixel) : ((s.openSlot k t).landed k ref ps).asm = { s.asm with
    slots := s.asm.slots.set k ((s.openedSlot k t).write ps)
    openList := (s.asm.openList ++ [k]).erase k ++ [k] } := by
  have once : (s.openSlot k t).asm.slots = s.asm.slots.set k (s.openedSlot k t) := rfl
  have tail : (s.openSlot k t).asm.openList = s.asm.openList ++ [k] := rfl
  rw [asm_landed, slot_openSlot, once, Vector.set_set, tail, if_pos (List.mem_append_right _ List.mem_cons_self)]
  rfl

end

section
variable {s : State} {ref : PartRef} {p : Part}

theorem takeWrite_of_disabled (isPart : s.part ref = some p) (off : ∀ q ∈ p.pixels, q.value = none) :
    s.takeWrite ref = s.updPart ref fun q => { q with progress := .complete } := by
  rw [State.takeWrite, isPart]
  exact if_pos (List.all_eq_true.2 fun q mem => by rw [off q mem]; rfl)

/-- A part with an enabled pixel lands, opens a slot, or is held (R59, R60, R63). -/
theorem takeWrite_of_enabled (isPart : s.part ref = some p) (on : ∃ q ∈ p.pixels, q.value.isSome = true) :
    s.takeWrite ref = match s.fillingSlot p.tile with
      | some k => s.land k ref p
      | none =>
        match s.freeSlot? with
        | some k => (s.openSlot k p.tile).land k ref p
        | none => s.hold ref p := by
  obtain ⟨q, mem, on⟩ := on
  rw [State.takeWrite, isPart]
  refine if_neg fun off => ?_
  have := List.all_eq_true.1 off q mem
  rw [on] at this
  cases this

/-- The state after the landing of a part in its tile's slot `k`, opened for it if it has none. -/
def State.landing (s : State) (k : SlotIx) (ref : PartRef) (p : Part) : State :=
  if s.fillingSlot p.tile = some k then s.landed k ref p.pixels else (s.openSlot k p.tile).landed k ref p.pixels

/-- The slot that a part lands in, as it is before, and the open list with it (R59, R60). -/
def State.LandsIn (s : State) (p : Part) (k : SlotIx) (base : Slot) (l : List SlotIx) : Prop :=
  (s.fillingSlot p.tile = some k ∧ base = s.slot k ∧ l = s.asm.openList) ∨
    (s.fillingSlot p.tile = none ∧ s.freeSlot? = some k ∧ l = s.asm.openList ++ [k] ∧
      base = ⟨.filling, some p.tile, (s.slot k).px, 0, s.otherSlot p.tile, false, false⟩)

theorem landing_of_opening {k : SlotIx} (ref : PartRef) (noFilling : s.fillingSlot p.tile = none) :
    s.landing k ref p = (s.openSlot k p.tile).landed k ref p.pixels := if_neg (by rw [noFilling]; exact nofun)

theorem landing_facts {k : SlotIx} {base : Slot} {l : List SlotIx} (lands : s.LandsIn p k base l) :
    (s.landing k ref p).port = { s.port with
      window := windowWith s.port.window [ref] fun q => { q with progress := .complete } } ∧
    (s.landing k ref p).asm = { s.asm with
      slots := s.asm.slots.set k (base.write p.pixels), openList := if k ∈ l then l.erase k ++ [k] else l } ∧
    OnlyMarks s (s.landing k ref p) ∧ OnlyTouches [.asm, .port, .st] s (s.landing k ref p) := by
  rcases lands with ⟨filling, rfl, rfl⟩ | ⟨noFilling, free, rfl, rfl⟩
  · rw [State.landing, if_pos filling]
    exact ⟨port_landed s k ref _, asm_landed s k ref _, marks_landed s k ref _, touches_landed s k ref _⟩
  · rw [landing_of_opening ref noFilling, if_pos (List.mem_append_right _ List.mem_cons_self)]
    exact ⟨port_landed _ k ref _, asm_landed_openSlot s k ref _ _, (marks_openSlot s k _).trans (marks_landed _ k ref _),
      (touches_openSlot s k _).andThen (touches_landed _ k ref _)⟩

theorem takeWrite_of_lands (isPart : s.part ref = some p) (on : ∃ q ∈ p.pixels, q.value.isSome = true) {k : SlotIx}
    {base : Slot} {l : List SlotIx} (lands : s.LandsIn p k base l) : s.takeWrite ref =
      if (base.write p.pixels).isFull = true ∨ (s.ap p.tile.ap).state = .freezing then (s.landing k ref p).sealCall k
      else s.landing k ref p := by
  rw [takeWrite_of_enabled isPart on]
  rcases lands with ⟨filling, rfl, rfl⟩ | ⟨noFilling, free, rfl, rfl⟩
  · rw [filling, State.landing, if_pos filling]
    exact land_eq s k ref p
  · rw [noFilling, free, landing_of_opening ref noFilling]
    have landed := land_eq (s.openSlot k p.tile) k ref p
    rw [slot_openSlot] at landed
    exact landed

end

/-! ### The part that goes next (R156, R157) -/

theorem mayGo_iff (earlier : List Request) (r : Request) (p : Part) :
    (!r.isComplete && decide (p.progress = .waiting) && mayProceed earlier r p) = true ↔ MayGo earlier r p := by
  rw [Bool.and_eq_true, Bool.and_eq_true, Bool.not_eq_true', Request.isComplete, decide_eq_false_iff_not, not_not,
    decide_eq_true_eq, MayGo, and_assoc, mayProceed, List.all_eq_true]
  refine and_congr_right fun _ => and_congr_right fun _ => forall₂_congr fun q _ => ?_
  have touched : q.touches p.tile = true ↔ ∃ x ∈ q.parts, x.tile = p.tile := by
    rw [Request.touches, List.any_eq_true]
    exact exists_congr fun x => and_congr_right fun _ => decide_eq_true_iff
  rw [← touched, Request.isComplete]
  cases q.touches p.tile <;> simp

theorem nextPart_none_iff (w : List Request) : ∀ earlier : List Request, nextPart earlier w = none ↔
    ∀ before r after, w = before ++ r :: after → ∀ p ∈ r.parts, ¬MayGo (earlier ++ before) r p := by
  induction w with
  | nil => exact fun earlier => iff_of_true rfl fun before r after eq => absurd eq (by simp)
  | cons q w ih =>
    intro earlier
    rw [nextPart]
    split
    · next i found =>
      refine iff_of_false nofun fun none_goes => ?_
      obtain ⟨bound, goes, -⟩ := List.findIdx?_eq_some_iff_getElem.1 found
      have := none_goes [] q w rfl _ (List.getElem_mem bound)
      rw [List.append_nil] at this
      exact this ((mayGo_iff earlier q _).1 goes)
    · next notFound =>
      rw [ih]
      constructor
      · intro later before r after eq p mem
        cases before with
        | nil =>
          cases eq
          rw [List.append_nil]
          exact fun goes => Bool.eq_false_iff.1 (List.findIdx?_eq_none_iff.1 notFound p mem) ((mayGo_iff earlier _ p).2 goes)
        | cons x before =>
          cases eq
          have := later before r after rfl p mem
          rwa [List.append_assoc] at this
      · intro all before r after eq p mem
        have := all (q :: before) r after (by rw [eq]; rfl) p mem
        rwa [List.append_assoc]

theorem nextPart_of_first {r : Request} {p : Part} {after : List Request} {lo hi : List Part} (parts : r.parts = lo ++ p :: hi)
    (before : List Request) : ∀ earlier : List Request, MayGo (earlier ++ before) r p →
    (∀ x ∈ lo, ¬MayGo (earlier ++ before) r x) →
    (∀ b q c, before = b ++ q :: c → ∀ x ∈ q.parts, ¬MayGo (earlier ++ b) q x) →
    nextPart earlier (before ++ r :: after) = some (⟨r.id, lo.length⟩, r.isWrite) := by
  induction before with
  | nil =>
    intro earlier goes first _
    rw [List.append_nil] at goes first
    have found : (r.parts.findIdx? fun p => !r.isComplete && decide (p.progress = .waiting) && mayProceed earlier r p) =
        some lo.length := by
      rw [parts]
      refine List.findIdx?_eq_some_iff_getElem.2 ⟨by simp, ?_, fun j lt => ?_⟩
      · rw [List.getElem_append_right (Nat.le_refl _)]
        simpa using (mayGo_iff earlier r p).2 goes
      · rw [List.getElem_append_left lt]
        exact fun is => first _ (List.getElem_mem lt) ((mayGo_iff earlier r _).1 is)
    rw [List.nil_append, nextPart, found]
  | cons q before ih =>
    intro earlier goes first none_before
    have notFound : (q.parts.findIdx? fun p => !q.isComplete && decide (p.progress = .waiting) && mayProceed earlier q p) =
        none := by
      refine List.findIdx?_eq_none_iff.2 fun x mem => Bool.eq_false_iff.2 fun is => ?_
      have := none_before [] q before rfl x mem
      rw [List.append_nil] at this
      exact this ((mayGo_iff earlier q x).1 is)
    rw [List.cons_append, nextPart, notFound]
    refine ih (earlier ++ [q]) (by rwa [List.append_assoc]) (fun x mem => by rw [List.append_assoc]; exact first x mem)
      fun b y c eq x mem => ?_
    have := none_before (q :: b) y c (by rw [eq]; rfl) x mem
    rwa [List.append_assoc]

end Sys2Proof.Machine
end

section
/-! PROOFS. The writes of the composer: a write that lands in its slot and is answered at once (R59–R62, R155), and the held writes
(R63, R64). -/

set_option Elab.async false

namespace Sys2Proof.Machine

/-! ### The slots of a tile -/

section
variable (s : State) (t : TileRef)

theorem fillingSlot_test (k : SlotIx) : (decide ((s.slot k).state = .filling) && decide ((s.slot k).tile = some t)) = true ↔
    (s.slot k).state = .filling ∧ (s.slot k).tile = some t := by
  rw [Bool.and_eq_true, decide_eq_true_eq, decide_eq_true_eq]

theorem otherSlot_test (k : SlotIx) : ((s.slot k).isSealed && decide ((s.slot k).tile = some t)) = true ↔
    (s.slot k).IsOther ∧ (s.slot k).tile = some t := by
  rw [Bool.and_eq_true, decide_eq_true_eq, isSealed_iff]
  exact Iff.rfl

/-- The first slot that passes a test, by what the test means. -/
theorem firstSlot_some_iff_of {p : Slot → Bool} {P : SlotIx → Prop} (means : ∀ k, p (s.slot k) = true ↔ P k) (k : SlotIx) :
    s.firstSlot p = some k ↔ P k ∧ ∀ j < k, ¬P j := by
  rw [firstSlot_some_iff, means]
  exact and_congr_right fun _ => forall₂_congr fun j _ => Bool.eq_false_iff.trans (not_congr (means j))

theorem firstSlot_none_iff_of {p : Slot → Bool} {P : SlotIx → Prop} (means : ∀ k, p (s.slot k) = true ↔ P k) :
    s.firstSlot p = none ↔ ∀ k, ¬P k := by
  rw [firstSlot_none_iff]
  exact forall_congr' fun k => Bool.eq_false_iff.trans (not_congr (means k))

theorem freeSlot_some_iff (k : SlotIx) :
    s.freeSlot? = some k ↔ (s.slot k).state = .free ∧ ∀ j < k, (s.slot j).state ≠ .free :=
  firstSlot_some_iff_of s (P := fun k => (s.slot k).state = .free) (fun _ => decide_eq_true_iff) k

theorem freeSlot_none_iff : s.freeSlot? = none ↔ ∀ k, (s.slot k).state ≠ .free :=
  firstSlot_none_iff_of s (P := fun k => (s.slot k).state = .free) fun _ => decide_eq_true_iff

theorem fillingSlot_some_iff (k : SlotIx) : s.fillingSlot t = some k ↔
    ((s.slot k).state = .filling ∧ (s.slot k).tile = some t) ∧
      ∀ j < k, ¬((s.slot j).state = .filling ∧ (s.slot j).tile = some t) :=
  firstSlot_some_iff_of s (P := fun k => (s.slot k).state = .filling ∧ (s.slot k).tile = some t) (fillingSlot_test s t) k

theorem fillingSlot_none_iff :
    s.fillingSlot t = none ↔ ∀ k, ¬((s.slot k).state = .filling ∧ (s.slot k).tile = some t) :=
  firstSlot_none_iff_of s (P := fun k => (s.slot k).state = .filling ∧ (s.slot k).tile = some t) (fillingSlot_test s t)

theorem otherSlot_some_iff (k : SlotIx) : s.otherSlot t = some k ↔
    ((s.slot k).IsOther ∧ (s.slot k).tile = some t) ∧ ∀ j < k, ¬((s.slot j).IsOther ∧ (s.slot j).tile = some t) :=
  firstSlot_some_iff_of s (P := fun k => (s.slot k).IsOther ∧ (s.slot k).tile = some t) (otherSlot_test s t) k

theorem otherSlot_none_iff : s.otherSlot t = none ↔ ∀ k, ¬((s.slot k).IsOther ∧ (s.slot k).tile = some t) :=
  firstSlot_none_iff_of s (P := fun k => (s.slot k).IsOther ∧ (s.slot k).tile = some t) (otherSlot_test s t)

end

/-! ### Held writes (R63, R64) -/

/-- The state with a write held (R63). -/
def State.withHeld (s : State) (ref : PartRef) (t : TileRef) : State :=
  (s.putHeld (s.asm.held ++ [⟨ref, t⟩])).updPart ref fun q => { q with progress := .proceeding }

theorem hold_of_empty {s : State} {ref : PartRef} {p : Part} (empty : s.asm.openList = []) :
    s.hold ref p = s.withHeld ref p.tile := by
  unfold State.hold
  dsimp only
  split
  · rfl
  · next k rest head => cases empty.symm.trans head

theorem hold_of_open {s : State} {ref : PartRef} {p : Part} {k : SlotIx} {rest : List SlotIx}
    (head : s.asm.openList = k :: rest) : s.hold ref p = (s.withHeld ref p.tile).sealCall k := by
  unfold State.hold
  dsimp only
  split
  · next empty => cases head.symm.trans empty
  · next j others isHead =>
    cases head.symm.trans isHead
    rfl

theorem takeWrite_of_no_slot {s : State} {ref : PartRef} {p : Part} (isPart : s.part ref = some p)
    (on : ∃ q ∈ p.pixels, q.value.isSome = true) (noFilling : s.fillingSlot p.tile = none) (noFree : s.freeSlot? = none) :
    s.takeWrite ref = s.hold ref p := by
  rw [takeWrite_of_enabled isPart on, noFilling, noFree]

/-- The state of a grant before the landing (R64). -/
def State.granted (s : State) (rest : List HeldWrite) (k : SlotIx) (t : TileRef) : State := (s.putHeld rest).openSlot k t

theorem grantHeld_of_part {s : State} {h : HeldWrite} {rest : List HeldWrite} {k : SlotIx} {p : Part}
    (head : s.asm.held = h :: rest) (free : s.freeSlot? = some k) (isPart : s.part h.ref = some p) :
    s.grantHeld = some ((s.granted rest k h.tile).land k h.ref p) := by
  have isPart : ((s.putHeld rest).openSlot k h.tile).part h.ref = some p := isPart
  rw [State.grantHeld, head, free]
  dsimp only
  rw [isPart]
  rfl

/-- Settles O35: the held write, its grant, and what the searches for a slot find. -/
theorem heldWriteEvictsTheOpenListHead : Obligations.HeldWriteEvictsTheOpenListHead := by
  refine ⟨fun s ref p isPart on noFilling noFree => ⟨s.withHeld ref p.tile, ?_, rfl, fun empty => ?_, fun k rest head => ?_⟩,
    fun s => ⟨(grantHeld_none_iff s).2 ∘ Or.imp_right (freeSlot_none_iff s).2, fun h rest k p head free first isPart => ?_⟩,
    fun s t => ⟨fillingSlot_some_iff s t, fillingSlot_none_iff s t, otherSlot_some_iff s t,
      otherSlot_none_iff s t, freeSlot_some_iff s, freeSlot_none_iff s⟩⟩
  · exact (touches_putHeld s _).andThen (touches_updPart _ _ _)
  · rw [takeWrite_of_no_slot isPart on noFilling noFree, hold_of_empty empty]
  · rw [takeWrite_of_no_slot isPart on noFilling noFree, hold_of_open head]
  · have isFree := (freeSlot_some_iff s k).2 ⟨free, first⟩
    have landed := land_eq (s.granted rest k h.tile) k h.ref p
    rw [State.granted, slot_openSlot] at landed
    refine ⟨(s.granted rest k h.tile).landed k h.ref p.pixels, asm_landed_openSlot (s.putHeld rest) k h.ref h.tile p.pixels,
      port_landed _ k h.ref _, ?_, ?_, ?_⟩
    · exact ((marks_putHeld s rest).trans ((marks_openSlot _ k _).trans (marks_landed _ k h.ref _))).faults
    · exact ((touches_putHeld s rest).andThen (C := [.asm, .port, .st]) (touches_openSlot _ k _)).andThen
        (touches_landed _ k h.ref _)
    · rw [grantHeld_of_part head isFree isPart]
      exact congrArg some landed

/-! ### A request with one tile part -/

theorem proceedNext_of_first {s : State} {before after : List Request} {r : Request} {lo hi : List Part} {p : Part}
    (window : s.port.window = before ++ r :: after) (parts : r.parts = lo ++ p :: hi) (goes : MayGo before r p)
    (first : ∀ x ∈ lo, ¬MayGo before r x) (none_before : ∀ b q c, before = b ++ q :: c → ∀ x ∈ q.parts, ¬MayGo b q x) :
    s.proceedNext = some
      (if r.isWrite = true then (s.updPart ⟨r.id, lo.length⟩ fun x => { x with progress := .proceeding }).takeWrite ⟨r.id, lo.length⟩
      else (s.updPart ⟨r.id, lo.length⟩ fun x => { x with progress := .proceeding }).takeRead ⟨r.id, lo.length⟩) := by
  rw [State.proceedNext, window, nextPart_of_first parts before [] goes first none_before]
  rfl

/-- The window with the one part of its one request changed. -/
theorem windowWith_single {r : Request} {p : Part} (f : Part → Part) (parts : r.parts = [p]) :
    windowWith [r] [⟨r.id, 0⟩] f = [r.withParts [f p]] := by
  rw [windowWith, List.map_singleton, if_pos ⟨⟨r.id, 0⟩, List.mem_cons_self, rfl⟩, parts]
  simp

theorem withParts_of_unfinished {r : Request} {p : Part} (goesOn : ¬(p.progress = .complete ∨ p.progress = .failed)) :
    r.withParts [p] = { r with parts := [p] } := by
  rw [Request.withParts, if_neg fun ⟨_, _, ended⟩ => goesOn (ended p List.mem_cons_self)]

theorem withParts_of_complete {r : Request} {p : Part} (undetermined : r.outcome = .undetermined)
    (complete : p.progress = .complete) : r.withParts [p] = { r with parts := [p], outcome := .okay } := by
  have ended : ∀ x ∈ [p], x.progress = .complete ∨ x.progress = .failed := fun x mem => by
    rw [List.mem_singleton.1 mem]
    exact .inl complete
  have noFailure : ¬∃ x ∈ [p], x.progress = .failed := by simp [complete]
  rw [Request.withParts, if_pos ⟨undetermined, List.cons_ne_nil _ _, ended⟩, if_neg noFailure]

section
variable (s : State) (kind : ReqKind) (addr : Addr) (a : ApIx) (p : Part)

/-- The request of one tile part as it is taken. -/
def State.single : Request := ⟨s.port.nextId, kind, addr, .aperture a, [p], [], .undetermined⟩

/-- The state in which its part is handed to its block (R156). -/
def State.handed : State :=
  (s.taken (s.single kind addr a p)).updPart ⟨s.port.nextId, 0⟩ fun x => { x with progress := .proceeding }

variable {s kind addr a p}

theorem touches_handed : OnlyTouches [.port, .st] s (s.handed kind addr a p) :=
  (touches_withTaken s [] _).andThen (touches_updPart _ _ _)

theorem marks_handed : OnlyMarks s (s.handed kind addr a p) :=
  ⟨true, (st_withTaken s [] (s.single kind addr a p))⟩

theorem port_handed (empty : s.port.window = []) : (s.handed kind addr a p).port = { s.port with
    busHeld := [], nextId := s.port.nextId + 1
    window := [{ s.single kind addr a p with parts := [{ p with progress := .proceeding }] }] } := by
  have window : (s.taken (s.single kind addr a p)).port.window = [s.single kind addr a p] := by
    rw [window_taken, empty]
    rfl
  have changed := windowWith_single (r := s.single kind addr a p) (p := p) (fun x => { x with progress := .proceeding }) rfl
  rw [withParts_of_unfinished (by simp)] at changed
  have port := updPart_window (s.taken (s.single kind addr a p)) ⟨s.port.nextId, 0⟩ fun x => { x with progress := .proceeding }
  rw [window] at port
  exact port.trans (congrArg (fun w => { (s.taken (s.single kind addr a p)).port with window := w }) changed)

theorem part_handed (empty : s.port.window = []) :
    (s.handed kind addr a p).part ⟨s.port.nextId, 0⟩ = some { p with progress := .proceeding } := by
  rw [State.part, State.request, port_handed empty]
  simp [State.single]

/-- A request of one tile part, presented alone: its part goes, and it is answered once the part is complete. -/
theorem exec_single {v : State} {f : Part → Part} (alone : s.Alone) (lo : 1 ≤ kind.length) (hi : kind.length ≤ 256)
    (isAperture : s.classify kind addr.toNat = .aperture a) (parts : partsOf a (s.ap a) kind addr.toNat = [p])
    (goes : (if (s.single kind addr a p).isWrite = true then (s.handed kind addr a p).takeWrite ⟨s.port.nextId, 0⟩
      else (s.handed kind addr a p).takeRead ⟨s.port.nextId, 0⟩) = v)
    (port : v.port = { (s.handed kind addr a p).port with
      window := windowWith (s.handed kind addr a p).port.window [⟨s.port.nextId, 0⟩] f })
    (complete : (f { p with progress := .proceeding }).progress = .complete) (calm : v.Calm)
    (noEnd : (v.setPort s.port).endLongOrder = none) :
    let r : Request := { s.single kind addr a p with parts := [f { p with progress := .proceeding }], outcome := .okay }
    exec (requestCommand kind addr) s = .next (v.afterResponse r []).issueStatus ∧
      (v.afterResponse r []).port = { s.port with
        sent := s.port.sent ++ [⟨s.port.nextId, true, r.responseData⟩], nextId := s.port.nextId + 1 } := by
  intro r
  obtain ⟨quiet, released, empty, idle⟩ := alone
  have isR : s.takenRequest ⟨kind, addr⟩ = s.single kind addr a p := by
    rw [takenRequest_of_aperture isAperture, parts]
    rfl
  have waiting : p.progress = .waiting :=
    ((partsOf_parts a (s.ap a) kind addr.toNat).2 p (by rw [parts]; exact List.mem_cons_self)).2.2
  have taken : (s.taken (s.single kind addr a p)).port.window = [] ++ s.single kind addr a p :: [] := by
    rw [window_taken, empty]
  have touches := touches_taken s (s.single kind addr a p)
  have due := micro_of_proceedNext (calm_of_apart (fun b mem => touches b (by revert b; decide)) quiet)
    (proceedNext_of_first (lo := []) (hi := []) taken rfl ⟨rfl, waiting, nofun⟩ nofun
      fun b q c eq => absurd eq (by simp))
  have window : v.port.window = [r] := by
    rw [port, port_handed empty]
    exact (windowWith_single (r := { s.single kind addr a p with parts := [{ p with progress := .proceeding }] }) f rfl).trans
      (congrArg (fun x => [x]) (withParts_of_complete rfl complete))
  have noPart : v.proceedNext = none := by
    rw [proceedNext_none_iff, nextPart_none_iff, window]
    intro before q after eq x _ mayGo
    cases before with
    | nil => cases eq; cases mayGo.1
    | cons y l => cases l <;> cases eq
  have responds := micro_of_respond calm noPart (respond_of_complete window nofun)
  have answered := touches_afterResponse (s := v) (r := r) (rest := [])
  have busHeld : (v.afterResponse r []).port.busHeld = [] := by
    show v.port.busHeld = []
    rw [port, port_handed empty]
  have rests : (v.afterResponse r []).Quiet := by
    refine quiet_of_calm (calm_of_same (fun b mem => answered b (by revert b; decide)) calm) ((proceedNext_none_iff _).2 rfl)
      (respond_of_empty rfl) ((takeBus_none_iff _).2 (.inl busHeld)) ?_
    refine endLongOrder_none_of noEnd rfl rfl id fun b => ?_
    rw [freezeMet_of_same_window (s := v.setPort s.port) (t := v.afterResponse r []) rfl empty.symm]
    exact id
  refine ⟨?_, ?_⟩
  · rw [exec_request_taken quiet released idle (by rw [empty]; decide) lo hi, isR,
      finish_step (due.trans (congrArg some goes)), finish_step responds, finish_of_quiet rests]
  · have same : (v.afterResponse r []).port =
        { v.port with window := [], sent := v.port.sent ++ [⟨s.port.nextId, true, r.responseData⟩] } := rfl
    rw [same, port, port_handed empty]
    exact congrArg₂ (fun (w : List Request) (b : List BusRequest) => { s.port with
      window := w, busHeld := b, sent := s.port.sent ++ [(⟨s.port.nextId, true, r.responseData⟩ : Response)]
      nextId := s.port.nextId + 1 }) empty.symm idle.symm

end

end Sys2Proof.Machine
end

section
/-! PROOFS. An aperture write that lands in a slot (R59–R62). -/

set_option Elab.async false

namespace Sys2Proof.Machine

section
variable {s v : State} {k : SlotIx} {x : Slot}

theorem slot_of_slots_set (slots : v.asm.slots = s.asm.slots.set k x) (j : SlotIx) :
    v.slot j = if j = k then x else s.slot j := by
  rw [State.slot, slots]
  by_cases same : j = k
  · rw [if_pos same, same]
    exact Vector.getElem_set_self _
  · rw [if_neg same]
    exact Vector.getElem_set_ne _ _ (fun eq => same (Fin.ext eq.symm))

/-- A slot that becomes or stays FILLING makes no effect due but by the port. -/
theorem calm_of_filling (calm : s.Calm) (same : ∀ b ∈ [Block.pool, .enc, .rd, .ord], SameBlock b s v)
    (slots : v.asm.slots = s.asm.slots.set k x) (held : v.asm.held = s.asm.held)
    (sealQueue : v.asm.sealQueue = s.asm.sealQueue) (filling : x.state = .filling) : v.Calm := by
  have slot := slot_of_slots_set slots
  have pool : v.pool = s.pool := same .pool (by decide)
  have enc : v.enc = s.enc := same .enc (by decide)
  have rd : v.rd = s.rd := same .rd (by decide)
  have ord : v.ord = s.ord := same .ord (by decide)
  refine ⟨?_, ?_, ?_, ?_, ?_, ?_⟩
  · rw [grantWaiting_none_iff, pool, enc, ← grantWaiting_none_iff]; exact calm.grantWaiting
  · rw [movePending_none_iff, rd, ← movePending_none_iff]; exact calm.movePending
  · rw [startDecode_none_iff, rd, ← startDecode_none_iff]; exact calm.startDecode
  · refine (grantHeld_none_iff v).2 (((grantHeld_none_iff s).1 calm.grantHeld).imp (held ▸ ·) fun noFree => ?_)
    rw [freeSlot_none_iff] at noFree ⊢
    intro j
    rw [slot]
    split
    · rw [filling]; exact nofun
    · exact noFree j
  · rw [takeOrder_none_iff, ord, ← takeOrder_none_iff]; exact calm.takeOrder
  · have waits := (takeSealed_none_iff s).1 calm.takeSealed
    rw [takeSealed_none_iff, enc, sealQueue]
    refine waits.imp_right fun heads j head => ?_
    rw [slot]
    split
    · rw [filling]; exact .inl nofun
    · exact heads j head

/-- Nor does it bring the end of a long order nearer, where it carries the flush mark on and keeps to its tile. -/
theorem endLongOrder_none_of_filling (quiet : s.Quiet) (same : ∀ b ∈ [Block.aps, .map, .enc, .ord], SameBlock b s v)
    (slots : v.asm.slots = s.asm.slots.set k x) (held : v.asm.held = s.asm.held) (window : v.port.window = s.port.window)
    (marks : (s.slot k).mark = true → x.mark = true)
    (tiles : ∀ t, (s.slot k).state ≠ .free → (s.slot k).tile = some t → x.state ≠ .free ∧ x.tile = some t) :
    v.endLongOrder = none := by
  have slot := slot_of_slots_set slots
  have aps : v.aps = s.aps := same .aps (by decide)
  have map : v.map = s.map := same .map (by decide)
  have enc : v.enc = s.enc := same .enc (by decide)
  obtain ⟨-, -, -, -, -, -, -, waits, -, -⟩ := (quiet_iff s).1 quiet
  refine endLongOrder_none_of waits (same .ord (by decide)) ?_ (fun marked => ?_) fun a met => ?_
  · unfold State.walkDone State.encoderHolds State.ap
    rw [map, aps, enc]
  · obtain ⟨j, marked⟩ := (anyMark_iff s).1 marked
    refine (anyMark_iff v).2 ⟨j, ?_⟩
    rw [slot]
    split
    · next is => exact marks (is ▸ marked)
    · exact marked
  · obtain ⟨unoccupied, noHeld, finished⟩ := (freezeMet_iff v a).1 met
    refine (freezeMet_iff s a).2 ⟨fun j t occupied tile => ?_, held ▸ noHeld, window ▸ finished⟩
    by_cases is : j = k
    · obtain ⟨stays, keeps⟩ := tiles t (is ▸ occupied) (is ▸ tile)
      exact unoccupied k t (by rw [slot, if_pos rfl]; exact stays) (by rw [slot, if_pos rfl]; exact keeps)
    · exact unoccupied j t (by rw [slot, if_neg is]; exact occupied) (by rw [slot, if_neg is]; exact tile)

end

/-- A write that its aperture takes finds the aperture OPEN (R12). -/
theorem opened_of_write {s : State} {bytes : List (Byte × Bool)} {addr : Nat} {a : ApIx}
    (isAperture : s.classify (.write bytes) addr = .aperture a) : (s.ap a).state ≠ .freezing := by
  intro freezing
  rw [State.classify] at isAperture
  split at isAperture
  · cases isAperture
  · split at isAperture
    · cases isAperture
    · split at isAperture
      · cases isAperture
      · next b _ =>
        split at isAperture
        · cases isAperture
        · next takes =>
          split at isAperture
          · cases isAperture
            rw [freezing] at takes
            cases takes
          · cases isAperture

section
variable {s : State} {p : Part} {k : SlotIx} {base : Slot} {l : List SlotIx}

/-- A slot that a part lands in is FILLING, of the part's tile. -/
theorem filling_of_landsIn (lands : s.LandsIn p k base l) : base.state = .filling ∧ base.tile = some p.tile := by
  rcases lands with ⟨filling, rfl, -⟩ | ⟨-, -, -, rfl⟩
  · exact ((fillingSlot_some_iff s p.tile k).1 filling).1
  · exact ⟨rfl, rfl⟩

/-- It carries the slot's flush mark on. -/
theorem mark_of_landsIn (lands : s.LandsIn p k base l) (blank : s.FreeSlotsBlank) (marked : (s.slot k).mark = true) :
    base.mark = true := by
  rcases lands with ⟨filling, rfl, -⟩ | ⟨-, free, -, rfl⟩
  · exact marked
  · obtain ⟨-, -, -, -, unmarked⟩ := blank k ((freeSlot_some_iff s k).1 free).1
    cases unmarked.symm.trans marked

/-- And an occupied slot's tile. -/
theorem tile_of_landsIn (lands : s.LandsIn p k base l) (t : TileRef) (occupied : (s.slot k).state ≠ .free)
    (tile : (s.slot k).tile = some t) : base.state ≠ .free ∧ base.tile = some t := by
  rcases lands with ⟨filling, rfl, -⟩ | ⟨-, free, -, rfl⟩
  · exact ⟨occupied, tile⟩
  · exact absurd ((freeSlot_some_iff s k).1 free).1 occupied

end

theorem marks_afterResponse (s : State) (r : Request) (rest : List Request) : OnlyMarks s (s.afterResponse r rest) :=
  (OnlyMarks.of_touches (touches_setPort s _)).trans (marks_putWindow _ _)

/-- An aperture write of one part that lands, presented alone (R59, R60, R155). -/
theorem exec_write_landing {s : State} {bytes : List (Byte × Bool)} {addr : Addr} {a : ApIx} {p : Part} {k : SlotIx}
    {base : Slot} {l : List SlotIx} (alone : s.Alone) (blank : s.FreeSlotsBlank) (lo : 1 ≤ bytes.length)
    (hi : bytes.length ≤ 256) (isAperture : s.classify (.write bytes) addr.toNat = .aperture a)
    (parts : partsOf a (s.ap a) (.write bytes) addr.toNat = [p]) (on : ∃ q ∈ p.pixels, q.value.isSome = true)
    (lands : s.LandsIn p k base l) (lacks : (base.write p.pixels).isFull = false) :
    ∃ u : State, exec (.composerWrite addr bytes) s = .next u.issueStatus ∧
      u.port = { s.port with sent := s.port.sent ++ [⟨s.port.nextId, true, []⟩], nextId := s.port.nextId + 1 } ∧
      u.asm = { s.asm with
        slots := s.asm.slots.set k (base.write p.pixels), openList := if k ∈ l then l.erase k ++ [k] else l } ∧
      u.st.faults = s.st.faults ∧ OnlyTouches [.asm, .port, .st] s u := by
  let ref : PartRef := ⟨s.port.nextId, 0⟩
  let part : Part := { p with progress := .proceeding }
  let t := s.handed (.write bytes) addr a p
  have ofAp : p.tile.ap = a :=
    ((partsOf_parts a (s.ap a) (.write bytes) addr.toNat).2 p (by rw [parts]; exact List.mem_cons_self)).1
  obtain ⟨filling, -⟩ := filling_of_landsIn lands
  have landsIn : t.LandsIn part k base l := lands
  obtain ⟨port, asm, marks, touches⟩ := landing_facts (ref := ref) landsIn
  have all := touches_handed (s := s) (kind := .write bytes) (addr := addr) (a := a) (p := p) |>.andThen
    (C := [.asm, .port, .st]) touches
  have slots : (t.landing k ref part).asm.slots = s.asm.slots.set k (base.write p.pixels) := congrArg Assembly.slots asm
  have held : (t.landing k ref part).asm.held = s.asm.held := by rw [asm]; rfl
  have sealQueue : (t.landing k ref part).asm.sealQueue = s.asm.sealQueue := by rw [asm]; rfl
  have marked : (s.slot k).mark = true → base.mark = true := mark_of_landsIn lands blank
  have keepsTile := tile_of_landsIn lands
  have goes : t.takeWrite ref = t.landing k ref part := by
    rw [takeWrite_of_lands (part_handed alone.2.2.1) on landsIn]
    refine if_neg (not_or.2 ⟨Bool.eq_false_iff.1 lacks, ?_⟩)
    show (s.ap p.tile.ap).state ≠ .freezing
    rw [ofAp]
    exact opened_of_write isAperture
  have calm : (t.landing k ref part).Calm := calm_of_filling (calm_of_quiet alone.1)
    (fun b mem => all b (by revert b; decide)) slots held sealQueue filling
  have noEnd : ((t.landing k ref part).setPort s.port).endLongOrder = none :=
    endLongOrder_none_of_filling alone.1
      (fun b mem => (all.andThen (C := [.asm, .port, .st]) (touches_setPort _ s.port)) b (by revert b; decide)) slots
      held rfl marked fun tile occupied is => keepsTile tile occupied is
  obtain ⟨exec, sent⟩ := exec_single (kind := .write bytes) alone lo hi isAperture parts goes port rfl calm noEnd
  have responded := marks_afterResponse (t.landing k ref part) { s.single (.write bytes) addr a p with
    parts := [{ part with progress := .complete }], outcome := .okay } []
  exact ⟨_, exec, sent, asm, ((marks_handed.trans marks).trans responded).faults, all.andThen touches_afterResponse⟩

/-- Settles O31: the command, the part rule's landing, and what a landing writes. -/
theorem apertureWriteLandsInTheSlot : Obligations.ApertureWriteLandsInTheSlot := by
  refine ⟨fun s bytes addr a p k base alone blank lo hi isAperture parts on once lands lacks => ?command,
    fun s ref p isPart => ⟨fun off => ?disabled, fun k base l on lands => ?lands⟩, fun s ref => rfl,
    fun base ps once => ⟨write_eq base ps, isFull_iff _, fun q mem c isOn inside => write_of_mem once mem isOn inside,
      fun i inside off => write_of_none inside off⟩⟩
  case command =>
    let l := if s.fillingSlot p.tile = some k then s.asm.openList else s.asm.openList ++ [k]
    have landsIn : s.LandsIn p k base l := by
      rcases lands with ⟨filling, isBase⟩ | ⟨noFilling, free, isBase⟩
      · exact .inl ⟨filling, isBase, if_pos filling⟩
      · exact .inr ⟨noFilling, free, if_neg (by rw [noFilling]; exact nofun), isBase⟩
    obtain ⟨filling, tile⟩ := filling_of_landsIn landsIn
    obtain ⟨u, executed, port, asm, faults, touches⟩ :=
      exec_write_landing alone blank lo hi isAperture parts on landsIn lacks
    have slot (j : SlotIx) : u.slot j = if j = k then base.write p.pixels else s.slot j :=
      slot_of_slots_set (congrArg Assembly.slots asm) j
    have landed : u.slot k = base.write p.pixels := (slot k).trans (if_pos rfl)
    refine ⟨u, executed, port, ?_, ?_, ?_, ?_, ?_, fun q mem c isOn inside => ?_, fun i inside off => ?_, fun j other => ?_,
      ?_, ?_, fun isFilling => ?_, fun noFilling new => ?_, faults, touches⟩
    · rw [landed]; exact filling
    · rw [landed]; exact tile
    · rw [landed]; rfl
    · rw [landed]; rfl
    · rw [landed]; rfl
    · rw [landed]; exact write_of_mem once mem isOn inside
    · rw [landed]; exact write_of_none inside off
    · rw [slot, if_neg other]
    · rw [asm]
    · rw [asm]
    · have isL : l = s.asm.openList := if_pos isFilling
      rw [asm, isL]
    · have isL : l = s.asm.openList ++ [k] := if_neg (by rw [noFilling]; exact nofun)
      rw [asm, isL, List.erase_append_right _ new, List.erase_cons_head, List.append_nil]
      exact if_pos (List.mem_append_right _ List.mem_cons_self)
  case disabled =>
    rw [takeWrite_of_disabled isPart off]
    exact ⟨updPart_window _ _ _, touches_updPart _ _ _⟩
  case lands =>
    obtain ⟨port, asm, marks, touches⟩ := landing_facts (ref := ref) lands
    exact ⟨s.landing k ref p, port, asm, marks.faults, touches, takeWrite_of_lands isPart on lands⟩

end Sys2Proof.Machine
end

section
/-! PROOFS. The reads of the composer: what a read tile part takes from the slots and from the map, and the decodes that it waits
for (R74, R133–R137, R155–R157). -/

set_option Elab.async false

namespace Sys2Proof.Machine

/-! ### The content of the map (R2, R20, R24) -/

theorem entryAt_eq (l : List (Nat × MapEntry)) (i : Nat) :
    entryAt l i = ((l.find? fun e => decide (e.1 = i)).map Prod.snd).getD ⟨.unwritten, 0⟩ := by
  induction l with
  | nil => rfl
  | cons e l ih =>
    rw [entryAt, List.find?_cons]
    by_cases same : e.1 = i
    · rw [if_pos same, decide_eq_true same]
      rfl
    · rw [if_neg same, decide_eq_false same]
      exact ih

theorem fillSample_eq (fmt : Format) (v : Byte) :
    fillSample fmt v = BitVec.ofNat 16 (if fmt = .rgb8 then v.toNat else v.toNat * 257) := by
  cases fmt with
  | rgb8 => exact BitVec.eq_of_toNat_eq (by simp [fillSample])
  | rgb16 => rfl

section
variable {s : State} {t : TileRef}

theorem mapTile_of_unwritten (content : (s.entry t).content = .unwritten) :
    s.mapTile t = some (flatTile (s.ap t.ap).fill) := by
  rw [State.mapTile, content]

theorem mapTile_of_uniform {colour : Colour} {d : Bool} (content : (s.entry t).content = .uniform colour d) :
    s.mapTile t = some (flatTile colour) := by
  rw [State.mapTile, content]

end

/-! ### The content of the slots (R74) -/

section
variable {filling other : Option Slot} {i : Nat}

theorem slotsValue_of_filling {sl : Slot} (is : filling = some sl) (has : sl.has i = true) :
    slotsValue filling other i = some (pixelOf sl.px i) := by
  rw [slotsValue, is, Option.bind_some, Slot.value, if_pos has]

theorem slotsValue_of_not_filling (absent : ∀ sl, filling = some sl → sl.has i = false) :
    slotsValue filling other i = other.bind fun sl => sl.value i := by
  cases filling with
  | none => rfl
  | some sl =>
    rw [slotsValue, Option.bind_some, Slot.value, absent sl rfl]
    rfl

end

section
variable {s : State} {t : TileRef} {i : Nat}

/-- The value that the slots hold of a tile's pixel (R74). -/
def State.inSlots (s : State) (t : TileRef) (i : Nat) : Option Colour :=
  slotsValue ((s.fillingSlot t).map s.slot) ((s.otherSlot t).map s.slot) i

theorem visible_of_some {c : Colour} (held : s.inSlots t i = some c) : s.visible t i = some c := by
  rw [State.inSlots] at held
  rw [State.visible, held]

theorem visible_of_none (absent : s.inSlots t i = none) : s.visible t i = (s.mapTile t).map fun x => pixelOf x i := by
  rw [State.inSlots] at absent
  rw [State.visible, absent]

theorem inSlots_of_filling {k : SlotIx} (filling : s.fillingSlot t = some k) (has : (s.slot k).present.getLsbD i = true) :
    s.inSlots t i = some (pixelOf (s.slot k).px i) :=
  slotsValue_of_filling (sl := s.slot k) (by rw [filling]; rfl) has

theorem inSlots_of_not_filling (absent : ∀ k, s.fillingSlot t = some k → ¬(s.slot k).present.getLsbD i = true) :
    s.inSlots t i = ((s.otherSlot t).map s.slot).bind fun sl => sl.value i := by
  refine slotsValue_of_not_filling fun sl is => ?_
  obtain ⟨k, filling, rfl⟩ := Option.map_eq_some_iff.1 is
  exact Bool.eq_false_iff.2 (absent k filling)

theorem inSlots_of_other {k : SlotIx} (absent : ∀ k, s.fillingSlot t = some k → ¬(s.slot k).present.getLsbD i = true)
    (other : s.otherSlot t = some k) (has : (s.slot k).present.getLsbD i = true) :
    s.inSlots t i = some (pixelOf (s.slot k).px i) := by
  rw [inSlots_of_not_filling absent, other]
  exact if_pos has

theorem inSlots_of_neither (absent : ∀ k, s.fillingSlot t = some k → ¬(s.slot k).present.getLsbD i = true)
    (absentOther : ∀ k, s.otherSlot t = some k → ¬(s.slot k).present.getLsbD i = true) : s.inSlots t i = none := by
  rw [inSlots_of_not_filling absent]
  cases other : s.otherSlot t with
  | none => rfl
  | some k => exact if_neg (absentOther k other)

end

/-! ### The take of a read part (R133–R135) -/

/-- The part's pixels with the values that the slots hold. -/
def State.slotPixels (s : State) (p : Part) : List PartPixel :=
  p.pixels.map fun x => { x with value := s.inSlots p.tile x.index }

/-- The part's pixels with their visible values. -/
def State.visiblePixels (s : State) (p : Part) : List PartPixel :=
  p.pixels.map fun x => { x with value := s.visible p.tile x.index }

section
variable {s : State} {ref : PartRef} {p : Part}

theorem slotPixels_all_iff : ((s.slotPixels p).all fun x => x.value.isSome) = true ↔
    ∀ x ∈ p.pixels, (s.inSlots p.tile x.index).isSome = true := by
  rw [State.slotPixels, List.all_map, List.all_eq_true]
  exact Iff.rfl

theorem takeRead_of_part (isPart : s.part ref = some p) : s.takeRead ref =
    if ((s.slotPixels p).all fun x => x.value.isSome) = true then
      s.updPart ref fun q => { q with pixels := s.slotPixels p, progress := .complete }
    else
      match s.mapTile p.tile with
      | some tile => (s.useMapTile p.tile).updPart ref fun q =>
          { q with pixels := (s.slotPixels p).map fun x => x.fillFrom tile, progress := .complete }
      | none => (s.joinDecode p.tile fun e => { e with readers := e.readers ++ [ref] }).updPart ref fun q =>
          { q with pixels := s.slotPixels p, progress := .proceeding } := by
  rw [State.takeRead, isPart]
  rfl

/-- With every pixel in the slots their values are the visible ones. -/
theorem slotPixels_eq_visible (all : ∀ x ∈ p.pixels, (s.inSlots p.tile x.index).isSome = true) :
    s.slotPixels p = s.visiblePixels p := by
  refine List.map_congr_left fun x mem => ?_
  obtain ⟨c, held⟩ := Option.isSome_iff_exists.1 (all x mem)
  rw [held, visible_of_some held]

/-- What the slots lack the map's value fills. -/
theorem fillFrom_slotPixels {base : Tile} (known : s.mapTile p.tile = some base) :
    (s.slotPixels p).map (fun x => x.fillFrom base) = s.visiblePixels p := by
  rw [State.slotPixels, List.map_map]
  refine List.map_congr_left fun x _ => ?_
  show ({ x with value := some ((s.inSlots p.tile x.index).getD (pixelOf base x.index)) } : PartPixel) = _
  cases held : s.inSlots p.tile x.index with
  | some c => rw [visible_of_some held]; rfl
  | none => rw [visible_of_none held, known]; rfl

theorem takeRead_of_slots (isPart : s.part ref = some p) (all : ∀ x ∈ p.pixels, (s.inSlots p.tile x.index).isSome = true) :
    s.takeRead ref = s.updPart ref fun q => { q with pixels := s.visiblePixels p, progress := .complete } := by
  rw [takeRead_of_part isPart, if_pos (slotPixels_all_iff.2 all), slotPixels_eq_visible all]

theorem takeRead_of_map {base : Tile} (isPart : s.part ref = some p) (lacks : ∃ x ∈ p.pixels, s.inSlots p.tile x.index = none)
    (known : s.mapTile p.tile = some base) : s.takeRead ref =
      (s.useMapTile p.tile).updPart ref fun q => { q with pixels := s.visiblePixels p, progress := .complete } := by
  obtain ⟨x, mem, absent⟩ := lacks
  have notAll : ¬((s.slotPixels p).all fun x => x.value.isSome) = true := fun all => by
    have := slotPixels_all_iff.1 all x mem
    rw [absent] at this
    cases this
  rw [takeRead_of_part isPart, if_neg notAll, known, ← fillFrom_slotPixels known]

theorem takeRead_of_decode (isPart : s.part ref = some p) (lacks : ∃ x ∈ p.pixels, s.inSlots p.tile x.index = none)
    (unknown : s.mapTile p.tile = none) : s.takeRead ref =
      (s.joinDecode p.tile fun e => { e with readers := e.readers ++ [ref] }).updPart ref fun q =>
        { q with pixels := s.slotPixels p, progress := .proceeding } := by
  obtain ⟨x, mem, absent⟩ := lacks
  have notAll : ¬((s.slotPixels p).all fun x => x.value.isSome) = true := fun all => by
    have := slotPixels_all_iff.1 all x mem
    rw [absent] at this
    cases this
  rw [takeRead_of_part isPart, if_neg notAll, unknown]

/-- A visible pixel that no slot holds is the map's (R20, R74). -/
theorem mapTile_of_visible {i : Nat} {t : TileRef} (absent : s.inSlots t i = none) (seen : (s.visible t i).isSome = true) :
    ∃ base, s.mapTile t = some base := by
  rw [visible_of_none absent, Option.isSome_map] at seen
  exact Option.isSome_iff_exists.1 seen

theorem mapTile_of_not_visible {i : Nat} {t : TileRef} (unseen : s.visible t i = none) :
    s.inSlots t i = none ∧ s.mapTile t = none := by
  cases held : s.inSlots t i with
  | some c => rw [visible_of_some held] at unseen; cases unseen
  | none =>
    rw [visible_of_none held, Option.map_eq_none_iff] at unseen
    exact ⟨rfl, unseen⟩

/-- A cache hit leaves the decode queue, the pending list and the decoder (R134). -/
theorem rd_useMapTile (s : State) (t : TileRef) : (s.useMapTile t).rd.queue = s.rd.queue ∧
    (s.useMapTile t).rd.pendingList = s.rd.pendingList ∧ (s.useMapTile t).rd.decoder = s.rd.decoder := by
  unfold State.useMapTile State.touchCache
  split
  · split <;> exact ⟨rfl, rfl, rfl⟩
  · exact ⟨rfl, rfl, rfl⟩

/-- A part whose pixels are all visible is complete; the cache alone can change in the read path (R134, R135). -/
theorem takeRead_of_visible (isPart : s.part ref = some p)
    (seen : ∀ x ∈ p.pixels, (s.visible p.tile x.index).isSome = true) :
    (s.takeRead ref).port = { s.port with window := windowWith s.port.window [ref] fun q =>
      { q with pixels := s.visiblePixels p, progress := .complete } } ∧
    (s.takeRead ref).rd.queue = s.rd.queue ∧ (s.takeRead ref).rd.pendingList = s.rd.pendingList ∧
    (s.takeRead ref).rd.decoder = s.rd.decoder ∧ OnlyTouches [.port, .rd, .st] s (s.takeRead ref) := by
  by_cases all : ∀ x ∈ p.pixels, (s.inSlots p.tile x.index).isSome = true
  · rw [takeRead_of_slots isPart all]
    exact ⟨updPart_window _ _ _, rfl, rfl, rfl, (touches_updPart _ _ _).mono⟩
  · simp only [not_forall, Bool.not_eq_true, Option.isSome_eq_false_iff, Option.isNone_iff_eq_none] at all
    obtain ⟨x, mem, absent⟩ := all
    obtain ⟨base, known⟩ := mapTile_of_visible absent (seen x mem)
    rw [takeRead_of_map isPart ⟨x, mem, absent⟩ known]
    obtain ⟨queue, pending, decoder⟩ := rd_useMapTile s p.tile
    have port : (s.useMapTile p.tile).port = s.port := touches_useMapTile s _ .port (by decide)
    refine ⟨?_, queue, pending, decoder,
      (touches_useMapTile s _).andThen (touches_updPart _ _ _)⟩
    rw [updPart_window, port]

end

/-- An aperture read of one part whose pixels are all visible, presented alone (R133, R134, R155). -/
theorem exec_read_visible {s : State} {n : Nat} {addr : Addr} {a : ApIx} {p : Part} (alone : s.Alone) (lo : 1 ≤ n)
    (hi : n ≤ 256) (isAperture : s.classify (.read n) addr.toNat = .aperture a)
    (parts : partsOf a (s.ap a) (.read n) addr.toNat = [p])
    (seen : ∀ q ∈ p.pixels, (s.visible p.tile q.index).isSome = true) :
    ∃ u : State, exec (.composerRead addr n) s = .next u.issueStatus ∧
      u.port = { s.port with
        sent := s.port.sent ++ [⟨s.port.nextId, true, p.pixels.flatMap fun q =>
          bytesOfColour (s.ap a).fmt ((s.visible p.tile q.index).getD ⟨0, 0, 0⟩)⟩]
        nextId := s.port.nextId + 1 } ∧
      u.rd.queue = s.rd.queue ∧ u.rd.decoder = s.rd.decoder ∧ u.st.faults = s.st.faults ∧
      OnlyTouches [.port, .rd, .st] s u := by
  let ref : PartRef := ⟨s.port.nextId, 0⟩
  let t := s.handed (.read n) addr a p
  let v := t.takeRead ref
  have isPart : t.part ref = some { p with progress := .proceeding } := part_handed alone.2.2.1
  obtain ⟨port, queue, pending, decoder, touches⟩ := takeRead_of_visible isPart seen
  have all : OnlyTouches [.port, .rd, .st] s v :=
    (touches_handed (s := s) (kind := .read n) (addr := addr) (a := a) (p := p)).andThen touches
  have queue : v.rd.queue = s.rd.queue := queue
  have pending : v.rd.pendingList = s.rd.pendingList := pending
  have decoder : v.rd.decoder = s.rd.decoder := decoder
  have calm : v.Calm :=
    calm_of_same_queues (fun b mem => all b (by revert b; decide)) queue pending decoder (calm_of_quiet alone.1)
  have noEnd : (v.setPort s.port).endLongOrder = none := by
    have back := all.andThen (C := [.port, .rd, .st]) (touches_setPort _ s.port)
    refine endLongOrder_none_of_apart (fun b mem => back b (by revert b; decide)) alone.1 fun b => ?_
    rw [freezeMet_of_same_window (back .asm (by decide)) rfl]
    exact id
  have fmt : p.fmt = (s.ap a).fmt :=
    ((partsOf_parts a (s.ap a) (.read n) addr.toNat).2 p (by rw [parts]; exact List.mem_cons_self)).2.1
  obtain ⟨exec, sent⟩ := exec_single (kind := .read n) alone lo hi isAperture parts rfl port rfl calm noEnd
  refine ⟨_, exec, sent.trans ?_, queue, decoder, ?_, all.andThen touches_afterResponse⟩
  · have data (r : Request) (okay : r.outcome = .okay) (read : r.kind = .read n) (ofAp : r.cls = .aperture a)
        (one : r.parts = [⟨p.tile, p.fmt, s.visiblePixels p, .complete⟩]) : r.responseData = p.pixels.flatMap fun q =>
          bytesOfColour (s.ap a).fmt ((s.visible p.tile q.index).getD ⟨0, 0, 0⟩) := by
      rw [responseData_of_aperture okay read ofAp, Request.pixelData, one, ← fmt]
      simp [State.visiblePixels, List.flatMap_map, Colour.black]
    rw [data _ rfl rfl rfl rfl]
  · exact ((marks_handed.trans (marks_takeRead _ _)).trans (marks_afterResponse _ _ _)).faults

end Sys2Proof.Machine
end

section
/-! PROOFS. What an aperture read returns, and the parts of the read path that it passes through (R133–R137). -/

set_option Elab.async false

namespace Sys2Proof.Machine

/-- Settles O32, by the lemmas on the map's content, the slots' content, the take of a read part, the part rule and the decode
queue. -/
theorem apertureReadReturnsVisibleContent : Obligations.ApertureReadReturnsVisibleContent := by
  refine ⟨fun s n addr a p alone lo hi isAperture parts seen => exec_read_visible alone lo hi isAperture parts seen,
    fun s t => ?content, fun s ref p isPart => ⟨fun seen => ⟨(takeRead_of_visible isPart seen).1, fun all => ?slots,
      fun ⟨x, mem, absent⟩ => ?map⟩, fun ⟨x, mem, unseen⟩ => ?decode⟩, fun s => ?proceed, fun s t add => ?join,
    fun s => ?pending, fun s t i => ?value, fun t i => dif_pos i.isLt⟩
  case content =>
    intro x wide
    have fill : x.fill = ⟨wide x.fillR, wide x.fillG, wide x.fillB⟩ := by
      rw [Aperture.fill, fillSample_eq, fillSample_eq, fillSample_eq]
    refine ⟨fill, entryAt_eq _ _, rfl, ?_⟩
    split
    · next content => exact ⟨_, mapTile_of_unwritten content, fun i inside => (pixelOf_flatTile _ inside).trans fill⟩
    · next content => exact ⟨_, mapTile_of_uniform content, fun i inside => pixelOf_flatTile _ inside⟩
    · next content => exact mapTile_of_stream (hasStream_of_coded_or_plain (.inl ⟨_, _, _, content⟩))
    · next content => exact mapTile_of_stream (hasStream_of_coded_or_plain (.inr ⟨_, _, content⟩))
  case slots =>
    rw [takeRead_of_slots isPart all]
    exact touches_updPart _ _ _
  case map =>
    obtain ⟨-, queue, pending, decoder, touches⟩ := takeRead_of_visible isPart seen
    refine ⟨touches, queue, pending, decoder, rfl, fun base known => ?_⟩
    rw [takeRead_of_map isPart ⟨x, mem, absent⟩ known]
    split
    · next stream =>
      rw [mapTile_of_stream stream] at known
      exact congrArg ReadPath.cache (rd_useMapTile_of_stream stream known)
    · next flat =>
      rw [useMapTile_of_flat (Bool.eq_false_iff.2 flat)]
      rfl
  case decode =>
    obtain ⟨absent, unknown⟩ := mapTile_of_not_visible unseen
    obtain ⟨e, ⟨ofTile, kept⟩, stands⟩ := joinDecode_mem s p.tile fun e => { e with readers := e.readers ++ [ref] }
    have joined := touches_joinDecode s p.tile fun e => { e with readers := e.readers ++ [ref] }
    have port : (s.joinDecode p.tile fun e => { e with readers := e.readers ++ [ref] }).port = s.port :=
      joined .port (by decide)
    rw [takeRead_of_decode isPart ⟨x, mem, absent⟩ unknown]
    refine ⟨?_, ⟨_, List.mem_append.2 stands, ofTile, kept, List.mem_append_right _ List.mem_cons_self⟩, rfl,
      joinDecode_cache s _ _, joinDecode_decoder s _ _, joined.andThen (touches_updPart _ _ _)⟩
    rw [updPart_window, port]
    rfl
  case proceed =>
    refine ⟨(proceedNext_none_iff s).trans (nextPart_none_iff s.port.window []), fun quiet => ?_,
      fun before r after lo p hi window parts goes first none_before => ⟨_, updPart_window _ _ _, touches_updPart _ _ _,
        proceedNext_of_first window parts goes first none_before⟩⟩
    obtain ⟨-, -, -, -, noPart, -⟩ := (quiet_iff s).1 quiet
    exact noPart
  case join =>
    exact ⟨touches_joinDecode s t add, fun before e after queue joins first => joinDecode_queue s t add before e after queue joins first,
      fun before e after pending joins first => joinDecode_pending s t add before e after pending joins first,
      joinDecode_new s t add⟩
  case pending =>
    refine ⟨(movePending_none_iff s).2, fun e rest pending space => ⟨_, movePending_eq pending space, rfl, ?_,
      (touches_setRd s _).andThen (touches_putQueue _ _)⟩⟩
    have longer : decide ((s.rd.queue ++ [e]).length ≠ s.rd.queue.length) = true := by simp
    exact congrArg (fun b => { s.st with stale := b }) ((congrArg (s.st.stale || ·) longer).trans (Bool.or_true _))
  case value =>
    exact ⟨fun k filling has => ⟨inSlots_of_filling filling has, visible_of_some (inSlots_of_filling filling has)⟩,
      fun absent => ⟨fun k other has => ⟨inSlots_of_other absent other has, visible_of_some (inSlots_of_other absent other has)⟩,
        fun absentOther => ⟨inSlots_of_neither absent absentOther, visible_of_none (inSlots_of_neither absent absentOther)⟩⟩⟩

end Sys2Proof.Machine
end

section
/-! PROOFS. The waiters of a decode (R142, R143): a fold over the readers is one change of the window, and each reader's part is
changed once. -/

set_option Elab.async false

namespace Sys2Proof.Machine

/-! ### One tile part -/

theorem id_conclude (r : Request) : r.conclude.id = r.id ∧ r.conclude.parts = r.parts := by
  unfold Request.conclude
  split <;> exact ⟨rfl, rfl⟩

theorem part_updPart (s : State) (ref x : PartRef) (f : Part → Part) :
    (s.updPart ref f).part x = if x = ref then (s.part x).map f else s.part x := by
  have keepsId (r : Request) :
      (if r.id = ref.req then ({ r with parts := r.parts.modify ref.part f } : Request).conclude else r).id = r.id := by
    split
    · exact (id_conclude _).1
    · rfl
  have found : (s.updPart ref f).request x.req = (s.request x.req).map fun r =>
      if r.id = ref.req then ({ r with parts := r.parts.modify ref.part f } : Request).conclude else r := by
    show (s.port.window.map _).find? _ = _
    rw [List.find?_map]
    refine congrArg _ (congrArg (fun p => s.port.window.find? p) (funext fun r => ?_))
    exact congrArg (fun n => decide (n = x.req)) (keepsId r)
  rw [State.part, found, State.part]
  cases request : s.request x.req with
  | none => exact (ite_self _).symm
  | some r =>
    have isX : r.id = x.req := of_decide_eq_true (List.find?_some (p := fun q : Request => decide (q.id = x.req)) request)
    rw [Option.map_some, Option.bind_some, Option.bind_some]
    by_cases same : r.id = ref.req
    · rw [if_pos same, (id_conclude _).2, List.getElem?_modify]
      by_cases at_x : ref.part = x.part
      · have isRef : x = ref := by cases x; cases ref; cases isX; cases same; cases at_x; rfl
        rw [if_pos isRef]
        simp [at_x]
      · rw [if_neg fun isRef => at_x (by rw [isRef])]
        simp [at_x]
    · rw [if_neg same, if_neg fun isRef => same (by rw [isX, isRef])]

/-- A change made twice is the change made once. -/
def Idempotent (f : Part → Part) : Prop := ∀ p, f (f p) = f p

section
variable {f : Part → Part}

theorem part_foldl_updPart (idem : Idempotent f) (x : PartRef) (refs : List PartRef) : ∀ s : State,
    (refs.foldl (fun u ref => u.updPart ref f) s).part x = if x ∈ refs then (s.part x).map f else s.part x := by
  induction refs with
  | nil => exact fun s => rfl
  | cons ref refs ih =>
    intro s
    rw [List.foldl_cons, ih, part_updPart]
    by_cases isRef : x = ref
    · have mem : x ∈ ref :: refs := by rw [isRef]; exact List.mem_cons_self
      rw [if_pos isRef, if_pos mem]
      split
      · rw [Option.map_map]
        exact congrArg (fun g => (s.part x).map g) (funext idem)
      · rfl
    · rw [if_neg isRef]
      exact if_congr (by rw [List.mem_cons, or_iff_right isRef]) rfl rfl

/-! ### One request -/

/-- The parts with those of the references changed. -/
def partsWith (r : Request) (refs : List PartRef) (f : Part → Part) : List Part :=
  r.parts.mapIdx fun i p => if (⟨r.id, i⟩ : PartRef) ∈ refs then f p else p

/-- The request with those parts changed, and concluded if one of the references is to it (R155). -/
def Request.changed (r : Request) (refs : List PartRef) (f : Part → Part) : Request :=
  if ∃ ref ∈ refs, ref.req = r.id then r.withParts (partsWith r refs f) else r

theorem windowWith_eq (w : List Request) (refs : List PartRef) (f : Part → Part) :
    windowWith w refs f = w.map fun r => r.changed refs f := rfl

theorem id_withParts (r : Request) (parts : List Part) : (r.withParts parts).id = r.id ∧ (r.withParts parts).parts = parts :=
  ⟨rfl, rfl⟩

theorem parts_changed (r : Request) (refs : List PartRef) : (r.changed refs f).parts = partsWith r refs f := by
  rw [Request.changed]
  split
  · rfl
  · next apart =>
    refine (List.mapIdx_eq_iff.2 fun i => ?_).symm
    cases r.parts[i]? with
    | none => rfl
    | some p => exact congrArg some (if_neg fun mem => apart ⟨_, mem, rfl⟩).symm

theorem id_changed (r : Request) (refs : List PartRef) : (r.changed refs f).id = r.id := by
  rw [Request.changed]
  split <;> rfl

/-- A change of parts after another that left the request as it was, or that left the parts that it is to have. -/
theorem withParts_withParts {r : Request} {l m : List Part}
    (last : (∀ p ∈ l, p.progress = .complete ∨ p.progress = .failed) → m = l) :
    (r.withParts l).withParts m = r.withParts m := by
  by_cases ended : r.outcome = .undetermined ∧ l ≠ [] ∧ ∀ p ∈ l, p.progress = .complete ∨ p.progress = .failed
  · have same := last ended.2.2
    rw [same]
    have determined : (r.withParts l).outcome ≠ .undetermined := by
      rw [Request.withParts, if_pos ended]
      dsimp only
      split <;> exact nofun
    rw [Request.withParts, if_neg fun h => determined h.1]
    rfl
  · have same : (r.withParts l).outcome = r.outcome := if_neg ended
    rw [Request.withParts, same]
    rfl

/-- The references to a request name parts that are under way. -/
def UnderWay (r : Request) (refs : List PartRef) : Prop :=
  ∀ ref ∈ refs, ref.req = r.id → ∀ p, r.parts[ref.part]? = some p → p.progress = .proceeding

/-- One reference more. -/
theorem changed_append {r : Request} {refs : List PartRef} {ref : PartRef} (idem : Idempotent f)
    (way : UnderWay r (refs ++ [ref])) : (r.changed refs f).changed [ref] f = r.changed (refs ++ [ref]) f := by
  have parts : partsWith (r.changed refs f) [ref] f = partsWith r (refs ++ [ref]) f := by
    unfold partsWith
    rw [parts_changed, id_changed, partsWith, List.mapIdx_mapIdx]
    refine List.mapIdx_eq_mapIdx_iff.2 fun i _ => ?_
    simp only [Function.comp_apply, List.mem_append, List.mem_singleton]
    by_cases old : (⟨r.id, i⟩ : PartRef) ∈ refs
    · have mem : (⟨r.id, i⟩ : PartRef) ∈ refs ∨ (⟨r.id, i⟩ : PartRef) = ref := .inl old
      rw [if_pos old, if_pos mem]
      split
      · exact idem _
      · rfl
    · rw [if_neg old]
      exact if_congr (or_iff_right old).symm rfl rfl
  by_cases toIt : ref.req = r.id
  · have new : ∃ x ∈ refs ++ [ref], x.req = r.id := ⟨ref, List.mem_append_right _ List.mem_cons_self, toIt⟩
    rw [Request.changed, if_pos ⟨ref, List.mem_cons_self, by rw [id_changed]; exact toIt⟩, parts,
      Request.changed, Request.changed, if_pos new]
    split
    · refine withParts_withParts fun ended => ?_
      unfold partsWith
      refine List.mapIdx_eq_mapIdx_iff.2 fun i inside => ?_
      by_cases old : (⟨r.id, i⟩ : PartRef) ∈ refs
      · rw [if_pos (List.mem_append_left _ old), if_pos old]
      · rw [if_neg old]
        refine if_neg fun mem => ?_
        have isRef : (⟨r.id, i⟩ : PartRef) = ref := by simpa [old] using mem
        have proceeding := way ref (List.mem_append_right _ List.mem_cons_self) toIt r.parts[i] (by
          rw [← isRef]; exact List.getElem?_eq_getElem inside)
        have finished := ended r.parts[i] (by
          refine List.mem_mapIdx.2 ⟨i, inside, if_neg old⟩)
        rw [proceeding] at finished
        rcases finished with eq | eq <;> cases eq
    · rfl
  · have apart : ¬∃ x ∈ [ref], x.req = (r.changed refs f).id := by
      rintro ⟨x, mem, eq⟩
      rw [List.mem_singleton.1 mem, id_changed] at eq
      exact toIt eq
    rw [Request.changed, if_neg apart, Request.changed, Request.changed]
    refine if_congr ?_ ?_ rfl
    · constructor
      · exact fun ⟨x, mem, eq⟩ => ⟨x, List.mem_append_left _ mem, eq⟩
      · rintro ⟨x, mem, eq⟩
        rcases List.mem_append.1 mem with mem | mem
        · exact ⟨x, mem, eq⟩
        · rw [List.mem_singleton.1 mem] at eq
          exact absurd eq toIt
    · refine congrArg r.withParts (List.mapIdx_eq_mapIdx_iff.2 fun i _ => if_congr ?_ rfl rfl)
      rw [List.mem_append, List.mem_singleton]
      exact (or_iff_left fun isRef => toIt (by rw [← isRef])).symm

/-- The parts of a list of references changed one after the other, none of them finished before its turn, come to one change
of the window. -/
theorem window_foldl_updPart (idem : Idempotent f) (s : State) (refs : List PartRef) :
    (∀ r ∈ s.port.window, UnderWay r refs) →
      (refs.foldl (fun u ref => u.updPart ref f) s).port = { s.port with window := windowWith s.port.window refs f } := by
  induction refs using List.reverseRecOn with
  | nil =>
    intro _
    have same : windowWith s.port.window [] f = s.port.window := by
      rw [windowWith_eq]
      refine (List.map_congr_left fun r _ => ?_).trans (List.map_id _)
      exact if_neg (by simp)
    rw [same]
    rfl
  | append_singleton refs ref ih =>
    intro way
    have before := ih fun r mem x isX => way r mem x (List.mem_append_left _ isX)
    rw [List.foldl_append, List.foldl_cons, List.foldl_nil, updPart_window, before]
    refine congrArg (fun w => { s.port with window := w }) ?_
    show windowWith (windowWith s.port.window refs f) [ref] f = _
    rw [windowWith_eq, windowWith_eq, windowWith_eq, List.map_map]
    exact List.map_congr_left fun r mem => changed_append idem (way r mem)

end

end Sys2Proof.Machine
end

section
/-! PROOFS. The store port (R160–R164): the turn, and the answers to pass-through requests, chunk reads and status writes; and the
end of a decode (R139–R143, R149). -/

set_option Elab.async false

namespace Sys2Proof.Machine

/-! ### The turn (R161) -/

section
variable {p : StorePort} {x : Source} {r : StoreReq} {rest : List StoreReq}

theorem turn_of_empty (empty : ∀ x, p.listOf x = []) : p.turn = p := by
  have none_chosen : p.chosen = none := List.find?_eq_none.2 fun x _ => by rw [empty x]; exact nofun
  rw [StorePort.turn, none_chosen]

/-- The arbiter grants the first source from the pointer on whose list is not empty. -/
theorem turn_of_first {before after : List Source}
    (order : [p.pointer, p.pointer.next, p.pointer.next.next, p.pointer.next.next.next] = before ++ x :: after)
    (skipped : ∀ y ∈ before, p.listOf y = []) (head : p.listOf x = r :: rest) :
    p.turn = { p.dropHead x with outstanding := p.outstanding ++ [r], pointer := x.next } := by
  have chosen : p.chosen = some x := by
    rw [StorePort.chosen, order, List.find?_append, List.find?_eq_none.2 fun y mem => by rw [skipped y mem]; exact nofun]
    rw [List.find?_cons, head]
    rfl
  rw [StorePort.turn, chosen]
  dsimp only
  rw [head]
  rfl

theorem listOf_dropHead (p : StorePort) (x : Source) : (p.dropHead x).listOf x = (p.listOf x).tail ∧
    (∀ y, y ≠ x → (p.dropHead x).listOf y = p.listOf y) ∧ (p.dropHead x).ignore = p.ignore := by
  cases x <;> refine ⟨rfl, fun y other => ?_, rfl⟩ <;> cases y <;> first | rfl | exact absurd rfl other

end

/-- Settles O36: the turn of the arbiter, by the lists from the pointer on. -/
theorem storeTurnGrantsRoundRobin : Obligations.StoreTurnGrantsRoundRobin := by
  intro s released
  have turn : exec .storeTurn s = .next (s.setStore s.store.turn) := if_neg (Bool.eq_false_iff.1 released)
  refine ⟨rfl, rfl, fun empty => ?_, fun before x after r rest order skipped head =>
    ⟨s.setStore s.store.turn, turn, ?_, fun y other => ?_, ?_, ?_, ?_, touches_setStore s _⟩⟩
  · rw [turn, turn_of_empty empty]
    rfl
  all_goals
    obtain ⟨self, others, ignore⟩ := listOf_dropHead s.store x
    rw [setStore_store, turn_of_first order skipped head]
  · rw [head] at self
    exact self
  · exact others y other
  · exact ignore

/-- Settles O37: an answer that is ignored lowers the ignore count and does nothing else. -/
theorem answersAreIgnoredAfterReset : Obligations.AnswersAreIgnoredAfterReset := fun s _ ignore wf isAnswer =>
  ⟨s.ignoreAnswer, exec_answer_ignored ignore wf isAnswer, rfl, touches_setStore s _⟩

/-! ### The answers (R159, R162) -/

theorem conclude_of_determined {r : Request} (determined : r.outcome ≠ .undetermined) : r.conclude = r := by
  rw [Request.conclude, Request.isComplete, decide_eq_true determined]
  rfl

theorem store_popOutstanding {s : State} {q : StoreReq} {rest : List StoreReq} (head : s.store.outstanding = q :: rest) :
    s.popOutstanding.store = { s.store with outstanding := rest } := by
  rw [State.popOutstanding, head]
  rfl

/-- Settles O38: the request is determined by the answer, so it is concluded as it stands. -/
theorem passThroughAnswerCompletesTheRequest : Obligations.PassThroughAnswerCompletesTheRequest := by
  intro s status data q id rest ignore short head passes
  refine ⟨s.popOutstanding.passAnswered id status data, exec_passThroughAnswer ignore short head passes,
    store_popOutstanding head, ?_, (touches_setStore s _).andThen (touches_updRequest _ _ _)⟩
  refine congrArg (fun w => { s.port with window := w }) (List.map_congr_left fun r _ => ?_)
  by_cases answered : r.id = id
  · rw [if_pos answered, if_pos answered]
    cases status with
    | okay => exact conclude_of_determined nofun
    | error => exact conclude_of_determined nofun
  · rw [if_neg answered, if_neg answered]

/-- Settles O43: the flight ends; after an ERROR the block is stale only if it is to be issued again (R187). -/
theorem statusWriteAnswerEndsTheFlight : Obligations.StatusWriteAnswerEndsTheFlight := by
  intro s addr data rest ignore head
  have touches (x : StoreStatus) : OnlyTouches [.st, .store] s (s.popOutstanding.statusAnswered x) :=
    (touches_popOutstanding s).andThen (touches_statusAnswered _ x)
  have store (x : StoreStatus) : (s.popOutstanding.statusAnswered x).store = { s.store with outstanding := rest } := by
    have same : (s.popOutstanding.statusAnswered x).store = s.popOutstanding.store :=
      touches_statusAnswered _ x .store (by decide)
    rw [same, store_popOutstanding head]
  exact ⟨⟨_, exec_statusWriteAnswer ignore .okay head, rfl, store _, touches _⟩,
    ⟨_, exec_statusWriteAnswer ignore .error head, rfl, store _, touches _⟩⟩

/-! ### The end of a decode (R142, R143) -/

/-- The readers' parts changed, the gathering slot filled, and the decode's entry gone. -/
def State.waitersEnded (s : State) (e : DecodeEntry) (f : Part → Part) (t : Tile) : State :=
  ((e.readers.foldl (fun u ref => u.updPart ref f) s).serveGather e.gather t).leaveDecoder

/-- A served reader's part (R142). -/
def Part.served (t : Tile) (p : Part) : Part :=
  { p with pixels := p.pixels.map fun x => { x with value := some (x.value.getD (pixelOf t x.index)) }, progress := .complete }

/-- A failed reader's part (R143). -/
def Part.refused (p : Part) : Part := { p with progress := .failed }

theorem idempotent_served (t : Tile) : Idempotent (Part.served t) := by
  intro p
  simp [Part.served]

theorem idempotent_refused : Idempotent Part.refused := fun _ => rfl

theorem decodeSucceeds_eq (s : State) (e : DecodeEntry) (t : Tile) :
    s.decodeSucceeds e t = (s.insertCache e.tile t).waitersEnded e (Part.served t) t := rfl

theorem decodeFails_eq (s : State) (e : DecodeEntry) : s.decodeFails e =
    s.waitersEnded e Part.refused (flatTile (s.ap e.tile.ap).fill) := rfl

section
variable {s : State} {e : DecodeEntry} {f : Part → Part} {t : Tile}

theorem touches_readers : OnlyTouches [.port] s (e.readers.foldl (fun u ref => u.updPart ref f) s) :=
  OnlyTouches.foldl _ (fun u ref => touches_updPart u ref f) e.readers s

theorem touches_waitersEnded : OnlyTouches [.rd, .st, .port, .asm] s (s.waitersEnded e f t) :=
  (touches_readers.andThen (C := [.rd, .st, .port, .asm]) (touches_serveGather _ _ _)).andThen (touches_leaveDecoder _)

theorem marks_waitersEnded : OnlyMarks s (s.waitersEnded e f t) :=
  ((OnlyMarks.of_touches touches_readers).trans (marks_serveGather _ _ _)).trans (marks_leaveDecoder _)

theorem rd_waitersEnded : (s.waitersEnded e f t).rd = { s.rd with decoder := none, queue := s.rd.queue.tail } := by
  have same : ((e.readers.foldl (fun u ref => u.updPart ref f) s).serveGather e.gather t).rd = s.rd :=
    (touches_readers.andThen (C := [.asm, .st, .port]) (touches_serveGather _ e.gather t)) .rd (by decide)
  exact congrArg (fun rd : ReadPath => { rd with decoder := none, queue := rd.queue.tail }) same

theorem port_waitersEnded (idem : Idempotent f) (way : ∀ r ∈ s.port.window, UnderWay r e.readers) :
    (s.waitersEnded e f t).port = { s.port with window := windowWith s.port.window e.readers f } := by
  have same := ((touches_serveGather (e.readers.foldl (fun u ref => u.updPart ref f) s) e.gather t).andThen
    (C := [.asm, .rd, .st]) (touches_leaveDecoder _)) .port (by decide)
  exact Eq.trans same (window_foldl_updPart idem s e.readers way)

theorem part_waitersEnded (idem : Idempotent f) {ref : PartRef} (reader : ref ∈ e.readers) :
    (s.waitersEnded e f t).part ref = (s.part ref).map f := by
  have same : (s.waitersEnded e f t).port = (e.readers.foldl (fun u ref => u.updPart ref f) s).port :=
    ((touches_serveGather _ e.gather t).andThen (C := [.asm, .rd, .st]) (touches_leaveDecoder _)) .port (by decide)
  have folded := part_foldl_updPart idem ref e.readers s
  rw [if_pos reader] at folded
  rw [← folded, State.part, State.request, same]
  rfl

theorem asm_readers : (e.readers.foldl (fun u ref => u.updPart ref f) s).asm = s.asm := touches_readers .asm (by decide)

theorem asm_waitersEnded_of_none (no_gather : e.gather = none) : (s.waitersEnded e f t).asm = s.asm := by
  rw [State.waitersEnded, no_gather]
  exact asm_readers

theorem asm_waitersEnded_of_some {k : SlotIx} (gather : e.gather = some k) : (s.waitersEnded e f t).asm =
    { s.asm with slots := s.asm.slots.set k { (s.slot k).gatherFrom t with state := .sealed } } := by
  rw [State.waitersEnded, gather]
  have slot : (e.readers.foldl (fun u ref => u.updPart ref f) s).slot k = s.slot k := by rw [State.slot, asm_readers]; rfl
  rw [← slot, ← asm_readers (s := s) (e := e) (f := f)]
  rfl

theorem lists_waitersEnded : (s.waitersEnded e f t).asm.openList = s.asm.openList ∧
    (s.waitersEnded e f t).asm.sealQueue = s.asm.sealQueue ∧ (s.waitersEnded e f t).asm.held = s.asm.held := by
  cases gather : e.gather with
  | none => rw [asm_waitersEnded_of_none gather]; exact ⟨rfl, rfl, rfl⟩
  | some k => rw [asm_waitersEnded_of_some gather]; exact ⟨rfl, rfl, rfl⟩

theorem slot_waitersEnded_gather {k : SlotIx} (gather : e.gather = some k) :
    (s.waitersEnded e f t).slot k = { (s.slot k).gatherFrom t with state := .sealed } :=
  (slot_of_slots_set (congrArg Assembly.slots (asm_waitersEnded_of_some gather)) k).trans (if_pos rfl)

theorem slot_waitersEnded_other {j : SlotIx} (other : e.gather ≠ some j) : (s.waitersEnded e f t).slot j = s.slot j := by
  cases gather : e.gather with
  | none => rw [State.slot, asm_waitersEnded_of_none gather]; rfl
  | some k =>
    refine (slot_of_slots_set (congrArg Assembly.slots (asm_waitersEnded_of_some gather)) j).trans (if_neg fun same => ?_)
    exact other (by rw [gather, same])

end

section
variable {s v : State} {d : Decode} {e : DecodeEntry} {q : List DecodeEntry} {f : Part → Part} {t : Tile}

/-- What the waiters' end leaves, whichever it is: `v` is the state with the cache or the fault set changed. -/
theorem waitersEnded_leaves (queue : s.rd.queue = e :: q) (touches : OnlyTouches [.rd, .st] s v)
    (left : v.rd = { s.rd with cache := v.rd.cache }) :
    (v.waitersEnded e f t).rd.decoder = none ∧ (v.waitersEnded e f t).rd.queue = q ∧
      (v.waitersEnded e f t).rd.pendingList = s.rd.pendingList ∧
      OnlyTouches [.rd, .st, .port, .asm] s (v.waitersEnded e f t) ∧
      (v.waitersEnded e f t).asm.openList = s.asm.openList ∧ (v.waitersEnded e f t).asm.sealQueue = s.asm.sealQueue ∧
      (v.waitersEnded e f t).asm.held = s.asm.held ∧ ∀ j, e.gather ≠ some j → (v.waitersEnded e f t).slot j = s.slot j := by
  have asm : v.asm = s.asm := touches .asm (by decide)
  obtain ⟨openList, sealQueue, held⟩ := lists_waitersEnded (s := v) (e := e) (f := f) (t := t)
  rw [asm] at openList sealQueue held
  rw [rd_waitersEnded, left, queue]
  refine ⟨rfl, rfl, rfl, touches.andThen touches_waitersEnded, openList, sealQueue, held, fun j other => ?_⟩
  rw [slot_waitersEnded_other other, State.slot, asm]
  rfl

/-- The gathering slot at the end of a decode: full, SEALED, and otherwise as it was (R70). -/
theorem waitersEnded_gathers {g : Nat → Colour} {k : SlotIx} (same : v.asm = s.asm)
    (content : ∀ i < 1024, pixelOf t i = g i) (gather : e.gather = some k) :
    let sl := (v.waitersEnded e f t).slot k
    sl.state = .sealed ∧ sl.isFull = true ∧ sl.tile = (s.slot k).tile ∧ sl.pred = (s.slot k).pred ∧
      sl.due = (s.slot k).due ∧ sl.mark = (s.slot k).mark ∧
      ∀ i < 1024, pixelOf sl.px i = if (s.slot k).present.getLsbD i = true then pixelOf (s.slot k).px i else g i := by
  have slot : v.slot k = s.slot k := by rw [State.slot, same]; rfl
  rw [slot_waitersEnded_gather gather, slot]
  refine ⟨rfl, gatherFrom_isFull (s.slot k) t, rfl, rfl, rfl, rfl, fun i inside => ?_⟩
  rw [← content i inside]
  exact gatherFrom_pixel (s.slot k) t inside

/-- The readers' parts at the end of a decode, and the window where all of them were under way. -/
theorem waitersEnded_parts (idem : Idempotent f) (same : v.port = s.port) :
    (∀ ref ∈ e.readers, ∀ p, s.part ref = some p → (v.waitersEnded e f t).part ref = some (f p)) ∧
      ((∀ r ∈ s.port.window, UnderWay r e.readers) →
        (v.waitersEnded e f t).port = { s.port with window := windowWith s.port.window e.readers f }) := by
  refine ⟨fun ref reader p isPart => ?_, fun way => ?_⟩
  · have isPart : v.part ref = some p := by rw [← isPart, State.part, State.request, same]; rfl
    rw [part_waitersEnded idem reader, isPart]
    rfl
  · rw [port_waitersEnded idem (by rw [same]; exact way), same]

theorem endDecode_of_good (busy : s.rd.decoder = some d) (queue : s.rd.queue = e :: q) (answered : d.unanswered = 0)
    (good : decodeStream (s.ap d.tile.ap).fmt d.tile d.entry d.bytes = some t) : s.endDecode = s.decodeSucceeds e t := by
  rw [State.endDecode, busy, queue]
  dsimp only
  rw [good]
  exact if_pos (decide_eq_true answered)

theorem endDecode_of_bad (busy : s.rd.decoder = some d) (queue : s.rd.queue = e :: q) (answered : d.unanswered = 0)
    (bad : decodeStream (s.ap d.tile.ap).fmt d.tile d.entry d.bytes = none) :
    s.endDecode = (s.raise .corrupt).decodeFails e := by
  rw [State.endDecode, busy, queue]
  dsimp only
  rw [bad]
  exact if_pos (decide_eq_true answered)

end

/-- Settles O40: the decode ends with its readers and its gathering slot served from the tile, or failed and filled with the fill
colour. -/
theorem decodeEndServesOrFailsTheWaiters : Obligations.DecodeEndServesOrFailsTheWaiters := by
  intro s d e q busy queue answered waiting gathers served refused
  have executed : exec .decodeEnd s = .next s.endDecode.finish := by
    rw [exec_decodeEnd busy]
    exact if_pos (decide_eq_true answered)
  refine ⟨s.endDecode, executed, ?_⟩
  cases result : decodeStream (s.ap d.tile.ap).fmt d.tile d.entry d.bytes with
  | some t =>
    rw [endDecode_of_good busy queue answered result, decodeSucceeds_eq]
    have inserted := touches_insertCache s e.tile t
    obtain ⟨c1, c2, c3, c4, c5, c6, c7, c8⟩ := waitersEnded_leaves (f := Part.served t) (t := t) queue inserted rfl
    obtain ⟨parts, window⟩ := waitersEnded_parts (s := s) (v := s.insertCache e.tile t) (e := e) (t := t)
      (idempotent_served t) rfl
    refine ⟨c1, c2, c3, c4, c5, c6, c7, c8, fun x isX => ?_, nofun⟩
    cases isX
    exact ⟨((marks_putCache s _).trans marks_waitersEnded).faults, congrArg ReadPath.cache rd_waitersEnded,
      fun k gather => waitersEnded_gathers (inserted .asm (by decide)) (fun _ _ => rfl) gather, parts, window⟩
  | none =>
    rw [endDecode_of_bad busy queue answered result, decodeFails_eq]
    have raised := touches_raise s .corrupt
    obtain ⟨c1, c2, c3, c4, c5, c6, c7, c8⟩ := waitersEnded_leaves (s := s) (v := s.raise .corrupt) (f := Part.refused)
      (t := flatTile ((s.raise .corrupt).ap e.tile.ap).fill) queue raised.mono rfl
    obtain ⟨parts, window⟩ := waitersEnded_parts (s := s) (v := s.raise .corrupt) (e := e)
      (t := flatTile ((s.raise .corrupt).ap e.tile.ap).fill) idempotent_refused rfl
    exact ⟨c1, c2, c3, c4, c5, c6, c7, c8, nofun, fun _ => ⟨marks_waitersEnded.faults,
      by rw [rd_waitersEnded]; rfl, fun k gather => waitersEnded_gathers (raised .asm (by decide))
        (fun i inside => pixelOf_flatTile _ inside) gather, parts, window⟩⟩

/-! ### The answer to a chunk read (R139, R149) -/

section
variable {s : State} {d : Decode} {e : DecodeEntry} {q : List DecodeEntry} {status : StoreStatus} {data : List Byte}

theorem receive_eq (d : Decode) (status : StoreStatus) (data : List Byte) : d.receive status data = { d with
    bytes := if status = .okay then d.bytes ++ data else d.bytes
    unanswered := d.unanswered - 1, failed := d.failed || decide (status = .error) } := by
  cases status with
  | okay => simp [Decode.receive]
  | error => simp [Decode.receive]

/-- The decode with the answer taken in. -/
def State.decodeAnswered (s : State) (d : Decode) (e : DecodeEntry) (status : StoreStatus) (data : List Byte) : State :=
  s.putDecode (d.receive status data) (decide (status = .error) && !e.discard)

theorem decodeAnswered_facts (s : State) (d : Decode) (e : DecodeEntry) (status : StoreStatus) (data : List Byte) :
    (s.decodeAnswered d e status data).rd = { s.rd with decoder := some (d.receive status data) } ∧
    (s.decodeAnswered d e status data).st.faults =
      (if status = .error ∧ e.discard = false then s.st.faults ||| 0x20 else s.st.faults) ∧
    OnlyTouches [.rd, .st] s (s.decodeAnswered d e status data) := by
  have raises : (decide (status = .error) && !e.discard) = true ↔ status = .error ∧ e.discard = false := by
    rw [Bool.and_eq_true, decide_eq_true_eq, Bool.not_eq_true']
  unfold State.decodeAnswered State.putDecode
  dsimp only
  split
  · next is =>
    rw [if_pos (raises.1 is)]
    exact ⟨rfl, rfl, (touches_setRd s _).andThen (touches_raise _ _)⟩
  · next isNot =>
    rw [if_neg (mt raises.2 isNot)]
    exact ⟨rfl, rfl, (touches_setRd s _).mono⟩

theorem chunkAnswered_eq (busy : s.rd.decoder = some d) (queue : s.rd.queue = e :: q) : s.chunkAnswered status data =
    if (d.receive status data).unanswered = 0 then
      if e.discard then (s.decodeAnswered d e status data).leaveDecoder
      else if (d.receive status data).failed then (s.decodeAnswered d e status data).decodeFails e
      else s.decodeAnswered d e status data
    else s.decodeAnswered d e status data := by
  rw [State.chunkAnswered, busy, queue]
  rfl

/-- With answers to come, or with the stream whole, the decode goes on. -/
theorem chunkAnswered_of_goes_on (busy : s.rd.decoder = some d) (queue : s.rd.queue = e :: q)
    (goesOn : 1 < d.unanswered ∨ (e.discard = false ∧ d.failed = false ∧ status = .okay)) :
    s.chunkAnswered status data = s.decodeAnswered d e status data := by
  rw [chunkAnswered_eq busy queue, receive_eq]
  rcases goesOn with more | ⟨kept, good, rfl⟩
  · exact if_neg (Nat.sub_ne_zero_of_lt more)
  · rw [kept, good]
    exact ite_self _

/-- The last answer of a decode marked for discard ends it (R149). -/
theorem chunkAnswered_of_discard (busy : s.rd.decoder = some d) (queue : s.rd.queue = e :: q) (last : d.unanswered = 1)
    (discard : e.discard = true) : s.chunkAnswered status data = (s.decodeAnswered d e status data).leaveDecoder := by
  rw [chunkAnswered_eq busy queue, receive_eq, last, discard]
  rfl

/-- The last answer of a failed decode fails its waiters (R139). -/
theorem chunkAnswered_of_failed (busy : s.rd.decoder = some d) (queue : s.rd.queue = e :: q) (last : d.unanswered = 1)
    (kept : e.discard = false) (failed : d.failed = true ∨ status = .error) :
    s.chunkAnswered status data = (s.decodeAnswered d e status data).decodeFails e := by
  have bad : (d.failed || decide (status = .error)) = true := by rwa [Bool.or_eq_true, decide_eq_true_eq]
  rw [chunkAnswered_eq busy queue, receive_eq, last, kept, bad]
  rfl

/-- Whatever the answer does to the decode, it raises STORE or nothing, and leaves the cache. -/
theorem chunkAnswered_faults (busy : s.rd.decoder = some d) (queue : s.rd.queue = e :: q) :
    (s.chunkAnswered status data).st.faults =
      (if status = .error ∧ e.discard = false then s.st.faults ||| 0x20 else s.st.faults) ∧
    (s.chunkAnswered status data).rd.cache = s.rd.cache := by
  obtain ⟨rd, faults, -⟩ := decodeAnswered_facts s d e status data
  rw [chunkAnswered_eq busy queue, ← faults]
  have cache : (s.decodeAnswered d e status data).rd.cache = s.rd.cache := by rw [rd]
  split
  · split
    · exact ⟨(marks_leaveDecoder _).faults, cache⟩
    · split
      · refine ⟨(marks_decodeFails _ e).faults, ?_⟩
        rw [decodeFails_eq, rd_waitersEnded]
        exact cache
      · exact ⟨rfl, cache⟩
  · exact ⟨rfl, cache⟩

end

/-- Settles O39: the answer to a chunk read, and the start of a decode. -/
theorem chunkReadAnswerFeedsTheDecode : Obligations.ChunkReadAnswerFeedsTheDecode := by
  refine ⟨fun s status data addr rest d e q ignore whole head busy queue more => ?answer,
    fun s => ⟨fun idle => (startDecode_none_iff s).2 (idle.imp_left Option.isSome_iff_ne_none.2),
      fun e rest idle queue => ⟨_, startDecode_eq idle queue, rfl, rfl, ?starts⟩⟩⟩
  case starts => exact (touches_setRd s _).andThen (touches_setStore _ _)
  case answer =>
    have illFormed : ¬(status = .okay ∧ data.length ≠ Config.block) := fun ⟨okay, short⟩ => short (whole okay)
    let t := s.popOutstanding
    have busy : t.rd.decoder = some d := busy
    have queue : t.rd.queue = e :: q := queue
    obtain ⟨faults, cache⟩ := chunkAnswered_faults (status := status) (data := data) busy queue
    obtain ⟨rd, -, touches⟩ := decodeAnswered_facts t d e status data
    have answered := touches_chunkAnswered t status data
    have store : (t.chunkAnswered status data).store = t.store := answered .store (by decide)
    have port : (t.decodeAnswered d e status data).port = s.port := touches .port (by decide)
    have asm : (t.decodeAnswered d e status data).asm = s.asm := touches .asm (by decide)
    refine ⟨t.chunkAnswered status data, exec_chunkReadAnswer ignore illFormed head,
      store.trans (store_popOutstanding head), faults, cache, (touches_popOutstanding s).andThen answered,
      fun goesOn => ?_, fun last discard => ?_, fun last kept failed => ⟨?_, ?_, fun k gather => ?_, fun ref reader p => ?_⟩⟩
    · rw [chunkAnswered_of_goes_on busy queue goesOn, rd, receive_eq]
      exact ⟨rfl, rfl, port, asm⟩
    · rw [chunkAnswered_of_discard busy queue last discard]
      refine ⟨rfl, ?_, port, asm⟩
      show (t.decodeAnswered d e status data).rd.queue.tail = q
      rw [rd]
      exact congrArg List.tail queue
    all_goals rw [chunkAnswered_of_failed busy queue last kept failed, decodeFails_eq]
    · rw [rd_waitersEnded]
    · rw [rd_waitersEnded, rd]
      exact congrArg List.tail queue
    · have slot : (t.decodeAnswered d e status data).slot k = s.slot k := by rw [State.slot, asm]; rfl
      have fill : (t.decodeAnswered d e status data).ap e.tile.ap = s.ap e.tile.ap :=
        ap_eq_of_aps_eq (touches .aps (by decide)) _
      rw [slot_waitersEnded_gather gather, slot, fill]
      refine ⟨rfl, fun i inside => ?_⟩
      refine (gatherFrom_pixel (s.slot k) _ inside).trans ?_
      rw [pixelOf_flatTile _ inside]
      rfl
    · intro isPart
      rw [part_waitersEnded idempotent_refused reader] at isPart
      obtain ⟨x, -, rfl⟩ := Option.map_eq_some_iff.1 isPart
      rfl

end Sys2Proof.Machine
end

section
/-! PROOFS. The encoder's take (R72, R103, R115), the slew (R100), the fit rule (R105, R106), and what the pool's operations do
(R43, R46, R48, R53). -/

set_option Elab.async false

namespace Sys2Proof.Machine

/-! ### The slew (R100) -/

/-- Settles O52: the five branches of the slew. -/
theorem slewMovesTheAppliedStepByOne : Obligations.SlewMovesTheAppliedStepByOne := by
  intro c
  refine ⟨fun rises waits => ?_, fun rises moves => ?_, fun falls waits => ?_, fun falls moves => ?_, fun level => ?_⟩
  · rw [StepControl.slew, if_pos rises, if_pos waits]
  · rw [StepControl.slew, if_pos rises, if_neg (Nat.not_lt.2 moves)]
  · rw [StepControl.slew, if_neg (Nat.not_lt.2 (Nat.le_of_lt falls)), if_pos falls, if_pos waits]
  · rw [StepControl.slew, if_neg (Nat.not_lt.2 (Nat.le_of_lt falls)), if_pos falls, if_neg (Nat.not_lt.2 moves)]
  · rw [StepControl.slew, if_neg (Nat.not_lt.2 (Nat.le_of_eq level)), if_neg (Nat.not_lt.2 (Nat.le_of_eq level.symm))]

/-! ### The fit rule (R105) -/

theorem kmax_eq (fmt : Format) : fmt.kmax = if fmt = .rgb8 then 7 else 15 := by
  cases fmt <;> rfl

theorem missesFit_iff (fmt : Format) (budget s0 : Nat) (count : Nat → Nat) (i : Nat) : missesFit fmt budget s0 count i = true ↔
    budget < count (stepOfRefit fmt s0 i) ∧ stepOfRefit fmt s0 i < if fmt = .rgb8 then 7 else 15 := by
  rw [missesFit, Bool.and_eq_true, decide_eq_true_eq, decide_eq_true_eq, kmax_eq]

/-- The refits run on while the fit is missed and the allowance lasts. -/
theorem lastRefit_spec (fmt : Format) (budget s0 : Nat) (count : Nat → Nat) (left : Nat) : ∀ done : Nat,
    done ≤ lastRefit fmt budget s0 count left done ∧ lastRefit fmt budget s0 count left done ≤ done + left ∧
      (∀ i < lastRefit fmt budget s0 count left done, done ≤ i → missesFit fmt budget s0 count i = true) ∧
      (lastRefit fmt budget s0 count left done = done + left ∨
        missesFit fmt budget s0 count (lastRefit fmt budget s0 count left done) = false) := by
  induction left with
  | zero => exact fun done => ⟨Nat.le_refl _, Nat.le_refl _, fun i lt le => absurd lt (Nat.not_lt.2 le), .inl rfl⟩
  | succ left ih =>
    intro done
    rw [lastRefit]
    by_cases misses : missesFit fmt budget s0 count done = true
    · obtain ⟨lower, upper, missed, ends⟩ := ih (done + 1)
      rw [if_pos misses]
      refine ⟨by omega, by omega, fun i lt le => ?_, ends.imp_left fun all => by omega⟩
      rcases Nat.eq_or_lt_of_le le with rfl | later
      · exact misses
      · exact missed i lt later
    · rw [if_neg misses]
      exact ⟨Nat.le_refl _, Nat.le_add_right _ _, fun i lt le => absurd lt (Nat.not_lt.2 le),
        .inr (Bool.eq_false_iff.2 misses)⟩

/-- Settles O47: the specification of the refit sequence, from the first code and from any refit on. -/
theorem fitRuleStopsAtTheFirstFit : Obligations.FitRuleStopsAtTheFirstFit := by
  intro fmt budget s0 count allowance n kmax
  have ends {m : Nat} (stops : missesFit fmt budget s0 count m = false) :
      count (stepOfRefit fmt s0 m) ≤ budget ∨ kmax ≤ stepOfRefit fmt s0 m := by
    have fits := mt (missesFit_iff fmt budget s0 count m).2 (Bool.eq_false_iff.1 stops)
    rw [not_and_or, Nat.not_lt, Nat.not_lt] at fits
    exact fits
  have fromRefit (done : Nat) := lastRefit_spec fmt budget s0 count allowance done
  refine ⟨?_, if_pos rfl, fun i positive => ?_, fun i lt => ?_, ?_, fun done => ?_⟩
  · have := (fromRefit 0).2.1
    rwa [Nat.zero_add] at this
  · rw [stepOfRefit, if_neg (Nat.ne_of_gt positive), kmax_eq]
  · exact (missesFit_iff fmt budget s0 count i).1 ((fromRefit 0).2.2.1 i lt (Nat.zero_le i))
  · obtain ⟨-, -, -, all | stops⟩ := fromRefit 0
    · exact .inl (all.trans (Nat.zero_add _))
    · exact .inr (ends stops)
  · obtain ⟨lower, upper, missed, last⟩ := fromRefit done
    exact ⟨lower, upper, fun i lt le => (missesFit_iff fmt budget s0 count i).1 (missed i lt le), last.imp_right ends⟩

/-! ### Uniform tiles -/

/-! ### The take (R72, R115) -/

theorem protects_iff (x : Aperture) (ix : Nat) : x.protects ix = true ↔ ∃ q ∈ x.rects, q.x0 ≤ ix % x.width ∧
    ix % x.width ≤ q.x1 ∧ q.y0 ≤ ix / x.width ∧ ix / x.width ≤ q.y1 := by
  rw [Aperture.protects, List.any_eq_true]
  refine exists_congr fun q => and_congr_right fun _ => ?_
  rw [Bool.and_eq_true, Bool.and_eq_true, Bool.and_eq_true, decide_eq_true_eq, decide_eq_true_eq, decide_eq_true_eq,
    decide_eq_true_eq, and_assoc, and_assoc]
  rfl

theorem takeSealed_of_sealed {s : State} {k : SlotIx} {rest : List SlotIx} {t : TileRef} (idle : s.enc.op = none)
    (queue : s.asm.sealQueue = k :: rest) (isSealed : (s.slot k).state = .sealed) (tile : (s.slot k).tile = some t) :
    s.takeSealed =
      some (((s.putSealQueue rest).putSlot k { s.slot k with state := .encoding }).putOp (s.takenOp k t)) := by
  rw [State.takeSealed, idle, queue]
  dsimp only
  rw [isSealed, tile]

/-- Settles O53: the take waits for an IDLE encoder and a SEALED head, and fixes the tile's step and allowance. -/
theorem takeFixesStepAndAllowance : Obligations.TakeFixesStepAndAllowance := by
  refine ⟨fun s => ⟨fun busy => ?_, fun empty => ?_, fun k rest queue notSealed => ?_⟩,
    fun s k rest t idle queue isSealed tile => ?_⟩
  · exact (takeSealed_none_iff s).2 (.inl (Option.isSome_iff_ne_none.2 busy))
  · exact (takeSealed_none_iff s).2 (.inr fun k head => by rw [empty] at head; cases head)
  · refine (takeSealed_none_iff s).2 (.inr fun j head => .inl ?_)
    rw [queue] at head
    cases head
    exact notSealed
  · intro x inRect
    have isProtected : x.protects t.ix = true ↔ inRect := protects_iff x t.ix
    refine ⟨_, s.takenOp k t, takeSealed_of_sealed idle queue isSealed tile, rfl, rfl, slot_putSlot_same _ k _,
      fun j other => slot_putSlot_other _ k j _ other, rfl, rfl, rfl, rfl, rfl, rfl, isProtected, fun is => ?_, fun isNot => ?_, ?_⟩
    · have prot := isProtected.2 is
      exact ⟨if_pos prot, if_pos prot⟩
    · have prot : ¬x.protects t.ix = true := mt isProtected.1 isNot
      refine ⟨if_neg prot, (if_neg prot).trans ?_⟩
      show (match x.mode with | .fixed => x.floorStep | .curve => max x.floorStep s.ctl.applied) = _
      cases x.mode <;> rfl
    · exact ((touches_putSealQueue s rest).andThen (C := [.asm, .enc, .st]) (touches_putSlot _ k _)).andThen
        (touches_putEnc _ _)

end Sys2Proof.Machine
end

section
/-! PROOFS. What the pool's operations do to its figures (R43, R46, R48, R53), and the freeing of the encoder's slot with its
successor (R67, R73). -/

set_option Elab.async false

namespace Sys2Proof.Machine

/-! ### The pool and its figures -/

section
variable (s : State) (p : Pool)

theorem pool_putPool : (s.putPool p).pool = p := rfl

theorem ctl_putPool : (s.putPool p).ctl =
    { s.ctl with band := (s.putPool p).ctl.band, demanded := (s.putPool p).ctl.demanded } := rfl

theorem faults_putPool : (s.putPool p).st.faults = withPoolShort s.st.faults p.isShort := rfl

theorem getLsbD_withPoolShort (faults : Byte) (short : Bool) (i : Fin 8) (other : i.val ≠ 3) :
    (withPoolShort faults short).getLsbD i = faults.getLsbD i := by
  have off : FaultKind.poolShort.mask.getLsbD i = false := by
    revert i
    decide
  unfold withPoolShort
  split
  · rw [BitVec.getLsbD_or, off, Bool.or_false]
  · rw [BitVec.getLsbD_and, BitVec.getLsbD_not, off]
    simp

variable {s p}

/-- A change of the pool that leaves its counts leaves the figures that agree with them. -/
theorem putPool_of_same (agree : s.FiguresAgree) (count : p.count = s.pool.count) (free : p.free = s.pool.free)
    (low : p.low = s.pool.low) : (s.putPool p).ctl = s.ctl ∧ (s.putPool p).st =
      { s.st with stale := s.st.stale || decide (p.withdrawn.length ≠ s.pool.withdrawn.length) } := by
  have short : p.isShort = s.pool.isShort := by rw [Pool.isShort, free, low]; rfl
  have faults : withPoolShort s.st.faults p.isShort = s.st.faults := by rw [short]; exact withPoolShort_of_agree agree
  obtain ⟨bandOk, demandedOk, -, attnOk⟩ := agree
  have band : bandOf p.count p.free.length = s.ctl.band := by
    rw [count, free]
    exact Fin.ext bandOk.symm
  have demanded : s.ctl.curve.get (bandOf p.count p.free.length) = s.ctl.demanded := by rw [band, demandedOk]
  have ctl : (s.putPool p).ctl = { s.ctl with
      band := bandOf p.count p.free.length, demanded := s.ctl.curve.get (bandOf p.count p.free.length) } := rfl
  have st : (s.putPool p).st = { s.st with
      faults := withPoolShort s.st.faults p.isShort, attn := attnOf (withPoolShort s.st.faults p.isShort) s.st.mask
      stale := ((s.st.stale || (decide (p.count ≠ s.pool.count) || decide (p.free.length ≠ s.pool.free.length) ||
          decide (p.withdrawn.length ≠ s.pool.withdrawn.length) || decide (p.low ≠ s.pool.low))) ||
        (decide (bandOf p.count p.free.length ≠ s.ctl.band) ||
          decide (s.ctl.curve.get (bandOf p.count p.free.length) ≠ s.ctl.demanded))) ||
        decide (withPoolShort s.st.faults p.isShort ≠ s.st.faults) } := rfl
  have attn : attnOf s.st.faults s.st.mask = s.st.attn := Bool.eq_iff_iff.2 ((attnOf_iff _ _).trans attnOk.symm)
  refine ⟨?_, ?_⟩
  · rw [ctl, demanded, band]
  · rw [st, faults, demanded, band, attn, count, free, low]
    simp

end

theorem getLsbD_raise (faults : Byte) (k : FaultKind) (i : Nat) :
    (faults ||| k.mask).getLsbD i = (faults.getLsbD i || k.mask.getLsbD i) := BitVec.getLsbD_or

theorem release_nil (s : State) : s.release [] = s := rfl

/-- A release moves POOL_SHORT alone of the faults (R50). -/
theorem faults_release (s : State) (chunks : List Nat) (i : Fin 8) (other : i.val ≠ 3) :
    (s.release chunks).st.faults.getLsbD i = s.st.faults.getLsbD i := by
  unfold State.release
  split
  · rfl
  · exact getLsbD_withPoolShort _ _ i other

/-! ### The freeing of a slot (R67, R73) -/

/-- The successor of a freed slot without its link (R67). -/
def State.unlinked (s : State) (k j : SlotIx) : State :=
  (s.putSlot k (s.slot k).freed).putSlot j { s.slot j with pred := none }

section
variable {s : State} {k j : SlotIx}

theorem slot_freed_self : (s.putSlot k (s.slot k).freed).slot k = (s.slot k).freed := slot_putSlot_same s k _

theorem slot_freed_other (other : j ≠ k) : (s.putSlot k (s.slot k).freed).slot j = s.slot j := slot_putSlot_other s k j _ other

theorem pred_freed_iff : decide (((s.putSlot k (s.slot k).freed).slot j).pred = some k) = true ↔
    j ≠ k ∧ (s.slot j).pred = some k := by
  rw [decide_eq_true_eq]
  by_cases other : j = k
  · rw [other, slot_freed_self]
    exact iff_of_false nofun fun is => is.1 rfl
  · rw [slot_freed_other other]
    exact (and_iff_right other).symm

/-- The successor of the freed slot (R67). -/
theorem successor_none_iff : ((s.putSlot k (s.slot k).freed).firstSlot fun sl => decide (sl.pred = some k)) = none ↔
    ∀ j, ¬(j ≠ k ∧ (s.slot j).pred = some k) :=
  firstSlot_none_iff_of _ (p := fun sl => decide (sl.pred = some k)) (P := fun j => j ≠ k ∧ (s.slot j).pred = some k)
    fun _ => pred_freed_iff

theorem successor_some_iff : ((s.putSlot k (s.slot k).freed).firstSlot fun sl => decide (sl.pred = some k)) = some j ↔
    (j ≠ k ∧ (s.slot j).pred = some k) ∧ ∀ i < j, ¬(i ≠ k ∧ (s.slot i).pred = some k) :=
  firstSlot_some_iff_of _ (p := fun sl => decide (sl.pred = some k)) (P := fun j => j ≠ k ∧ (s.slot j).pred = some k)
    (fun _ => pred_freed_iff) j

/-- A slot without a successor is freed alone. -/
theorem freeEncoding_of_alone (alone : ∀ j, j ≠ k → (s.slot j).pred ≠ some k) :
    s.freeEncoding k = s.putSlot k (s.slot k).freed := by
  have none_first := successor_none_iff.2 fun j is => alone j is.1 is.2
  rw [State.freeEncoding, State.unlinkSuccessor, none_first]

theorem unlinkSuccessor_of_some {u : State} (first : u.firstSlot (fun sl => decide (sl.pred = some k)) = some j) :
    u.unlinkSuccessor k = if (u.slot j).due then (u.putSlot j { u.slot j with pred := none }).sealNow j
      else u.putSlot j { u.slot j with pred := none } := by
  rw [State.unlinkSuccessor, first]

/-- A successor loses its link, and its seal is made if it is due. -/
theorem freeEncoding_of_successor (other : j ≠ k) (pred : (s.slot j).pred = some k)
    (only : ∀ i, i ≠ k → (s.slot i).pred = some k → i = j) :
    s.freeEncoding k = if (s.slot j).due then (s.unlinked k j).sealNow j else s.unlinked k j := by
  have first := successor_some_iff.2
    ⟨⟨other, pred⟩, fun i before is => Nat.ne_of_lt before (congrArg Fin.val (only i is.1 is.2))⟩
  rw [State.freeEncoding, unlinkSuccessor_of_some first, slot_freed_other other]
  rfl

/-- What a freeing comes to: with a successor or without. -/
theorem freeEncoding_cases (s : State) (k : SlotIx) :
    (s.freeEncoding k = s.putSlot k (s.slot k).freed ∧ ∀ j, j ≠ k → (s.slot j).pred ≠ some k) ∨
    ∃ j, j ≠ k ∧ (s.slot j).pred = some k ∧
      s.freeEncoding k = if (s.slot j).due then (s.unlinked k j).sealNow j else s.unlinked k j := by
  cases first : (s.putSlot k (s.slot k).freed).firstSlot fun sl => decide (sl.pred = some k) with
  | none =>
    have alone : ∀ j, j ≠ k → (s.slot j).pred ≠ some k := fun j other pred => successor_none_iff.1 first j ⟨other, pred⟩
    exact .inl ⟨freeEncoding_of_alone alone, alone⟩
  | some j =>
    obtain ⟨⟨other, pred⟩, -⟩ := successor_some_iff.1 first
    refine .inr ⟨j, other, pred, ?_⟩
    rw [State.freeEncoding, unlinkSuccessor_of_some first, slot_freed_other other]
    rfl

theorem slot_unlinked_self (other : j ≠ k) : (s.unlinked k j).slot k = (s.slot k).freed := by
  rw [State.unlinked, slot_putSlot_other _ j k _ other.symm, slot_freed_self]

theorem slot_unlinked_successor : (s.unlinked k j).slot j = { s.slot j with pred := none } := slot_putSlot_same _ j _

theorem slot_unlinked_other {i : SlotIx} (notSelf : i ≠ k) (notSuccessor : i ≠ j) : (s.unlinked k j).slot i = s.slot i := by
  rw [State.unlinked, slot_putSlot_other _ j i _ notSuccessor, slot_freed_other notSelf]

/-- The encoder's slot is FREE and blank afterwards, its pixel store left (R73). -/
theorem slot_freeEncoding_self (s : State) (k : SlotIx) :
    (s.freeEncoding k).slot k = ⟨.free, none, (s.slot k).px, 0, none, false, false⟩ := by
  rcases freeEncoding_cases s k with ⟨alone, -⟩ | ⟨j, other, -, successor⟩
  · rw [alone]
    exact slot_freed_self
  · rw [successor]
    split
    · obtain ⟨-, -, -, -, -, others⟩ := sealNow_lists (s.unlinked k j) j
      rw [others k other.symm]
      exact slot_unlinked_self other
    · exact slot_unlinked_self other

theorem slot_freeEncoding_of_apart {i : SlotIx} (notSelf : i ≠ k) (apart : (s.slot i).pred ≠ some k) :
    (s.freeEncoding k).slot i = s.slot i := by
  rcases freeEncoding_cases s k with ⟨alone, -⟩ | ⟨j, other, pred, successor⟩
  · rw [alone]
    exact slot_freed_other notSelf
  · have notSuccessor : i ≠ j := fun same => apart (same ▸ pred)
    rw [successor]
    split
    · obtain ⟨-, -, -, -, -, others⟩ := sealNow_lists (s.unlinked k j) j
      rw [others i notSuccessor]
      exact slot_unlinked_other notSelf notSuccessor
    · exact slot_unlinked_other notSelf notSuccessor

theorem held_freeEncoding (s : State) (k : SlotIx) : (s.freeEncoding k).asm.held = s.asm.held := by
  rcases freeEncoding_cases s k with ⟨alone, -⟩ | ⟨j, -, -, successor⟩
  · rw [alone]
    rfl
  · rw [successor]
    split
    · exact (sealNow_lists (s.unlinked k j) j).2.2.1
    · rfl

end

end Sys2Proof.Machine
end

section
/-! PROOFS. Grants, abandonments and releases (R43–R46, R118, R120, R127), the start of a round of chunk writes (R122), and the
visits of the retire walk (R35). -/

set_option Elab.async false

namespace Sys2Proof.Machine

/-! ### A round of chunk writes (R122) -/

theorem chunkWrites_mapFrom (s : State) (stream : List Byte) (chunks : List Nat) :
    s.chunkWrites stream (mapFrom (fun j c => (j, c)) 0 chunks) =
      chunks.mapIdx fun j c => .chunkWrite j c (s.pool.base + 256 * c) (chunkData stream j) := by
  rw [State.chunkWrites, mapFrom_zero]
  refine List.ext_getElem? fun i => ?_
  rw [List.getElem?_map, List.getElem?_mapIdx, List.getElem?_mapIdx, Option.map_map]
  rfl

section
variable (s : State) (op : TileOp) (chunks : List Nat)

/-- The record in the first round. -/
def TileOp.firstRound (op : TileOp) (chunks : List Nat) : TileOp :=
  { op with stage := .writing, recode := false, round := 1, held := chunks.map some, unanswered := chunks.length }

theorem enc_startWriting : (s.startWriting op chunks).enc = ⟨some (op.firstRound chunks), none⟩ := by
  rw [TileOp.firstRound, ← mapFrom_length (fun j c => (j, c)) 0 chunks]
  rfl

theorem store_startWriting : (s.startWriting op chunks).store = { s.store with
    encoder := s.store.encoder ++ chunks.mapIdx fun j c =>
      .chunkWrite j c (s.pool.base + 256 * c) (chunkData ((op.result.map Result.stream).getD []) j) } := by
  rw [← chunkWrites_mapFrom]
  rfl

theorem pool_startWriting : (s.startWriting op chunks).pool = s.pool := rfl

theorem ctl_startWriting : (s.startWriting op chunks).ctl = s.ctl := rfl

end

/-- The chunks of a grant (R43). -/
theorem length_take_free {s : State} {n : Nat} (enough : n ≤ s.pool.free.length) : (s.pool.free.take n).length = n :=
  List.length_take_of_le enough

/-! ### The abandonment (R127) -/

section
variable (s : State) (op : TileOp)

/-- The state of an abandonment before the slot is freed. -/
def State.beforeAbandon : State := (s.release op.heldChunks).putEnc Encoder.reset

theorem abandon_eq : s.abandon op = (s.beforeAbandon op).freeEncoding op.slot := rfl

theorem touches_beforeAbandon : OnlyTouches [.pool, .ctl, .enc, .st] s (s.beforeAbandon op) :=
  (touches_release s _).andThen (touches_putEnc _ _)

theorem asm_beforeAbandon : (s.beforeAbandon op).asm = s.asm := touches_beforeAbandon s op .asm (by decide)

theorem rd_beforeAbandon : (s.beforeAbandon op).rd = s.rd := touches_beforeAbandon s op .rd (by decide)

theorem slot_beforeAbandon (k : SlotIx) : (s.beforeAbandon op).slot k = s.slot k := by
  rw [State.slot, asm_beforeAbandon]
  rfl

theorem pool_abandon : (s.abandon op).pool = { s.pool with free := s.pool.free ++ op.heldChunks } :=
  Eq.trans (touches_freeEncoding (s.beforeAbandon op) op.slot .pool (by decide)) (release_pool s _)

theorem enc_abandon : (s.abandon op).enc = ⟨none, none⟩ :=
  touches_freeEncoding (s.beforeAbandon op) op.slot .enc (by decide)

theorem slot_abandon : (s.abandon op).slot op.slot = ⟨.free, none, (s.slot op.slot).px, 0, none, false, false⟩ := by
  rw [abandon_eq, slot_freeEncoding_self, slot_beforeAbandon]

theorem map_abandon : (s.abandon op).map = s.map := touches_abandon s op .map (by decide)

theorem aps_abandon : (s.abandon op).aps = s.aps := touches_abandon s op .aps (by decide)

theorem ctl_abandon : (s.abandon op).ctl =
    { s.ctl with band := (s.release op.heldChunks).ctl.band, demanded := (s.release op.heldChunks).ctl.demanded } :=
  Eq.trans (touches_freeEncoding (s.beforeAbandon op) op.slot .ctl (by decide)) (release_ctl s _)

theorem faults_abandon (i : Fin 8) (other : i.val ≠ 3) :
    (s.abandon op).st.faults.getLsbD i = s.st.faults.getLsbD i := by
  rw [abandon_eq, (marks_freeEncoding _ _).faults]
  exact faults_release s _ i other

variable {s op}

/-- The slot of the tile in hand is the predecessor of none. -/
def State.NoSuccessor (s : State) (k : SlotIx) : Prop := ∀ j, j ≠ k → (s.slot j).pred ≠ some k

theorem abandon_of_alone (alone : s.NoSuccessor op.slot) :
    s.abandon op = (s.beforeAbandon op).putSlot op.slot ((s.beforeAbandon op).slot op.slot).freed :=
  freeEncoding_of_alone (s := s.beforeAbandon op) fun j other => by rw [slot_beforeAbandon]; exact alone j other

theorem abandon_of_successor {k : SlotIx} (other : k ≠ op.slot) (pred : (s.slot k).pred = some op.slot)
    (only : ∀ j, j ≠ op.slot → (s.slot j).pred = some op.slot → j = k) : s.abandon op =
      if (s.slot k).due then ((s.beforeAbandon op).unlinked op.slot k).sealNow k else (s.beforeAbandon op).unlinked op.slot k := by
  have same := slot_beforeAbandon s op
  rw [abandon_eq, freeEncoding_of_successor other (by rw [same]; exact pred) (fun j apart is => only j apart (by rwa [same] at is)),
    same]

theorem slot_abandon_of_apart {j : SlotIx} (other : j ≠ op.slot) (apart : (s.slot j).pred ≠ some op.slot) :
    (s.abandon op).slot j = s.slot j := by
  rw [abandon_eq, slot_freeEncoding_of_apart other (by rw [slot_beforeAbandon]; exact apart), slot_beforeAbandon]

end

section
variable {s : State} {k j : SlotIx}

theorem rd_unlinked : (s.unlinked k j).rd = s.rd := rfl

theorem lists_unlinked : (s.unlinked k j).asm.openList = s.asm.openList ∧ (s.unlinked k j).asm.sealQueue = s.asm.sealQueue :=
  ⟨rfl, rfl⟩

/-- The seal of an unlinked successor (R67). -/
theorem sealNow_unlinked : (((s.unlinked k j).sealNow j).slot j).pred = none ∧ (((s.unlinked k j).sealNow j).slot j).due = false ∧
    ((s.unlinked k j).sealNow j).asm.openList = s.asm.openList.erase j ∧
    ((s.unlinked k j).sealNow j).asm.sealQueue = s.asm.sealQueue ++ [j] := by
  obtain ⟨openList, sealQueue, -, pred, due, -⟩ := sealNow_lists (s.unlinked k j) j
  exact ⟨by rw [pred, slot_unlinked_successor], due, openList, sealQueue⟩

end

/-! ### The waiting request (R44, R118, R120) -/

theorem canGrant_iff (s : State) (n : Nat) : s.canGrant n = true ↔ n ≤ s.pool.free.length := decide_eq_true_iff

theorem isRetiring_iff (s : State) (op : TileOp) : s.isRetiring op = true ↔ (s.ap op.tile.ap).state = .retiring :=
  decide_eq_true_iff

section
variable {s : State} {n : Nat} {op : TileOp}

/-- The record with the granted chunks on its held list. -/
def TileOp.grantedOf (op : TileOp) (chunks : List Nat) : TileOp := { op with held := chunks.map some }

theorem heldChunks_grantedOf (chunks : List Nat) : (op.grantedOf chunks).heldChunks = chunks := by
  rw [TileOp.grantedOf, TileOp.heldChunks, List.filterMap_map]
  exact List.filterMap_some

theorem grantWaiting_of_enough (waiting : s.pool.waiting = some n) (inHand : s.enc.op = some op) (enough : n ≤ s.pool.free.length) :
    s.grantWaiting = some (if (s.ap op.tile.ap).state = .retiring then
      ((s.takeChunks n).putOp (op.grantedOf (s.pool.free.take n))).abandon (op.grantedOf (s.pool.free.take n))
    else ((s.takeChunks n).putOp (op.grantedOf (s.pool.free.take n))).startWriting (op.grantedOf (s.pool.free.take n))
      (s.pool.free.take n)) := by
  rw [State.grantWaiting, waiting, inHand]
  dsimp only
  rw [if_pos ((canGrant_iff s n).2 enough)]
  exact congrArg some (if_congr (isRetiring_iff _ _) rfl rfl)

end

/-- Settles O54: the retry of the waiting request, the abandonment, and the release. -/
theorem releaseGrantsTheWaitingRequest : Obligations.ReleaseGrantsTheWaitingRequest := by
  refine ⟨fun s n op waiting inHand => ⟨fun few => ?few, fun enough live => ?grant, fun enough retiring => ?retire⟩,
    fun s op => ?abandon, fun s chunks => ?release⟩
  case few =>
    refine (grantWaiting_none_iff s).2 fun m isM _ => ?_
    rw [waiting] at isM
    cases isM
    exact few
  case grant =>
    refine ⟨_, (grantWaiting_of_enough waiting inHand enough).trans (congrArg some (if_neg live)), rfl,
      ⟨_, enc_startWriting _ _ _, rfl, rfl, length_take_free enough, rfl, rfl, rfl, rfl⟩, fun r isResult => ?_, ?_⟩
    · rw [store_startWriting]
      have stream : ((op.result.map Result.stream).getD []) = r.stream := by rw [isResult]; rfl
      rw [← stream]
      rfl
    · exact ((touches_takeChunks s n).andThen (C := [.pool, .ctl, .enc, .store, .st]) (touches_putOp _ _)).andThen
        (touches_startWriting _ _ _)
  case retire =>
    refine ⟨_, (grantWaiting_of_enough waiting inHand enough).trans (congrArg some (if_pos retiring)), ?_, enc_abandon _ _,
      map_abandon _ _⟩
    rw [pool_abandon, heldChunks_grantedOf]
    rfl
  case abandon =>
    have openList : (s.beforeAbandon op).asm.openList = s.asm.openList := by rw [asm_beforeAbandon]
    have sealQueue : (s.beforeAbandon op).asm.sealQueue = s.asm.sealQueue := by rw [asm_beforeAbandon]
    refine ⟨pool_abandon s op, rfl, enc_abandon s op, slot_abandon s op, ?_, fun j other apart => slot_abandon_of_apart other apart,
      fun alone => ?_, fun k other pred only => ?_, ?_, ?_, ?_, ?_, faults_abandon s op 4 (by decide), touches_abandon s op⟩
    · rw [abandon_eq, held_freeEncoding, asm_beforeAbandon]
    · rw [abandon_of_alone alone]
      exact ⟨openList, sealQueue, rd_beforeAbandon s op⟩
    · obtain ⟨unlinked, notDue, leaves, joins⟩ := sealNow_unlinked (s := s.beforeAbandon op) (k := op.slot) (j := k)
      have slot : ((s.beforeAbandon op).unlinked op.slot k).slot k = { s.slot k with pred := none } := by
        rw [slot_unlinked_successor, slot_beforeAbandon]
      rw [abandon_of_successor other pred only]
      cases due : (s.slot k).due with
      | true => exact ⟨unlinked, nofun, fun _ => ⟨notDue, leaves.trans (by rw [openList]), joins.trans (by rw [sealQueue])⟩⟩
      | false => exact ⟨congrArg Slot.pred slot, fun _ => ⟨slot, openList, sealQueue, rd_beforeAbandon s op⟩, nofun⟩
    all_goals rw [ctl_abandon]
  case release =>
    exact ⟨release_pool s chunks, release_ctl s chunks, figures_release s chunks, faults_release s chunks,
      touches_release s chunks⟩

end Sys2Proof.Machine
end

section
/-! PROOFS. The commit (R28–R32, R73, R100, R126): the tile map, the pool, the cache, the freed slot and its successor. -/

set_option Elab.async false

namespace Sys2Proof.Machine

/-- The pixels that a result gives the map. -/
def Result.base : Result → Tile
  | .uniform colour _ => flatTile colour
  | .coded _ _ _ recon => recon
  | .plain _ _ recon => recon

/-- The cache after the commit of a result (R31). -/
def committedCache (cache : List CacheEntry) (t : TileRef) : Result → List CacheEntry
  | .uniform _ _ => dropTile cache t
  | .coded _ _ _ recon => evictLru (dropTile cache t) ++ [⟨t, recon⟩]
  | .plain _ _ recon => evictLru (dropTile cache t) ++ [⟨t, recon⟩]

/-! ### The cache of a commit -/

theorem dropTile_dropTile (l : List CacheEntry) (t : TileRef) : dropTile (dropTile l t) t = dropTile l t := by
  rw [dropTile, dropTile, List.filter_filter]
  exact List.filter_congr fun e _ => Bool.and_self _

theorem dropTile_of_absent {l : List CacheEntry} {t : TileRef} (absent : ∀ e ∈ l, e.tile ≠ t) : dropTile l t = l :=
  List.filter_eq_self.2 fun e mem => decide_eq_true (absent e mem)

theorem absent_evictLru (l : List CacheEntry) (t : TileRef) : ∀ e ∈ evictLru (dropTile l t), e.tile ≠ t := by
  have kept : ∀ e ∈ dropTile l t, e.tile ≠ t := fun e mem => of_decide_eq_true (List.mem_filter.1 mem).2
  unfold evictLru
  split
  · exact fun e mem => kept e (List.mem_of_mem_tail mem)
  · exact kept

theorem rd_commitCache (s : State) (t : TileRef) (r : Result) :
    (s.commitCache t r).rd = { s.rd with cache := committedCache s.rd.cache t r } := by
  cases r with
  | uniform colour degraded => rfl
  | coded step stream bodyLen recon =>
    exact congrArg (fun l => { s.rd with cache := evictLru l ++ [(⟨t, recon⟩ : CacheEntry)] }) (dropTile_dropTile _ t)
  | plain stream bodyLen recon =>
    exact congrArg (fun l => { s.rd with cache := evictLru l ++ [(⟨t, recon⟩ : CacheEntry)] }) (dropTile_dropTile _ t)

/-- A tile that has just entered a cache without it is its last entry, and a hit leaves it there (R134). -/
theorem cached_of_last {s : State} {l : List CacheEntry} {t : TileRef} {x : Tile} (absent : ∀ e ∈ l, e.tile ≠ t)
    (cache : s.rd.cache = l ++ [⟨t, x⟩]) : s.cached t = some x ∧ dropTile s.rd.cache t ++ [⟨t, x⟩] = s.rd.cache := by
  have none_before : l.find? (fun e => decide (e.tile = t)) = none :=
    List.find?_eq_none.2 fun e mem is => absent e mem (of_decide_eq_true is)
  refine ⟨?_, ?_⟩
  · rw [State.cached, cache, List.find?_append, none_before]
    simp
  · have last : dropTile [⟨t, x⟩] t = [] := by simp [dropTile]
    rw [cache, dropTile, List.filter_append]
    show (dropTile l t ++ dropTile [⟨t, x⟩] t) ++ _ = _
    rw [dropTile_of_absent absent, last, List.append_nil]

/-- With the map's entry and the cache of a commit, the map gives the tile what the result has, and its use changes nothing. -/
theorem mapTile_of_committed {s : State} {t : TileRef} {r : Result} {chunks : List Nat} {cache : List CacheEntry}
    (content : (s.entry t).content = r.content chunks) (isCache : s.rd.cache = committedCache cache t r) :
    s.mapTile t = some r.base ∧ (s.useMapTile t).rd = s.rd := by
  have ofStream {x : Tile} (stream : (s.entry t).content.hasStream = true)
      (last : s.rd.cache = evictLru (dropTile cache t) ++ [⟨t, x⟩]) :
      s.mapTile t = some x ∧ (s.useMapTile t).rd = s.rd := by
    obtain ⟨hit, stays⟩ := cached_of_last (absent_evictLru cache t) last
    rw [mapTile_of_stream stream, rd_useMapTile_of_stream stream hit, stays]
    exact ⟨hit, rfl⟩
  cases r with
  | uniform colour degraded =>
    exact ⟨mapTile_of_uniform content, congrArg State.rd (useMapTile_of_flat (by rw [content]; rfl))⟩
  | coded step stream bodyLen recon => exact ofStream (by rw [content]; rfl) isCache
  | plain stream bodyLen recon => exact ofStream (by rw [content]; rfl) isCache

/-! ### The state before the slot is freed -/

section
variable (s : State) (op : TileOp) (r : Result)

/-- The state of a commit before the slot is freed (R28–R31). -/
def State.beforeFree : State :=
  ((s.beforeCount op r).countCommitted op.tile.ap (s.entry op.tile).content).putEnc Encoder.reset

/-- The state of a commit with the slot freed (R73). -/
def State.afterFree : State := (s.beforeFree op r).freeEncoding op.slot

theorem commit_eq : s.commit op r =
    if r.isDegraded then (s.afterFree op r).slewStep.raise .degraded else (s.afterFree op r).slewStep := rfl

theorem touches_beforeFree : OnlyTouches [.aps, .map, .pool, .ctl, .enc, .rd, .st] s (s.beforeFree op r) :=
  ((touches_beforeCount s op r).andThen (C := [.aps, .map, .pool, .ctl, .enc, .rd, .st])
    (touches_countCommitted _ _ _)).andThen (touches_putEnc _ _)

theorem asm_beforeFree : (s.beforeFree op r).asm = s.asm := touches_beforeFree s op r .asm (by decide)

theorem slot_beforeFree (k : SlotIx) : (s.beforeFree op r).slot k = s.slot k := by
  rw [State.slot, asm_beforeFree]
  rfl

theorem map_beforeFree : (s.beforeFree op r).map = s.map.commit (s.entryIx op.tile) (r.content op.heldChunks) r.isDegraded := by
  have counted : (s.beforeFree op r).map = (s.beforeCount op r).map :=
    ((touches_countCommitted (s.beforeCount op r) op.tile.ap (s.entry op.tile).content).andThen (C := [.aps, .enc, .st])
      (touches_putEnc _ Encoder.reset)) .map (by decide)
  exact counted.trans (((touches_release _ (s.entry op.tile).content.chunks).andThen (C := [.pool, .ctl, .rd, .st])
    (touches_commitCache _ op.tile r)) .map (by decide))

theorem rd_beforeFree : (s.beforeFree op r).rd = { s.rd with cache := committedCache s.rd.cache op.tile r } := by
  have counted : (s.beforeFree op r).rd = (s.beforeCount op r).rd :=
    ((touches_countCommitted (s.beforeCount op r) op.tile.ap (s.entry op.tile).content).andThen (C := [.aps, .enc, .st])
      (touches_putEnc _ Encoder.reset)) .rd (by decide)
  have released : ((s.setMap (s.map.commit (s.entryIx op.tile) (r.content op.heldChunks) r.isDegraded)).markStale.release
      (s.entry op.tile).content.chunks).rd = s.rd := touches_release _ _ .rd (by decide)
  rw [counted, State.beforeCount, rd_commitCache, released]

theorem ctl_beforeFree : (s.beforeFree op r).ctl = (s.release (s.entry op.tile).content.chunks).ctl := by
  have counted : (s.beforeFree op r).ctl = ((s.setMap (s.map.commit (s.entryIx op.tile) (r.content op.heldChunks)
      r.isDegraded)).markStale.release (s.entry op.tile).content.chunks).ctl :=
    (((touches_commitCache _ op.tile r).andThen (C := [.aps, .rd, .st])
      (touches_countCommitted _ op.tile.ap (s.entry op.tile).content)).andThen (C := [.aps, .enc, .rd, .st])
      (touches_putEnc _ Encoder.reset)) .ctl (by decide)
  rw [counted]
  unfold State.release
  split <;> rfl

theorem extFirst_beforeFree (a : ApIx) : ((s.beforeFree op r).ap a).extFirst = (s.ap a).extFirst := by
  show (((s.beforeCount op r).countCommitted op.tile.ap (s.entry op.tile).content).ap a).extFirst = _
  unfold State.countCommitted
  split
  · rw [ap_putAp]
    split
    · next here => rw [here, ap_beforeCount]
    · rw [ap_beforeCount]
  · rw [ap_beforeCount]

theorem content_ne_fresh (chunks : List Nat) (gen : Byte) : (⟨r.content chunks, gen⟩ : MapEntry) ≠ MapEntry.fresh := by
  intro is
  have content : r.content chunks = .unwritten := congrArg MapEntry.content is
  cases r <;> cases content

theorem entryAt_commit_same (m : TileMap) (i : Nat) (chunks : List Nat) (degraded : Bool) :
    entryAt (m.commit i (r.content chunks) degraded).entries i = ⟨r.content chunks, (entryAt m.entries i).gen + 1⟩ :=
  entryAt_putEntry_same i _ (.inr (content_ne_fresh r chunks _))

theorem entry_beforeFree : ((s.beforeFree op r).entry op.tile).content = r.content op.heldChunks := by
  rw [State.entry, State.entryIx, extFirst_beforeFree, map_beforeFree]
  exact congrArg MapEntry.content (entryAt_commit_same r s.map (s.entryIx op.tile) op.heldChunks r.isDegraded)

/-! ### What the slewing and the fault leave -/

theorem touches_afterFree : OnlyTouches [.ctl, .st] (s.afterFree op r) (s.commit op r) := by
  rw [commit_eq]
  split
  · exact (touches_slewStep _).andThen (touches_raise _ _)
  · exact touches_slewStep _

theorem touches_fromFree : OnlyTouches [.asm, .ctl, .rd, .st] (s.beforeFree op r) (s.commit op r) :=
  (touches_freeEncoding (s.beforeFree op r) op.slot).andThen (touches_afterFree s op r)

theorem asm_commit : (s.commit op r).asm = (s.afterFree op r).asm := touches_afterFree s op r .asm (by decide)

theorem rd_commit : (s.commit op r).rd = (s.afterFree op r).rd := touches_afterFree s op r .rd (by decide)

theorem slot_commit (k : SlotIx) : (s.commit op r).slot k = (s.afterFree op r).slot k := by
  rw [State.slot, asm_commit]
  rfl

theorem map_commit_eq : (s.commit op r).map = s.map.commit (s.entryIx op.tile) (r.content op.heldChunks) r.isDegraded :=
  Eq.trans (touches_fromFree s op r .map (by decide)) (map_beforeFree s op r)

theorem enc_commit : (s.commit op r).enc = ⟨none, none⟩ :=
  touches_fromFree s op r .enc (by decide)

theorem ctl_commit : (s.commit op r).ctl = (s.release (s.entry op.tile).content.chunks).ctl.slew := by
  have slewed : (s.commit op r).ctl = (s.afterFree op r).ctl.slew := by
    rw [commit_eq]
    split <;> rfl
  have freed : (s.afterFree op r).ctl = (s.beforeFree op r).ctl := touches_freeEncoding _ op.slot .ctl (by decide)
  rw [slewed, freed, ctl_beforeFree]

theorem slot_commit_self : (s.commit op r).slot op.slot = ⟨.free, none, (s.slot op.slot).px, 0, none, false, false⟩ := by
  rw [slot_commit, State.afterFree, slot_freeEncoding_self, slot_beforeFree]

theorem held_commit : (s.commit op r).asm.held = s.asm.held := by
  rw [asm_commit, State.afterFree, held_freeEncoding, asm_beforeFree]

theorem faults_commit_degraded (degraded : r.isDegraded = true) : (s.commit op r).st.faults.getLsbD 4 = true := by
  rw [commit_eq, if_pos degraded]
  show (_ ||| FaultKind.degraded.mask).getLsbD 4 = true
  rw [getLsbD_raise]
  exact Bool.or_true _

end

end Sys2Proof.Machine
end

section
/-! PROOFS. The statement of the commit. -/

set_option Elab.async false

namespace Sys2Proof.Machine

/-! ### The stale mark of a commit (R187) -/

section
variable {s : State} (stale : s.st.stale = true)
include stale

theorem putPool_stays_stale (p : Pool) : (s.putPool p).st.stale = true := by
  show (((s.st.stale || _) || _) || _) = true
  rw [stale, Bool.true_or, Bool.true_or, Bool.true_or]

theorem release_stays_stale (chunks : List Nat) : (s.release chunks).st.stale = true := by
  unfold State.release
  split
  · exact stale
  · exact putPool_stays_stale stale _

theorem commitCache_stays_stale (t : TileRef) (r : Result) : (s.commitCache t r).st.stale = true := by
  cases r with
  | uniform colour degraded => exact putCache_stays_stale stale _
  | coded step stream bodyLen recon => exact putCache_stays_stale (putCache_stays_stale stale _) _
  | plain stream bodyLen recon => exact putCache_stays_stale (putCache_stays_stale stale _) _

theorem countCommitted_stays_stale (a : ApIx) (old : Content) : (s.countCommitted a old).st.stale = true := by
  unfold State.countCommitted
  split
  · exact markIf_stays_stale stale _
  · exact stale

end

theorem stale_commit (s : State) (op : TileOp) (r : Result) : (s.commit op r).st.stale = true := by
  have marked : (s.setMap (s.map.commit (s.entryIx op.tile) (r.content op.heldChunks) r.isDegraded)).markStale.st.stale = true :=
    Bool.or_true _
  rw [commit_eq_count]
  exact afterCount_stays_stale (countCommitted_stays_stale (commitCache_stays_stale (release_stays_stale marked _) _ _) _ _) op r

/-! ### The successor of a committed slot (R67) -/

section
variable {s : State} {op : TileOp} {r : Result} {k : SlotIx}

theorem afterFree_of_alone (alone : s.NoSuccessor op.slot) :
    s.afterFree op r = (s.beforeFree op r).putSlot op.slot ((s.beforeFree op r).slot op.slot).freed :=
  freeEncoding_of_alone (s := s.beforeFree op r) fun j other => by rw [slot_beforeFree]; exact alone j other

theorem afterFree_of_successor (other : k ≠ op.slot) (pred : (s.slot k).pred = some op.slot)
    (only : ∀ j, j ≠ op.slot → (s.slot j).pred = some op.slot → j = k) : s.afterFree op r =
      if (s.slot k).due then ((s.beforeFree op r).unlinked op.slot k).sealNow k
      else (s.beforeFree op r).unlinked op.slot k := by
  have same := slot_beforeFree s op r
  rw [State.afterFree, freeEncoding_of_successor other (by rw [same]; exact pred)
    (fun j apart is => only j apart (by rwa [same] at is)), same]

theorem afterFree_cases (s : State) (op : TileOp) (r : Result) :
    (s.afterFree op r).rd = (s.beforeFree op r).rd ∨
      ∃ k, k ≠ op.slot ∧ (s.slot k).pred = some op.slot ∧ (s.slot k).due = true ∧
        s.afterFree op r = ((s.beforeFree op r).unlinked op.slot k).sealNow k := by
  rcases freeEncoding_cases (s.beforeFree op r) op.slot with ⟨alone, -⟩ | ⟨k, other, pred, successor⟩
  · left
    rw [State.afterFree, alone]
    rfl
  · rw [slot_beforeFree] at pred
    rw [slot_beforeFree] at successor
    cases due : (s.slot k).due with
    | true =>
      rw [due] at successor
      exact .inr ⟨k, other, pred, due, successor⟩
    | false =>
      rw [due] at successor
      left
      rw [State.afterFree, successor]
      rfl

theorem entry_unlinked (s : State) (k j : SlotIx) (t : TileRef) : (s.unlinked k j).entry t = s.entry t := rfl

theorem slot_unlinked_beforeFree : ((s.beforeFree op r).unlinked op.slot k).slot k = { s.slot k with pred := none } := by
  rw [slot_unlinked_successor, slot_beforeFree]

theorem mapTile_unlinked : ((s.beforeFree op r).unlinked op.slot k).mapTile op.tile = some r.base ∧
    (((s.beforeFree op r).unlinked op.slot k).useMapTile op.tile).rd = ((s.beforeFree op r).unlinked op.slot k).rd := by
  have content := entry_beforeFree s op r
  rw [← entry_unlinked (s.beforeFree op r) op.slot k] at content
  have cache := congrArg ReadPath.cache (rd_beforeFree s op r)
  rw [← rd_unlinked (s := s.beforeFree op r) (k := op.slot) (j := k)] at cache
  exact mapTile_of_committed content cache

end

theorem rd_useMapTile_queueSeal (s : State) (k : SlotIx) (state : SlotState) (t : TileRef) :
    ((s.queueSeal k state).useMapTile t).rd = (s.useMapTile t).rd := by
  have entry : (s.queueSeal k state).entry t = s.entry t := rfl
  have cached : (s.queueSeal k state).cached t = s.cached t := rfl
  unfold State.useMapTile State.touchCache
  rw [entry, cached]
  split
  · split <;> rfl
  · rfl

/-- A seal of a slot whose tile's pixels are known, and whose use leaves the cache, leaves the slot full (R69). -/
theorem sealNow_of_known {s : State} {k : SlotIx} {t : TileRef} {base : Tile} (tile : (s.slot k).tile = some t)
    (known : s.mapTile t = some base) (last : (s.useMapTile t).rd = s.rd) :
    (s.sealNow k).rd = s.rd ∧ ((s.sealNow k).slot k).isFull = true ∧
      (∃ px present, (s.sealNow k).slot k =
        { s.slot k with px := px, present := present, due := false, state := .sealed }) ∧
      ∀ n < 1024, pixelOf ((s.sealNow k).slot k).px n =
        if (s.slot k).present.getLsbD n = true then pixelOf (s.slot k).px n else pixelOf base n := by
  cases full : (s.slot k).isFull with
  | true =>
    rw [sealNow_of_full full, slot_queueSeal_same]
    exact ⟨rfl, full, ⟨(s.slot k).px, (s.slot k).present, rfl⟩, fun n inside => (if_pos ((isFull_iff _).1 full n inside)).symm⟩
  | false =>
    have rd : ((s.queueSeal k .gathering).useMapTile t).rd = s.rd := (rd_useMapTile_queueSeal s k _ t).trans last
    rw [sealNow_of_base full tile known, slot_putSlot_same]
    exact ⟨rd, gatherFrom_isFull (s.slot k) base,
      ⟨((s.slot k).gatherFrom base).px, ((s.slot k).gatherFrom base).present, rfl⟩,
      fun n inside => gatherFrom_pixel (s.slot k) base inside⟩

section
variable {s : State} {op : TileOp} {r : Result} {k : SlotIx}

/-- A due seal of the tile's own next slot is made from the committed result, whatever the slot lacks (R67, R69). -/
theorem sealNow_successor (tile : (s.slot k).tile = some op.tile) :
    (((s.beforeFree op r).unlinked op.slot k).sealNow k).rd = (s.beforeFree op r).rd ∧
      ((((s.beforeFree op r).unlinked op.slot k).sealNow k).slot k).isFull = true ∧
      (∃ px present, (((s.beforeFree op r).unlinked op.slot k).sealNow k).slot k =
        { s.slot k with pred := none, px := px, present := present, due := false, state := .sealed }) ∧
      ∀ n < 1024, pixelOf ((((s.beforeFree op r).unlinked op.slot k).sealNow k).slot k).px n =
        if (s.slot k).present.getLsbD n = true then pixelOf (s.slot k).px n else pixelOf r.base n := by
  have slot := slot_unlinked_beforeFree (s := s) (op := op) (r := r) (k := k)
  obtain ⟨known, last⟩ := mapTile_unlinked (s := s) (op := op) (r := r) (k := k)
  have sealed := sealNow_of_known (by rw [slot]; exact tile) known last
  rw [slot] at sealed
  exact sealed

end

/-- A seal leaves the decoder to its decode. -/
theorem decoder_sealNow (s : State) (k : SlotIx) : (s.sealNow k).rd.decoder = s.rd.decoder := by
  cases full : (s.slot k).isFull with
  | true => rw [sealNow_of_full full]; rfl
  | false =>
    cases tile : (s.slot k).tile with
    | none => rw [sealNow_of_no_tile full tile]; rfl
    | some t =>
      cases known : s.mapTile t with
      | some base =>
        rw [sealNow_of_base full tile known]
        exact (congrArg ReadPath.decoder (rd_useMapTile_queueSeal s k _ t)).trans (rd_useMapTile s t).2.2
      | none =>
        rw [sealNow_of_decode full tile known]
        exact joinDecode_decoder _ t _

theorem decoder_freeEncoding (s : State) (k : SlotIx) : (s.freeEncoding k).rd.decoder = s.rd.decoder := by
  rcases freeEncoding_cases s k with ⟨alone, -⟩ | ⟨j, -, -, successor⟩
  · rw [alone]
    rfl
  · rw [successor]
    split
    · exact decoder_sealNow _ j
    · rfl

/-- Settles O44: the entry, the totals, the pool, the slot and its successor, step control, and the cache. -/
theorem commitReplacesTheEntry : Obligations.CommitReplacesTheEntry := by
  intro s op r u i old
  have map : u.map = s.map.commit i (r.content op.heldChunks) r.isDegraded := map_commit_eq s op r
  have entry : entryAt u.map.entries i = ⟨r.content op.heldChunks, old.gen + 1⟩ := by
    rw [map]
    exact entryAt_commit_same r s.map i op.heldChunks r.isDegraded
  have asm : u.asm = (s.afterFree op r).asm := asm_commit s op r
  have openList : (s.beforeFree op r).asm.openList = s.asm.openList := by rw [asm_beforeFree]
  have sealQueue : (s.beforeFree op r).asm.sealQueue = s.asm.sealQueue := by rw [asm_beforeFree]
  have slotOf (j : SlotIx) : u.slot j = (s.afterFree op r).slot j := slot_commit s op r j
  refine ⟨entry, fun c d is => ?_, fun k b n x is => ?_, fun b n x is => ?_, fun j other => ?_, ?_, ?_, ?_, ?_, ?_,
    pool_commit s op r, ?_, enc_commit s op r, slot_commit_self s op r, held_commit s op r, fun alone => ?alone,
    fun k other pred only => ?successor, fun _ => ?_, faults_commit_degraded s op r, stale_commit s op r, fun tiles => ?cache, ?_,
    touches_commit s op r⟩
  · rw [entry, is]; rfl
  · rw [entry, is]; rfl
  · rw [entry, is]; rfl
  · rw [map]; exact entryAt_putEntry_other _ _ other
  · rw [map]; rfl
  · rw [map]; rfl
  · cases r with
    | uniform c d => exact ⟨fun is => ⟨c, congrArg _ is⟩, fun ⟨c, is⟩ => by cases is; rfl⟩
    | coded k b n x => exact iff_of_false nofun nofun
    | plain b n x => exact iff_of_false nofun nofun
  · rw [map]; rfl
  · rw [map]; rfl
  · cases old.content <;> rfl
  case alone =>
    rw [asm, afterFree_of_alone alone]
    refine ⟨fun j other => ?_, openList, sealQueue⟩
    rw [slotOf, afterFree_of_alone alone, slot_freed_other other, slot_beforeFree]
  case successor =>
    have freed := afterFree_of_successor (r := r) other pred only
    refine ⟨fun j notSelf notSuccessor => ?_, fun notDue => ?_, fun due tile => ?_⟩
    · have apart : (s.slot j).pred ≠ some op.slot := fun is => notSuccessor (only j notSelf is)
      rw [slotOf, State.afterFree, slot_freeEncoding_of_apart notSelf (by rw [slot_beforeFree]; exact apart), slot_beforeFree]
    · rw [notDue] at freed
      rw [asm, slotOf, freed]
      exact ⟨slot_unlinked_beforeFree, openList, sealQueue⟩
    · rw [due, if_pos rfl] at freed
      obtain ⟨-, -, leaves, joins⟩ := sealNow_unlinked (s := s.beforeFree op r) (k := op.slot) (j := k)
      obtain ⟨-, full, ⟨px, present, slot⟩, content⟩ := sealNow_successor (r := r) tile
      rw [asm, slotOf, freed]
      refine ⟨leaves.trans (by rw [openList]), joins.trans (by rw [sealQueue]), ?_, ?_, ?_, ?_, ?_, full, fun n inside has => ?_, fun n inside absent => ?_⟩
      · exact congrArg Slot.state slot
      · exact (congrArg Slot.tile slot).trans tile
      · exact congrArg Slot.pred slot
      · exact congrArg Slot.due slot
      · exact (congrArg Slot.mark slot).trans rfl
      · exact (content n inside).trans (if_pos has)
      · have fromBase := (content n inside).trans (if_neg (Bool.eq_false_iff.1 absent))
        refine ⟨fun c d is => fromBase.trans ?_, fun step b m x is => fromBase.trans ?_, fun b m x is => fromBase.trans ?_⟩
        · rw [is]; exact pixelOf_flatTile c inside
        · rw [is]; rfl
        · rw [is]; rfl
  · rw [ctl_commit s op r]
    exact ⟨rfl, rfl, rfl⟩
  case cache =>
    have rd : u.rd = { s.rd with cache := committedCache s.rd.cache op.tile r } := by
      rw [← rd_beforeFree, rd_commit s op r]
      rcases afterFree_cases s op r with same | ⟨k, other, pred, due, freed⟩
      · exact same
      · rw [freed]
        exact (sealNow_successor (tiles k other pred due)).1
    intro l room
    rw [rd]
    refine ⟨fun c d is => ?_, fun k b n x is => ?_, fun b n x is => ?_, rfl, rfl⟩
    · rw [is]; rfl
    · rw [is]; rfl
    · rw [is]; rfl
  · rw [rd_commit s op r, State.afterFree, decoder_freeEncoding, rd_beforeFree]

end Sys2Proof.Machine
end

section
/-! PROOFS. The rounds of chunk writes (R122, R123, R125), the degradation (R96, R124), and the answers to chunk writes (R47). -/

set_option Elab.async false

namespace Sys2Proof.Machine

/-! ### The degradation (R124) -/

/-- The record of a degraded tile: nothing held any more. -/
def TileOp.emptied (op : TileOp) : TileOp := { op with held := [] }

/-- The result of a degraded tile (R96, R124). -/
def State.meanResult (s : State) (op : TileOp) : Result := .uniform (op.mean.getD (meanColour (s.slot op.slot).px)) true

theorem heldChunks_emptied (op : TileOp) : op.emptied.heldChunks = [] := rfl

section
variable {s : State} {op : TileOp}

theorem degrade_eq (s : State) (op : TileOp) : s.degrade op =
    if (s.ap op.tile.ap).state = .retiring then (s.release op.heldChunks).abandon op.emptied
    else (s.release op.heldChunks).commit op.emptied (s.meanResult op) := by
  have ap : (s.release op.heldChunks).ap op.tile.ap = s.ap op.tile.ap :=
    ap_eq_of_aps_eq (touches_release s op.heldChunks .aps (by decide)) _
  rw [← ap]
  exact if_congr (isRetiring_iff _ _) rfl rfl

theorem slot_release (chunks : List Nat) (k : SlotIx) : (s.release chunks).slot k = s.slot k := by
  have asm : (s.release chunks).asm = s.asm := touches_release s chunks .asm (by decide)
  rw [State.slot, asm]
  rfl

theorem entry_release (chunks : List Nat) (t : TileRef) : (s.release chunks).entry t = s.entry t ∧
    (s.release chunks).entryIx t = s.entryIx t ∧ (s.release chunks).map = s.map := by
  have map : (s.release chunks).map = s.map := touches_release s chunks .map (by decide)
  have ap : (s.release chunks).ap t.ap = s.ap t.ap := ap_eq_of_aps_eq (touches_release s chunks .aps (by decide)) _
  refine ⟨?_, ?_, map⟩
  · rw [State.entry, State.entryIx, map, ap]
    rfl
  · rw [State.entryIx, ap]
    rfl

theorem enc_degrade (s : State) (op : TileOp) : (s.degrade op).enc = ⟨none, none⟩ := by
  rw [degrade_eq]
  split
  · exact enc_abandon _ _
  · exact enc_commit _ _ _

theorem slot_degrade (s : State) (op : TileOp) :
    (s.degrade op).slot op.slot = ⟨.free, none, (s.slot op.slot).px, 0, none, false, false⟩ := by
  rw [degrade_eq]
  split
  · exact (slot_abandon _ op.emptied).trans (by rw [slot_release]; rfl)
  · exact (slot_commit_self _ op.emptied _).trans (by rw [slot_release]; rfl)

/-- In a RETIRING aperture the held chunks go back and the map stays (R118, R127). -/
theorem degrade_of_retiring (retiring : (s.ap op.tile.ap).state = .retiring) :
    (s.degrade op).map = s.map ∧ (s.degrade op).aps = s.aps ∧
      (s.degrade op).pool = { s.pool with free := s.pool.free ++ op.heldChunks } := by
  have touches := (touches_release s op.heldChunks).andThen (C := abandonBlocks)
    (touches_abandon (s.release op.heldChunks) op.emptied)
  rw [degrade_eq, if_pos retiring]
  refine ⟨touches .map (by decide), touches .aps (by decide), ?_⟩
  rw [pool_abandon, release_pool, heldChunks_emptied, List.append_nil]

/-- In a live one the tile is committed with its mean colour (R124). -/
theorem degrade_of_live (live : (s.ap op.tile.ap).state ≠ .retiring) :
    (s.degrade op).map = s.map.commit (s.entryIx op.tile) ((s.meanResult op).content []) true ∧
      (s.degrade op).pool = { s.pool with free := s.pool.free ++ op.heldChunks ++ (s.entry op.tile).content.chunks } ∧
      (s.degrade op).st.faults.getLsbD 4 = true := by
  obtain ⟨entry, entryIx, map⟩ := entry_release (s := s) op.heldChunks op.tile
  rw [degrade_eq, if_neg live]
  refine ⟨?_, ?_, faults_commit_degraded _ _ _ rfl⟩
  · rw [map_commit_eq, map]
    exact congrArg (fun i => s.map.commit i ((s.meanResult op).content []) true) entryIx
  · rw [pool_commit, release_pool]
    exact congrArg (fun e : MapEntry => { s.pool with free := s.pool.free ++ op.heldChunks ++ e.content.chunks }) entry

theorem entryAt_degrade_of_live (live : (s.ap op.tile.ap).state ≠ .retiring) :
    entryAt (s.degrade op).map.entries ((s.ap op.tile.ap).extFirst + op.tile.ix) =
      ⟨.uniform (op.mean.getD (meanColour (s.slot op.slot).px)) true,
        (entryAt s.map.entries ((s.ap op.tile.ap).extFirst + op.tile.ix)).gen + 1⟩ := by
  rw [(degrade_of_live live).1]
  exact entryAt_commit_same (s.meanResult op) s.map _ [] true

end

/-! ### The mean colour (R96) -/

theorem toList_eq_map_pixelOf (t : Tile) : t.toList = (List.range 1024).map (pixelOf t) := by
  refine List.ext_getElem (by simp) fun i inside _ => ?_
  have inside : i < 1024 := by simpa using inside
  rw [List.getElem_map, List.getElem_range, pixelOf_eq t inside]
  rfl

theorem sum_samples_lt (f : Nat → Sample) : ((List.range 1024).map fun i => (f i).toNat).sum / 1024 < 2 ^ 16 := by
  have bound := List.sum_le_card_nsmul ((List.range 1024).map fun i => (f i).toNat) 65535 fun x mem => by
    obtain ⟨i, -, rfl⟩ := List.mem_map.1 mem
    have := (f i).isLt
    omega
  rw [List.length_map, List.length_range, smul_eq_mul] at bound
  omega

/-- One channel of the mean colour. -/
theorem mean_channel (t : Tile) (f : Colour → Sample) :
    (BitVec.ofNat 16 ((t.toList.map fun c => (f c).toNat).foldl (· + ·) 0 / 1024)).toNat =
      ((List.range 1024).map fun i => (f (pixelOf t i)).toNat).sum / 1024 := by
  have same : (t.toList.map fun c => (f c).toNat).foldl (· + ·) 0 =
      ((List.range 1024).map fun i => (f (pixelOf t i)).toNat).sum := by
    rw [toList_eq_map_pixelOf, List.map_map, ← List.sum_eq_foldl]
    rfl
  rw [same, BitVec.toNat_ofNat]
  exact Nat.mod_eq_of_lt (sum_samples_lt fun i => f (pixelOf t i))

/-! ### The open positions (R45, R123) -/

/-- The open positions counted from a number on. -/
def openFrom (k : Nat) (held : List (Option Nat)) : List Nat :=
  (mapFrom (fun j h => (j, h)) k held).filterMap fun (j, h) => if h.isNone then some j else none

theorem openPositions_eq (held : List (Option Nat)) : openPositions held = openFrom 0 held := rfl

theorem openFrom_some (k c : Nat) (rest : List (Option Nat)) : openFrom k (some c :: rest) = openFrom (k + 1) rest := rfl

theorem openFrom_none (k : Nat) (rest : List (Option Nat)) : openFrom k (none :: rest) = k :: openFrom (k + 1) rest := rfl

theorem length_fillOpen (held : List (Option Nat)) : ∀ cs : List Nat, (fillOpen held cs).length = held.length := by
  induction held with
  | nil => exact fun cs => rfl
  | cons h rest ih =>
    intro cs
    cases h with
    | some c => rw [fillOpen, List.length_cons, ih, List.length_cons]
    | none => cases cs <;> rw [fillOpen, List.length_cons, ih, List.length_cons]

theorem fillOpen_kept (held : List (Option Nat)) : ∀ (cs : List Nat) (i c : Nat), held[i]? = some (some c) →
    (fillOpen held cs)[i]? = some (some c) := by
  induction held with
  | nil => exact fun cs i c is => nomatch is
  | cons h rest ih =>
    intro cs i c is
    cases i with
    | zero =>
      rw [List.getElem?_cons_zero] at is
      cases is
      rfl
    | succ i =>
      rw [List.getElem?_cons_succ] at is
      cases h with
      | some d => exact ih cs i c is
      | none =>
        cases cs with
        | nil => exact ih [] i c is
        | cons d cs => exact ih cs i c is

theorem fillOpen_filled (held : List (Option Nat)) : ∀ (k n i c : Nat) (cs : List Nat), (openFrom k held)[n]? = some i →
    cs[n]? = some c → ∃ m, i = k + m ∧ (fillOpen held cs)[m]? = some (some c) := by
  induction held with
  | nil => exact fun k n i c cs is => nomatch is
  | cons h rest ih =>
    intro k n i c cs is isC
    cases h with
    | some d =>
      rw [openFrom_some] at is
      obtain ⟨m, rfl, filled⟩ := ih (k + 1) n i c cs is isC
      exact ⟨m + 1, by omega, filled⟩
    | none =>
      cases cs with
      | nil => cases isC
      | cons d cs =>
        rw [openFrom_none] at is
        cases n with
        | zero =>
          rw [List.getElem?_cons_zero] at is isC
          cases is
          cases isC
          exact ⟨0, rfl, rfl⟩
        | succ n =>
          rw [List.getElem?_cons_succ] at is isC
          obtain ⟨m, rfl, filled⟩ := ih (k + 1) n i c cs is isC
          exact ⟨m + 1, by omega, filled⟩

/-! ### The end of a round (R123, R125) -/

section
variable {s : State} {op : TileOp} {r : Result}

theorem endRound_of_full (isResult : op.result = some r) (full : openPositions op.held = []) : s.endRound op =
    if (s.ap op.tile.ap).state = .retiring then s.abandon op else s.commit op r := by
  unfold State.endRound
  rw [full, isResult]
  exact if_congr (isRetiring_iff s op) rfl rfl

theorem endRound_of_gaps (gaps : openPositions op.held ≠ []) : s.endRound op =
    if op.round = 1 then
      if (s.ap op.tile.ap).state = .retiring then s.abandon op
      else if (openPositions op.held).length ≤ s.pool.free.length then
        (s.takeChunks (openPositions op.held).length).startRound op 2
          (fillOpen op.held (s.pool.free.take (openPositions op.held).length))
          ((openPositions op.held).zip (s.pool.free.take (openPositions op.held).length))
      else s.degrade op
    else s.degrade op := by
  unfold State.endRound
  dsimp only
  split
  · next full _ => exact absurd full gaps
  · refine if_congr Iff.rfl (if_congr (isRetiring_iff s op) rfl (if_congr (canGrant_iff s _) rfl rfl)) rfl

end

/-! ### The answer to a chunk write (R47, R123) -/

theorem answered_eq (op : TileOp) (position : Nat) (status : StoreStatus) : op.answered position status = { op with
    unanswered := op.unanswered - 1, held := if status = .okay then op.held else op.held.set position none } := by
  cases status <;> rfl

section
variable (s : State) (op : TileOp) (chunk : Nat)

theorem enc_writeAnswered (status : StoreStatus) : (s.writeAnswered op chunk status).enc = { s.enc with op := some op } := by
  cases status <;> rfl

/-- A record that keeps its stage leaves the status block as it was (R113, R187). -/
theorem st_putEnc_of_same_stage {e : Encoder} (same : e.stage = s.enc.stage) : (s.putEnc e).st = s.st := by
  have unmarked : decide (e.stage ≠ s.enc.stage) = false := decide_eq_false (not_not.2 same)
  exact congrArg (fun b => { s.st with stale := b }) ((congrArg (s.st.stale || ·) unmarked).trans (Bool.or_false _))

theorem touches_writeAnswered_okay {old : TileOp} (inHand : s.enc.op = some old) (stage : op.stage = old.stage) :
    OnlyTouches [.enc] s (s.writeAnswered op chunk .okay) := by
  intro b apart
  by_cases isSt : b = .st
  · rw [isSt]
    refine st_putEnc_of_same_stage s ?_
    rw [Encoder.stage, Encoder.stage, inHand]
    exact congrArg some stage
  · have other : b ≠ .enc := fun is => apart (List.mem_singleton.2 is)
    exact touches_putEnc s _ b (by simp [isSt, other])

theorem touches_writeAnswered_error : OnlyTouches [.enc, .pool, .ctl, .st] s (s.writeAnswered op chunk .error) :=
  ((touches_putEnc s _).andThen (C := [.enc, .pool, .ctl, .st]) (touches_putPool _ _)).andThen (touches_raise _ _)

theorem store_writeAnswered (status : StoreStatus) : (s.writeAnswered op chunk status).store = s.store := by
  cases status <;> rfl

theorem pool_writeAnswered_error :
    (s.writeAnswered op chunk .error).pool = { s.pool with withdrawn := s.pool.withdrawn ++ [chunk] } := rfl

theorem faults_writeAnswered_error : (s.writeAnswered op chunk .error).st.faults.getLsbD 5 = true := by
  show (_ ||| FaultKind.store.mask).getLsbD 5 = true
  rw [getLsbD_raise]
  exact Bool.or_true _

end

/-- Settles O42: the end of a round by its open positions, the last answer of a round, and the degradation. -/
theorem roundEndCommitsReplacesOrDegrades : Obligations.RoundEndCommitsReplacesOrDegrades := by
  refine ⟨fun s op r isResult => ?rounds, fun s status i c addr data rest op ignore head inHand last => ?answer,
    fun s op => ?degrade, fun held => ?positions, fun t => ⟨mean_channel t Colour.r, mean_channel t Colour.g,
      mean_channel t Colour.b⟩⟩
  case rounds =>
    intro gaps chunks retiring
    refine ⟨endRound_of_full isResult, fun open' first is => ?_, fun open' first isNot few => ?_, fun open' later => ?_,
      fun open' first isNot enough => ?_⟩
    · rw [endRound_of_gaps open', if_pos first, if_pos is]
    · rw [endRound_of_gaps open', if_pos first, if_neg isNot, if_neg (Nat.not_le.2 few)]
    · rw [endRound_of_gaps open', if_neg later]
    · have started := endRound_of_gaps (s := s) open'
      rw [if_pos first, if_neg isNot, if_pos enough] at started
      rw [started]
      refine ⟨rfl, ⟨_, rfl, rfl, rfl, ?_, rfl, rfl, isResult, length_fillOpen _ _, fillOpen_kept _ _,
        fun n i c gap chunk => ?_⟩, ?_, (touches_takeChunks s _).andThen (touches_startRound _ _ _ _ _)⟩
      · rw [List.length_zip, length_take_free enough, Nat.min_self]
      · obtain ⟨m, eq, filled⟩ := fillOpen_filled op.held 0 n i c _ gap chunk
        rw [Nat.zero_add] at eq
        rw [eq]
        exact filled
      · have stream : ((op.result.map Result.stream).getD []) = r.stream := by rw [isResult]; rfl
        rw [← stream]
        rfl
  case answer =>
    intro op1
    have isOp1 : op.answered i status = op1 := by rw [answered_eq, last]
    have written : s.popOutstanding.chunkWritten i c status = (s.popOutstanding.writeAnswered op1 c status).endRound op1 := by
      rw [chunkWritten_of_op (s := s.popOutstanding) inHand, isOp1]
      exact if_pos rfl
    refine ⟨s.popOutstanding.writeAnswered op1 c status, ?_, enc_writeAnswered _ _ _ _,
      (store_writeAnswered _ _ _ _).trans (store_popOutstanding head), fun okay => ?_, fun error => ?_⟩
    · rw [exec_chunkWriteAnswer ignore status head, written]
    · rw [okay]
      exact (touches_popOutstanding s).andThen (touches_writeAnswered_okay s.popOutstanding op1 c inHand rfl)
    · rw [error]
      exact ⟨rfl, faults_writeAnswered_error _ _ _,
        (touches_popOutstanding s).andThen (touches_writeAnswered_error _ _ _)⟩
  case degrade =>
    intro held i old v
    refine ⟨enc_degrade s op, slot_degrade s op, touches_degrade s op, degrade_of_retiring, fun live => ?_⟩
    obtain ⟨map, pool, degraded⟩ := degrade_of_live live
    refine ⟨pool, entryAt_degrade_of_live live, fun j other => ?_, ?_, ?_, degraded⟩
    · rw [map]; exact entryAt_putEntry_other _ _ other
    · rw [map]; rfl
    · rw [map]; rfl
  case positions =>
    obtain ⟨rising, mem⟩ := openFrom_spec held 0
    exact ⟨rising, fun i => (mem i).trans (by rw [Nat.sub_zero]; exact and_iff_right (Nat.zero_le i))⟩

/-- Settles O41: an answer that is not the round's last. -/
theorem chunkWriteAnswerKeepsOrWithdraws : Obligations.ChunkWriteAnswerKeepsOrWithdraws := by
  intro s status i c addr data rest op ignore head inHand more agree
  have notLast : (op.answered i status).unanswered ≠ 0 := by
    rw [answered_eq]
    exact Nat.sub_ne_zero_of_lt more
  have written : s.popOutstanding.chunkWritten i c status =
      s.popOutstanding.writeAnswered (op.answered i status) c status := by
    rw [chunkWritten_of_op (s := s.popOutstanding) inHand]
    exact if_neg notLast
  refine ⟨_, (exec_chunkWriteAnswer ignore status head).trans (by rw [written]),
    (store_writeAnswered _ _ _ _).trans (store_popOutstanding head), fun okay => ?_, fun error => ?_⟩
  · have touches := (touches_popOutstanding s).andThen (C := [.enc, .store])
      (touches_writeAnswered_okay s.popOutstanding (op.answered i .okay) c inHand rfl)
    have st : (s.popOutstanding.writeAnswered (op.answered i .okay) c .okay).st = s.st := touches .st (by decide)
    rw [okay]
    exact ⟨by rw [enc_writeAnswered]; rfl, touches.mono, by rw [st]⟩
  · rw [error]
    let t := s.popOutstanding.putEnc { s.enc with op := some (op.answered i .error) }
    obtain ⟨ctl, st⟩ := putPool_of_same (s := t) (p := { s.pool with withdrawn := s.pool.withdrawn ++ [c] })
      (agree.of_same rfl rfl rfl rfl rfl agree.2.2.2) rfl rfl rfl
    refine ⟨by rw [enc_writeAnswered]; rfl, rfl, ctl, ?_, ?_,
      (touches_popOutstanding s).andThen (touches_writeAnswered_error _ _ _)⟩
    · have faults : (t.putPool { s.pool with withdrawn := s.pool.withdrawn ++ [c] }).st.faults = s.st.faults := by rw [st]; rfl
      show (t.putPool { s.pool with withdrawn := s.pool.withdrawn ++ [c] }).st.faults ||| FaultKind.store.mask = _
      rw [faults]
      rfl
    · have longer : decide ((s.pool.withdrawn ++ [c]).length ≠ s.pool.withdrawn.length) = true := by simp
      have marked : (t.putPool { s.pool with withdrawn := s.pool.withdrawn ++ [c] }).st.stale = true :=
        (congrArg StatusUnit.stale st).trans ((congrArg (t.st.stale || ·) longer).trans (Bool.or_true _))
      exact raise_stays_stale marked .store

end Sys2Proof.Machine
end

section
/-! PROOFS. The ends of coding, of a refit, of the pool wait and of the re-code (R105, R106, R116–R121), and the visits of the
retire walk (R35). -/

set_option Elab.async false

namespace Sys2Proof.Machine

/-! ### Uniform tiles (R95) -/

section
variable {t : Tile}

theorem uniformColour_of_uniform {c : Colour} (uniform : ∀ i < 1024, pixelOf t i = c) : uniformColour t = some c := by
  have first : pixelOf t 0 = c := uniform 0 (by decide)
  have all : (t.toList.all fun x => decide (x = pixelOf t 0)) = true := by
    rw [toList_eq_map_pixelOf, List.all_map, List.all_eq_true]
    exact fun i mem => decide_eq_true ((uniform i (List.mem_range.1 mem)).trans first.symm)
  rw [uniformColour, if_pos all, first]

theorem uniformColour_of_mixed (mixed : ∀ c : Colour, ∃ i < 1024, pixelOf t i ≠ c) : uniformColour t = none := by
  refine if_neg fun all => ?_
  obtain ⟨i, inside, other⟩ := mixed (pixelOf t 0)
  rw [toList_eq_map_pixelOf, List.all_map, List.all_eq_true] at all
  exact other (of_decide_eq_true (all i (List.mem_range.2 inside)))

theorem uniformColour_none_iff : uniformColour t = none ↔ ∀ c : Colour, ∃ i < 1024, pixelOf t i ≠ c := by
  refine ⟨fun mixed c => ?_, uniformColour_of_mixed⟩
  by_contra uniform
  simp only [not_exists, not_and, not_not] at uniform
  rw [uniformColour_of_uniform uniform] at mixed
  cases mixed

end

/-! ### The end of a refit (R105, R108) -/

section
variable {s : State} {op : TileOp}

theorem isCoding_iff : op.isCoding = true ↔ op.stage = .coding ∧ op.recode = false := by
  rw [TileOp.isCoding, Bool.and_eq_true, decide_eq_true_eq, Bool.not_eq_true']

theorem isRecoding_iff : op.isRecoding = true ↔ op.stage = .coding ∧ op.recode = true := by
  rw [TileOp.isRecoding, Bool.and_eq_true, decide_eq_true_eq]

/-- The fit rule calls for a refit (R105). -/
def State.RefitDue (s : State) (op : TileOp) : Prop :=
  (∀ c : Colour, ∃ i < 1024, pixelOf (s.slot op.slot).px i ≠ c) ∧ op.refits < op.allowance ∧
    (s.ap op.tile.ap).budget < (codeTile (s.ap op.tile.ap).fmt op.tile op.gen
      (stepOfRefit (s.ap op.tile.ap).fmt op.effStep op.refits) (s.slot op.slot).px).chunkCount ∧
    stepOfRefit (s.ap op.tile.ap).fmt op.effStep op.refits < if (s.ap op.tile.ap).fmt = .rgb8 then 7 else 15

theorem refitDue_iff : ((uniformColour (s.rawTile op)).isNone && decide (op.refits < op.allowance) &&
    missesFit (s.ap op.tile.ap).fmt (s.ap op.tile.ap).budget op.effStep (s.countAt op) op.refits) = true ↔ s.RefitDue op := by
  rw [Bool.and_eq_true, Bool.and_eq_true, Option.isNone_iff_eq_none, uniformColour_none_iff, decide_eq_true_eq, missesFit_iff,
    and_assoc]
  exact Iff.rfl

theorem endRefit_of_due (due : s.RefitDue op) :
    s.endRefit op = (s.addRefits 1).putOp { op with refits := op.refits + 1 } := if_pos (refitDue_iff.2 due)

theorem endRefit_of_not_due (due : ¬s.RefitDue op) : s.endRefit op = s := if_neg (mt refitDue_iff.1 due)

end

/-- Settles O48: the refit that is due is counted, and nothing happens where none is. -/
theorem refitEndCountsTheRefit : Obligations.RefitEndCountsTheRefit := by
  intro s op inHand coding first x px due
  have executed : exec .refitEnd s = .next (s.endRefit op).finish :=
    (exec_refitEnd inHand).trans (if_pos (isCoding_iff.2 ⟨coding, first⟩))
  refine ⟨fun isDue => ⟨_, executed.trans (by rw [endRefit_of_due isDue]), rfl, rfl, ?_, ?_⟩, fun notDue => ?_⟩
  · have stale : ∀ b : Bool, ((s.st.stale || decide (1 ≠ 0)) || b) = true := fun b => by
      rw [decide_eq_true (by decide), Bool.or_true, Bool.true_or]
    exact congrArg (fun b => { s.st with stale := b }) (stale _)
  · exact (touches_addRefits s 1).andThen (touches_putOp _ _)
  · rw [executed, endRefit_of_not_due notDue]

/-! ### The first request (R118, R119) -/

section
variable {s : State} {op : TileOp} {n : Nat}

theorem firstRequest_eq (s : State) (op : TileOp) (n : Nat) : s.firstRequest op n =
    if (s.ap op.tile.ap).state = .retiring then s.abandon op
    else if n ≤ s.pool.free.length then (s.takeChunks n).startWriting op (s.pool.free.take n)
    else (s.putPool { s.pool with waiting := some n }).putEnc ⟨some { op with stage := .poolWait }, some s.pool.limit⟩ :=
  if_congr (isRetiring_iff s op) rfl (if_congr (canGrant_iff s n) rfl rfl)

theorem refits_firstRequest (s : State) (op : TileOp) (n : Nat) : (s.firstRequest op n).ctl.refits = s.ctl.refits := by
  rw [firstRequest_eq]
  split
  · rw [ctl_abandon]
  · split <;> rfl

/-- Round 1 with the chunks of a grant (R118, R122). -/
theorem startWriting_takeChunks {t : State} {r : Result} (pool : t.pool = s.pool) (store : t.store = s.store)
    (isResult : op.result = some r) (enough : n ≤ s.pool.free.length) :
    ((t.takeChunks n).startWriting op (s.pool.free.take n)).pool =
      { s.pool with free := s.pool.free.drop n, waiting := none } ∧
    (∃ op2 : TileOp, ((t.takeChunks n).startWriting op (s.pool.free.take n)).enc = ⟨some op2, none⟩ ∧ op2.stage = .writing ∧
      op2.round = 1 ∧ op2.unanswered = n ∧ op2.held = (s.pool.free.take n).map some ∧ op2.result = some r ∧
      op2.tile = op.tile ∧ op2.slot = op.slot ∧ op2.mean = op.mean) ∧
    ((t.takeChunks n).startWriting op (s.pool.free.take n)).store = { s.store with
      encoder := s.store.encoder ++ (s.pool.free.take n).mapIdx (fun j c =>
        .chunkWrite j c (s.pool.base + 256 * c) (chunkData r.stream j)) } := by
  have stream : (op.result.map Result.stream).getD [] = r.stream := by rw [isResult]; rfl
  refine ⟨?_, ⟨_, enc_startWriting _ _ _, rfl, rfl, length_take_free enough, rfl, isResult, rfl, rfl, rfl⟩, ?_⟩
  · rw [← pool]
    rfl
  · rw [store_startWriting, ← stream, ← pool, ← store]
    rfl

/-- An abandonment of a tile that holds no chunks leaves the pool. -/
theorem abandon_of_nothing_held (nothing : op.held = []) :
    (s.abandon op).pool = s.pool ∧ OnlyTouches [.asm, .enc, .rd, .st] s (s.abandon op) := by
  have chunks : op.heldChunks = [] := by rw [TileOp.heldChunks, nothing]; rfl
  refine ⟨by rw [pool_abandon, chunks, List.append_nil], ?_⟩
  rw [abandon_eq, State.beforeAbandon, chunks, release_nil]
  exact (touches_putEnc s _).andThen (touches_freeEncoding _ _)

end

/-! ### The end of coding (R116) -/

section
variable {s : State} {op : TileOp}

theorem finalResult_eq (s : State) (op : TileOp) (step : Nat) : s.finalResult op step =
    if (if (s.ap op.tile.ap).fmt = .rgb8 then 13 else 25) <
      (codeTile (s.ap op.tile.ap).fmt op.tile op.gen step (s.slot op.slot).px).chunkCount then
      plainTile (s.ap op.tile.ap).fmt op.tile op.gen (s.slot op.slot).px
    else codeTile (s.ap op.tile.ap).fmt op.tile op.gen step (s.slot op.slot).px := by
  have plain : (s.ap op.tile.ap).fmt.plainCount = if (s.ap op.tile.ap).fmt = .rgb8 then 13 else 25 := by
    cases (s.ap op.tile.ap).fmt <;> rfl
  rw [← plain]
  rfl

theorem endCoding_of_uniform {c : Colour} (uniform : ∀ i < 1024, pixelOf (s.slot op.slot).px i = c) :
    s.endCoding op = if (s.ap op.tile.ap).state = .retiring then s.abandon op else s.commit op (.uniform c false) := by
  have isUniform : uniformColour (s.rawTile op) = some c := uniformColour_of_uniform uniform
  rw [State.endCoding, isUniform]
  exact if_congr (isRetiring_iff s op) rfl rfl

/-- The refits of the tile in hand when its code is final (R105, R106). -/
def State.finalRefits (s : State) (op : TileOp) : Nat :=
  lastRefit (s.ap op.tile.ap).fmt (s.ap op.tile.ap).budget op.effStep (s.countAt op) (op.allowance - op.refits) op.refits

/-- Its record with its final result (R106, R116). -/
def State.codedOp (s : State) (op : TileOp) (r : Result) : TileOp :=
  { op with refits := s.finalRefits op, result := some r, mean := some (meanColour (s.slot op.slot).px) }

/-- The state with that record, and with the refits counted (R108). -/
def State.coded (s : State) (op : TileOp) (r : Result) : State :=
  (s.addRefits (s.finalRefits op - op.refits)).putOp (s.codedOp op r)

theorem touches_coded (r : Result) : OnlyTouches [.ctl, .enc, .st] s (s.coded op r) :=
  (touches_addRefits s _).andThen (touches_putOp _ _)

theorem endCoding_of_mixed (mixed : ∀ c : Colour, ∃ i < 1024, pixelOf (s.slot op.slot).px i ≠ c) {r : Result}
    (final : s.finalResult op (stepOfRefit (s.ap op.tile.ap).fmt op.effStep (s.finalRefits op)) = r) :
    s.endCoding op = (s.coded op r).firstRequest (s.codedOp op r) r.chunkCount := by
  have isMixed : uniformColour (s.rawTile op) = none := uniformColour_of_mixed mixed
  rw [State.endCoding, isMixed, ← final]
  rfl

/-- What the end of coding of a tile that is not uniform does with its first request (R118, R119). -/
theorem endCoding_request {r : Result} (mixed : ∀ c : Colour, ∃ i < 1024, pixelOf (s.slot op.slot).px i ≠ c)
    (final : s.finalResult op (stepOfRefit (s.ap op.tile.ap).fmt op.effStep (s.finalRefits op)) = r) :
    s.endCoding op = if (s.ap op.tile.ap).state = .retiring then (s.coded op r).abandon (s.codedOp op r)
      else if r.chunkCount ≤ s.pool.free.length then
        ((s.coded op r).takeChunks r.chunkCount).startWriting (s.codedOp op r) (s.pool.free.take r.chunkCount)
      else ((s.coded op r).putPool { s.pool with waiting := some r.chunkCount }).putEnc
        ⟨some { s.codedOp op r with stage := .poolWait }, some s.pool.limit⟩ :=
  (endCoding_of_mixed mixed final).trans (firstRequest_eq _ _ _)

theorem refits_endCoding {r : Result} (mixed : ∀ c : Colour, ∃ i < 1024, pixelOf (s.slot op.slot).px i ≠ c)
    (final : s.finalResult op (stepOfRefit (s.ap op.tile.ap).fmt op.effStep (s.finalRefits op)) = r) :
    (s.endCoding op).ctl.refits = s.ctl.refits + BitVec.ofNat 32 (s.finalRefits op - op.refits) := by
  rw [endCoding_of_mixed mixed final, refits_firstRequest]
  rfl

/-- A retiring tile is abandoned at the end of its coding (R118). -/
theorem abandon_coded (r : Result) (nothing : op.held = []) :
    let u := (s.coded op r).abandon (s.codedOp op r)
    u.map = s.map ∧ u.pool = s.pool ∧ u.enc = ⟨none, none⟩ ∧
      u.slot op.slot = ⟨.free, none, (s.slot op.slot).px, 0, none, false, false⟩ ∧ OnlyTouches [.asm, .ctl, .enc, .rd, .st] s u := by
  obtain ⟨pool, left⟩ := abandon_of_nothing_held (s := s.coded op r) (op := s.codedOp op r) nothing
  exact ⟨map_abandon _ _, pool.trans (touches_coded r .pool (by decide)), enc_abandon _ _, slot_abandon _ _,
    (touches_coded r).andThen left⟩

/-- A tile that is granted its chunks at the end of its coding starts round 1 (R118, R122). -/
theorem startWriting_coded (r : Result) (enough : r.chunkCount ≤ s.pool.free.length) :
    let n := r.chunkCount
    let u := ((s.coded op r).takeChunks n).startWriting (s.codedOp op r) (s.pool.free.take n)
    u.pool = { s.pool with free := s.pool.free.drop n, waiting := none } ∧
    (∃ op2 : TileOp, u.enc = ⟨some op2, none⟩ ∧ op2.stage = .writing ∧ op2.round = 1 ∧ op2.unanswered = n ∧
      op2.held = (s.pool.free.take n).map some ∧ op2.result = some r ∧ op2.tile = op.tile ∧ op2.slot = op.slot ∧
      op2.mean = some (meanColour (s.slot op.slot).px)) ∧
    u.store = { s.store with encoder := s.store.encoder ++ (s.pool.free.take n).mapIdx (fun j c =>
      .chunkWrite j c (s.pool.base + 256 * c) (chunkData r.stream j)) } :=
  startWriting_takeChunks (op := s.codedOp op r) (touches_coded r .pool (by decide)) (touches_coded r .store (by decide)) rfl enough

theorem putEnc_putPool (t : State) (p : Pool) (e : Encoder) :
    ((t.putPool p).putEnc e).pool = p ∧ ((t.putPool p).putEnc e).store = t.store ∧ ((t.putPool p).putEnc e).enc = e :=
  ⟨rfl, rfl, rfl⟩

/-- A tile that finds too few chunks at the end of its coding waits (R119). -/
theorem poolWait_coded (r : Result) (n : Nat) :
    let u := ((s.coded op r).putPool { s.pool with waiting := some n }).putEnc
      ⟨some { s.codedOp op r with stage := .poolWait }, some s.pool.limit⟩
    u.pool = { s.pool with waiting := some n } ∧ u.store = s.store ∧
      ∃ op2 : TileOp, u.enc = ⟨some op2, some s.pool.limit⟩ ∧ op2.stage = .poolWait ∧ op2.held = op.held ∧
        op2.result = some r ∧ op2.tile = op.tile := by
  obtain ⟨pool, store, enc⟩ := putEnc_putPool (s.coded op r) { s.pool with waiting := some n }
    ⟨some { s.codedOp op r with stage := .poolWait }, some s.pool.limit⟩
  exact ⟨pool, store.trans (touches_coded r .store (by decide)), _, enc, rfl, rfl, rfl, rfl⟩

theorem touches_request_coded (r : Result) (n : Nat) (chunks : List Nat) :
    OnlyTouches [.pool, .ctl, .enc, .store, .st] s (((s.coded op r).takeChunks n).startWriting (s.codedOp op r) chunks) ∧
    OnlyTouches [.pool, .ctl, .enc, .store, .st] s (((s.coded op r).putPool { s.pool with waiting := some n }).putEnc
      ⟨some { s.codedOp op r with stage := .poolWait }, some s.pool.limit⟩) :=
  ⟨((touches_coded r).andThen (C := [.pool, .ctl, .enc, .store, .st]) (touches_takeChunks _ _)).andThen
      (touches_startWriting _ _ _),
    ((touches_coded r).andThen (C := [.pool, .ctl, .enc, .store, .st]) (touches_putPool _ _)).andThen (touches_putEnc _ _)⟩

end

/-- Settles O46: the end of coding of a uniform tile, and of one that is not, by the aperture's state and the free list. -/
theorem codingEndCommitsAllocatesOrWaits : Obligations.CodingEndCommitsAllocatesOrWaits := by
  intro s op inHand coding first nothing px
  have executed : exec .codingEnd s = .next (s.endCoding op).finish :=
    (exec_codingEnd inHand).trans (if_pos (isCoding_iff.2 ⟨coding, first⟩))
  refine ⟨fun c uniform => ⟨fun live => ?_, fun retiring => ?_⟩, fun mixed => ?_⟩
  · rw [executed, endCoding_of_uniform uniform, if_neg live]
  · rw [executed, endCoding_of_uniform uniform, if_pos retiring]
  · intro x refits coded r n
    have final : s.finalResult op (stepOfRefit (s.ap op.tile.ap).fmt op.effStep (s.finalRefits op)) = r := finalResult_eq s op _
    have request := endCoding_request mixed final
    refine ⟨s.endCoding op, executed, refits_endCoding mixed final, fun retiring => ?_, fun live => ?_⟩
    · rw [request, if_pos retiring]
      exact abandon_coded r nothing
    · rw [if_neg live] at request
      refine ⟨?_, fun enough => ?_, fun few => ?_⟩
      · rw [request]
        split
        · exact (touches_request_coded r _ _).1
        · exact (touches_request_coded r _ []).2
      · rw [request, if_pos enough]
        exact startWriting_coded r enough
      · rw [request, if_neg (Nat.not_le.2 few)]
        exact poolWait_coded r n

end Sys2Proof.Machine
end

section
/-! PROOFS. The end of the pool wait and of the re-code (R118–R121), and the visits of the retire walk (R35). -/

set_option Elab.async false

namespace Sys2Proof.Machine

/-! ### The pool-wait expiry (R121) -/

section
variable {s : State} {op : TileOp}

/-- The state whose waiting request is dropped (R121). -/
def State.unwaited (s : State) : State := s.putPool { s.pool with waiting := none }

theorem pool_unwaited (s : State) : s.unwaited.pool = { s.pool with waiting := none } := rfl

theorem touches_unwaited (s : State) : OnlyTouches [.pool, .ctl, .st] s s.unwaited := touches_putPool _ _

theorem unwaited_of_agree (agree : s.FiguresAgree) : s.unwaited.ctl = s.ctl ∧ s.unwaited.st = s.st := by
  obtain ⟨ctl, st⟩ := putPool_of_same (p := { s.pool with waiting := none }) agree rfl rfl rfl
  have quiet : (s.st.stale || decide (s.pool.withdrawn.length ≠ s.pool.withdrawn.length)) = s.st.stale := by
    rw [decide_eq_false (not_not_intro rfl), Bool.or_false]
  exact ⟨ctl, st.trans (congrArg (fun b => { s.st with stale := b }) quiet)⟩

theorem expireWait_eq (s : State) (op : TileOp) : s.expireWait op =
    if op.isProtected then s.unwaited.degrade op else s.unwaited.putOp { op with stage := .coding, recode := true } := rfl

/-- A change of the encoder's stage makes the status block stale (R184). -/
theorem st_putEnc_of_other_stage {e : Encoder} (other : e.stage ≠ s.enc.stage) :
    (s.putEnc e).st = { s.st with stale := true } := by
  have stale : (s.st.stale || decide (e.stage ≠ s.enc.stage)) = true := by rw [decide_eq_true other, Bool.or_true]
  exact congrArg (fun b => { s.st with stale := b }) stale

theorem heldChunks_of_nothing (nothing : op.held = []) : op.heldChunks = [] := by rw [TileOp.heldChunks, nothing]; rfl

/-- A live tile degraded with nothing held: its entry, the total, the encoder and DEGRADED (R124). -/
theorem degrade_live_spec (live : (s.ap op.tile.ap).state ≠ .retiring) :
    entryAt (s.degrade op).map.entries ((s.ap op.tile.ap).extFirst + op.tile.ix) =
        ⟨.uniform (op.mean.getD (meanColour (s.slot op.slot).px)) true,
          (entryAt s.map.entries ((s.ap op.tile.ap).extFirst + op.tile.ix)).gen + 1⟩ ∧
      (s.degrade op).map.degradedTotal = s.map.degradedTotal + 1 ∧ (s.degrade op).enc = ⟨none, none⟩ ∧
      (s.degrade op).pool.waiting = s.pool.waiting ∧ (s.degrade op).st.faults.getLsbD 4 = true := by
  obtain ⟨map, pool, degraded⟩ := degrade_of_live live
  exact ⟨entryAt_degrade_of_live live, by rw [map]; rfl, enc_degrade s op, by rw [pool], degraded⟩

end

/-- Settles O49: an unprotected tile goes to its re-code, a protected one is degraded or abandoned. -/
theorem poolWaitExpiryRecodesOrDegrades : Obligations.PoolWaitExpiryRecodesOrDegrades := by
  intro s op inHand waits
  have executed : exec .poolWaitExpiry s = .next (s.expireWait op).finish := (exec_poolWaitExpiry inHand).trans (if_pos waits)
  refine ⟨fun free agree => ?_, fun isProtected nothing live => ?_, fun isProtected nothing retiring => ?_⟩
  · obtain ⟨ctl, st⟩ := unwaited_of_agree agree
    have isRecode : s.expireWait op = s.unwaited.putOp { op with stage := .coding, recode := true } := by
      rw [expireWait_eq, free]
      rfl
    have other : (some Stage.coding) ≠ s.enc.op.map TileOp.stage := by
      rw [inHand, Option.map_some, waits]
      decide
    refine ⟨s.unwaited.putOp { op with stage := .coding, recode := true }, executed.trans (by rw [isRecode]), rfl, rfl, ?_, ?_,
      ctl⟩
    · rw [← st]
      exact st_putEnc_of_other_stage (s := s.unwaited) other
    · exact (touches_unwaited s).andThen (touches_putOp _ _)
  · have degrades : s.expireWait op = s.unwaited.degrade op := by rw [expireWait_eq, if_pos isProtected]
    obtain ⟨entry, total, enc, waiting, degraded⟩ := degrade_live_spec (s := s.unwaited) (op := op) live
    exact ⟨_, executed.trans (by rw [degrades]), entry, total, enc, waiting, degraded,
      (touches_unwaited s).andThen (touches_degrade _ _)⟩
  · have degrades : s.expireWait op = s.unwaited.degrade op := by rw [expireWait_eq, if_pos isProtected]
    obtain ⟨map, -, pool⟩ := degrade_of_retiring (s := s.unwaited) (op := op) retiring
    refine ⟨_, executed.trans (by rw [degrades]), map, enc_degrade _ _, ?_⟩
    rw [pool, heldChunks_of_nothing nothing, List.append_nil, pool_unwaited]

/-! ### The end of the re-code (R121) -/

section
variable {s : State} {op : TileOp}

/-- The record with the result of the re-code at kmax (R121). -/
def TileOp.recodedOf (op : TileOp) (r : Result) : TileOp := { op with result := some r }

theorem endRecode_eq {r : Result} (code : codeTile (s.ap op.tile.ap).fmt op.tile op.gen
      (if (s.ap op.tile.ap).fmt = .rgb8 then 7 else 15) (s.slot op.slot).px = r) : s.endRecode op =
    if (s.ap op.tile.ap).state = .retiring then s.abandon (op.recodedOf r)
    else if r.chunkCount ≤ s.pool.free.length then
      (s.takeChunks r.chunkCount).startWriting (op.recodedOf r) (s.pool.free.take r.chunkCount)
    else s.degrade (op.recodedOf r) := by
  rw [← kmax_eq] at code
  subst code
  exact if_congr (isRetiring_iff s op) rfl (if_congr (canGrant_iff s _) rfl rfl)

end

/-- Settles O50: round 1 with the code at kmax, the degradation, or the abandonment. -/
theorem recodeEndWritesOrDegrades : Obligations.RecodeEndWritesOrDegrades := by
  intro s op inHand coding again nothing x r n
  have executed : exec .recodeEnd s = .next (s.endRecode op).finish :=
    (exec_recodeEnd inHand).trans (if_pos (isRecoding_iff.2 ⟨coding, again⟩))
  have ends := endRecode_eq (s := s) (op := op) (r := r) rfl
  refine ⟨fun retiring => ?_, fun live enough => ?_, fun live few => ?_⟩
  · rw [if_pos retiring] at ends
    exact ⟨s.abandon (op.recodedOf r), executed.trans (by rw [ends]), map_abandon _ _, enc_abandon _ _,
      (abandon_of_nothing_held (op := op.recodedOf r) nothing).1⟩
  · rw [if_neg live, if_pos enough] at ends
    obtain ⟨pool, ⟨op2, enc, stage, round, unanswered, held, result, tile, -, -⟩, store⟩ :=
      startWriting_takeChunks (s := s) (t := s) (op := op.recodedOf r) rfl rfl rfl enough
    refine ⟨_, executed.trans (by rw [ends]), pool, ⟨op2, enc, stage, round, unanswered, held, result, tile⟩, store, rfl, ?_⟩
    exact (touches_takeChunks s _).andThen (touches_startWriting _ _ _)
  · rw [if_neg live, if_neg (Nat.not_le.2 few)] at ends
    obtain ⟨entry, total, enc, -, degraded⟩ := degrade_live_spec (s := s) (op := op.recodedOf r) live
    exact ⟨_, executed.trans (by rw [ends]), entry, total, enc, degraded⟩

/-! ### The visits of the retire walk (R35) -/

/-- Settles O51: the visited entry is UNWRITTEN and its chunks are free. -/
theorem retireWalkVisitEmptiesTheEntry : Obligations.RetireWalkVisitEmptiesTheEntry := by
  intro s w walk left mapOk i
  have map : (s.visitEntry w).map =
      { s.map with entries := putEntry s.map.entries i MapEntry.fresh, walk := some ⟨w.ap, w.next + 1⟩ } :=
    touches_release _ _ .map (by decide)
  refine ⟨_, (exec_retireWalkVisit walk).trans (if_pos left), ?_, fun j other => ?_, ?_, ?_, ?_, ?_, release_pool _ _,
    touches_visitEntry s w⟩
  · rw [map]
    exact entryAt_putEntry_same i _ (.inl mapOk)
  · rw [map]
    exact entryAt_putEntry_other _ _ other
  all_goals rw [map]

end Sys2Proof.Machine
end

section
/-! PROOFS. Streams: what the encoder writes, what the decoder makes of it, and what it refuses (R83–R93, R140). -/

set_option Elab.async false

namespace Sys2Proof.Machine

/-! ### The parts of a stream (R90–R92) -/

theorem headerOf_eq (kind : Nat) (tile : TileRef) (fmt : Format) (k : Nat) (gen : Byte) (len : Nat) :
    headerOf kind tile fmt k gen len = streamHead kind tile fmt (BitVec.ofNat 8 k) gen len ++ List.replicate 6 0 := by
  have code : BitVec.ofNat 8 fmt.code = if fmt = .rgb8 then 0 else 1 := by cases fmt <;> rfl
  have third : tile.ix / 256 / 256 = tile.ix / 65536 := Nat.div_div_eq_div_mul _ _ _
  rw [headerOf, streamHead, code, ← third]
  rfl

theorem streamOf_eq (header body : List Byte) : streamOf header body = header ++ body ++ checkBytes (crc16 (header ++ body)) := rfl

theorem crc16_eq (bs : List Byte) : crc16 bs = (bitsOfBytes bs).foldl (crcStep 0x1021) 0xFFFF := by
  have from_reg (reg : BitVec 16) : bs.foldl crc16Byte reg = (bitsOfBytes bs).foldl (crcStep 0x1021) reg := by
    induction bs generalizing reg with
    | nil => rfl
    | cons x rest ih =>
      rw [List.foldl_cons, ih, show bitsOfBytes (x :: rest) = msbBits 8 x.toNat ++ bitsOfBytes rest from rfl, List.foldl_append,
        crc16Byte, bitsOf_eq]
      rfl
  exact from_reg 0xFFFF

section
variable (kind : Nat) (tile : TileRef) (fmt : Format) (k : Nat) (gen : Byte) (body pad : List Byte)

theorem length_headerOf (len : Nat) : (headerOf kind tile fmt k gen len).length = 16 := rfl

theorem body_streamOf {header : List Byte} (sixteen : header.length = 16) :
    ((streamOf header body ++ pad).drop 16).take body.length = body := by
  rw [streamOf_eq, ← sixteen, List.append_assoc, List.append_assoc, List.drop_left, List.take_left]

/-- A stream that the encoder wrote passes the header check and the check value (R90, R91). -/
theorem streamPasses_streamOf :
    StreamPasses kind tile fmt gen body.length (streamOf (headerOf kind tile fmt k gen body.length) body ++ pad) := by
  have length : (headerOf kind tile fmt k gen body.length ++ body).length = 16 + body.length := by
    rw [List.length_append, length_headerOf]
  refine ⟨⟨BitVec.ofNat 8 k, ?_⟩, ?_⟩
  · rw [streamOf_eq, headerOf_eq, List.append_assoc, List.append_assoc, List.append_assoc]
    rfl
  · rw [streamOf_eq, List.append_assoc, ← length, List.drop_left, List.take_left]
    rfl

end

/-- A stream that passes holds its whole body (R91). -/
theorem length_body_of_passes {kind : Nat} {tile : TileRef} {fmt : Format} {gen : Byte} {len : Nat} {stream : List Byte}
    (passes : StreamPasses kind tile fmt gen len stream) : ((stream.drop 16).take len).length = len := by
  have check := congrArg List.length passes.2
  rw [List.length_take, List.length_drop] at check
  rw [List.length_take, List.length_drop]
  have two : (checkBytes (crc16 (stream.take (16 + len)))).length = 2 := rfl
  omega

/-! ### The decoder's checks (R93, R140) -/

section
variable (fmt : Format) (tile : TileRef) (gen : Byte) (step len : Nat) (chunks : List Nat) (stream : List Byte)

open Classical in
theorem decodeStream_coded : decodeStream fmt tile ⟨.coded step chunks len, gen⟩ stream =
    if StreamPasses 1 tile fmt gen len stream then decodeBody fmt (exponentOf fmt step) ((stream.drop 16).take len) else none :=
  if_congr (passes_iff 1 tile fmt gen len stream) rfl rfl

open Classical in
theorem decodeStream_plain : decodeStream fmt tile ⟨.plain chunks len, gen⟩ stream =
    if StreamPasses 2 tile fmt gen len stream then some (decodePlain fmt ((stream.drop 16).take len)) else none :=
  if_congr (passes_iff 2 tile fmt gen len stream) rfl rfl

variable {fmt tile gen step len chunks stream}

theorem decodeStream_coded_some_iff {t : Tile} : decodeStream fmt tile ⟨.coded step chunks len, gen⟩ stream = some t ↔
    StreamPasses 1 tile fmt gen len stream ∧
      ∃ w q, BodyHolds fmt (exponentOf fmt step) ((stream.drop 16).take len) w q ∧ t = tileOf (exponentOf fmt step) q := by
  rw [decodeStream_coded, ← decodeBody_iff]
  split
  · rename_i passes
    exact (and_iff_right passes).symm
  · rename_i fails
    exact iff_of_false nofun fun is => fails is.1

theorem decodeStream_coded_none_iff : decodeStream fmt tile ⟨.coded step chunks len, gen⟩ stream = none ↔
    ¬(StreamPasses 1 tile fmt gen len stream ∧
      ∃ w q, BodyHolds fmt (exponentOf fmt step) ((stream.drop 16).take len) w q) := by
  rw [Option.eq_none_iff_forall_ne_some]
  refine ⟨fun refused ⟨passes, w, q, holds⟩ => ?_, fun fails t decoded => ?_⟩
  · exact refused _ (decodeStream_coded_some_iff.2 ⟨passes, w, q, holds, rfl⟩)
  · obtain ⟨passes, w, q, holds, -⟩ := decodeStream_coded_some_iff.1 decoded
    exact fails ⟨passes, w, q, holds⟩

theorem decodeStream_plain_some_iff {t : Tile} : decodeStream fmt tile ⟨.plain chunks len, gen⟩ stream = some t ↔
    StreamPasses 2 tile fmt gen len stream ∧ decodePlain fmt ((stream.drop 16).take len) = t := by
  rw [decodeStream_plain]
  split
  · rename_i passes
    rw [Option.some_inj]
    exact (and_iff_right passes).symm
  · rename_i fails
    exact iff_of_false nofun fun is => fails is.1

theorem decodeStream_plain_none_iff : decodeStream fmt tile ⟨.plain chunks len, gen⟩ stream = none ↔
    ¬StreamPasses 2 tile fmt gen len stream := by
  rw [decodeStream_plain]
  split
  · rename_i passes
    exact iff_of_false nofun fun fails => fails passes
  · rename_i fails
    exact iff_of_true rfl fails

/-- The samples that a well-formed body holds decide the tile (R93). -/
theorem pixelOf_decodeStream_coded {t : Tile} {w q : Nat → Nat}
    (decoded : decodeStream fmt tile ⟨.coded step chunks len, gen⟩ stream = some t)
    (holds : BodyHolds fmt (exponentOf fmt step) ((stream.drop 16).take len) w q) : t = tileOf (exponentOf fmt step) q := by
  obtain ⟨passes, -⟩ := decodeStream_coded_some_iff.1 decoded
  have again := decodeStream_coded_some_iff (chunks := chunks).2 ⟨passes, w, q, holds, rfl⟩
  exact Option.some_inj.1 (decoded.symm.trans again)

theorem getD_body {i : Nat} (inside : i < len) : ((stream.drop 16).take len).getD i 0 = stream.getD (16 + i) 0 := by
  rw [List.getD_eq_getElem?_getD, List.getElem?_take_of_lt inside, List.getElem?_drop, List.getD_eq_getElem?_getD]

theorem pixelOf_decodeStream_plain {t : Tile}
    (decoded : decodeStream fmt tile ⟨.plain chunks len, gen⟩ stream = some t) (whole : len = if fmt = .rgb8 then 3072 else 6144)
    {i : Nat} (inside : i < 1024) :
    let byte := fun n => (stream.getD (16 + n) 0).toNat
    let sample := fun c => BitVec.ofNat 16
      (if fmt = .rgb8 then byte (3 * i + c) else byte (6 * i + 2 * c) + 256 * byte (6 * i + 2 * c + 1))
    pixelOf t i = ⟨sample 0, sample 1, sample 2⟩ := by
  obtain ⟨passes, rfl⟩ := decodeStream_plain_some_iff.1 decoded
  intro byte sample
  have inBody : ∀ c < 3, BitVec.ofNat 16 (if fmt = .rgb8 then (((stream.drop 16).take len).getD (3 * i + c) 0).toNat
      else (((stream.drop 16).take len).getD (6 * i + 2 * c) 0).toNat +
        256 * (((stream.drop 16).take len).getD (6 * i + 2 * c + 1) 0).toNat) = sample c := by
    intro c channel
    refine congrArg (BitVec.ofNat 16) ?_
    split
    · rename_i narrow
      rw [if_pos narrow] at whole
      rw [getD_body (by omega)]
    · rename_i wide
      rw [if_neg wide] at whole
      rw [getD_body (by omega), getD_body (by omega)]
  have pixel := decodePlain_pixel fmt _ len (length_body_of_passes passes) whole inside
  rw [pixel, ← inBody 0 (by decide), ← inBody 1 (by decide), ← inBody 2 (by decide)]

end

/-! ### The CODED stream of a tile (R82–R88) -/

section
variable {fmt : Format} {tile : TileRef} {gen : Byte} {t : Tile} {step len : Nat} {stream : List Byte} {recon : Tile}

/-- The samples of a tile fit in the bits of its format. -/
def FitsFormat (fmt : Format) (t : Tile) : Prop :=
  let bits := if fmt = .rgb8 then 8 else 16
  ∀ i < 1024, (pixelOf t i).r.toNat < 2 ^ bits ∧ (pixelOf t i).g.toNat < 2 ^ bits ∧ (pixelOf t i).b.toNat < 2 ^ bits

/-- The raw sample by its number in a body: 96 × line + 32 × channel + column (R88). -/
def rawSample (t : Tile) (n : Nat) : Nat :=
  let c := pixelOf t (n / 96 * 32 + n % 32)
  (if n / 32 % 3 = 0 then c.r else if n / 32 % 3 = 1 then c.g else c.b).toNat

theorem exponentOf_eq (fmt : Format) (step : Nat) : exponentOf fmt step = min step (if fmt = .rgb8 then 7 else 15) := by
  rw [exponentOf, kmax_eq]

theorem exponentOf_le (fmt : Format) (step : Nat) : exponentOf fmt step ≤ if fmt = .rgb8 then 7 else 15 := by
  rw [exponentOf_eq]
  exact Nat.min_le_right _ _

theorem exponentOf_le_15 (fmt : Format) (step : Nat) : exponentOf fmt step ≤ 15 := by
  refine (exponentOf_le fmt step).trans ?_
  split <;> decide

theorem codeTile_coded_iff : codeTile fmt tile gen step t = .coded step stream len recon ↔
    streamOf (headerOf 1 tile fmt (exponentOf fmt step) gen (codedBody (exponentOf fmt step) t).length)
      (codedBody (exponentOf fmt step) t) = stream ∧ (codedBody (exponentOf fmt step) t).length = len ∧
        reconOf (exponentOf fmt step) t = recon := by
  rw [codeTile, Result.coded.injEq]
  exact and_iff_right rfl

/-- The tile of a tile's quantised samples is its reconstruction (R84). -/
theorem tileOf_rawSample (k : Nat) (t : Tile) : tileOf k (fun n => rawSample t n / 2 ^ k) = reconOf k t := by
  refine tile_ext fun i inside => ?_
  have pixel (c : Nat) (channel : c < 3) : rawSample t (i / 32 * 96 + c * 32 + i % 32) =
      (if c = 0 then (pixelOf t i).r else if c = 1 then (pixelOf t i).g else (pixelOf t i).b).toNat := by
    have place : (i / 32 * 96 + c * 32 + i % 32) / 96 * 32 + (i / 32 * 96 + c * 32 + i % 32) % 32 = i := by omega
    have isChannel : (i / 32 * 96 + c * 32 + i % 32) / 32 % 3 = c := by omega
    rw [rawSample, place, isChannel]
  rw [tileOf_pixel k _ inside, reconOf, pixelOf_vecMap _ _ inside]
  simp only [pixel 0 (by decide), pixel 1 (by decide), pixel 2 (by decide)]
  rfl

/-- The decoder rebuilds the encoder's reconstruction (R82). -/
theorem decodeStream_codeTile (fits : FitsFormat fmt t) (pad : List Byte) (chunks : List Nat)
    (code : codeTile fmt tile gen step t = .coded step stream len recon) :
    decodeStream fmt tile ⟨.coded step chunks len, gen⟩ (stream ++ pad) = some recon := by
  obtain ⟨rfl, rfl, rfl⟩ := codeTile_coded_iff.1 code
  obtain ⟨w, holds, -⟩ := codedBody_holds fmt (exponentOf fmt step) t fits (exponentOf_le fmt step)
  refine decodeStream_coded_some_iff.2 ⟨streamPasses_streamOf _ _ _ _ _ _ _, w, fun n => rawSample t n / 2 ^ exponentOf fmt step,
    ?_, (tileOf_rawSample _ t).symm⟩
  rw [body_streamOf _ _ (length_headerOf _ _ _ _ _ _)]
  exact holds

/-- Each sample of a reconstruction (R84). -/
theorem rebuild_quantise (k raw : Nat) : rebuild k (quantise k raw) = if k = 0 then raw else raw / 2 ^ k * 2 ^ k + 2 ^ (k - 1) := by
  rw [rebuild, quantise]
  split
  · rename_i lossless
    rw [lossless, Nat.pow_zero, Nat.div_one]
  · rfl

end

/-! ### The PLAIN stream of a tile (R89) -/

section
variable {fmt : Format}

theorem setWidth_narrow {v : Sample} (narrow : v.toNat < 2 ^ 8) : (v.setWidth 8).setWidth 16 = v := by
  refine BitVec.eq_of_toNat_eq ?_
  rw [BitVec.toNat_setWidth, BitVec.toNat_setWidth, Nat.mod_eq_of_lt narrow, Nat.mod_eq_of_lt v.isLt]

theorem append_bytes (v : Sample) : v.extractLsb' 8 8 ++ v.setWidth 8 = v := by
  refine BitVec.eq_of_getLsbD_eq fun i inside => ?_
  rw [BitVec.getLsbD_append, BitVec.getLsbD_setWidth, BitVec.getLsbD_extractLsb']
  by_cases low : i < 8
  · simp [low]
  · have high : i - 8 < 8 := by omega
    have back : 8 + (i - 8) = i := by omega
    simp [low, high, back]

/-- The bytes of a pixel in a PLAIN body. -/
def pixelBytes (fmt : Format) (c : Colour) : List Byte := sampleBytes fmt c.r ++ sampleBytes fmt c.g ++ sampleBytes fmt c.b

theorem length_pixelBytes (c : Colour) : (pixelBytes fmt c).length = if fmt = .rgb8 then 3 else 6 := by cases fmt <;> rfl

/-- The pixels of the bytes of some pixels. -/
theorem coloursOf_pixelBytes (l : List Colour) (fits : ∀ c ∈ l, let bits := if fmt = .rgb8 then 8 else 16
      c.r.toNat < 2 ^ bits ∧ c.g.toNat < 2 ^ bits ∧ c.b.toNat < 2 ^ bits) :
    coloursOf (samplesOf fmt (l.flatMap (pixelBytes fmt))) = l := by
  induction l with
  | nil => cases fmt <;> rfl
  | cons c rest ih =>
    obtain ⟨r, g, b⟩ := fits c List.mem_cons_self
    have tail := ih fun d mem => fits d (List.mem_cons_of_mem c mem)
    cases fmt with
    | rgb8 =>
      show (⟨(c.r.setWidth 8).setWidth 16, (c.g.setWidth 8).setWidth 16, (c.b.setWidth 8).setWidth 16⟩ : Colour) ::
        coloursOf (samplesOf .rgb8 (rest.flatMap (pixelBytes .rgb8))) = c :: rest
      rw [setWidth_narrow r, setWidth_narrow g, setWidth_narrow b, tail]
    | rgb16 =>
      show (⟨c.r.extractLsb' 8 8 ++ c.r.setWidth 8, c.g.extractLsb' 8 8 ++ c.g.setWidth 8,
        c.b.extractLsb' 8 8 ++ c.b.setWidth 8⟩ : Colour) ::
        coloursOf (samplesOf .rgb16 (rest.flatMap (pixelBytes .rgb16))) = c :: rest
      rw [append_bytes, append_bytes, append_bytes, tail]

theorem tileOfList_toList (t : Tile) : tileOfList t.toList = t := by
  refine tile_ext fun i inside => ?_
  rw [pixelOf_tileOfList _ inside, pixelOf_eq t inside, toList_eq_map_pixelOf, List.getElem?_map, List.getElem?_range inside,
    Option.map_some, Option.getD_some, pixelOf_eq t inside]

/-- A PLAIN body decodes to its tile (R89). -/
theorem decodePlain_plainBody {t : Tile} (fits : FitsFormat fmt t) : decodePlain fmt (plainBody fmt t) = t := by
  have all : ∀ c ∈ t.toList, let bits := if fmt = .rgb8 then 8 else 16
      c.r.toNat < 2 ^ bits ∧ c.g.toNat < 2 ^ bits ∧ c.b.toNat < 2 ^ bits := by
    rw [toList_eq_map_pixelOf]
    rintro c mem
    obtain ⟨i, inside, rfl⟩ := List.mem_map.1 mem
    exact fits i (List.mem_range.1 inside)
  exact (congrArg tileOfList (coloursOf_pixelBytes t.toList all)).trans (tileOfList_toList t)

theorem length_plainBody (t : Tile) : (plainBody fmt t).length = if fmt = .rgb8 then 3072 else 6144 := by
  have total (l : List Colour) : (l.flatMap (pixelBytes fmt)).length = l.length * if fmt = .rgb8 then 3 else 6 := by
    rw [List.length_flatMap, List.map_congr_left fun c _ => length_pixelBytes c, List.map_const', List.sum_replicate, smul_eq_mul]
  refine (total t.toList).trans ?_
  rw [Vector.length_toList]
  cases fmt <;> rfl

variable {tile : TileRef} {gen : Byte} {t : Tile} {len : Nat} {stream : List Byte} {recon : Tile}

theorem plainTile_iff : plainTile fmt tile gen t = .plain stream len recon ↔
    streamOf (headerOf 2 tile fmt 0 gen (plainBody fmt t).length) (plainBody fmt t) = stream ∧ (plainBody fmt t).length = len ∧
      t = recon := by
  rw [plainTile, Result.plain.injEq]

theorem decodeStream_plainTile (fits : FitsFormat fmt t) (pad : List Byte) (chunks : List Nat)
    (code : plainTile fmt tile gen t = .plain stream len recon) :
    recon = t ∧ decodeStream fmt tile ⟨.plain chunks len, gen⟩ (stream ++ pad) = some recon := by
  obtain ⟨rfl, rfl, rfl⟩ := plainTile_iff.1 code
  refine ⟨rfl, decodeStream_plain_some_iff.2 ⟨streamPasses_streamOf _ _ _ _ _ _ _, ?_⟩⟩
  rw [body_streamOf _ _ (length_headerOf _ _ _ _ _ _)]
  exact decodePlain_plainBody fits

end

/-- Settles O55: the decoder rebuilds what the encoder coded, the streams and chunks have the manual's form, and a stream that
fails a check is refused. -/
theorem decodeOfEncodeIsTheReconstruction : Obligations.DecodeOfEncodeIsTheReconstruction := by
  refine ⟨?encode, fun stream => ?chunks, fun fmt tile gen chunks len stream => ⟨fun step => ?decode,
    decodeStream_plain_none_iff, fun t decoded whole i inside => pixelOf_decodeStream_plain decoded whole inside, rfl,
    fun c d => rfl⟩⟩
  case encode =>
    intro fmt tile gen t pad chunks bits fits
    refine ⟨fun step stream len recon code => ⟨decodeStream_codeTile fits pad chunks code, ?lossless, ?pixels⟩,
      fun stream len recon code => decodeStream_plainTile fits pad chunks code, fun step stream len recon code => ?coded,
      fun stream len recon code => ?plain⟩
    case lossless =>
      rintro rfl
      obtain ⟨-, -, rfl⟩ := codeTile_coded_iff.1 code
      have lossless : exponentOf fmt 0 = 0 := Nat.zero_min _
      rw [lossless, reconOf_zero]
    case pixels =>
      obtain ⟨-, -, rfl⟩ := codeTile_coded_iff.1 code
      intro k raw i inside
      have pixel := reconOf_pixel (exponentOf_le_15 fmt step) t inside
      simp only [rebuild_quantise, exponentOf_eq] at pixel
      rw [exponentOf_eq]
      exact pixel
    case coded =>
      obtain ⟨rfl, rfl, -⟩ := codeTile_coded_iff.1 code
      obtain ⟨w, holds, tight⟩ := codedBody_holds fmt (exponentOf fmt step) t fits (exponentOf_le fmt step)
      rw [← exponentOf_eq]
      refine ⟨codedBody (exponentOf fmt step) t, w, rfl, holds, tight, ?_⟩
      rw [streamOf_eq, headerOf_eq]
    case plain =>
      obtain ⟨rfl, rfl, -⟩ := plainTile_iff.1 code
      refine ⟨plainBody fmt t, rfl, length_plainBody t, ?_⟩
      rw [streamOf_eq, headerOf_eq]
      rfl
  case chunks =>
    have enough : stream.length ≤ 256 * chunkCount stream.length := by rw [chunkCount]; omega
    have least : 256 * chunkCount stream.length < stream.length + 256 := by rw [chunkCount]; omega
    exact ⟨enough, least, chunkData_length stream, chunkData_flatMap stream _ enough, crc16_eq stream,
      fun step len recon => ⟨rfl, rfl, rfl, rfl⟩⟩
  case decode =>
    rw [← exponentOf_eq]
    refine ⟨decodeStream_coded_none_iff, fun t w q decoded holds i inside => ?_⟩
    rw [pixelOf_decodeStream_coded decoded holds]
    exact tileOf_pixel _ q inside

end Sys2Proof.Machine
end

section
/-! PROOFS. Invariants that are read from one block: the receiver (R165, R169), step control (R98, R100), the order queue (R172), and
the numbers of the requests (R152, R155). -/

set_option Elab.async false

namespace Sys2Proof.Machine

/-! ### The encoder leaves the receiver, the ports of the bus and the orders -/

/-- The blocks that the encoder's operations touch. -/
abbrev encoderBlocks : List Block := [.aps, .map, .pool, .asm, .ctl, .enc, .rd, .store, .st]

/-- An invariant read from other blocks is kept by the encoder. -/
theorem encoderKeeps_of_apart {D : List Block} {P : State → Prop}
    (same : ∀ s t, (∀ b ∈ D, SameBlock b s t) → P s → P t) (a : apart D encoderBlocks = true) : EncoderKeeps P := by
  have keep {s t : State} (h : OnlyTouches encoderBlocks s t) (k : P s) : P t := same s t (same_of_apart a h) k
  exact
    { chunkWritten := fun s _ _ _ _ _ _ _ => keep ((touches_popOutstanding s).andThen (touches_chunkWritten _ _ _ _))
      endRefit := fun s op _ _ => keep (touches_endRefit s op).mono
      endCoding := fun s op _ _ => keep (touches_endCoding s op).mono
      expireWait := fun s op _ _ => keep (touches_expireWait s op).mono
      endRecode := fun s op _ _ => keep (touches_endRecode s op).mono
      grantWaiting := fun s t h => keep (touches_grantWaiting h).mono }

/-! ### The receiver (R165, R169) -/

/-- A receiver that holds nothing. -/
theorem receiverOk_fresh {s : State} {state : LinkState} (fresh : s.link = Receiver.fresh state) : s.ReceiverOk := by
  rw [State.ReceiverOk, fresh]
  exact ⟨fun _ => ⟨rfl, rfl, rfl⟩, Nat.zero_le _, Nat.zero_le _, fun h => h.elim (absurd rfl) nofun⟩

theorem receiverOk_of_same {s t : State} (same : t.link = s.link) (h : s.ReceiverOk) : t.ReceiverOk := by
  rwa [State.ReceiverOk, same]

theorem classLength_bounds {c : BitVec 3} {n : Nat} (h : classLength c = some n) : 1 ≤ n ∧ n ≤ 24 := by
  unfold classLength at h
  split at h
  · cases h; decide
  · split at h
    · cases h; decide
    · split at h
      · cases h; decide
      · split at h
        · cases h; decide
        · split at h
          · cases h; decide
          · cases h

section
variable {s : State} {b : Bool}

/-- While a legal class or none is known after a bit, it is known from the third bit on, and the order has a byte to come (R169). -/
theorem classWith_known (ok : s.ReceiverOk) (legal : ¬((s.link.classWith b).any fun c => (classLength c).isNone) = true)
    (third : s.link.bytes ≠ [] ∨ 3 ≤ (s.link.bits ++ [b]).length) :
    ∃ n, (s.link.classWith b).bind classLength = some n ∧ s.link.bytes.length < n := by
  obtain ⟨-, -, -, known⟩ := ok
  by_cases now : (s.link.bytes.isEmpty && decide ((s.link.bits ++ [b]).length = 3)) = true
  · have isClass : s.link.classWith b = some (classOfBits (s.link.bits ++ [b])) := if_pos now
    rw [isClass, Option.any_some, Option.isNone_iff_eq_none] at legal
    obtain ⟨n, length⟩ := Option.ne_none_iff_exists'.1 legal
    have none_yet : s.link.bytes = [] := List.isEmpty_iff.1 (Bool.and_eq_true_iff.1 now).1
    refine ⟨n, by rw [isClass, Option.bind_some, length], ?_⟩
    rw [none_yet]
    exact (classLength_bounds length).1
  · have isClass : s.link.classWith b = s.link.cls := if_neg now
    rw [isClass]
    by_cases empty : s.link.bytes = []
    · have long := third.resolve_left (not_not_intro empty)
      have other : (s.link.bits ++ [b]).length ≠ 3 := fun three =>
        now (Bool.and_eq_true_iff.2 ⟨List.isEmpty_iff.2 empty, decide_eq_true three⟩)
      rw [List.length_append, List.length_singleton] at long other
      exact known (.inr (by omega))
    · exact known (.inl empty)

theorem receiverOk_goDeaf (s : State) : s.goDeaf.ReceiverOk := receiverOk_fresh (state := .deaf) rfl

theorem receiverOk_endFrame (s : State) (frame : List Byte) : (s.endFrame frame).ReceiverOk := by
  have passing : (s.putLink (Receiver.fresh .passing)).ReceiverOk := receiverOk_fresh (state := .passing) rfl
  unfold State.endFrame
  dsimp only
  split
  · exact receiverOk_of_same (touches_arrive _ _ .link (by decide)) passing
  · exact receiverOk_of_same (touches_raise _ .link .link (by decide)) passing

theorem receiverOk_takeBit (ok : s.ReceiverOk) : (s.takeBit b).ReceiverOk := by
  rw [takeBit_eq]
  split
  · exact receiverOk_goDeaf s
  · rename_i legal
    have known := classWith_known ok legal
    have added : (s.link.bits ++ [b]).length = s.link.bits.length + 1 := by rw [List.length_append, List.length_singleton]
    split
    · rename_i short
      exact ⟨fun away => absurd rfl away, Nat.lt_succ_iff.1 short, ok.2.2.1, known⟩
    · rename_i whole
      obtain ⟨n, length, more⟩ := known (.inr (by omega))
      split
      · exact receiverOk_endFrame s _
      · rename_i unfinished
        have grown : (s.link.bytes ++ [byteOfBits (s.link.bits ++ [b])]).length = s.link.bytes.length + 1 := by
          rw [List.length_append, List.length_singleton]
        have other : n ≠ s.link.bytes.length + 1 := fun is => unfinished (by rw [length, grown, is])
        obtain ⟨c, -, isLength⟩ := Option.bind_eq_some_iff.1 length
        have bound := (classLength_bounds isLength).2
        refine ⟨fun away => absurd rfl away, Nat.zero_le _, ?_, fun _ => ⟨n, length, ?_⟩⟩
        · show (s.link.bytes ++ [byteOfBits (s.link.bits ++ [b])]).length ≤ 23
          omega
        · show (s.link.bytes ++ [byteOfBits (s.link.bits ++ [b])]).length < n
          omega

end

theorem receiverOk_lineKeeps : LineKeeps State.ReceiverOk where
  resetLink s _ := receiverOk_fresh (state := .armed) rfl
  bitTimeout s ok := by
    rcases bitTimeout_cases s with ⟨-, deaf⟩ | ⟨-, same⟩
    · exact deaf ▸ receiverOk_goDeaf s
    · exact same.symm ▸ ok
  illegalClass s ok := by
    rcases illegalClass_cases s with ⟨-, -, deaf⟩ | ⟨-, same⟩
    · exact deaf ▸ receiverOk_goDeaf s
    · exact same.symm ▸ ok
  firstEdge s ok := by
    rcases firstEdge_cases s with ⟨-, taking⟩ | ⟨-, same⟩
    · exact taking ▸ receiverOk_fresh (state := .taking) rfl
    · exact same.symm ▸ ok
  goDeaf s _ _ := receiverOk_goDeaf s
  takeBit _ _ _ ok := receiverOk_takeBit ok

theorem receiverOk_kept : KeptFrom [.link] State.ReceiverOk where
  same s t same _ ok := receiverOk_of_same (same .link (by decide)) ok
  powerOn _ _ := receiverOk_fresh (state := .deaf) rfl
  resetAsserted _ ok := ok
  encoder := encoderKeeps_of_apart (D := [.link]) (fun _ _ same ok => receiverOk_of_same (same .link (by decide)) ok) rfl
  orders := { setStatus := fun s field mask ok => receiverOk_of_same (touches_runSetStatus s _ field mask .link (by decide)) ok }
  line := .inr receiverOk_lineKeeps

/-! ### Step control (R98, R100) -/

/-- The bounds of step control's record. -/
def StepControl.Bounded (c : StepControl) : Prop :=
  (∀ b : Fin 8, c.curve.get b ≤ 15) ∧ c.demanded ≤ 15 ∧ c.applied ≤ 15 ∧ c.upCount < c.up ∧ c.downCount < c.down

theorem bounded_reset : StepControl.reset.Bounded := by unfold StepControl.Bounded; decide

theorem bounded_slew {c : StepControl} (ok : c.Bounded) : c.slew.Bounded := by
  obtain ⟨curve, demanded, applied, up, down⟩ := ok
  have noUp : 0 < c.up := by omega
  have noDown : 0 < c.down := by omega
  unfold StepControl.slew
  split
  · split
    · rename_i below early
      exact ⟨curve, demanded, applied, early, noDown⟩
    · rename_i below due
      refine ⟨curve, demanded, ?_, noUp, noDown⟩
      show c.applied + 1 ≤ 15
      omega
  · split
    · split
      · rename_i above early
        exact ⟨curve, demanded, applied, noUp, early⟩
      · refine ⟨curve, demanded, ?_, noUp, noDown⟩
        show c.applied - 1 ≤ 15
        omega
    · exact ⟨curve, demanded, applied, noUp, noDown⟩

theorem stepsOk_of_same {s t : State} (same : t.ctl = s.ctl) (ok : s.StepsOk) : t.StepsOk := by rwa [State.StepsOk, same]

theorem stepsOk_evalPool {s : State} (ok : s.StepsOk) : s.evalPool.StepsOk := by
  obtain ⟨curve, -, applied, up, down⟩ := ok
  exact ⟨curve, curve _, applied, up, down⟩

theorem stepsOk_putPool {s : State} (p : Pool) (ok : s.StepsOk) : (s.putPool p).StepsOk :=
  stepsOk_evalPool (s := (s.setPool p).markIf _) ok

theorem stepsOk_slewStep {s : State} (ok : s.StepsOk) : s.slewStep.StepsOk := bounded_slew (c := s.ctl) ok

theorem stepsOk_release {s : State} (chunks : List Nat) (ok : s.StepsOk) : (s.release chunks).StepsOk := by
  unfold State.release
  split
  · exact ok
  · exact stepsOk_putPool _ ok

theorem stepsOk_commit {s : State} (op : TileOp) (r : Result) (ok : s.StepsOk) : (s.commit op r).StepsOk := by
  have released : ((s.setMap (s.map.commit (s.entryIx op.tile) (r.content op.heldChunks) r.isDegraded)).markStale.release
      (s.entry op.tile).content.chunks).StepsOk := stepsOk_release _ (s := State.markStale _) ok
  have counted : (((s.beforeCount op r).countCommitted op.tile.ap (s.entry op.tile).content).putEnc Encoder.reset).StepsOk :=
    stepsOk_of_same ((((touches_commitCache _ op.tile r).andThen (C := [.aps, .rd, .st]) (touches_countCommitted _ _ _)).andThen
      (C := [.aps, .enc, .rd, .st]) (touches_putEnc _ _)) .ctl (by decide)) released
  have slewed := stepsOk_slewStep (stepsOk_of_same (touches_freeEncoding _ op.slot .ctl (by decide)) counted)
  rw [commit_eq_count, State.afterCount]
  split
  · exact stepsOk_of_same (touches_raise _ .degraded .ctl (by decide)) slewed
  · exact slewed

theorem stepsOk_encoder : KeptByEncoder State.StepsOk where
  putEnc _ _ ok := ok
  putPool _ p _ _ ok := stepsOk_putPool p ok
  setStore _ _ ok := ok
  raise _ ok := ok
  addRefits _ _ ok := ok
  freeEncoding s k ok := stepsOk_of_same (touches_freeEncoding s k .ctl (by decide)) ok
  commit _ op r ok := stepsOk_commit op r ok

theorem stepsOk_setPool (s : State) (f : PoolFields) (ok : s.StepsOk) : (s.execute (.setPool f)).StepsOk := by
  rcases runSetPool_cases s (.setPool f) f with ⟨k, refused⟩ | ⟨-, -, -, accepted⟩
  · rw [State.execute, refused]
    exact ok
  · rw [State.execute, accepted]
    exact stepsOk_putPool _ ok

theorem loadCurve_bounded {f : CurveFields} {c : StepControl} (good : ¬curveBadParam f = true) (ok : c.Bounded) :
    (loadCurve f c).Bounded := by
  unfold curveBadParam at good
  simp only [Bool.or_eq_true, decide_eq_true_eq, not_or, List.any_eq_true, not_exists, not_and] at good
  obtain ⟨⟨⟨⟨⟨⟨steps, up⟩, down⟩, -⟩, -⟩, -⟩, -⟩ := good
  obtain ⟨-, demanded, applied, -, -⟩ := ok
  refine ⟨fun b => ?_, demanded, applied, ?_, ?_⟩
  · have isStep : (loadCurve f c).curve.get b = (f.steps.get b).toNat := by
      rw [Vector.get_eq_getElem, Vector.get_eq_getElem]
      exact vecMap_getElem _ _ _ _
    rw [isStep]
    exact Nat.not_lt.1 (steps _ (by simp [Vector.get]))
  · exact Nat.pos_of_ne_zero fun zero => up (BitVec.eq_of_toNat_eq zero)
  · exact Nat.pos_of_ne_zero fun zero => down (BitVec.eq_of_toNat_eq zero)

theorem stepsOk_setCurve (s : State) (f : CurveFields) (ok : s.StepsOk) : (s.execute (.setCurve f)).StepsOk := by
  rcases runSetCurve_cases s (.setCurve f) f with ⟨k, refused⟩ | ⟨good, accepted⟩
  · rw [State.execute, refused]
    exact ok
  · rw [State.execute, accepted]
    exact stepsOk_evalPool (s := s.setCtl (loadCurve f s.ctl)) (loadCurve_bounded good ok)

theorem stepsOk_kept : KeptFrom [.ctl] State.StepsOk where
  same s t same _ ok := stepsOk_of_same (same .ctl (by decide)) ok
  powerOn _ _ := bounded_reset
  resetAsserted _ _ := bounded_reset
  encoder := stepsOk_encoder.keeps
  orders :=
    { setStatus := fun s field mask ok => stepsOk_of_same (touches_runSetStatus s _ field mask .ctl (by decide)) ok
      setPool := .inr stepsOk_setPool
      setCurve := .inr stepsOk_setCurve }
  visitEntry := .inr fun s w _ _ ok => stepsOk_release (s := s.setMap _) _ ok

/-! ### The order queue (R172) -/

theorem queue_concludeOrder (s : State) (o : Order) (r : OrderResult) (k : Option OrderReason) :
    (s.concludeOrder o r k).ord.queue = s.ord.queue := rfl

theorem queue_orderStarts (s : State) (o : Order) : (s.orderStarts o).ord.queue = s.ord.queue := rfl

/-- An order's execution leaves the queue. -/
theorem queue_execute (s : State) (o : Order) : (s.execute o).ord.queue = s.ord.queue := by
  have started_of {t : State} {o : Order} (same : t.ord = s.ord) : (t.orderStarts o).ord.queue = s.ord.queue :=
    (queue_orderStarts t o).trans (congrArg OrderUnit.queue same)
  have refused {t : State} (is : ∃ k, t = s.orderRefused o k) : t.ord.queue = s.ord.queue := by
    obtain ⟨k, rfl⟩ := is
    rfl
  cases o with
  | nop => rfl
  | halt => rfl
  | close ap zero b2 =>
    rcases runClose_cases s (.close ap zero b2) ap zero b2 with is | ⟨-, -, started⟩
    · exact refused is
    · rw [State.execute, started]
      exact started_of (touches_startClose s (apOf ap) .ord (by decide))
  | flush all freeze ap zero b2 =>
    rcases runFlush_cases s (.flush all freeze ap zero b2) all freeze ap zero b2 with
      is | ⟨-, -, done⟩ | ⟨-, -, started⟩ | ⟨-, -, started⟩
    · exact refused is
    · rw [State.execute, done]
      rfl
    · rw [State.execute, started]
      exact started_of (touches_forceSlots s _ .ord (by decide))
    · rw [State.execute, started]
      have before : (s.beforeForce (apOf ap) freeze).ord = s.ord := by unfold State.beforeForce; split <;> rfl
      have forced : ((s.beforeForce (apOf ap) freeze).forceSlots fun b => decide (b = apOf ap)).ord =
          (s.beforeForce (apOf ap) freeze).ord := touches_forceSlots _ _ .ord (by decide)
      exact started_of (forced.trans before)
  | thaw ap zero b2 =>
    rcases runThaw_cases s (.thaw ap zero b2) ap zero b2 with is | ⟨-, done⟩
    · exact refused is
    · rw [State.execute, done]
      rfl
  | clearFaults faults b2 =>
    rw [State.execute, State.runClearFaults]
    split <;> rfl
  | protect clear ap zero x0 y0 x1 y1 b6 =>
    rcases runProtect_cases s (.protect clear ap zero x0 y0 x1 y1 b6) clear ap zero x0 y0 x1 y1 b6 with is | ⟨rects, done⟩
    · exact refused is
    · rw [State.execute, done]
      rfl
  | setStatus field mask =>
    rcases runSetStatus_cases s (.setStatus field mask) field mask with is | ⟨-, done⟩
    · exact refused is
    · rw [State.execute, done]
      rfl
  | openOrder f =>
    rcases runOpen_cases s (.openOrder f) f with is | ⟨-, -, -, -, -, -, first, left, -, accepted⟩
    · exact refused is
    · rw [State.execute, accepted]
      rfl
  | setPool f =>
    rcases runSetPool_cases s (.setPool f) f with is | ⟨-, -, -, accepted⟩
    · exact refused is
    · rw [State.execute, accepted]
      exact (queue_concludeOrder _ _ _ _).trans (congrArg OrderUnit.queue (touches_putPool s (poolOf f s.pool) .ord (by decide)))
  | setCurve f =>
    rcases runSetCurve_cases s (.setCurve f) f with is | ⟨-, accepted⟩
    · exact refused is
    · rw [State.execute, accepted]
      rfl
  | undefined b => rfl

/-- The order queue keeps its bound. -/
def State.QueueBounded (s : State) : Prop := s.ord.queue.length ≤ 4

theorem queueBounded_of_queue {s t : State} (same : t.ord.queue = s.ord.queue) (ok : s.QueueBounded) : t.QueueBounded := by
  rwa [State.QueueBounded, same]

theorem queueBounded_execute (s : State) (o : Order) (ok : s.QueueBounded) : (s.execute o).QueueBounded :=
  queueBounded_of_queue (queue_execute s o) ok

theorem queueBounded_endLongOrder {s t : State} (h : s.endLongOrder = some t) (ok : s.QueueBounded) : t.QueueBounded := by
  rcases endLongOrder_cases h with ⟨_, _, _, _, -, -, -, -, rfl⟩ | ⟨_, _, _, _, _, -, -, -, rfl⟩ | ⟨_, _, _, -, -, rfl⟩
  all_goals exact ok

theorem queueBounded_kept : KeptFrom [.ord] State.QueueBounded where
  same s t same _ ok := queueBounded_of_queue (congrArg OrderUnit.queue (same .ord (by decide))) ok
  powerOn _ _ := Nat.zero_le 4
  resetAsserted _ _ := Nat.zero_le 4
  encoder := encoderKeeps_of_apart (D := [.ord])
    (fun _ _ same ok => queueBounded_of_queue (congrArg OrderUnit.queue (same .ord (by decide))) ok) rfl
  orders :=
    { close := .inr fun s _ _ _ => queueBounded_execute s _
      flush := .inr fun s _ _ _ _ _ => queueBounded_execute s _
      thaw := .inr fun s _ _ _ => queueBounded_execute s _
      clearFaults := .inr fun s _ _ => queueBounded_execute s _
      protect := .inr fun s _ _ _ _ _ _ _ _ => queueBounded_execute s _
      setStatus := fun s _ _ => queueBounded_execute s _
      openOrder := .inr fun s _ => queueBounded_execute s _
      setPool := .inr fun s _ => queueBounded_execute s _
      setCurve := .inr fun s _ => queueBounded_execute s _
      undefined := .inr fun s _ => queueBounded_execute s _
      dequeue := .inr fun s o rest _ queue ok => by
        rw [State.QueueBounded, queue, List.length_cons] at ok
        exact Nat.le_of_succ_le ok
      enqueue := .inr fun s o room _ => by
        show (s.ord.queue ++ [o]).length ≤ 4
        rw [List.length_append, List.length_singleton]
        exact room
      haltNow := .inr fun s _ => Nat.zero_le 4 }
  endLongOrder := .inr fun _ _ => queueBounded_endLongOrder

end Sys2Proof.Machine
end

section
/-! PROOFS. The numbers of the requests: the window keeps its bound, and the responses leave in the order of the takes (R152, R155). -/

set_option Elab.async false

namespace Sys2Proof.Machine

/-! ### What leaves the numbers -/

/-- From `s` to `t` no request enters the window or leaves it, and none is answered on the bus. -/
structure SameIds (s t : State) : Prop where
  ids : t.port.window.map Request.id = s.port.window.map Request.id
  sent : t.port.sent = s.port.sent
  nextId : t.port.nextId = s.port.nextId

namespace SameIds
variable {s t u : State}

theorem refl (s : State) : SameIds s s := ⟨rfl, rfl, rfl⟩

theorem trans (h : SameIds s t) (k : SameIds t u) : SameIds s u :=
  ⟨k.ids.trans h.ids, k.sent.trans h.sent, k.nextId.trans h.nextId⟩

theorem of_port (same : t.port = s.port) : SameIds s t := by
  constructor <;> rw [same]

theorem of_touches {B : List Block} (h : OnlyTouches B s t) (apart : Block.port ∉ B := by decide) : SameIds s t :=
  of_port (h .port apart)

theorem foldl {α : Type} {f : State → α → State} (h : ∀ s x, SameIds s (f s x)) (l : List α) (s : State) :
    SameIds s (l.foldl f s) := by
  induction l generalizing s with
  | nil => exact refl s
  | cons x xs ih => exact (h s x).trans (ih _)

end SameIds

theorem ids_updRequest (s : State) (id : Nat) {f : Request → Request} (keeps : ∀ r, (f r).id = r.id) :
    SameIds s (s.updRequest id f) := by
  refine ⟨?_, rfl, rfl⟩
  show (s.port.window.map fun r => if r.id = id then (f r).conclude else r).map Request.id = _
  rw [List.map_map]
  refine List.map_congr_left fun r _ => ?_
  rw [Function.comp]
  split
  · rw [(id_conclude _).1, keeps]
  · rfl

theorem ids_updPart (s : State) (ref : PartRef) (f : Part → Part) : SameIds s (s.updPart ref f) :=
  ids_updRequest s ref.req fun _ => rfl

theorem ids_passAnswered (s : State) (id : Nat) (status : StoreStatus) (data : List Byte) :
    SameIds s (s.passAnswered id status data) := by
  refine ids_updRequest s id fun r => ?_
  cases status <;> rfl

theorem ids_serveReader (x : Tile) (s : State) (ref : PartRef) : SameIds s (State.serveReader x s ref) := ids_updPart s ref _

theorem ids_failReader (s : State) (ref : PartRef) : SameIds s (s.failReader ref) := ids_updPart s ref _

theorem ids_decodeSucceeds (s : State) (e : DecodeEntry) (x : Tile) : SameIds s (s.decodeSucceeds e x) := by
  have served : SameIds s (e.readers.foldl (State.serveReader x) (s.insertCache e.tile x)) :=
    (SameIds.of_touches (touches_insertCache s _ _)).trans (.foldl (ids_serveReader x) _ _)
  exact served.trans (.of_touches ((touches_serveGather _ e.gather x).andThen (C := [.asm, .rd, .st]) (touches_leaveDecoder _)))

theorem ids_decodeFails (s : State) (e : DecodeEntry) : SameIds s (s.decodeFails e) :=
  (SameIds.foldl ids_failReader e.readers s).trans
    (.of_touches ((touches_serveGather _ e.gather _).andThen (C := [.asm, .rd, .st]) (touches_leaveDecoder _)))

theorem ids_chunkAnswered (s : State) (status : StoreStatus) (data : List Byte) : SameIds s (s.chunkAnswered status data) := by
  unfold State.chunkAnswered
  split
  · next d e rest decoder queue =>
    have received : SameIds s (s.putDecode (d.receive status data) (decide (status = .error) && !e.discard)) :=
      .of_touches (touches_putDecode _ _ _)
    dsimp only
    split
    · split
      · exact received.trans (.of_touches (touches_leaveDecoder _))
      · split
        · exact received.trans (ids_decodeFails _ e)
        · exact received
    · exact received
  · exact .refl s

theorem ids_endDecode (s : State) : SameIds s s.endDecode := by
  unfold State.endDecode
  split
  · split
    · split
      · exact ids_decodeSucceeds s _ _
      · exact (SameIds.of_touches (touches_raise s .corrupt)).trans (ids_decodeFails _ _)
    · exact .refl s
  · exact .refl s

theorem ids_land (s : State) (k : SlotIx) (ref : PartRef) (part : Part) : SameIds s (s.land k ref part) := by
  have landed : SameIds s (((s.putSlot k ((s.slot k).write part.pixels)).putOpenList (moveToTail s.asm.openList k)).updPart ref
      fun q => { q with progress := .complete }) :=
    (SameIds.of_port (s := s) (t := (s.putSlot k _).putOpenList _) rfl).trans (ids_updPart _ ref _)
  unfold State.land
  dsimp only
  split
  · exact landed.trans (.of_touches (touches_sealCall _ k))
  · exact landed

theorem ids_hold (s : State) (ref : PartRef) (part : Part) : SameIds s (s.hold ref part) := by
  have held : SameIds s ((s.putHeld (s.asm.held ++ [⟨ref, part.tile⟩])).updPart ref fun q => { q with progress := .proceeding }) :=
    (SameIds.of_touches (touches_putHeld s _)).trans (ids_updPart _ ref _)
  unfold State.hold
  dsimp only
  split
  · exact held
  · exact held.trans (.of_touches (touches_sealCall _ _))

theorem ids_takeWrite (s : State) (ref : PartRef) : SameIds s (s.takeWrite ref) := by
  unfold State.takeWrite
  split
  · exact .refl s
  · split
    · exact ids_updPart s ref _
    · split
      · exact ids_land s _ ref _
      · split
        · exact (SameIds.of_touches (touches_openSlot s _ _)).trans (ids_land _ _ ref _)
        · exact ids_hold s ref _

theorem ids_takeRead (s : State) (ref : PartRef) : SameIds s (s.takeRead ref) := by
  unfold State.takeRead
  split
  · exact .refl s
  · dsimp only
    split
    · exact ids_updPart s ref _
    · split
      · exact (SameIds.of_touches (touches_useMapTile s _)).trans (ids_updPart _ ref _)
      · exact (SameIds.of_touches (touches_joinDecode s _ _)).trans (ids_updPart _ ref _)

theorem ids_grantHeld {s t : State} (h : s.grantHeld = some t) : SameIds s t := by
  unfold State.grantHeld at h
  split at h
  · next held rest k isHeld free =>
    cases h
    have opened : SameIds s ((s.putHeld rest).openSlot k held.tile) :=
      (SameIds.of_touches (touches_putHeld s rest)).trans (.of_touches (touches_openSlot _ k _))
    cases ((s.putHeld rest).openSlot k held.tile).part held.ref with
    | none => exact opened
    | some part => exact opened.trans (ids_land _ k held.ref part)
  · cases h

theorem ids_proceedNext {s t : State} (h : s.proceedNext = some t) : SameIds s t := by
  obtain ⟨⟨ref, isWrite⟩, -, rfl⟩ := Option.map_eq_some_iff.1 h
  have proceeding : SameIds s (s.updPart ref fun p => { p with progress := .proceeding }) := ids_updPart s ref _
  dsimp only
  split
  · exact proceeding.trans (ids_takeWrite _ ref)
  · exact proceeding.trans (ids_takeRead _ ref)

theorem ids_closePort (s : State) (a : ApIx) : SameIds s (s.closePort a) := by
  refine ⟨?_, rfl, rfl⟩
  show (s.port.window.map (Request.retire a)).map Request.id = _
  rw [List.map_map]
  refine List.map_congr_left fun r _ => ?_
  rw [Function.comp, Request.retire]
  split <;> rfl

theorem ids_startClose (s : State) (a : ApIx) : SameIds s (s.startClose a) :=
  ((SameIds.of_touches ((touches_putAp s a { s.ap a with state := .retiring }).andThen (C := [.aps, .asm, .st])
    (touches_closeSlots _ a))).trans (ids_closePort _ a)).trans
    (.of_touches ((touches_closeReadPath _ a).andThen (C := [.map, .rd, .st]) (touches_setMap _ _)))

theorem ids_runClose (s : State) (ap : BitVec 3) (zero : BitVec 5) (b2 : Byte) : SameIds s (s.execute (.close ap zero b2)) := by
  rcases runClose_cases s (.close ap zero b2) ap zero b2 with ⟨k, refused⟩ | ⟨-, -, started⟩
  · rw [State.execute, refused]
    exact .of_port rfl
  · rw [State.execute, started]
    exact (ids_startClose s _).trans (.of_port rfl)

/-! ### A request enters or leaves -/

section
variable {s t : State}

/-- The take of a request: its number is the next one (R152). -/
theorem takeBus_cases (h : s.takeBus = some t) : ∃ q rest, s.port.busHeld = q :: rest ∧ s.resetLine = false ∧
    s.port.window.length < 32 ∧ t = State.actOnClass
      ((s.setPort { s.port with busHeld := rest, nextId := s.port.nextId + 1 }).putWindow (s.port.window ++ [s.takenRequest q]))
      (s.takenRequest q) := by
  unfold State.takeBus at h
  split at h
  · cases h
  · next q rest bus =>
    split at h
    · cases h
    · next open_ =>
      cases h
      rw [Bool.not_eq_true, State.holdsBus, Bool.or_eq_false_iff] at open_
      exact ⟨q, rest, bus, open_.1, Nat.not_le.1 (of_decide_eq_false open_.2), rfl⟩

theorem port_actOnClass (s : State) (r : Request) : (s.actOnClass r).port.window = s.port.window ∧
    (s.actOnClass r).port.sent = s.port.sent ∧ (s.actOnClass r).port.nextId = s.port.nextId := by
  unfold State.actOnClass
  split <;> exact ⟨rfl, rfl, rfl⟩

theorem port_takeBus (h : s.takeBus = some t) : ∃ q, s.port.window.length < 32 ∧
    t.port.window = s.port.window ++ [s.takenRequest q] ∧ t.port.sent = s.port.sent ∧ t.port.nextId = s.port.nextId + 1 := by
  obtain ⟨q, rest, -, -, room, rfl⟩ := takeBus_cases h
  obtain ⟨window, sent, nextId⟩ := port_actOnClass ((s.setPort { s.port with busHeld := rest, nextId := s.port.nextId + 1 }).putWindow
    (s.port.window ++ [s.takenRequest q])) (s.takenRequest q)
  exact ⟨q, room, window, sent, nextId⟩

theorem port_respond (h : s.respond = some t) : ∃ r rest, s.port.window = r :: rest ∧ r.isComplete = true ∧
    t.port.window = rest ∧ t.port.sent = s.port.sent ++ [r.response] ∧ t.port.nextId = s.port.nextId := by
  unfold State.respond at h
  split at h
  · cases h
  · next r rest window =>
    split at h
    · next complete =>
      cases h
      exact ⟨r, rest, window, complete, rfl, rfl, rfl⟩
    · cases h

/-! ### The window's bound (R152) -/

/-- The window keeps its bound. -/
def State.WindowBounded (s : State) : Prop := s.port.window.length ≤ 32

theorem SameIds.windowBounded (h : SameIds s t) (ok : s.WindowBounded) : t.WindowBounded := by
  have length := congrArg List.length h.ids
  rw [List.length_map, List.length_map] at length
  rwa [State.WindowBounded, length]

theorem windowBounded_takeBus (h : s.takeBus = some t) : t.WindowBounded := by
  obtain ⟨q, room, window, -, -⟩ := port_takeBus h
  rw [State.WindowBounded, window, List.length_append, List.length_singleton]
  exact room

theorem windowBounded_respond (h : s.respond = some t) (ok : s.WindowBounded) : t.WindowBounded := by
  obtain ⟨r, rest, before, -, after, -, -⟩ := port_respond h
  rw [State.WindowBounded, before, List.length_cons] at ok
  rw [State.WindowBounded, after]
  exact Nat.le_of_succ_le ok

/-! ### The order of the responses (R155) -/

theorem SameIds.responsesInOrder (h : SameIds s t) (ok : s.ResponsesInOrder) : t.ResponsesInOrder := by
  rwa [State.ResponsesInOrder, h.ids, h.sent, h.nextId]

theorem responsesInOrder_takeBus (h : s.takeBus = some t) (ok : s.ResponsesInOrder) : t.ResponsesInOrder := by
  obtain ⟨q, -, window, sent, nextId⟩ := port_takeBus h
  obtain ⟨rises, below⟩ := ok
  rw [State.ResponsesInOrder, window, sent, nextId, List.map_append, ← List.append_assoc]
  refine ⟨List.pairwise_append.2 ⟨rises, List.pairwise_singleton _ _, fun i mem j last => ?_⟩, fun i mem => ?_⟩
  · rw [List.map_singleton, List.mem_singleton] at last
    rw [last]
    exact below i mem
  · rcases List.mem_append.1 mem with old | last
    · exact Nat.lt_succ_of_lt (below i old)
    · rw [List.map_singleton, List.mem_singleton] at last
      rw [last]
      exact Nat.lt_succ_self s.port.nextId

theorem responsesInOrder_respond (h : s.respond = some t) (ok : s.ResponsesInOrder) : t.ResponsesInOrder := by
  obtain ⟨r, rest, before, -, window, sent, nextId⟩ := port_respond h
  have ids : t.port.sent.map Response.id ++ t.port.window.map Request.id =
      s.port.sent.map Response.id ++ s.port.window.map Request.id := by
    rw [window, sent, before, List.map_append, List.append_assoc]
    rfl
  rwa [State.ResponsesInOrder, ids, nextId]

theorem responsesInOrder_of_cleared (window : t.port.window = []) (sent : t.port.sent = s.port.sent)
    (nextId : t.port.nextId = s.port.nextId) (ok : s.ResponsesInOrder) : t.ResponsesInOrder := by
  obtain ⟨rises, below⟩ := ok
  rw [State.ResponsesInOrder, window, sent, nextId, List.map_nil, List.append_nil]
  exact ⟨(List.pairwise_append.1 rises).1, fun i mem => below i (List.mem_append_left _ mem)⟩

end

/-! ### Every step -/

/-- An invariant of the numbers of the requests. -/
theorem kept_of_ids {P : State → Prop} (same : ∀ {s t : State}, SameIds s t → P s → P t)
    (cleared : ∀ {s t : State}, t.port = s.port.cleared → P s → P t)
    (takeBus : ∀ {s t : State}, s.takeBus = some t → P s → P t) (respond : ∀ {s t : State}, s.respond = some t → P s → P t) :
    KeptFrom [.port] P where
  same s t unchanged _ := same (.of_port (unchanged .port (by decide)))
  powerOn _ := cleared rfl
  resetAsserted _ := cleared rfl
  encoder := encoderKeeps_of_apart (D := [.port]) (fun _ _ unchanged => same (.of_port (unchanged .port (by decide)))) rfl
  orders :=
    { close := .inr fun s ap zero b2 => same (ids_runClose s ap zero b2)
      setStatus := fun s field mask => same (.of_touches (touches_runSetStatus s _ field mask)) }
  present := .inr fun s q => same ⟨rfl, rfl, rfl⟩
  passRead := .inr fun s id _ _ _ status data _ => same ((SameIds.of_touches (touches_popOutstanding s)).trans
    (ids_passAnswered _ id status data))
  passWrite := .inr fun s id _ _ _ status data _ => same ((SameIds.of_touches (touches_popOutstanding s)).trans
    (ids_passAnswered _ id status data))
  chunkAnswered := .inr fun s _ _ status data _ => same ((SameIds.of_touches (touches_popOutstanding s)).trans
    (ids_chunkAnswered _ status data))
  endDecode := .inr fun s => same (ids_endDecode s)
  grantHeld := .inr fun _ _ h => same (ids_grantHeld h)
  proceedNext := .inr fun _ _ h => same (ids_proceedNext h)
  respond := .inr fun _ _ => respond
  takeBus := .inr fun _ _ => takeBus

theorem windowBounded_kept : KeptFrom [.port] State.WindowBounded :=
  kept_of_ids SameIds.windowBounded (fun same _ => by rw [State.WindowBounded, same]; exact Nat.zero_le 32)
    (fun h _ => windowBounded_takeBus h) windowBounded_respond

theorem responsesInOrder_kept : KeptFrom [.port] State.ResponsesInOrder :=
  kept_of_ids SameIds.responsesInOrder
    (fun same => responsesInOrder_of_cleared (by rw [same]; rfl) (by rw [same]; rfl) (by rw [same]; rfl))
    responsesInOrder_takeBus responsesInOrder_respond

end Sys2Proof.Machine
end

section
/-! PROOFS. The read path: the bounds of the cache and the decode queue (R136, R144), and the decoder on the head of its queue (R137,
R138, R148). -/

set_option Elab.async false

namespace Sys2Proof.Machine

/-! ### An invariant of the read path through the part -/

/-- A waiter's joining leaves an entry's tile, phase and mark. -/
def Joins (add : DecodeEntry → DecodeEntry) : Prop :=
  ∀ e, (add e).tile = e.tile ∧ (add e).phase = e.phase ∧ (add e).discard = e.discard

theorem joins_reader (ref : PartRef) : Joins fun e => { e with readers := e.readers ++ [ref] } := fun _ => ⟨rfl, rfl, rfl⟩

theorem joins_gather (k : SlotIx) : Joins fun e => { e with gather := some k } := fun _ => ⟨rfl, rfl, rfl⟩

/-- `P` is read from the read path, and the operations that the part's are made of keep it. -/
structure KeptByReads (P : State → Prop) : Prop where
  same : ∀ {s t : State}, P s → t.rd = s.rd → P t
  reset : ∀ {s : State}, s.rd = ReadPath.reset → P s
  useMapTile : ∀ (s : State) (t : TileRef), P s → P (s.useMapTile t)
  joinDecode : ∀ (s : State) (t : TileRef) (add : DecodeEntry → DecodeEntry), Joins add → P s → P (s.joinDecode t add)
  uncache : ∀ (s : State) (t : TileRef), P s → P (s.uncache t)
  insertCache : ∀ (s : State) (t : TileRef) (x : Tile), P s → P (s.insertCache t x)
  movePending : ∀ {s t : State}, s.movePending = some t → P s → P t
  startDecode : ∀ {s t : State}, s.startDecode = some t → P s → P t
  received : ∀ (s : State) (d d1 : Decode), s.rd.decoder = some d → d1.tile = d.tile → P s →
    P (s.setRd { s.rd with decoder := some d1 })
  leaveDecoder : ∀ (s : State) (d : Decode), s.rd.decoder = some d → P s → P s.leaveDecoder
  closeReadPath : ∀ (s : State) (a : ApIx), P s → P (s.closeReadPath a)

theorem foldl_keeps {α : Type} {P : State → Prop} {f : State → α → State} (h : ∀ s x, P s → P (f s x)) (l : List α) {s : State}
    (ok : P s) : P (l.foldl f s) := by
  induction l generalizing s with
  | nil => exact ok
  | cons x xs ih => exact ih (h s x ok)

namespace KeptByReads
variable {P : State → Prop} (kept : KeptByReads P) {s t : State}
include kept

theorem of_touches {B : List Block} (h : OnlyTouches B s t) (k : P s) (apart : Block.rd ∉ B := by decide) : P t :=
  kept.same k (h .rd apart)

theorem startGather (k : SlotIx) (x : TileRef) (ok : P s) : P (s.startGather k x) := by
  unfold State.startGather
  split
  · exact kept.same (kept.useMapTile s x ok) rfl
  · exact kept.joinDecode s x _ (joins_gather k) ok

theorem sealNow (k : SlotIx) (ok : P s) : P (s.sealNow k) := by
  unfold State.sealNow
  dsimp only
  split
  · exact kept.startGather k _ (kept.same ok rfl)
  · exact kept.same ok rfl

theorem sealCall (k : SlotIx) (ok : P s) : P (s.sealCall k) := by
  unfold State.sealCall
  dsimp only
  split
  · exact ok
  · split
    · exact kept.sealNow k ok
    · split
      · exact ok
      · exact kept.same ok rfl

theorem land (k : SlotIx) (ref : PartRef) (part : Part) (ok : P s) : P (s.land k ref part) := by
  unfold State.land
  dsimp only
  split
  · exact kept.sealCall k (kept.same ok rfl)
  · exact kept.same ok rfl

theorem hold (ref : PartRef) (part : Part) (ok : P s) : P (s.hold ref part) := by
  unfold State.hold
  dsimp only
  split
  · exact kept.same ok rfl
  · exact kept.sealCall _ (kept.same ok rfl)

theorem takeWrite (ref : PartRef) (ok : P s) : P (s.takeWrite ref) := by
  unfold State.takeWrite
  split
  · exact ok
  · split
    · exact kept.same ok rfl
    · split
      · exact kept.land _ ref _ ok
      · split
        · exact kept.land _ ref _ (kept.of_touches (touches_openSlot s _ _) ok)
        · exact kept.hold ref _ ok

theorem takeRead (ref : PartRef) (ok : P s) : P (s.takeRead ref) := by
  unfold State.takeRead
  split
  · exact ok
  · dsimp only
    split
    · exact kept.same ok rfl
    · split
      · exact kept.same (kept.useMapTile s _ ok) rfl
      · exact kept.same (kept.joinDecode s _ _ (joins_reader ref) ok) rfl

theorem proceedNext (h : s.proceedNext = some t) (ok : P s) : P t := by
  obtain ⟨⟨ref, isWrite⟩, -, rfl⟩ := Option.map_eq_some_iff.1 h
  have proceeding : P (s.updPart ref fun p => { p with progress := .proceeding }) := kept.same ok rfl
  dsimp only
  split
  · exact kept.takeWrite ref proceeding
  · exact kept.takeRead ref proceeding

theorem grantHeld (h : s.grantHeld = some t) (ok : P s) : P t := by
  unfold State.grantHeld at h
  split at h
  · next held rest k isHeld free =>
    cases h
    have opened : P ((s.putHeld rest).openSlot k held.tile) := kept.same ok rfl
    cases ((s.putHeld rest).openSlot k held.tile).part held.ref with
    | none => exact opened
    | some part => exact kept.land k held.ref part opened
  · cases h

theorem unlinkSuccessor (k : SlotIx) (ok : P s) : P (s.unlinkSuccessor k) := by
  unfold State.unlinkSuccessor
  split
  · exact ok
  · dsimp only
    split
    · exact kept.sealNow _ (kept.same ok rfl)
    · exact kept.same ok rfl

theorem freeEncoding (k : SlotIx) (ok : P s) : P (s.freeEncoding k) := kept.unlinkSuccessor k (kept.same ok rfl)

theorem forceSlots (on : ApIx → Bool) (ok : P s) : P (s.forceSlots on) := by
  have marked : P ((s.slotsWith fun sl => decide (sl.state = .filling) && (sl.tile.elim false fun t => on t.ap)).foldl
      State.markSlot (s.setDraws (s.draws + 1))) :=
    foldl_keeps (f := State.markSlot) (fun _ _ ok => kept.same ok rfl) _ (kept.same ok rfl)
  exact foldl_keeps (fun s k => kept.sealCall k) _ marked

theorem decodeFails (e : DecodeEntry) (d : Decode) (busy : s.rd.decoder = some d) (ok : P s) : P (s.decodeFails e) := by
  have served := (OnlyTouches.foldl _ touches_failReader e.readers s).andThen (C := [.asm, .port, .st])
    (touches_serveGather _ e.gather (flatTile (s.ap e.tile.ap).fill))
  have rd := served .rd (by decide)
  exact kept.leaveDecoder _ d ((congrArg ReadPath.decoder rd).trans busy) (kept.same ok rd)

theorem decodeSucceeds (e : DecodeEntry) (x : Tile) (d : Decode) (busy : s.rd.decoder = some d) (ok : P s) :
    P (s.decodeSucceeds e x) := by
  have served := (OnlyTouches.foldl _ (touches_serveReader x) e.readers (s.insertCache e.tile x)).andThen (C := [.asm, .port, .st])
    (touches_serveGather _ e.gather x)
  have rd := served .rd (by decide)
  exact kept.leaveDecoder _ d ((congrArg ReadPath.decoder rd).trans busy) (kept.same (kept.insertCache s e.tile x ok) rd)

theorem chunkAnswered (status : StoreStatus) (data : List Byte) (ok : P s) : P (s.chunkAnswered status data) := by
  unfold State.chunkAnswered
  split
  · next d e rest busy queue =>
    have tile : (d.receive status data).tile = d.tile := by cases status <;> rfl
    have rd : (s.putDecode (d.receive status data) (decide (status = .error) && !e.discard)).rd =
        { s.rd with decoder := some (d.receive status data) } := by
      unfold State.putDecode
      dsimp only
      split <;> rfl
    have received : P (s.putDecode (d.receive status data) (decide (status = .error) && !e.discard)) :=
      kept.same (kept.received s d _ busy tile ok) rd
    have still := congrArg ReadPath.decoder rd
    dsimp only
    split
    · split
      · exact kept.leaveDecoder _ _ still received
      · split
        · exact kept.decodeFails e _ still received
        · exact received
    · exact received
  · exact ok

theorem endDecode (ok : P s) : P s.endDecode := by
  unfold State.endDecode
  split
  · next d e rest busy queue =>
    split
    · split
      · exact kept.decodeSucceeds e _ d busy ok
      · exact kept.decodeFails (s := s.raise .corrupt) e d busy (kept.same ok rfl)
    · exact ok
  · exact ok

theorem commit (op : TileOp) (r : Result) (ok : P s) : P (s.commit op r) := by
  have released : P ((s.setMap (s.map.commit (s.entryIx op.tile) (r.content op.heldChunks) r.isDegraded)).markStale.release
      (s.entry op.tile).content.chunks) :=
    kept.of_touches ((touches_setMap s _).andThen (C := [.map, .pool, .ctl, .st]) ((touches_markStale _).andThen
      (C := [.pool, .ctl, .st]) (touches_release _ _))) ok
  have cached : P (s.beforeCount op r) := by
    unfold State.beforeCount State.commitCache
    split
    · exact kept.uncache _ _ released
    · exact kept.insertCache _ _ _ (kept.uncache _ _ released)
    · exact kept.insertCache _ _ _ (kept.uncache _ _ released)
  have counted := kept.of_touches (touches_countCommitted _ op.tile.ap (s.entry op.tile).content) cached
  have freed := kept.freeEncoding op.slot (kept.of_touches (touches_putEnc _ Encoder.reset) counted)
  rw [commit_eq_count, State.afterCount]
  split
  · exact kept.same freed rfl
  · exact kept.same freed rfl

theorem startClose (a : ApIx) (ok : P s) : P (s.startClose a) := by
  have before : P (((s.putAp a { s.ap a with state := .retiring }).closeSlots a).closePort a) := kept.same ok rfl
  exact kept.same (kept.closeReadPath _ a before) rfl

theorem encoder : KeptByEncoder P where
  putEnc _ _ ok := kept.same ok rfl
  putPool _ _ _ _ ok := kept.same ok rfl
  setStore _ _ ok := kept.same ok rfl
  raise _ ok := kept.same ok rfl
  addRefits _ _ ok := kept.same ok rfl
  freeEncoding _ k := kept.freeEncoding k
  commit _ op r := kept.commit op r

theorem close (s : State) (ap : BitVec 3) (zero : BitVec 5) (b2 : Byte) (ok : P s) : P (s.execute (.close ap zero b2)) := by
  rcases runClose_cases s (.close ap zero b2) ap zero b2 with ⟨k, refused⟩ | ⟨-, -, started⟩
  · rw [State.execute, refused]
    exact kept.same ok rfl
  · rw [State.execute, started]
    exact kept.same (kept.startClose (apOf ap) ok) rfl

theorem flush (s : State) (all freeze : Bool) (ap zero : BitVec 3) (b2 : Byte) (ok : P s) :
    P (s.execute (.flush all freeze ap zero b2)) := by
  rcases runFlush_cases s (.flush all freeze ap zero b2) all freeze ap zero b2 with
    ⟨k, refused⟩ | ⟨-, -, done⟩ | ⟨-, -, started⟩ | ⟨-, -, started⟩
  · rw [State.execute, refused]
    exact kept.same ok rfl
  · rw [State.execute, done]
    exact kept.same ok rfl
  · rw [State.execute, started]
    exact kept.of_touches (touches_orderStarts _ _) (kept.forceSlots _ ok)
  · rw [State.execute, started]
    have before : P (s.beforeForce (apOf ap) freeze) := by
      unfold State.beforeForce
      split
      · exact kept.same ok rfl
      · exact ok
    exact kept.of_touches (touches_orderStarts _ _) (kept.forceSlots _ before)

/-- Every operation keeps `P`. -/
theorem keptFrom : KeptFrom [.rd] P where
  same _ _ unchanged _ ok := kept.same ok (unchanged .rd (by decide))
  powerOn _ _ := kept.reset rfl
  resetAsserted _ _ := kept.reset rfl
  encoder := kept.encoder.keeps
  orders :=
    { close := .inr kept.close
      flush := .inr kept.flush
      setStatus := fun s field mask => kept.of_touches (touches_runSetStatus s _ field mask) }
  chunkAnswered := .inr fun s _ _ status data _ ok =>
    kept.chunkAnswered status data (kept.of_touches (touches_popOutstanding s) ok)
  endDecode := .inr fun _ => kept.endDecode
  movePending := .inr fun _ _ => kept.movePending
  startDecode := .inr fun _ _ => kept.startDecode
  grantHeld := .inr fun _ _ => kept.grantHeld
  proceedNext := .inr fun _ _ => kept.proceedNext

end KeptByReads

/-! ### The entry that a waiter joins (R136, R137) -/

theorem modifyFirst_of_any {α : Type} {p : α → Bool} (f : α → α) {l : List α} (found : l.any p = true) :
    ∃ before x after, l = before ++ x :: after ∧ p x = true ∧ modifyFirst p f l = before ++ f x :: after := by
  induction l with
  | nil => cases found
  | cons y rest ih =>
    by_cases here : p y = true
    · exact ⟨[], y, rest, rfl, here, if_pos here⟩
    · rw [List.any_cons, Bool.or_eq_true] at found
      obtain ⟨before, x, after, isRest, isP, changed⟩ := ih (found.resolve_left here)
      refine ⟨y :: before, x, after, by rw [isRest]; rfl, isP, ?_⟩
      rw [modifyFirst, if_neg here, changed]
      rfl

/-- A new entry of a tile. -/
def DecodeEntry.newOf (t : TileRef) : DecodeEntry := ⟨t, [], none, .queued, false⟩

/-- A waiter joins the entry or the pending record of its tile, or makes one where there is none. -/
inductive Joined (rd : ReadPath) (t : TileRef) (add : DecodeEntry → DecodeEntry) : ReadPath → Prop where
  | entry (before : List DecodeEntry) (e : DecodeEntry) (after : List DecodeEntry) (isQueue : rd.queue = before ++ e :: after)
      (tile : e.tile = t) (live : e.discard = false) : Joined rd t add { rd with queue := before ++ add e :: after }
  | pending (before : List DecodeEntry) (e : DecodeEntry) (after : List DecodeEntry)
      (isPending : rd.pendingList = before ++ e :: after) (tile : e.tile = t) (live : e.discard = false) :
      Joined rd t add { rd with pendingList := before ++ add e :: after }
  | newEntry (absent : ∀ e ∈ rd.queue ++ rd.pendingList, ¬(e.tile = t ∧ e.discard = false)) (room : rd.queue.length < 288) :
      Joined rd t add { rd with queue := rd.queue ++ [add (.newOf t)] }
  | newPending (absent : ∀ e ∈ rd.queue ++ rd.pendingList, ¬(e.tile = t ∧ e.discard = false)) :
      Joined rd t add { rd with pendingList := rd.pendingList ++ [add (.newOf t)] }

theorem joined (s : State) (t : TileRef) (add : DecodeEntry → DecodeEntry) : Joined s.rd t add (s.joinDecode t add).rd := by
  have none_of {l : List DecodeEntry} (none_joins : ¬(l.any fun e => e.joinable t) = true) :
      ∀ e ∈ l, ¬(e.tile = t ∧ e.discard = false) := fun e mem is =>
    none_joins (List.any_eq_true.2 ⟨e, mem, (joinable_iff e t).2 is⟩)
  unfold State.joinDecode
  split
  · next found =>
    obtain ⟨before, e, after, isQueue, isE, changed⟩ := modifyFirst_of_any add found
    rw [changed]
    exact .entry before e after isQueue ((joinable_iff e t).1 isE).1 ((joinable_iff e t).1 isE).2
  · next noEntry =>
    split
    · next found =>
      obtain ⟨before, e, after, isPending, isE, changed⟩ := modifyFirst_of_any add found
      rw [changed]
      exact .pending before e after isPending ((joinable_iff e t).1 isE).1 ((joinable_iff e t).1 isE).2
    · next noPending =>
      have absent : ∀ e ∈ s.rd.queue ++ s.rd.pendingList, ¬(e.tile = t ∧ e.discard = false) := fun e mem =>
        (List.mem_append.1 mem).elim (none_of noEntry e) (none_of noPending e)
      split
      · next room => exact .newEntry absent room
      · exact .newPending absent

theorem movePending_cases {s t : State} (h : s.movePending = some t) : ∃ e rest, s.rd.pendingList = e :: rest ∧
    s.rd.queue.length < 288 ∧ t.rd = { s.rd with pendingList := rest, queue := s.rd.queue ++ [e] } := by
  unfold State.movePending at h
  split at h
  · cases h
  · next e rest pending =>
    split at h
    · next room =>
      cases h
      exact ⟨e, rest, pending, room, rfl⟩
    · cases h

theorem startDecode_cases {s t : State} (h : s.startDecode = some t) : ∃ e rest d, s.rd.decoder = none ∧
    s.rd.queue = e :: rest ∧ d.tile = e.tile ∧ t.rd = { s.rd with queue := { e with phase := .decoding } :: rest, decoder := some d } := by
  unfold State.startDecode at h
  split at h
  · next e rest idle queue =>
    cases h
    exact ⟨e, rest, ⟨e.tile, s.entry e.tile, [], (s.entry e.tile).content.chunks.length, false⟩, idle, queue, rfl, rfl⟩
  · cases h

/-! ### The bounds of the cache and the queue (R136, R144) -/

/-- The cache and the decode queue keep their bounds. -/
def State.ReadsBounded (s : State) : Prop := s.rd.cache.length ≤ 32 ∧ s.rd.queue.length ≤ 288

theorem length_dropTile_le (l : List CacheEntry) (t : TileRef) : (dropTile l t).length ≤ l.length := List.length_filter_le _ _

/-- The tile of a hit leaves its place. -/
theorem length_dropTile_lt {l : List CacheEntry} {t : TileRef} {x : CacheEntry} (mem : x ∈ l) (tile : x.tile = t) :
    (dropTile l t).length < l.length :=
  List.length_filter_lt_length_iff_exists.2 ⟨x, mem, by rw [tile]; simp⟩

theorem length_evictLru {l : List CacheEntry} (bound : l.length ≤ 32) : (evictLru l).length < 32 := by
  unfold evictLru
  split
  · rw [List.length_tail]
    omega
  · next room => exact Nat.not_le.1 room

theorem readsBounded_useMapTile (s : State) (t : TileRef) (ok : s.ReadsBounded) : (s.useMapTile t).ReadsBounded := by
  unfold State.useMapTile State.touchCache
  split
  · split
    · exact ok
    · next recon hit =>
      obtain ⟨x, found, -⟩ := Option.map_eq_some_iff.1 hit
      have tile : decide (x.tile = t) = true := List.find?_some (p := fun e : CacheEntry => decide (e.tile = t)) found
      have fewer := length_dropTile_lt (List.mem_of_find?_eq_some found) (of_decide_eq_true tile)
      refine ⟨?_, ok.2⟩
      show (dropTile s.rd.cache t ++ [(⟨t, recon⟩ : CacheEntry)]).length ≤ 32
      rw [List.length_append, List.length_singleton]
      exact fewer.trans_le ok.1
  · exact ok

theorem readsBounded_joinDecode (s : State) (t : TileRef) (add : DecodeEntry → DecodeEntry) (ok : s.ReadsBounded) :
    (s.joinDecode t add).ReadsBounded := by
  obtain ⟨cache, queue⟩ := ok
  have joins := joined s t add
  unfold State.ReadsBounded
  generalize (s.joinDecode t add).rd = rd at joins
  cases joins with
  | entry before e after isQueue tile live =>
    refine ⟨cache, ?_⟩
    rw [isQueue, List.length_append, List.length_cons] at queue
    show (before ++ add e :: after).length ≤ 288
    rw [List.length_append, List.length_cons]
    exact queue
  | pending before e after isPending tile live => exact ⟨cache, queue⟩
  | newEntry absent room =>
    refine ⟨cache, ?_⟩
    show (s.rd.queue ++ [add (.newOf t)]).length ≤ 288
    rw [List.length_append, List.length_singleton]
    exact room
  | newPending absent => exact ⟨cache, queue⟩

theorem readsBounded_leaveDecoder (s : State) (ok : s.ReadsBounded) : s.leaveDecoder.ReadsBounded := by
  refine ⟨ok.1, ?_⟩
  show s.rd.queue.tail.length ≤ 288
  rw [List.length_tail]
  exact (Nat.sub_le _ _).trans ok.2

theorem readsBounded_closeReadPath (s : State) (a : ApIx) (ok : s.ReadsBounded) : (s.closeReadPath a).ReadsBounded := by
  have left : (s.closeQueues a).ReadsBounded :=
    ⟨(List.length_filter_le _ _).trans ok.1, (List.length_filterMap_le _ _).trans ok.2⟩
  rcases closeReadPath_cases s a with ⟨ended, -⟩ | ⟨stays, -⟩
  · rw [ended]
    exact readsBounded_leaveDecoder _ left
  · rw [stays]
    exact left

theorem readsBounded_kept : KeptByReads State.ReadsBounded where
  same ok same := by rwa [State.ReadsBounded, same]
  reset cleared := by rw [State.ReadsBounded, cleared]; exact ⟨Nat.zero_le _, Nat.zero_le _⟩
  useMapTile := readsBounded_useMapTile
  joinDecode s t add _ := readsBounded_joinDecode s t add
  uncache s t ok := ⟨(length_dropTile_le _ t).trans ok.1, ok.2⟩
  insertCache s t x ok := by
    refine ⟨?_, ok.2⟩
    show (evictLru (dropTile s.rd.cache t) ++ [(⟨t, x⟩ : CacheEntry)]).length ≤ 32
    rw [List.length_append, List.length_singleton]
    exact length_evictLru ((length_dropTile_le _ t).trans ok.1)
  movePending h ok := by
    obtain ⟨e, rest, -, room, rd⟩ := movePending_cases h
    rw [State.ReadsBounded, rd]
    refine ⟨ok.1, ?_⟩
    rw [List.length_append, List.length_singleton]
    exact room
  startDecode h ok := by
    obtain ⟨e, rest, d, -, queue, -, rd⟩ := startDecode_cases h
    rw [State.ReadsBounded, queue] at ok
    rw [State.ReadsBounded, rd]
    exact ok
  received _ _ _ _ _ ok := ok
  leaveDecoder s _ _ := readsBounded_leaveDecoder s
  closeReadPath := readsBounded_closeReadPath

end Sys2Proof.Machine
end

section
/-! PROOFS. The decoder works on the head of the decode queue, and each tile has one live entry (R136, R137, R138, R148). -/

set_option Elab.async false

namespace Sys2Proof.Machine

/-! ### The decoder and its queue -/

/-- The live entries of some lists: those that are not marked for discard. -/
def liveOf (l : List DecodeEntry) : List DecodeEntry := l.filter fun e => !e.discard

theorem mem_liveOf {l : List DecodeEntry} {e : DecodeEntry} : e ∈ liveOf l ↔ e ∈ l ∧ e.discard = false := by
  rw [liveOf, List.mem_filter, Bool.not_eq_true']

section
variable {s t : State}

theorem decoderOk_idle_iff (idle : s.rd.decoder = none) : s.DecoderOk ↔ (∀ e ∈ s.rd.pendingList, e.Waits) ∧
    (∀ e ∈ s.rd.queue, e.Waits) ∧ ((liveOf (s.rd.queue ++ s.rd.pendingList)).map DecodeEntry.tile).Nodup := by
  unfold State.DecoderOk
  rw [idle]
  exact Iff.rfl

theorem decoderOk_busy_iff {d : Decode} (busy : s.rd.decoder = some d) : s.DecoderOk ↔ (∀ e ∈ s.rd.pendingList, e.Waits) ∧
    (∃ e q, s.rd.queue = e :: q ∧ e.phase = .decoding ∧ e.tile = d.tile ∧
      (e.discard = true → e.readers = [] ∧ e.gather = none) ∧ ∀ x ∈ q, x.Waits) ∧
    ((liveOf (s.rd.queue ++ s.rd.pendingList)).map DecodeEntry.tile).Nodup := by
  unfold State.DecoderOk
  rw [busy]
  exact Iff.rfl

theorem decoderOk_of_same (same : t.rd = s.rd) (ok : s.DecoderOk) : t.DecoderOk := by
  unfold State.DecoderOk at ok ⊢
  rwa [same]

theorem decoderOk_reset (cleared : s.rd = ReadPath.reset) : s.DecoderOk := by
  refine (decoderOk_idle_iff (by rw [cleared]; rfl)).2 ?_
  rw [cleared]
  exact ⟨nofun, nofun, List.nodup_nil⟩

/-! ### Entries that differ in their waiters -/

/-- The second entry is the first, but for the waiters of a live one. -/
def DecodeEntry.Alike (e x : DecodeEntry) : Prop :=
  x.tile = e.tile ∧ x.phase = e.phase ∧ x.discard = e.discard ∧ (e.discard = true → x = e)

theorem DecodeEntry.Alike.refl (e : DecodeEntry) : e.Alike e := ⟨rfl, rfl, rfl, fun _ => rfl⟩

theorem alike_refl (l : List DecodeEntry) : List.Forall₂ DecodeEntry.Alike l l := List.forall₂_same.2 fun e _ => .refl e

theorem alike_join {add : DecodeEntry → DecodeEntry} (joins : Joins add) {e : DecodeEntry} (live : e.discard = false)
    (before after : List DecodeEntry) : List.Forall₂ DecodeEntry.Alike (before ++ e :: after) (before ++ add e :: after) := by
  obtain ⟨tile, phase, discard⟩ := joins e
  refine List.rel_append (alike_refl before) (.cons ⟨tile, phase, discard, fun is => ?_⟩ (alike_refl after))
  rw [live] at is
  cases is

theorem waits_of_alike {l m : List DecodeEntry} (alike : List.Forall₂ DecodeEntry.Alike l m) (waits : ∀ e ∈ l, e.Waits) :
    ∀ e ∈ m, e.Waits := by
  induction alike with
  | nil => exact nofun
  | @cons e x l m is _ ih =>
    obtain ⟨-, phase, discard, -⟩ := is
    obtain ⟨⟨queued, live⟩, rest⟩ := List.forall_mem_cons.1 waits
    exact List.forall_mem_cons.2 ⟨⟨phase.trans queued, discard.trans live⟩, ih rest⟩

theorem tiles_of_alike {l m : List DecodeEntry} (alike : List.Forall₂ DecodeEntry.Alike l m) :
    (liveOf m).map DecodeEntry.tile = (liveOf l).map DecodeEntry.tile := by
  induction alike with
  | nil => rfl
  | @cons e x l m is _ ih =>
    obtain ⟨tile, -, discard, -⟩ := is
    cases live : e.discard with
    | true =>
      rw [liveOf, liveOf, List.filter_cons_of_neg (by rw [discard, live]; decide),
        List.filter_cons_of_neg (by rw [live]; decide)]
      exact ih
    | false =>
      rw [liveOf, liveOf, List.filter_cons_of_pos (by rw [discard, live]; decide),
        List.filter_cons_of_pos (by rw [live]; decide), List.map_cons, List.map_cons, tile]
      exact congrArg _ ih

/-- Lists of alike entries under a decoder at the same tile. -/
theorem decoderOk_of_alike (queue : List.Forall₂ DecodeEntry.Alike s.rd.queue t.rd.queue)
    (pending : List.Forall₂ DecodeEntry.Alike s.rd.pendingList t.rd.pendingList)
    (decoder : t.rd.decoder.map Decode.tile = s.rd.decoder.map Decode.tile) (ok : s.DecoderOk) : t.DecoderOk := by
  have tiles := tiles_of_alike (List.rel_append queue pending)
  cases busy : s.rd.decoder with
  | none =>
    rw [busy, Option.map_none, Option.map_eq_none_iff] at decoder
    obtain ⟨waits, queued, nodup⟩ := (decoderOk_idle_iff busy).1 ok
    exact (decoderOk_idle_iff decoder).2 ⟨waits_of_alike pending waits, waits_of_alike queue queued, by rwa [tiles]⟩
  | some d =>
    rw [busy, Option.map_some, Option.map_eq_some_iff] at decoder
    obtain ⟨d1, busy1, sameTile⟩ := decoder
    obtain ⟨waits, ⟨e, q, isQueue, decoding, tile, dropped, queued⟩, nodup⟩ := (decoderOk_busy_iff busy).1 ok
    rw [isQueue] at queue
    obtain ⟨x, r, ⟨tileX, phaseX, discardX, sameX⟩, rest, isT⟩ := List.forall₂_cons_left_iff.1 queue
    refine (decoderOk_busy_iff busy1).2 ⟨waits_of_alike pending waits, ⟨x, r, isT, phaseX.trans decoding,
      tileX.trans (tile.trans sameTile.symm), fun marked => ?_, waits_of_alike rest queued⟩, by rwa [tiles]⟩
    rw [discardX] at marked
    rw [sameX marked]
    exact dropped marked

/-! ### What each operation of the read path leaves -/

/-- One new live tile more. -/
theorem nodup_liveOf_new {l m : List DecodeEntry} {x : DecodeEntry} (perm : m.Perm (x :: l))
    (absent : ∀ e ∈ l, ¬(e.tile = x.tile ∧ e.discard = false)) (nodup : ((liveOf l).map DecodeEntry.tile).Nodup) :
    ((liveOf m).map DecodeEntry.tile).Nodup := by
  refine ((perm.filter _).map _).nodup_iff.2 ?_
  cases live : x.discard with
  | true =>
    rw [List.filter_cons_of_neg (by rw [live]; decide)]
    exact nodup
  | false =>
    rw [List.filter_cons_of_pos (by rw [live]; decide), List.map_cons]
    refine List.nodup_cons.2 ⟨fun mem => ?_, nodup⟩
    obtain ⟨e, memL, tile⟩ := List.mem_map.1 mem
    exact absent e (mem_liveOf.1 memL).1 ⟨tile, (mem_liveOf.1 memL).2⟩

theorem decoderOk_joinDecode (x : TileRef) {add : DecodeEntry → DecodeEntry} (joins : Joins add) (ok : s.DecoderOk) :
    (s.joinDecode x add).DecoderOk := by
  obtain ⟨tile, phase, discard⟩ := joins (.newOf x)
  have waits : (add (.newOf x)).Waits := ⟨phase, discard⟩
  have isJoined := joined s x add
  obtain ⟨rd, isRd⟩ : ∃ rd, (s.joinDecode x add).rd = rd := ⟨_, rfl⟩
  rw [isRd] at isJoined
  cases isJoined with
  | entry before e after isQueue _ live =>
    refine decoderOk_of_alike ?_ ?_ (by rw [isRd]) ok
    · rw [isRd, isQueue]
      exact alike_join joins live before after
    · rw [isRd]
      exact alike_refl _
  | pending before e after isPending _ live =>
    refine decoderOk_of_alike ?_ ?_ (by rw [isRd]) ok
    · rw [isRd]
      exact alike_refl _
    · rw [isRd, isPending]
      exact alike_join joins live before after
  | newEntry absent room =>
    rw [← show (add (.newOf x)).tile = x from tile] at absent
    have perm : (s.rd.queue ++ [add (.newOf x)] ++ s.rd.pendingList).Perm (add (.newOf x) :: (s.rd.queue ++ s.rd.pendingList)) := by
      rw [List.append_assoc]
      exact List.perm_middle
    cases busy : s.rd.decoder with
    | none =>
      obtain ⟨pending, queued, nodup⟩ := (decoderOk_idle_iff busy).1 ok
      refine (decoderOk_idle_iff (by rw [isRd]; exact busy)).2 ?_
      rw [isRd]
      exact ⟨pending, List.forall_mem_append.2 ⟨queued, List.forall_mem_singleton.2 waits⟩, nodup_liveOf_new perm absent nodup⟩
    | some d =>
      obtain ⟨pending, ⟨e, q, isQueue, decoding, isTile, dropped, queued⟩, nodup⟩ := (decoderOk_busy_iff busy).1 ok
      refine (decoderOk_busy_iff (by rw [isRd]; exact busy)).2 ?_
      rw [isRd]
      exact ⟨pending, ⟨e, q ++ [add (.newOf x)], by rw [isQueue]; rfl, decoding, isTile, dropped,
        List.forall_mem_append.2 ⟨queued, List.forall_mem_singleton.2 waits⟩⟩, nodup_liveOf_new perm absent nodup⟩
  | newPending absent =>
    rw [← show (add (.newOf x)).tile = x from tile] at absent
    have perm : (s.rd.queue ++ (s.rd.pendingList ++ [add (.newOf x)])).Perm
        (add (.newOf x) :: (s.rd.queue ++ s.rd.pendingList)) := by
      rw [← List.append_assoc]
      exact List.perm_append_singleton _ _
    cases busy : s.rd.decoder with
    | none =>
      obtain ⟨pending, queued, nodup⟩ := (decoderOk_idle_iff busy).1 ok
      refine (decoderOk_idle_iff (by rw [isRd]; exact busy)).2 ?_
      rw [isRd]
      exact ⟨List.forall_mem_append.2 ⟨pending, List.forall_mem_singleton.2 waits⟩, queued, nodup_liveOf_new perm absent nodup⟩
    | some d =>
      obtain ⟨pending, head, nodup⟩ := (decoderOk_busy_iff busy).1 ok
      refine (decoderOk_busy_iff (by rw [isRd]; exact busy)).2 ?_
      rw [isRd]
      exact ⟨List.forall_mem_append.2 ⟨pending, List.forall_mem_singleton.2 waits⟩, head, nodup_liveOf_new perm absent nodup⟩

theorem decoderOk_movePending (h : s.movePending = some t) (ok : s.DecoderOk) : t.DecoderOk := by
  obtain ⟨e, rest, isPending, -, rd⟩ := movePending_cases h
  have order : s.rd.queue ++ [e] ++ rest = s.rd.queue ++ s.rd.pendingList := by
    rw [isPending, List.append_assoc]
    rfl
  cases busy : s.rd.decoder with
  | none =>
    obtain ⟨pending, queued, nodup⟩ := (decoderOk_idle_iff busy).1 ok
    rw [isPending] at pending
    obtain ⟨waits, left⟩ := List.forall_mem_cons.1 pending
    refine (decoderOk_idle_iff (by rw [rd]; exact busy)).2 ?_
    rw [rd, order]
    exact ⟨left, List.forall_mem_append.2 ⟨queued, List.forall_mem_singleton.2 waits⟩, nodup⟩
  | some d =>
    obtain ⟨pending, ⟨x, q, isQueue, decoding, tile, dropped, queued⟩, nodup⟩ := (decoderOk_busy_iff busy).1 ok
    rw [isPending] at pending
    obtain ⟨waits, left⟩ := List.forall_mem_cons.1 pending
    refine (decoderOk_busy_iff (by rw [rd]; exact busy)).2 ?_
    rw [rd, order]
    exact ⟨left, ⟨x, q ++ [e], by rw [isQueue]; rfl, decoding, tile, dropped,
      List.forall_mem_append.2 ⟨queued, List.forall_mem_singleton.2 waits⟩⟩, nodup⟩

theorem decoderOk_startDecode (h : s.startDecode = some t) (ok : s.DecoderOk) : t.DecoderOk := by
  obtain ⟨e, rest, d, idle, isQueue, tile, rd⟩ := startDecode_cases h
  obtain ⟨pending, queued, nodup⟩ := (decoderOk_idle_iff idle).1 ok
  rw [isQueue] at queued nodup
  obtain ⟨⟨-, live⟩, waits⟩ := List.forall_mem_cons.1 queued
  refine (decoderOk_busy_iff (d := d) (by rw [rd])).2 ?_
  rw [rd]
  refine ⟨pending, ⟨_, rest, rfl, rfl, tile.symm, fun marked => ?_, waits⟩, ?_⟩
  · have marked : e.discard = true := marked
    rw [live] at marked
    cases marked
  · rw [List.cons_append, liveOf, List.filter_cons_of_pos (by rw [live]; decide)] at nodup ⊢
    exact nodup

theorem decoderOk_leaveDecoder {d : Decode} (busy : s.rd.decoder = some d) (ok : s.DecoderOk) : s.leaveDecoder.DecoderOk := by
  obtain ⟨pending, ⟨e, q, isQueue, -, -, -, queued⟩, nodup⟩ := (decoderOk_busy_iff busy).1 ok
  have tail : s.rd.queue.tail = q := by rw [isQueue]; rfl
  refine (decoderOk_idle_iff rfl).2 ⟨pending, fun x mem => queued x (tail ▸ mem), ?_⟩
  exact nodup.sublist ((((List.tail_sublist s.rd.queue).append (List.Sublist.refl _)).filter _).map _)

/-! ### The start of a CLOSE (R148, R149) -/

theorem closed_of_waits (a : ApIx) {e : DecodeEntry} (waits : e.Waits) :
    DecodeEntry.closed a e = if e.tile.ap ≠ a then some e else none := by
  rw [DecodeEntry.closed, waits.1]

/-- What is left of an entry has its tile, and is the entry itself or marked. -/
theorem of_closed {a : ApIx} {e x : DecodeEntry} (left : DecodeEntry.closed a e = some x) :
    (x = e ∧ e.tile.ap ≠ a) ∨ (e.tile.ap = a ∧ e.phase = .decoding ∧ x = { e with readers := [], gather := none, discard := true }) := by
  unfold DecodeEntry.closed at left
  split at left
  · next other =>
    cases left
    exact .inl ⟨rfl, other⟩
  · next ofAp =>
    split at left
    · cases left
    · next decoding =>
      cases left
      exact .inr ⟨not_not.1 ofAp, decoding, rfl⟩

theorem waits_closed {a : ApIx} {l : List DecodeEntry} (waits : ∀ e ∈ l, e.Waits) :
    ∀ x ∈ l.filterMap (DecodeEntry.closed a), x.Waits := by
  intro x mem
  obtain ⟨e, memL, left⟩ := List.mem_filterMap.1 mem
  rcases of_closed left with ⟨rfl, -⟩ | ⟨-, decoding, -⟩
  · exact waits x memL
  · rw [(waits e memL).1] at decoding
    cases decoding

theorem liveOf_closed_sublist (a : ApIx) (l : List DecodeEntry) :
    ((liveOf (l.filterMap (DecodeEntry.closed a))).map DecodeEntry.tile).Sublist ((liveOf l).map DecodeEntry.tile) := by
  induction l with
  | nil => exact .slnil
  | cons e rest ih =>
    have grows : ((liveOf rest).map DecodeEntry.tile).Sublist ((liveOf (e :: rest)).map DecodeEntry.tile) :=
      ((List.sublist_cons_self e rest).filter _).map _
    cases left : DecodeEntry.closed a e with
    | none =>
      rw [List.filterMap_cons_none left]
      exact ih.trans grows
    | some x =>
      rw [List.filterMap_cons_some left]
      rcases of_closed left with ⟨rfl, -⟩ | ⟨-, -, rfl⟩
      · cases live : x.discard with
        | true =>
          rw [liveOf, List.filter_cons_of_neg (by rw [live]; decide)]
          exact ih.trans grows
        | false =>
          rw [liveOf, liveOf, List.filter_cons_of_pos (by rw [live]; decide), List.filter_cons_of_pos (by rw [live]; decide)]
          exact ih.cons_cons x.tile
      · rw [liveOf, List.filter_cons_of_neg Bool.false_ne_true]
        exact ih.trans grows

theorem decoderOk_closeQueues (a : ApIx) (ok : s.DecoderOk) : (s.closeQueues a).DecoderOk := by
  have nodupOf (nodup : ((liveOf (s.rd.queue ++ s.rd.pendingList)).map DecodeEntry.tile).Nodup) :
      ((liveOf ((s.closeQueues a).rd.queue ++ (s.closeQueues a).rd.pendingList)).map DecodeEntry.tile).Nodup := by
    refine nodup.sublist ?_
    rw [liveOf, liveOf, List.filter_append, List.filter_append, List.map_append, List.map_append]
    exact (liveOf_closed_sublist a s.rd.queue).append ((List.filter_sublist.filter _).map _)
  have pendingOf (pending : ∀ e ∈ s.rd.pendingList, e.Waits) : ∀ e ∈ (s.closeQueues a).rd.pendingList, e.Waits :=
    fun e mem => pending e (List.mem_of_mem_filter mem)
  cases busy : s.rd.decoder with
  | none =>
    obtain ⟨pending, queued, nodup⟩ := (decoderOk_idle_iff busy).1 ok
    exact (decoderOk_idle_iff (s := s.closeQueues a) busy).2 ⟨pendingOf pending, waits_closed queued, nodupOf nodup⟩
  | some d =>
    obtain ⟨pending, ⟨e, q, isQueue, decoding, tile, dropped, queued⟩, nodup⟩ := (decoderOk_busy_iff busy).1 ok
    refine (decoderOk_busy_iff (s := s.closeQueues a) busy).2 ⟨pendingOf pending, ?_, nodupOf nodup⟩
    have left : ∃ x, DecodeEntry.closed a e = some x ∧ x.phase = .decoding ∧ x.tile = d.tile ∧
        (x.discard = true → x.readers = [] ∧ x.gather = none) := by
      unfold DecodeEntry.closed
      split
      · exact ⟨e, rfl, decoding, tile, dropped⟩
      · rw [decoding]
        exact ⟨_, rfl, rfl, tile, fun _ => ⟨rfl, rfl⟩⟩
    obtain ⟨x, stays, phaseX, tileX, droppedX⟩ := left
    refine ⟨x, q.filterMap (DecodeEntry.closed a), ?_, phaseX, tileX, droppedX, waits_closed queued⟩
    show s.rd.queue.filterMap (DecodeEntry.closed a) = _
    rw [isQueue, List.filterMap_cons_some stays]

theorem decoderOk_closeReadPath (a : ApIx) (ok : s.DecoderOk) : (s.closeReadPath a).DecoderOk := by
  have left := decoderOk_closeQueues a ok
  rcases closeReadPath_cases s a with ⟨ended, d, busy, -, -⟩ | ⟨stays, -⟩
  · rw [ended]
    exact decoderOk_leaveDecoder (d := d) busy left
  · rw [stays]
    exact left

end

theorem decoderOk_of_queues {s t : State} (queue : t.rd.queue = s.rd.queue) (pending : t.rd.pendingList = s.rd.pendingList)
    (decoder : t.rd.decoder.map Decode.tile = s.rd.decoder.map Decode.tile) (ok : s.DecoderOk) : t.DecoderOk :=
  decoderOk_of_alike (by rw [queue]; exact alike_refl _) (by rw [pending]; exact alike_refl _) decoder ok

theorem decoderOk_useMapTile (s : State) (t : TileRef) (ok : s.DecoderOk) : (s.useMapTile t).DecoderOk := by
  unfold State.useMapTile State.touchCache
  split
  · split
    · exact ok
    · exact decoderOk_of_queues rfl rfl rfl ok
  · exact ok

theorem decoderOk_kept : KeptByReads State.DecoderOk where
  same ok same := decoderOk_of_same same ok
  reset := decoderOk_reset
  useMapTile := decoderOk_useMapTile
  joinDecode s x add joins := decoderOk_joinDecode x joins
  uncache _ _ := decoderOk_of_queues rfl rfl rfl
  insertCache _ _ _ := decoderOk_of_queues rfl rfl rfl
  movePending := decoderOk_movePending
  startDecode := decoderOk_startDecode
  received s d d1 busy tile := by
    refine decoderOk_of_queues rfl rfl ?_
    rw [busy]
    exact congrArg some tile
  leaveDecoder _ _ := decoderOk_leaveDecoder
  closeReadPath _ a := decoderOk_closeReadPath a

end Sys2Proof.Machine
end

section
/-! PROOFS. The FREE slots are blank (R56, R73). -/

set_option Elab.async false

namespace Sys2Proof.Machine

/-! ### Changes of slots -/

/-- A slot with nothing in it (R56, R73). -/
def Slot.Blank (sl : Slot) : Prop := sl.tile = none ∧ sl.present = 0 ∧ sl.pred = none ∧ sl.due = false ∧ sl.mark = false

theorem blank_freed (sl : Slot) : sl.freed.Blank := ⟨rfl, rfl, rfl, rfl, rfl⟩

section
variable {s t : State} {k : SlotIx}

theorem slot_of_same_asm (same : t.asm = s.asm) (k : SlotIx) : t.slot k = s.slot k := by
  rw [State.slot, same]
  rfl

theorem freeBlank_of_same (same : t.asm = s.asm) (ok : s.FreeSlotsBlank) : t.FreeSlotsBlank := fun k free => by
  rw [slot_of_same_asm same] at free ⊢
  exact ok k free

theorem freeBlank_of_touches {B : List Block} (h : OnlyTouches B s t) (ok : s.FreeSlotsBlank)
    (apart : Block.asm ∉ B := by decide) : t.FreeSlotsBlank := freeBlank_of_same (h .asm apart) ok

/-- One slot changes, and is blank if it is FREE. -/
theorem freeBlank_of_others (others : ∀ j, j ≠ k → t.slot j = s.slot j) (self : (t.slot k).state = .free → (t.slot k).Blank)
    (ok : s.FreeSlotsBlank) : t.FreeSlotsBlank := fun j free => by
  by_cases same : j = k
  · rw [same] at free ⊢
    exact self free
  · rw [others j same] at free ⊢
    exact ok j free

theorem freeBlank_putSlot {x : Slot} (self : x.state = .free → x.Blank) (ok : s.FreeSlotsBlank) : (s.putSlot k x).FreeSlotsBlank := by
  refine freeBlank_of_others (k := k) (fun j other => slot_putSlot_other s k j x other) ?_ ok
  rw [slot_putSlot_same]
  exact self

theorem freeBlank_sealNow (k : SlotIx) (ok : s.FreeSlotsBlank) : (s.sealNow k).FreeSlotsBlank := by
  obtain ⟨-, -, -, -, -, others⟩ := sealNow_lists s k
  obtain ⟨px, present, state, sealed, slot⟩ := slot_sealNow s k
  refine freeBlank_of_others (k := k) others (fun free => ?_) ok
  rw [slot] at free
  rcases sealed with rfl | rfl <;> cases free

theorem freeBlank_sealCall (k : SlotIx) (ok : s.FreeSlotsBlank) : (s.sealCall k).FreeSlotsBlank := by
  by_cases filling : (s.slot k).state = .filling
  · by_cases noPred : (s.slot k).pred = none
    · rw [sealCall_of_no_pred filling noPred]
      exact freeBlank_sealNow k ok
    · rw [sealCall_of_pred filling noPred]
      split
      · exact ok
      · refine freeBlank_of_others (k := k) (fun j => slot_makeSealDue_other s) (fun free => ?_) ok
        rw [slot_makeSealDue_same] at free
        cases filling.symm.trans free
  · rwa [sealCall_of_not_filling filling]

theorem slot_landed (s : State) (k : SlotIx) (ref : PartRef) (ps : List PartPixel) (j : SlotIx) :
    (s.landed k ref ps).slot j = if j = k then (s.slot k).write ps else s.slot j :=
  slot_of_slots_set (congrArg Assembly.slots (asm_landed s k ref ps)) j

theorem freeBlank_land (ref : PartRef) (part : Part) (occupied : (s.slot k).state ≠ .free) (ok : s.FreeSlotsBlank) :
    (s.land k ref part).FreeSlotsBlank := by
  have landed : (s.landed k ref part.pixels).FreeSlotsBlank := by
    refine freeBlank_of_others (k := k) (fun j other => ?_) (fun free => ?_) ok
    · rw [slot_landed, if_neg other]
    · rw [slot_landed, if_pos rfl] at free
      exact absurd free occupied
  rw [land_eq]
  split
  · exact freeBlank_sealCall k landed
  · exact landed

theorem slot_openSlot_other {j : SlotIx} (x : TileRef) (other : j ≠ k) : (s.openSlot k x).slot j = s.slot j :=
  slot_putSlot_other s k j _ other

theorem state_openSlot (s : State) (k : SlotIx) (x : TileRef) : ((s.openSlot k x).slot k).state = .filling := by
  rw [slot_openSlot]
  rfl

theorem freeBlank_openSlot (k : SlotIx) (x : TileRef) (ok : s.FreeSlotsBlank) : (s.openSlot k x).FreeSlotsBlank :=
  freeBlank_of_others (k := k) (fun _ => slot_openSlot_other x) (fun free => by
    rw [state_openSlot] at free
    cases free) ok

theorem freeBlank_land_openSlot (k : SlotIx) (x : TileRef) (ref : PartRef) (part : Part) (ok : s.FreeSlotsBlank) :
    ((s.openSlot k x).land k ref part).FreeSlotsBlank :=
  freeBlank_land ref part (by rw [state_openSlot]; nofun) (freeBlank_openSlot k x ok)

theorem freeBlank_hold (ref : PartRef) (part : Part) (ok : s.FreeSlotsBlank) : (s.hold ref part).FreeSlotsBlank := by
  have held : ((s.putHeld (s.asm.held ++ [⟨ref, part.tile⟩])).updPart ref fun q =>
      { q with progress := .proceeding }).FreeSlotsBlank := ok
  unfold State.hold
  dsimp only
  split
  · exact held
  · exact freeBlank_sealCall _ held

theorem freeBlank_takeWrite (ref : PartRef) (ok : s.FreeSlotsBlank) : (s.takeWrite ref).FreeSlotsBlank := by
  unfold State.takeWrite
  split
  · exact ok
  · split
    · exact freeBlank_of_touches (touches_updPart s _ _) ok
    · split
      · next filling =>
        obtain ⟨⟨isFilling, -⟩, -⟩ := (fillingSlot_some_iff s _ _).1 filling
        exact freeBlank_land _ _ (by rw [isFilling]; nofun) ok
      · split
        · exact freeBlank_land_openSlot _ _ _ _ ok
        · exact freeBlank_hold _ _ ok

theorem freeBlank_grantHeld (h : s.grantHeld = some t) (ok : s.FreeSlotsBlank) : t.FreeSlotsBlank := by
  unfold State.grantHeld at h
  split at h
  · next held rest k isHeld free =>
    cases h
    have dropped : (s.putHeld rest).FreeSlotsBlank := ok
    cases ((s.putHeld rest).openSlot k held.tile).part held.ref with
    | none => exact freeBlank_openSlot k held.tile dropped
    | some part => exact freeBlank_land_openSlot k held.tile held.ref part dropped
  · cases h

theorem freeBlank_proceedNext (h : s.proceedNext = some t) (ok : s.FreeSlotsBlank) : t.FreeSlotsBlank := by
  obtain ⟨⟨ref, isWrite⟩, -, rfl⟩ := Option.map_eq_some_iff.1 h
  have proceeding : (s.updPart ref fun p => { p with progress := .proceeding }).FreeSlotsBlank := ok
  dsimp only
  split
  · exact freeBlank_takeWrite ref proceeding
  · exact freeBlank_of_touches (touches_takeRead _ ref) proceeding

theorem freeBlank_freeEncoding (k : SlotIx) (ok : s.FreeSlotsBlank) : (s.freeEncoding k).FreeSlotsBlank := by
  have freed : (s.putSlot k (s.slot k).freed).FreeSlotsBlank := freeBlank_putSlot (fun _ => blank_freed _) ok
  rcases freeEncoding_cases s k with ⟨alone, -⟩ | ⟨j, other, pred, successor⟩
  · rw [alone]
    exact freed
  · have unlinked : (s.unlinked k j).FreeSlotsBlank := by
      refine freeBlank_putSlot (fun free => ?_) freed
      obtain ⟨-, -, noPred, -, -⟩ := ok j free
      rw [pred] at noPred
      cases noPred
    rw [successor]
    split
    · exact freeBlank_sealNow j unlinked
    · exact unlinked

theorem freeBlank_forceSlots (on : ApIx → Bool) (ok : s.FreeSlotsBlank) : (s.forceSlots on).FreeSlotsBlank := by
  have marked : ((s.slotsWith fun sl => sl.isForced on).foldl State.markSlot (s.setDraws (s.draws + 1))).FreeSlotsBlank := by
    intro j free
    rw [slot_foldl_markSlot] at free ⊢
    split at free
    · next forced =>
      obtain ⟨filling, -⟩ := (Slot.isForced_iff _ on).1 (mem_slotsWith.1 forced)
      cases filling.symm.trans free
    · next apart =>
      rw [if_neg apart]
      exact ok j free
  exact foldl_keeps (fun _ k => freeBlank_sealCall k) _ marked

theorem freeBlank_clearMarks (ok : s.FreeSlotsBlank) : s.clearMarks.FreeSlotsBlank := fun k free => by
  rw [slot_clearMarks] at free ⊢
  obtain ⟨tile, present, pred, due, -⟩ := ok k free
  exact ⟨tile, present, pred, due, rfl⟩

theorem freeBlank_closeSlots (a : ApIx) (ok : s.FreeSlotsBlank) : (s.closeSlots a).FreeSlotsBlank := fun k free => by
  rw [slot_closeSlots] at free ⊢
  split at free
  · next closable =>
    rw [if_pos closable]
    exact blank_freed _
  · next stays =>
    rw [if_neg stays]
    exact ok k free

/-- HALT leaves the slots, or clears their marks (R77, R180). -/
theorem slot_haltNow_cases (s : State) : (∀ k, s.haltNow.slot k = s.slot k) ∨ ∀ k, s.haltNow.slot k = s.clearMarks.slot k := by
  by_cases flush : ∃ all freeze ap zero b2, s.ord.executing = some (.flush all freeze ap zero b2)
  · obtain ⟨all, freeze, ap, zero, b2, executing⟩ := flush
    right
    intro k
    rw [slot_haltNow_of_flush executing, slot_clearMarks]
  · left
    intro k
    refine slot_of_same_asm ?_ k
    rw [asm_haltNow]
    unfold State.haltExecuting
    split
    · rfl
    · next o executing =>
      split
      · exact absurd ⟨_, _, _, _, _, executing⟩ flush
      all_goals rfl

theorem freeBlank_haltNow (ok : s.FreeSlotsBlank) : s.haltNow.FreeSlotsBlank := by
  rcases slot_haltNow_cases s with same | cleared
  · intro k free
    rw [same] at free ⊢
    exact ok k free
  · intro k free
    rw [cleared] at free ⊢
    exact freeBlank_clearMarks ok k free

theorem freeBlank_serveGather (g : Option SlotIx) (x : Tile) (ok : s.FreeSlotsBlank) : (s.serveGather g x).FreeSlotsBlank := by
  unfold State.serveGather
  split
  · exact ok
  · exact freeBlank_putSlot nofun ok

theorem freeBlank_decodeSucceeds (e : DecodeEntry) (x : Tile) (ok : s.FreeSlotsBlank) : (s.decodeSucceeds e x).FreeSlotsBlank := by
  have served : (e.readers.foldl (State.serveReader x) (s.insertCache e.tile x)).FreeSlotsBlank :=
    freeBlank_of_touches (OnlyTouches.foldl _ (touches_serveReader x) _ _) (s := s.insertCache e.tile x) ok
  exact freeBlank_serveGather e.gather x served

theorem freeBlank_decodeFails (e : DecodeEntry) (ok : s.FreeSlotsBlank) : (s.decodeFails e).FreeSlotsBlank :=
  freeBlank_serveGather e.gather _ (freeBlank_of_touches (OnlyTouches.foldl _ touches_failReader e.readers s) ok)

theorem freeBlank_chunkAnswered (status : StoreStatus) (data : List Byte) (ok : s.FreeSlotsBlank) :
    (s.chunkAnswered status data).FreeSlotsBlank := by
  unfold State.chunkAnswered
  split
  · next d e rest busy queue =>
    have received : (s.putDecode (d.receive status data) (decide (status = .error) && !e.discard)).FreeSlotsBlank :=
      freeBlank_of_touches (touches_putDecode _ _ _) ok
    dsimp only
    split
    · split
      · exact received
      · split
        · exact freeBlank_decodeFails e received
        · exact received
    · exact received
  · exact ok

theorem freeBlank_endDecode (ok : s.FreeSlotsBlank) : s.endDecode.FreeSlotsBlank := by
  unfold State.endDecode
  split
  · split
    · split
      · exact freeBlank_decodeSucceeds _ _ ok
      · exact freeBlank_decodeFails (s := s.raise .corrupt) _ ok
    · exact ok
  · exact ok

theorem freeBlank_takeSealed (h : s.takeSealed = some t) (ok : s.FreeSlotsBlank) : t.FreeSlotsBlank := by
  unfold State.takeSealed at h
  split at h
  · split at h
    · cases h
      exact freeBlank_putSlot (s := s.putSealQueue _) nofun ok
    · cases h
  · cases h

theorem freeBlank_of_cleared (h : t.asm = s.asm.cleared) : t.FreeSlotsBlank := fun k _ => by
  have slot : t.slot k = (s.slot k).freed := by
    rw [State.slot, h]
    exact vecMap_get _ _ k
  rw [slot]
  exact blank_freed _

theorem freeBlank_commit (op : TileOp) (r : Result) (ok : s.FreeSlotsBlank) : (s.commit op r).FreeSlotsBlank := by
  have freed : (s.afterFree op r).FreeSlotsBlank := freeBlank_freeEncoding op.slot (freeBlank_of_same (asm_beforeFree s op r) ok)
  exact freeBlank_of_same (asm_commit s op r) freed

theorem freeBlank_encoder : KeptByEncoder State.FreeSlotsBlank where
  putEnc _ _ ok := ok
  putPool _ _ _ _ ok := ok
  setStore _ _ ok := ok
  raise _ ok := ok
  addRefits _ _ ok := ok
  freeEncoding _ k ok := freeBlank_freeEncoding k ok
  commit _ op r ok := freeBlank_commit op r ok

theorem freeBlank_close (s : State) (ap : BitVec 3) (zero : BitVec 5) (b2 : Byte) (ok : s.FreeSlotsBlank) :
    (s.execute (.close ap zero b2)).FreeSlotsBlank := by
  rcases runClose_cases s (.close ap zero b2) ap zero b2 with ⟨k, refused⟩ | ⟨-, -, started⟩
  · rw [State.execute, refused]
    exact ok
  · have closed : ((s.putAp (apOf ap) { s.ap (apOf ap) with state := .retiring }).closeSlots (apOf ap)).FreeSlotsBlank :=
      freeBlank_closeSlots (s := s.putAp _ _) _ ok
    have rest : (s.closeBlocksOf (apOf ap)).FreeSlotsBlank :=
      freeBlank_of_touches ((touches_closePort _ (apOf ap)).andThen (C := [.port, .rd, .st]) (touches_closeReadPath _ _)) closed
    rw [State.execute, started, startClose_eq]
    exact rest

theorem freeBlank_flush (s : State) (all freeze : Bool) (ap zero : BitVec 3) (b2 : Byte) (ok : s.FreeSlotsBlank) :
    (s.execute (.flush all freeze ap zero b2)).FreeSlotsBlank := by
  rcases runFlush_cases s (.flush all freeze ap zero b2) all freeze ap zero b2 with
    ⟨k, refused⟩ | ⟨-, -, done⟩ | ⟨-, -, started⟩ | ⟨-, -, started⟩
  · rw [State.execute, refused]
    exact ok
  · rw [State.execute, done]
    exact ok
  · rw [State.execute, started]
    exact freeBlank_of_touches (touches_orderStarts _ _) (freeBlank_forceSlots _ ok)
  · rw [State.execute, started]
    have before : (s.beforeForce (apOf ap) freeze).FreeSlotsBlank := by
      unfold State.beforeForce
      split <;> exact ok
    exact freeBlank_of_touches (touches_orderStarts _ _) (freeBlank_forceSlots _ before)

end

theorem freeBlank_kept : KeptFrom [.asm] State.FreeSlotsBlank where
  same _ _ unchanged _ := freeBlank_of_same (unchanged .asm (by decide))
  powerOn s _ := freeBlank_of_cleared (s := s) rfl
  resetAsserted s _ := freeBlank_of_cleared (s := s) rfl
  encoder := freeBlank_encoder.keeps
  orders :=
    { close := .inr freeBlank_close
      flush := .inr freeBlank_flush
      setStatus := fun s field mask => freeBlank_of_touches (touches_runSetStatus s _ field mask)
      haltNow := .inr fun _ => freeBlank_haltNow }
  chunkAnswered := .inr fun s _ _ status data _ ok =>
    freeBlank_chunkAnswered status data (freeBlank_of_touches (touches_popOutstanding s) ok)
  endDecode := .inr fun _ => freeBlank_endDecode
  grantHeld := .inr fun _ _ => freeBlank_grantHeld
  proceedNext := .inr fun _ _ => freeBlank_proceedNext
  takeSealed := .inr fun _ _ => freeBlank_takeSealed

end Sys2Proof.Machine
end

section
/-! PROOFS. The invariants after power-on, and what every step keeps of them: the bounds, but neither `BuffersOk` nor `Sound` as they
are stated. Both read the pass-through requests of the composer source's list and of the outstanding list, and no other list of the
store port; so they hold of a part whose decoder list holds a pass-through request that no window request has made, and a turn moves
that request to the outstanding list. -/

set_option Elab.async false

namespace Sys2Proof.Machine

/-! ### A part as power-on leaves it, but for the store port -/

/-- The blocks that the invariants read, but the store port, are as after power-on, and no chunk write is under way. -/
structure State.FreshButStore (s : State) : Prop where
  aps : s.aps = Vector.replicate 8 Aperture.reset
  map : s.map = TileMap.reset
  pool : s.pool = Pool.reset
  asm : s.asm = Assembly.reset
  enc : s.enc = Encoder.reset
  rd : s.rd = ReadPath.reset
  port : s.port = ComposerPort.reset
  executing : s.ord.executing = none
  noWrites : (s.store.composer ++ s.store.decoder ++ s.store.encoder ++ s.store.status) ++ s.store.outstanding |>.all
    fun q => !q.isChunkWrite

namespace State.FreshButStore
variable {s : State} (fresh : s.FreshButStore)
include fresh

theorem ap (a : ApIx) : s.ap a = Aperture.reset := by
  rw [State.ap, fresh.aps]
  exact Vector.getElem_replicate ..

theorem slot (k : SlotIx) : s.slot k = Slot.reset := by
  rw [State.slot, fresh.asm]
  exact Vector.getElem_replicate ..

theorem mapOk : s.MapOk := by
  rw [State.MapOk, fresh.map]
  exact reset_map_wf

theorem extentsOk : s.ExtentsOk := extentsOk_of_cleared fresh.aps fresh.map fresh.executing

theorem freeSlotsBlank : s.FreeSlotsBlank := fun k _ => by
  rw [fresh.slot]
  exact ⟨rfl, rfl, rfl, rfl, rfl⟩

theorem responsesInOrder : s.ResponsesInOrder := by
  rw [State.ResponsesInOrder, fresh.port]
  exact ⟨.nil, nofun⟩

theorem not_isChunkWrite {q : StoreReq}
    (mem : q ∈ (s.store.composer ++ s.store.decoder ++ s.store.encoder ++ s.store.status) ++ s.store.outstanding) :
    q.isChunkWrite = false := by simpa using List.all_eq_true.1 fresh.noWrites q mem

theorem waitOk : s.WaitOk := by
  have none_out : s.writesOut = 0 :=
    List.countP_eq_zero.2 fun q mem => by rw [fresh.not_isChunkWrite mem]; exact Bool.false_ne_true
  rw [State.WaitOk, none_out, fresh.enc, fresh.pool]
  exact ⟨iff_of_false nofun nofun, iff_of_false nofun nofun, rfl⟩

theorem slotsOk : s.SlotsOk := by
  have blank := fresh.freeSlotsBlank
  have free (k : SlotIx) : (s.slot k).state = .free := by rw [fresh.slot]; rfl
  have isNot {k : SlotIx} {x : SlotState} (is : (s.slot k).state = x) (other : x ≠ .free := by decide) : False :=
    other (is.symm.trans (free k))
  have notOther {k : SlotIx} : ¬(s.slot k).IsOther := fun is => is.elim (isNot ·) (·.elim (isNot ·) (isNot ·))
  have openList : s.asm.openList = [] := by rw [fresh.asm]; rfl
  have sealQueue : s.asm.sealQueue = [] := by rw [fresh.asm]; rfl
  have idle : s.enc.op = none := by rw [fresh.enc]; rfl
  have noEntry : s.rd.queue ++ s.rd.pendingList = [] := by rw [fresh.rd]; rfl
  have noPred (k : SlotIx) : (s.slot k).pred = none := by rw [fresh.slot]; rfl
  have noDue (k : SlotIx) : (s.slot k).due = false := by rw [fresh.slot]; rfl
  rw [State.SlotsOk, openList, sealQueue, idle, noEntry]
  refine ⟨.nil, fun k => ⟨nofun, fun is => (isNot is.1).elim⟩, .nil, fun k => ⟨nofun, fun is => (is.elim (isNot ·) (isNot ·)).elim⟩,
    blank, fun k is => absurd (free k) is, fun k _ => noPred k, fun k is => ?_, fun k _ is => (isNot is).elim,
    fun k _ is => absurd is notOther, fun k _ is => (isNot is).elim, fun k is => (is.elim (isNot ·) (isNot ·)).elim,
    fun k => ⟨fun is => (isNot is).elim, nofun⟩, nofun, nofun, fun k is => (isNot is).elim⟩
  rw [noDue] at is
  cases is

/-- What the window, the held writes and the queues name is in order where there is none of them, and no pass-through request. -/
theorem buffersOk (noPass : s.store.composer ++ s.store.outstanding = []) : s.BuffersOk := by
  have window : s.port.window = [] := by rw [fresh.port]; rfl
  have held : s.asm.held = [] := by rw [fresh.asm]; rfl
  have noEntry : s.rd.queue ++ s.rd.pendingList = [] := by rw [fresh.rd]; rfl
  refine ⟨⟨fresh.responsesInOrder, ?_⟩, decoderOk_reset fresh.rd, fresh.slotsOk⟩
  rw [window, held, noEntry, noPass]
  exact ⟨nofun, fun before r after is => absurd is (by simp), .nil, nofun, nofun, nofun⟩

theorem tilesOk : s.TilesOk := by
  refine ⟨fun a live => absurd (by rw [fresh.ap]; rfl) live, fun k t is => ?_, ?_, ?_, ?_⟩
  · rw [fresh.slot] at is
    cases is
  · rw [fresh.port]
    nofun
  · rw [fresh.map]
    exact fun i other => absurd rfl other
  · rw [fresh.map]
    nofun

theorem chunksOk : s.ChunksOk := by
  have none_written : s.beingWritten = [] := by
    refine List.filterMap_eq_nil_iff.2 fun q mem => ?_
    have other := fresh.not_isChunkWrite mem
    cases q with
    | chunkWrite => cases other
    | _ => rfl
  rw [State.ChunksOk, none_written, State.heldChunks, fresh.enc, fresh.pool, fresh.map]
  exact ⟨.nil, nofun, .nil, nofun⟩

theorem sound (noPass : s.store.composer ++ s.store.outstanding = []) : s.Sound :=
  ⟨fresh.mapOk, fresh.waitOk, fresh.extentsOk, fresh.buffersOk noPass, fresh.tilesOk, fresh.chunksOk⟩

end State.FreshButStore

/-! ### After power-on -/

theorem fresh_reset : State.reset.FreshButStore := ⟨rfl, rfl, rfl, rfl, rfl, rfl, rfl, rfl, rfl⟩

/-- Settles O60: every block is in its power-on state, with no aperture, no slot in use and no request anywhere. -/
theorem invariantsHoldAtReset : Obligations.InvariantsHoldAtReset := by
  have fresh := fresh_reset
  refine ⟨figures_of_cleared rfl rfl rfl rfl, fresh.mapOk, ?_, bounded_reset, receiverOk_fresh (state := .deaf) rfl,
    fresh.freeSlotsBlank, fresh.waitOk, fresh.extentsOk, fresh.responsesInOrder, decoderOk_reset rfl, fresh.buffersOk rfl,
    fresh.sound rfl, regionsOk_of_cleared rfl rfl rfl⟩
  unfold State.ListsBounded
  decide

/-! ### What every step keeps -/

/-- Every step keeps the bounds, the FREE slots blank, the responses in order and the decoder on the head of its queue: all that
`Obligations.StepKeepsTheBounds` asks for but `BuffersOk`. -/
theorem step_keeps_the_bounds_but_buffersOk {s t : State} (h : step s = .next t) :
    (s.ListsBounded → t.ListsBounded) ∧ (s.StepsOk → t.StepsOk) ∧ (s.ReceiverOk → t.ReceiverOk) ∧
      (s.FreeSlotsBlank → t.FreeSlotsBlank) ∧ (s.ResponsesInOrder → t.ResponsesInOrder) ∧ (s.DecoderOk → t.DecoderOk) := by
  refine ⟨fun ⟨window, queue, reads⟩ => ?_, (stepsOk_kept.step · h), (receiverOk_kept.step · h), (freeBlank_kept.step · h),
    (responsesInOrder_kept.step · h), (decoderOk_kept.keptFrom.step · h)⟩
  exact ⟨windowBounded_kept.step window h, queueBounded_kept.step queue h, readsBounded_kept.keptFrom.step reads h⟩

/-! ### What a turn of the page store can break -/

/-- The part after power-on, with a pass-through read in the decoder's list of the store port, and a turn to come. -/
def State.misfiled : State :=
  { State.reset with store := { StorePort.reset with decoder := [.passRead 0 0 1] }, pending := [.storeTurn] }

/-- The part after that turn: the read is outstanding. -/
def State.misfiledTurned : State :=
  { State.reset with store := { StorePort.reset with outstanding := [.passRead 0 0 1], pointer := .encoder } }

theorem step_misfiled : step State.misfiled = .next State.misfiledTurned := rfl

theorem sound_misfiled : State.misfiled.Sound :=
  State.FreshButStore.sound ⟨rfl, rfl, rfl, rfl, rfl, rfl, rfl, rfl, rfl⟩ rfl

/-- No request has been taken, so none has the number of the outstanding read. -/
theorem not_buffersOk_misfiledTurned : ¬State.misfiledTurned.BuffersOk := by
  intro ⟨⟨_, _, _, _, _, _, passes⟩, _⟩
  exact Nat.not_lt_zero 0 (passes (.passRead 0 0 1) List.mem_cons_self 0 rfl).1

/-- Refutes O58: `BuffersOk` says nothing of the decoder's list of the store port. On a part after power-on with a pass-through
read in that list, a turn makes the read outstanding, though no window request has its number. -/
theorem not_stepKeepsTheBounds : ¬Obligations.StepKeepsTheBounds := by
  intro kept
  obtain ⟨-, -, -, -, -, -, buffers⟩ := kept State.misfiled State.misfiledTurned step_misfiled
  obtain ⟨-, -, -, buffersOk, -⟩ := sound_misfiled
  exact not_buffersOk_misfiledTurned (buffers buffersOk)

/-- Refutes O59, by the state that refutes O58: all that `Sound` asks for holds of it, and a turn breaks `BuffersOk`. -/
theorem not_stepKeepsTheWaitInPoolWait : ¬Obligations.StepKeepsTheWaitInPoolWait := by
  intro ⟨_, kept⟩
  obtain ⟨-, -, -, buffersOk, -⟩ := kept State.misfiled State.misfiledTurned sound_misfiled step_misfiled
  exact not_buffersOk_misfiledTurned buffersOk

end Sys2Proof.Machine
end
